-- ==== Sys2Proof/Word.lean ====
section
/-! DEFINITION. The byte type and the one update of the fixed-size tables the records are kept in. -/

namespace Sys2Proof

/-- One byte of a frame on the host link or on a printer link. -/
abbrev Byte := BitVec 8

/-- One place of a fixed-size table replaced by its image. -/
def updAt {α : Type} {n : Nat} (v : Vector α n) (i : Fin n) (f : α → α) : Vector α n :=
  v.set i (f v[i])

end Sys2Proof
end

