-- ==== Sys2Proof/Syntax.lean ====
section
/-! DEFINITION. The commands of the MD24: one constructor of `Instr` per row of spec/opcode_table.json.
A request row carries the requesting position and the request's fields as they stand in the frame (plain numbers,
whatever their range); an event row carries what the event brings with it. -/

namespace Sys2Proof

/-- A byte of the host line as it reaches the receiver (R159): whole, or with its stop bit missing. -/
inductive LineByte where
  | whole (b : Byte)
  | framingError
  deriving DecidableEq, Repr, Inhabited

/-- The whole bytes of a stretch of the host line. -/
def wholeBytes : List LineByte → List Byte
  | [] => []
  | .whole b :: rest => b :: wholeBytes rest
  | .framingError :: rest => wholeBytes rest

/-- Where a request comes from (00_scope.md, Terms; R112): position 0 is the console, positions 1..15 are windows.
Window `w` is position `w + 1`. -/
inductive Position where
  | console
  | window (w : Fin 15)
  deriving DecidableEq, Repr, Inhabited

/-- A field entry of LAYOUT k as a WRITE SETTING carries it (R77, R79), not yet checked. -/
structure RawField where
  kind   : Nat
  slot   : Nat
  row    : Nat
  column : Nat
  width  : Nat
  size   : Nat
  stripe : Nat
  deriving DecidableEq, Repr, Inhabited

/-- The levels of the strap pins when a reset samples them (R159, chapter 11 Straps). -/
structure Straps where
  unit   : Fin 4
  rate   : Fin 4
  fitted : Fin 8
  deriving DecidableEq, Repr, Inhabited

/-- Why a print was spoiled (R31). -/
inductive SpoilCause where
  | misfeed | stripe | jam | cutter
  deriving DecidableEq, Repr, Inhabited

/-- The outcome a reply reports, with its cause (R31). The pairs R189 calls impossible are not values of the type. -/
inductive PrintOutcome where
  | done
  | spoiled (cause : SpoilCause)
  | notFed
  | binEmpty
  deriving DecidableEq, Repr, Inhabited

/-- TAKEN or REFUSED, for the command a reply answers (R31). -/
inductive Acceptance where
  | taken | refused
  deriving DecidableEq, Repr, Inhabited

/-- The printer's own condition (R31). -/
inductive Condition where
  | ready | jam | cutter | coverOpen | headHot
  deriving DecidableEq, Repr, Inhabited

/-- What a printer senses of one bin (R28, R31). -/
structure BinSense where
  present : Bool
  low     : Bool
  deriving DecidableEq, Repr, Inhabited

/-- A printer reply whose CRC and fields are good (R31, chapter 11 Reply body). -/
structure PrinterReply where
  answers     : Byte
  outcomeOf   : Byte
  outcome     : PrintOutcome
  acceptance  : Acceptance
  condition   : Condition
  temperature : Nat
  senseA      : BinSense
  senseB      : BinSense
  deriving DecidableEq, Repr, Inhabited

/-- What a reply to IDENT adds (R28, R31). -/
structure Identity where
  typeCode   : Nat
  headWidth  : Nat
  stripe     : Bool
  bins       : Nat
  deriving DecidableEq, Repr, Inhabited

/-- The commands: the requests of the host link, and the events that reach the part from the link, the printer ports,
the reset inputs, the flash and the seconds clock. Printers 1..6 are `Fin 6` in the events (printer `p + 1`). -/
inductive Instr where
  /-- R56. -/
  | issueTicket (pos : Position) (stockType routing copies value tender : Nat) (slots : List (List Byte))
  /-- R70. -/
  | cancelJob (pos : Position) (tag : Nat)
  /-- R71: part 0 is RECORD, 1 is TEXTS. -/
  | readJob (pos : Position) (tag part : Nat)
  /-- R72. -/
  | voidTicket (pos : Position) (serial stockType target : Nat)
  /-- R74. -/
  | refund (pos : Position) (value tender : Nat)
  /-- R166 with repeat no. The field is carried as received, so that a value that is neither yes nor no is told apart. -/
  | fetchNotice (pos : Position) (repeatField : Nat)
  /-- R166 with repeat yes. -/
  | fetchNoticeRepeat (pos : Position)
  /-- R19: destination 0 is STORE, 1..6 printer bin A, 7..12 printer bin B. -/
  | loadPack (pos : Position) (packId stockType first count direction destination : Nat)
  /-- R20. -/
  | movePack (pos : Position) (packId destination : Nat)
  /-- R21. -/
  | writeOffPack (pos : Position) (packId : Nat)
  /-- R22. -/
  | retirePack (pos : Position) (packId : Nat)
  /-- R23. -/
  | readPack (pos : Position) (packId index : Nat)
  /-- R23: selection 0 is a filter, 1 is DOUBTFUL; 255 in the filter's stock type or location stands for any. -/
  | listPacks (pos : Position) (selection stockType location start : Nat)
  /-- R16 with ruling ISSUED (0). A ruling outside the list is carried by this row too. -/
  | resolveDoubtfulIssued (pos : Position) (packId serial ruling : Nat)
  /-- R16 with ruling SPOILED (1). -/
  | resolveDoubtfulSpoiled (pos : Position) (packId serial : Nat)
  /-- R25. -/
  | stockCheck (pos : Position)
  /-- R44: on is 1. An on field that is neither yes nor no is carried by this row too. -/
  | powerPrinterOn (pos : Position) (printer onField : Nat)
  /-- R48: on is 0. -/
  | powerPrinterOff (pos : Position) (printer : Nat)
  /-- R49. -/
  | disablePrinter (pos : Position) (printer : Nat)
  /-- R50. -/
  | enablePrinter (pos : Position) (printer : Nat)
  /-- R51. -/
  | readPrinter (pos : Position) (printer : Nat)
  /-- R98. -/
  | resumePrinter (pos : Position) (printer : Nat)
  /-- R102. -/
  | reportFault (pos : Position) (printer note withdraw : Nat)
  /-- R103. -/
  | closeFault (pos : Position) (number : Nat)
  /-- R106: selection 0 is ALL, 1 is OPEN. -/
  | readFaults (pos : Position) (fromNumber selection : Nat)
  /-- R107. -/
  | faultCounts (pos : Position) (printer : Nat)
  /-- R116: grade 0 RELIEF, 1 CLERK, 2 SUPERVISOR. -/
  | openShift (pos : Position) (target clerk grade float : Nat)
  /-- R117. -/
  | suspendPosition (pos : Position) (target : Nat)
  /-- R118. -/
  | resumePosition (pos : Position) (target clerk : Nat)
  /-- R119. -/
  | cashLift (pos : Position) (target amount : Nat)
  /-- R120. -/
  | closeShift (pos : Position) (target : Nat)
  /-- R123. -/
  | reopenShift (pos : Position) (target : Nat)
  /-- R126: part 0 RECORD, 1 TALLIES, 2 DECLARED, 3 ISSUES. -/
  | readPosition (pos : Position) (target part index : Nat)
  /-- R142, R143. -/
  | declare (pos : Position) (target : Nat) (counts : Vector Nat 12) (card voucher warrant : Nat)
  /-- R151. -/
  | signOffShift (pos : Position) (target supervisor : Nat)
  /-- R156. -/
  | readShift (pos : Position) (number : Nat)
  /-- R157. -/
  | collectShift (pos : Position) (number : Nat)
  /-- R175, for every item but LAYOUT: 0 OFFICE, 1 DENOMINATIONS, 2 STOCK TYPE, 4 POSITION, 5 PRINTER. -/
  | readSetting (pos : Position) (item index : Nat)
  /-- R82, R175 for LAYOUT k. -/
  | readSettingLayout (pos : Position) (index : Nat)
  /-- R176 for OFFICE (item 0). A WRITE SETTING whose item is unknown is carried by this row too. -/
  | writeSettingOffice (pos : Position) (item index code unit tolerance limit : Nat)
  /-- R176 for DENOMINATIONS. -/
  | writeSettingDenominations (pos : Position) (index : Nat) (faces : Vector Nat 12)
  /-- R1, R176 for STOCK TYPE k. -/
  | writeSettingStockType (pos : Position) (index defined numbered striped digits threshold : Nat)
  /-- R79, R176 for LAYOUT k. -/
  | writeSettingLayout (pos : Position) (index : Nat) (fields : List RawField)
  /-- R113, R176 for POSITION p: the sets as bytes, bit n for printer n or stock type n (R188). -/
  | writeSettingPosition (pos : Position) (index printerSet stockSet enabled : Nat)
  /-- R176 for PRINTER p. -/
  | writeSettingPrinter (pos : Position) (index enabled hold resume : Nat)
  /-- R178: area 1 or 2. -/
  | saveSettings (pos : Position) (area : Nat)
  /-- R179: area 1, 2, or 3 for factory. -/
  | loadSettings (pos : Position) (area : Nat)
  /-- R180. -/
  | restoreFactory (pos : Position) (area : Nat)
  /-- R181. -/
  | openOffice (pos : Position) (date : List Byte)
  /-- R182. -/
  | closeOffice (pos : Position)
  /-- R183. -/
  | setTime (pos : Position) (seconds : Nat)
  /-- R184. -/
  | clearAudit (pos : Position)
  /-- R160. -/
  | setLinkRate (pos : Position) (rate : Nat)
  /-- R163. -/
  | restart (pos : Position)
  /-- R172. -/
  | identify (pos : Position)
  /-- R162: the bytes of a complete frame, start byte first; bytes with a framing error may stand among them (R159). -/
  | frameCheckFailed (line : List LineByte)
  /-- R161: the bytes of a frame that gets no reply; bytes with a framing error may stand among them (R159). -/
  | frameDiscarded (line : List LineByte)
  /-- R161: the bytes that stood before a gap over 20 ms; bytes with a framing error may stand among them (R159). -/
  | gapTimeout (line : List LineByte)
  /-- R160: the last byte of the SET LINK RATE reply has left. -/
  | linkRateChange
  /-- R185, R186: the strap levels sampled, and whether the battery held the retained memory while the supply was off. -/
  | powerOn (straps : Straps) (retainedHeld : Bool)
  /-- R185. -/
  | resetPin (straps : Straps)
  /-- R163, R185: the last byte of the RESTART reply has left. -/
  | restartReset (straps : Straps)
  /-- R32: a reply to a PRINT, a POLL or a CLEAR. -/
  | printerReply (printer : Fin 6) (reply : PrinterReply)
  /-- R45: a reply to an IDENT. -/
  | identReply (printer : Fin 6) (reply : PrinterReply) (identity : Identity)
  /-- R31, R189: the bytes of a reply frame that fails a test. -/
  | printerReplyDiscarded (printer : Fin 6) (bytes : List Byte)
  /-- R189: the bytes that stood before a gap over 20 ms inside a reply. -/
  | printerReplyGap (printer : Fin 6) (bytes : List Byte)
  /-- R39. -/
  | replyTimeout (printer : Fin 6)
  /-- R44, R46. -/
  | identTimeout (printer : Fin 6)
  /-- R37. -/
  | pollInterval (printer : Fin 6)
  /-- R44, R46. -/
  | identInterval (printer : Fin 6)
  /-- R183. -/
  | clockTick
  /-- R178: whether the area read back as written. -/
  | saveComplete (readBackOk : Bool)
  /-- R179. -/
  | loadComplete
  /-- R180: whether the area read back as written. -/
  | restoreComplete (readBackOk : Bool)
  /-- R161. -/
  | replyLastByteLeft
  deriving DecidableEq, Repr

end Sys2Proof
end

