-- ==== Sys2Proof/WellFormed.lean ====
section
/-! DEFINITION. Which commands a frame or an event can bring: every field within the bytes chapter 11 gives it, every
frame within the body limit of 240 bytes (R161), and a selector field on the row that carries its value. -/

namespace Sys2Proof

/-- A one-byte field (R188). -/
def fits1 (n : Nat) : Bool := decide (n < 256)

/-- A two-byte field (R188). -/
def fits2 (n : Nat) : Bool := decide (n < 65536)

/-- A three-byte field (R188). -/
def fits3 (n : Nat) : Bool := decide (n < 16777216)

/-- A four-byte field (R188). -/
def fits4 (n : Nat) : Bool := decide (n < 4294967296)

/-- The seven one-byte fields of a layout entry. -/
def RawField.fits (f : RawField) : Bool :=
  fits1 f.kind && fits1 f.slot && fits1 f.row && fits1 f.column && fits1 f.width && fits1 f.size && fits1 f.stripe

/-- The texts of ISSUE TICKET in a body of at most 240 bytes: 8 bytes, then a length byte and the characters of each. -/
def slotsFit (slots : List (List Byte)) : Bool :=
  decide (8 + (slots.map (fun t => 1 + t.length)).sum ≤ 240)

/-- A request or an event that can reach the part. -/
def Instr.wellFormed : Instr → Bool
  | .issueTicket _ stockType routing copies value tender slots =>
      fits1 stockType && fits1 routing && fits1 copies && fits3 value && fits1 tender && slotsFit slots
  | .cancelJob _ tag => fits2 tag
  | .readJob _ tag part => fits2 tag && fits1 part
  | .voidTicket _ serial stockType target => fits4 serial && fits1 stockType && fits1 target
  | .refund _ value tender => fits3 value && fits1 tender
  | .fetchNotice _ repeatField => fits1 repeatField && decide (repeatField ≠ 1)
  | .fetchNoticeRepeat _ => true
  | .loadPack _ packId stockType first count direction destination =>
      fits2 packId && fits1 stockType && fits4 first && fits2 count && fits1 direction && fits1 destination
  | .movePack _ packId destination => fits2 packId && fits1 destination
  | .writeOffPack _ packId => fits2 packId
  | .retirePack _ packId => fits2 packId
  | .readPack _ packId index => fits2 packId && fits1 index
  | .listPacks _ selection stockType location start =>
      fits1 selection && fits1 stockType && fits1 location && fits2 start
  | .resolveDoubtfulIssued _ packId serial ruling =>
      fits2 packId && fits4 serial && fits1 ruling && decide (ruling ≠ 1)
  | .resolveDoubtfulSpoiled _ packId serial => fits2 packId && fits4 serial
  | .stockCheck _ => true
  | .powerPrinterOn _ printer onField => fits1 printer && fits1 onField && decide (onField ≠ 0)
  | .powerPrinterOff _ printer => fits1 printer
  | .disablePrinter _ printer => fits1 printer
  | .enablePrinter _ printer => fits1 printer
  | .readPrinter _ printer => fits1 printer
  | .resumePrinter _ printer => fits1 printer
  | .reportFault _ printer note withdraw => fits1 printer && fits1 note && fits1 withdraw
  | .closeFault _ number => fits2 number
  | .readFaults _ fromNumber selection => fits2 fromNumber && fits1 selection
  | .faultCounts _ printer => fits1 printer
  | .openShift _ target clerk grade float => fits1 target && fits2 clerk && fits1 grade && fits3 float
  | .suspendPosition _ target => fits1 target
  | .resumePosition _ target clerk => fits1 target && fits2 clerk
  | .cashLift _ target amount => fits1 target && fits3 amount
  | .closeShift _ target => fits1 target
  | .reopenShift _ target => fits1 target
  | .readPosition _ target part index => fits1 target && fits1 part && fits1 index
  | .declare _ target counts card voucher warrant =>
      fits1 target && counts.toList.all fits2 && fits4 card && fits4 voucher && fits4 warrant
  | .signOffShift _ target supervisor => fits1 target && fits2 supervisor
  | .readShift _ number => fits2 number
  | .collectShift _ number => fits2 number
  | .readSetting _ item index => fits1 item && fits1 index && decide (item ≠ 3)
  | .readSettingLayout _ index => fits1 index
  | .writeSettingOffice _ item index code unit tolerance limit =>
      fits1 item && fits1 index && fits2 code && fits1 unit && fits2 tolerance && fits3 limit &&
        (decide (item = 0) || decide (6 ≤ item ∧ code = 0 ∧ unit = 0 ∧ tolerance = 0 ∧ limit = 0))
  | .writeSettingDenominations _ index faces => fits1 index && faces.toList.all fits3
  | .writeSettingStockType _ index defined numbered striped digits threshold =>
      fits1 index && fits1 defined && fits1 numbered && fits1 striped && fits1 digits && fits2 threshold
  | .writeSettingLayout _ index fields => fits1 index && decide (fields.length ≤ 33) && fields.all RawField.fits
  | .writeSettingPosition _ index printerSet stockSet enabled =>
      fits1 index && fits1 printerSet && fits1 stockSet && fits1 enabled
  | .writeSettingPrinter _ index enabled hold resume => fits1 index && fits1 enabled && fits1 hold && fits1 resume
  | .saveSettings _ area => fits1 area
  | .loadSettings _ area => fits1 area
  | .restoreFactory _ area => fits1 area
  | .openOffice _ date => decide (date.length ≤ 239)
  | .closeOffice _ => true
  | .setTime _ seconds => fits3 seconds
  | .clearAudit _ => true
  | .setLinkRate _ rate => fits1 rate
  | .restart _ => true
  | .identify _ => true
  | .frameCheckFailed line => decide ((wholeBytes line).length ≤ 247)
  | .frameDiscarded line => decide ((wholeBytes line).length ≤ 247)
  | .gapTimeout line => decide ((wholeBytes line).length ≤ 246)
  | .linkRateChange => true
  | .powerOn _ _ => true
  | .resetPin _ => true
  | .restartReset _ => true
  | .printerReply _ reply => decide (reply.temperature ≤ 1023)
  | .identReply _ reply identity =>
      decide (reply.temperature ≤ 1023) && fits1 identity.typeCode && fits1 identity.headWidth && fits1 identity.bins
  | .printerReplyDiscarded _ bytes => decide (bytes.length ≤ 260)
  | .printerReplyGap _ bytes => decide (bytes.length ≤ 259)
  | .replyTimeout _ => true
  | .identTimeout _ => true
  | .pollInterval _ => true
  | .identInterval _ => true
  | .clockTick => true
  | .saveComplete _ => true
  | .loadComplete => true
  | .restoreComplete _ => true
  | .replyLastByteLeft => true

end Sys2Proof
end

