-- ==== Sys2Proof/Decode.lean ====
section
/-! DEFINITION. The bytes of the links: big-endian fields and the CRC-16 (R162, R188), the request a frame's code and body
spell and the bytes of a request (chapter 11), the reply a printer frame spells (chapter 11, R189), and the host's
`decodeTableWord`. The opcode table gives no row any bits, so `decodeTableWord` answers none for every word. -/

namespace Sys2Proof

/-- `n` in `w` bytes, most significant byte first (00_scope.md, Byte order). -/
def be : Nat → Nat → List Byte
  | 0, _ => []
  | w + 1, n => be w (n / 256) ++ [BitVec.ofNat 8 n]

/-- The number a byte string spells, most significant byte first. -/
def ofBe (bs : List Byte) : Nat :=
  bs.foldl (fun acc b => acc * 256 + b.toNat) 0

/-- One bit of the CRC of R162: the polynomial x^16 + x^12 + x^5 + 1, most significant bit first. -/
def crcBit (c : BitVec 16) : BitVec 16 :=
  if c.msb then (c <<< 1) ^^^ 0x1021#16 else c <<< 1

/-- `k` bits of the CRC. -/
def crcBits : Nat → BitVec 16 → BitVec 16
  | 0, c => c
  | k + 1, c => crcBits k (crcBit c)

/-- One byte taken into the CRC. -/
def crcByte (c : BitVec 16) (b : Byte) : BitVec 16 :=
  crcBits 8 (c ^^^ (b.setWidth 16 <<< 8))

/-- The CRC, as a number, after bytes taken in from left to right. The match returns each new value as it is; it makes an evaluation
finish one byte before it takes the next (`crc16_eq_foldl` is the plain form). -/
def crcFrom (c : Nat) : List Byte → Nat
  | [] => c
  | b :: rest =>
    match (crcByte (BitVec.ofNat 16 c) b).toNat with
    | 0 => crcFrom 0 rest
    | n + 1 => crcFrom (n + 1) rest

/-- R162, check 1: initial value 0xFFFF, no reflection, no final inversion. -/
def crc16 (bs : List Byte) : BitVec 16 := BitVec.ofNat 16 (crcFrom 0xFFFF bs)

/-- The number of a position in a frame (00_scope.md, Terms). -/
def Position.number : Position → Nat
  | .console => 0
  | .window w => w.val + 1

/-- The position a frame's position byte names; none above 15 (R162, check 4). -/
def Position.ofNumber (n : Nat) : Option Position :=
  if n = 0 then some .console
  else if h : n - 1 < 15 then some (.window ⟨n - 1, h⟩)
  else none

/-- The `w`-byte field at offset `off` of a body. -/
def field (b : List Byte) (off w : Nat) : Nat := ofBe ((b.drop off).take w)

/-- A request whose body has one accepted length (R162, check 3). -/
def ofLength (n : Nat) (b : List Byte) (i : Instr) : Option Instr :=
  if b.length = n then some i else none

/-- Texts of a body, each a length byte and that many characters, that fill the bytes exactly (R188). -/
def parseTexts : Nat → List Byte → Option (List (List Byte))
  | 0, [] => some []
  | 0, _ :: _ => none
  | _ + 1, [] => none
  | m + 1, l :: rest =>
    if rest.length < l.toNat then none
    else (parseTexts m (rest.drop l.toNat)).map (rest.take l.toNat :: ·)

/-- The bytes of texts (R188). -/
def textBytes (ts : List (List Byte)) : List Byte :=
  ts.flatMap fun t => BitVec.ofNat 8 t.length :: t

/-- `n` field entries of seven bytes from a layout's body. -/
def parseFields : Nat → List Byte → List RawField
  | 0, _ => []
  | n + 1, b =>
    { kind := field b 0 1, slot := field b 1 1, row := field b 2 1, column := field b 3 1, width := field b 4 1,
      size := field b 5 1, stripe := field b 6 1 } :: parseFields n (b.drop 7)

/-- The seven bytes of a field entry (R77's order, R188). -/
def RawField.bytes (f : RawField) : List Byte :=
  be 1 f.kind ++ be 1 f.slot ++ be 1 f.row ++ be 1 f.column ++ be 1 f.width ++ be 1 f.size ++ be 1 f.stripe

/-- Twelve numbers of `w` bytes each, from offset `off`. -/
def parseTwelve (b : List Byte) (off w : Nat) : Vector Nat 12 :=
  Vector.ofFn fun k => field b (off + k.val * w) w

/-- WRITE SETTING, by its item (R174's order). The length an unknown item calls for is not stated: any is accepted,
and the item is answered RANGE (R176, check 1). DESIGN CHOICE, notes/assumptions/37.md. -/
def parseWriteSetting (pos : Position) (b : List Byte) : Option Instr :=
  if b.length < 2 then none
  else
    let item := field b 0 1
    let index := field b 1 1
    if item = 0 then
      ofLength 10 b (.writeSettingOffice pos 0 index (field b 2 2) (field b 4 1) (field b 5 2) (field b 7 3))
    else if item = 1 then ofLength 38 b (.writeSettingDenominations pos index (parseTwelve b 2 3))
    else if item = 2 then
      ofLength 8 b (.writeSettingStockType pos index (field b 2 1) (field b 3 1) (field b 4 1) (field b 5 1) (field b 6 2))
    else if item = 3 then
      ofLength (3 + 7 * field b 2 1) b (.writeSettingLayout pos index (parseFields (field b 2 1) (b.drop 3)))
    else if item = 4 then
      ofLength 5 b (.writeSettingPosition pos index (field b 2 1) (field b 3 1) (field b 4 1))
    else if item = 5 then
      ofLength 5 b (.writeSettingPrinter pos index (field b 2 1) (field b 3 1) (field b 4 1))
    else some (.writeSettingOffice pos item index 0 0 0 0)

/-- Is the request code one the MD24 knows (R162, check 2; chapter 11, Request codes)? -/
def knownCode (code : Nat) : Bool :=
  decide ((1 ≤ code ∧ code ≤ 6) ∨ (0x10 ≤ code ∧ code ≤ 0x17) ∨ (0x20 ≤ code ∧ code ≤ 0x24) ∨
    (0x28 ≤ code ∧ code ≤ 0x2B) ∨ (0x30 ≤ code ∧ code ≤ 0x36) ∨ (0x38 ≤ code ∧ code ≤ 0x3B) ∨
    (0x40 ≤ code ∧ code ≤ 0x44) ∨ (0x48 ≤ code ∧ code ≤ 0x4E))

/-- The request that a known code, a position and a body spell, by the request bodies of chapter 11; none when the body's
length is not one the request accepts (R162, check 3). -/
def parseRequest (code : Nat) (pos : Position) (b : List Byte) : Option Instr :=
  match code with
  | 0x01 =>
    if b.length < 8 then none
    else (parseTexts (field b 7 1) (b.drop 8)).map fun slots =>
      .issueTicket pos (field b 0 1) (field b 1 1) (field b 2 1) (field b 3 3) (field b 6 1) slots
  | 0x02 => ofLength 2 b (.cancelJob pos (field b 0 2))
  | 0x03 => ofLength 3 b (.readJob pos (field b 0 2) (field b 2 1))
  | 0x04 => ofLength 6 b (.voidTicket pos (field b 0 4) (field b 4 1) (field b 5 1))
  | 0x05 => ofLength 4 b (.refund pos (field b 0 3) (field b 3 1))
  | 0x06 => ofLength 1 b (if field b 0 1 = 1 then .fetchNoticeRepeat pos else .fetchNotice pos (field b 0 1))
  | 0x10 =>
    ofLength 11 b (.loadPack pos (field b 0 2) (field b 2 1) (field b 3 4) (field b 7 2) (field b 9 1) (field b 10 1))
  | 0x11 => ofLength 3 b (.movePack pos (field b 0 2) (field b 2 1))
  | 0x12 => ofLength 2 b (.writeOffPack pos (field b 0 2))
  | 0x13 => ofLength 2 b (.retirePack pos (field b 0 2))
  | 0x14 => ofLength 3 b (.readPack pos (field b 0 2) (field b 2 1))
  | 0x15 => ofLength 5 b (.listPacks pos (field b 0 1) (field b 1 1) (field b 2 1) (field b 3 2))
  | 0x16 =>
    ofLength 7 b (if field b 6 1 = 1 then .resolveDoubtfulSpoiled pos (field b 0 2) (field b 2 4)
      else .resolveDoubtfulIssued pos (field b 0 2) (field b 2 4) (field b 6 1))
  | 0x17 => ofLength 0 b (.stockCheck pos)
  | 0x20 =>
    ofLength 2 b (if field b 1 1 = 0 then .powerPrinterOff pos (field b 0 1)
      else .powerPrinterOn pos (field b 0 1) (field b 1 1))
  | 0x21 => ofLength 1 b (.disablePrinter pos (field b 0 1))
  | 0x22 => ofLength 1 b (.enablePrinter pos (field b 0 1))
  | 0x23 => ofLength 1 b (.readPrinter pos (field b 0 1))
  | 0x24 => ofLength 1 b (.resumePrinter pos (field b 0 1))
  | 0x28 => ofLength 3 b (.reportFault pos (field b 0 1) (field b 1 1) (field b 2 1))
  | 0x29 => ofLength 2 b (.closeFault pos (field b 0 2))
  | 0x2A => ofLength 3 b (.readFaults pos (field b 0 2) (field b 2 1))
  | 0x2B => ofLength 1 b (.faultCounts pos (field b 0 1))
  | 0x30 => ofLength 7 b (.openShift pos (field b 0 1) (field b 1 2) (field b 3 1) (field b 4 3))
  | 0x31 => ofLength 1 b (.suspendPosition pos (field b 0 1))
  | 0x32 => ofLength 3 b (.resumePosition pos (field b 0 1) (field b 1 2))
  | 0x33 => ofLength 4 b (.cashLift pos (field b 0 1) (field b 1 3))
  | 0x34 => ofLength 1 b (.closeShift pos (field b 0 1))
  | 0x35 => ofLength 1 b (.reopenShift pos (field b 0 1))
  | 0x36 => ofLength 3 b (.readPosition pos (field b 0 1) (field b 1 1) (field b 2 1))
  | 0x38 =>
    ofLength 37 b (.declare pos (field b 0 1) (parseTwelve b 1 2) (field b 25 4) (field b 29 4) (field b 33 4))
  | 0x39 => ofLength 3 b (.signOffShift pos (field b 0 1) (field b 1 2))
  | 0x3A => ofLength 2 b (.readShift pos (field b 0 2))
  | 0x3B => ofLength 2 b (.collectShift pos (field b 0 2))
  | 0x40 =>
    ofLength 2 b (if field b 0 1 = 3 then .readSettingLayout pos (field b 1 1)
      else .readSetting pos (field b 0 1) (field b 1 1))
  | 0x41 => parseWriteSetting pos b
  | 0x42 => ofLength 1 b (.saveSettings pos (field b 0 1))
  | 0x43 => ofLength 1 b (.loadSettings pos (field b 0 1))
  | 0x44 => ofLength 1 b (.restoreFactory pos (field b 0 1))
  | 0x48 => if b.length = 1 + field b 0 1 then some (.openOffice pos (b.drop 1)) else none
  | 0x49 => ofLength 0 b (.closeOffice pos)
  | 0x4A => ofLength 3 b (.setTime pos (field b 0 3))
  | 0x4B => ofLength 0 b (.clearAudit pos)
  | 0x4C => ofLength 1 b (.setLinkRate pos (field b 0 1))
  | 0x4D => ofLength 0 b (.restart pos)
  | 0x4E => ofLength 0 b (.identify pos)
  | _ => none

/-- A request's code, position and body: what a host puts in the frame for it (chapter 11). None for an event. -/
def requestBytes : Instr → Option (Nat × Position × List Byte)
  | .issueTicket pos stockType routing copies value tender slots =>
    some (0x01, pos, be 1 stockType ++ be 1 routing ++ be 1 copies ++ be 3 value ++ be 1 tender ++
      be 1 slots.length ++ textBytes slots)
  | .cancelJob pos tag => some (0x02, pos, be 2 tag)
  | .readJob pos tag part => some (0x03, pos, be 2 tag ++ be 1 part)
  | .voidTicket pos serial stockType target => some (0x04, pos, be 4 serial ++ be 1 stockType ++ be 1 target)
  | .refund pos value tender => some (0x05, pos, be 3 value ++ be 1 tender)
  | .fetchNotice pos repeatField => some (0x06, pos, be 1 repeatField)
  | .fetchNoticeRepeat pos => some (0x06, pos, be 1 1)
  | .loadPack pos packId stockType first count direction destination =>
    some (0x10, pos, be 2 packId ++ be 1 stockType ++ be 4 first ++ be 2 count ++ be 1 direction ++ be 1 destination)
  | .movePack pos packId destination => some (0x11, pos, be 2 packId ++ be 1 destination)
  | .writeOffPack pos packId => some (0x12, pos, be 2 packId)
  | .retirePack pos packId => some (0x13, pos, be 2 packId)
  | .readPack pos packId index => some (0x14, pos, be 2 packId ++ be 1 index)
  | .listPacks pos selection stockType location start =>
    some (0x15, pos, be 1 selection ++ be 1 stockType ++ be 1 location ++ be 2 start)
  | .resolveDoubtfulIssued pos packId serial ruling => some (0x16, pos, be 2 packId ++ be 4 serial ++ be 1 ruling)
  | .resolveDoubtfulSpoiled pos packId serial => some (0x16, pos, be 2 packId ++ be 4 serial ++ be 1 1)
  | .stockCheck pos => some (0x17, pos, [])
  | .powerPrinterOn pos printer onField => some (0x20, pos, be 1 printer ++ be 1 onField)
  | .powerPrinterOff pos printer => some (0x20, pos, be 1 printer ++ be 1 0)
  | .disablePrinter pos printer => some (0x21, pos, be 1 printer)
  | .enablePrinter pos printer => some (0x22, pos, be 1 printer)
  | .readPrinter pos printer => some (0x23, pos, be 1 printer)
  | .resumePrinter pos printer => some (0x24, pos, be 1 printer)
  | .reportFault pos printer note withdraw => some (0x28, pos, be 1 printer ++ be 1 note ++ be 1 withdraw)
  | .closeFault pos number => some (0x29, pos, be 2 number)
  | .readFaults pos fromNumber selection => some (0x2A, pos, be 2 fromNumber ++ be 1 selection)
  | .faultCounts pos printer => some (0x2B, pos, be 1 printer)
  | .openShift pos target clerk grade float =>
    some (0x30, pos, be 1 target ++ be 2 clerk ++ be 1 grade ++ be 3 float)
  | .suspendPosition pos target => some (0x31, pos, be 1 target)
  | .resumePosition pos target clerk => some (0x32, pos, be 1 target ++ be 2 clerk)
  | .cashLift pos target amount => some (0x33, pos, be 1 target ++ be 3 amount)
  | .closeShift pos target => some (0x34, pos, be 1 target)
  | .reopenShift pos target => some (0x35, pos, be 1 target)
  | .readPosition pos target part index => some (0x36, pos, be 1 target ++ be 1 part ++ be 1 index)
  | .declare pos target counts card voucher warrant =>
    some (0x38, pos, be 1 target ++ counts.toList.flatMap (be 2) ++ be 4 card ++ be 4 voucher ++ be 4 warrant)
  | .signOffShift pos target supervisor => some (0x39, pos, be 1 target ++ be 2 supervisor)
  | .readShift pos number => some (0x3A, pos, be 2 number)
  | .collectShift pos number => some (0x3B, pos, be 2 number)
  | .readSetting pos item index => some (0x40, pos, be 1 item ++ be 1 index)
  | .readSettingLayout pos index => some (0x40, pos, be 1 3 ++ be 1 index)
  | .writeSettingOffice pos item index code unit tolerance limit =>
    some (0x41, pos, if item = 0 then
        be 1 0 ++ be 1 index ++ be 2 code ++ be 1 unit ++ be 2 tolerance ++ be 3 limit
      else be 1 item ++ be 1 index)
  | .writeSettingDenominations pos index faces => some (0x41, pos, be 1 1 ++ be 1 index ++ faces.toList.flatMap (be 3))
  | .writeSettingStockType pos index defined numbered striped digits threshold =>
    some (0x41, pos, be 1 2 ++ be 1 index ++ be 1 defined ++ be 1 numbered ++ be 1 striped ++ be 1 digits ++
      be 2 threshold)
  | .writeSettingLayout pos index fields =>
    some (0x41, pos, be 1 3 ++ be 1 index ++ be 1 fields.length ++ fields.flatMap RawField.bytes)
  | .writeSettingPosition pos index printerSet stockSet enabled =>
    some (0x41, pos, be 1 4 ++ be 1 index ++ be 1 printerSet ++ be 1 stockSet ++ be 1 enabled)
  | .writeSettingPrinter pos index enabled hold resume =>
    some (0x41, pos, be 1 5 ++ be 1 index ++ be 1 enabled ++ be 1 hold ++ be 1 resume)
  | .saveSettings pos area => some (0x42, pos, be 1 area)
  | .loadSettings pos area => some (0x43, pos, be 1 area)
  | .restoreFactory pos area => some (0x44, pos, be 1 area)
  | .openOffice pos date => some (0x48, pos, be 1 date.length ++ date)
  | .closeOffice pos => some (0x49, pos, [])
  | .setTime pos seconds => some (0x4A, pos, be 3 seconds)
  | .clearAudit pos => some (0x4B, pos, [])
  | .setLinkRate pos rate => some (0x4C, pos, be 1 rate)
  | .restart pos => some (0x4D, pos, [])
  | .identify pos => some (0x4E, pos, [])
  | .frameCheckFailed _ => none
  | .frameDiscarded _ => none
  | .gapTimeout _ => none
  | .linkRateChange => none
  | .powerOn _ _ => none
  | .resetPin _ => none
  | .restartReset _ => none
  | .printerReply _ _ => none
  | .identReply _ _ _ => none
  | .printerReplyDiscarded _ _ => none
  | .printerReplyGap _ _ => none
  | .replyTimeout _ => none
  | .identTimeout _ => none
  | .pollInterval _ => none
  | .identInterval _ => none
  | .clockTick => none
  | .saveComplete _ => none
  | .loadComplete => none
  | .restoreComplete _ => none
  | .replyLastByteLeft => none

/-- The bytes of a host frame after its start byte: address, length, code, position, body, CRC-16 (chapter 11). -/
def requestFrame (unit : Fin 4) (code : Nat) (pos : Position) (body : List Byte) : List Byte :=
  let covered := [BitVec.ofNat 8 (0xB0 + unit.val), BitVec.ofNat 8 body.length, BitVec.ofNat 8 code,
    BitVec.ofNat 8 pos.number] ++ body
  0xA5#8 :: covered ++ be 2 (crc16 covered).toNat

/-- The bytes a request arrives as at a unit (chapter 11); none for an event. -/
def Instr.frame (unit : Fin 4) (i : Instr) : List Byte :=
  match requestBytes i with
  | none => []
  | some (code, pos, body) => requestFrame unit code pos body

/-- The outcome and cause bytes of a reply body; none for a pairing R189 calls impossible. -/
def parseOutcome (outcome cause : Nat) : Option PrintOutcome :=
  match outcome, cause with
  | 0, 0 => some .done
  | 1, 1 => some (.spoiled .misfeed)
  | 1, 2 => some (.spoiled .stripe)
  | 1, 3 => some (.spoiled .jam)
  | 1, 4 => some (.spoiled .cutter)
  | 2, 0 => some .notFed
  | 2, 5 => some .binEmpty
  | _, _ => none

/-- The acceptance byte of a reply body. -/
def parseAcceptance : Nat → Option Acceptance
  | 0 => some .taken
  | 1 => some .refused
  | _ => none

/-- The condition byte of a reply body. -/
def parseCondition : Nat → Option Condition
  | 0 => some .ready
  | 1 => some .jam
  | 2 => some .cutter
  | 3 => some .coverOpen
  | 4 => some .headHot
  | _ => none

/-- The ten bytes every reply body holds; bits 4..7 of the bin sense byte and the last two bytes are not read.
DEDUCED, notes/assumptions/42.md. -/
def parseReplyBody (answers : Byte) (b : List Byte) : Option PrinterReply := do
  let outcome ← parseOutcome (field b 1 1) (field b 2 1)
  let acceptance ← parseAcceptance (field b 3 1)
  let condition ← parseCondition (field b 4 1)
  let sense := field b 7 1
  some {
    answers := answers
    outcomeOf := BitVec.ofNat 8 (field b 0 1)
    outcome := outcome
    acceptance := acceptance
    condition := condition
    temperature := field b 5 2
    senseA := { present := sense.testBit 0, low := sense.testBit 1 }
    senseB := { present := sense.testBit 2, low := sense.testBit 3 } }

/-- A printer's reply frame to a PRINT, a POLL or a CLEAR, or to an IDENT (`ident`): the start byte, the length the answered
command calls for, the CRC over offset 1 through the body, and every field in its list (R31 test 1, R189). -/
def parsePrinterFrame (ident : Bool) (bytes : List Byte) : Option (PrinterReply × Option Identity) :=
  let n := if ident then 14 else 10
  if bytes.length = n + 5 ∧ field bytes 0 1 = 0x5B ∧ field bytes 2 1 = n ∧
      field bytes (n + 3) 2 = (crc16 ((bytes.drop 1).take (n + 2))).toNat then
    let b := (bytes.drop 3).take n
    match parseReplyBody (BitVec.ofNat 8 (field bytes 1 1)) b with
    | none => none
    | some r =>
      if ident then
        if field b 12 1 ≤ 1 then
          some (r, some {
            typeCode := field b 10 1
            headWidth := field b 11 1
            stripe := decide (field b 12 1 = 1)
            bins := field b 13 1 })
        else none
      else some (r, none)
  else none

/-- The host's question: the command a table word spells. The table gives no row any bits.
DESIGN CHOICE, notes/assumptions/8.md. -/
def decodeTableWord (_nbits _w : Nat) : Option Instr := none

end Sys2Proof
end

