-- ==== Sys2Proof/Machine/Records.lean ====
section
/-! DEFINITION. The records of the twelve blocks (00_scope.md, Blocks), in the manual's own names, and the lists of values
their fields take. -/

namespace Sys2Proof.Machine

/-! ### Values -/

/-- The four ways a passenger pays (00_scope.md, Terms). -/
inductive Tender where
  | cash | card | voucher | warrant
  deriving DecidableEq, Repr, Inhabited

/-- One value for each tender, in tender order. -/
structure PerTender (α : Type) where
  cash    : α
  card    : α
  voucher : α
  warrant : α
  deriving DecidableEq, Repr, Inhabited

/-- A clerk's authority, in rising order (R112). -/
inductive Grade where
  | relief | clerk | supervisor
  deriving DecidableEq, Repr, Inhabited

/-- The order in which a pack's serials are taken (R3). -/
inductive Direction where
  | ascending | descending
  deriving DecidableEq, Repr, Inhabited

/-- One of a printer's two feeds. -/
inductive Bin where
  | a | b
  deriving DecidableEq, Repr, Inhabited

/-- Where a pack is (R3). -/
inductive Location where
  | store
  | bin (printer : Fin 6) (side : Bin)
  deriving DecidableEq, Repr, Inhabited

/-- A pack's condition (R5). -/
inductive PackCondition where
  | usable | suspended | exhausted
  deriving DecidableEq, Repr, Inhabited

/-- The accounting fate of a blank other than issued (R9). -/
inductive Disposition where
  | spoiled | voided | doubtful | missing | writtenOff
  deriving DecidableEq, Repr, Inhabited

/-- The eight states of a printer (R29). -/
inductive PrinterState where
  | poweredDown | starting | ready | busy | heatHold | faulted | offline | disabled
  deriving DecidableEq, Repr, Inhabited

/-- The four kinds of printer command (R30). -/
inductive CommandKind where
  | ident | print | poll | clear
  deriving DecidableEq, Repr, Inhabited

/-- The twelve fault codes, in the order of R90. -/
inductive FaultCode where
  | misfeed | stripe | binEmpty | jam | cutter | coverOpen | headHot | sensorFail | linkLost | doubt | repeatedSpoil
  | clerkNote
  deriving DecidableEq, Repr, Inhabited

/-- The three classes of fault entry (R91). -/
inductive FaultClass where
  | transient | standing | attended
  deriving DecidableEq, Repr, Inhabited

/-- How a fault entry came to be CLEARED (R91). -/
inductive ClearingCause where
  | transient | met | closed | powerOff | startUp
  deriving DecidableEq, Repr, Inhabited

/-- The four states of a copy (R54). -/
inductive CopyState where
  | undispatched | inPath | issued | doubtful
  deriving DecidableEq, Repr, Inhabited

/-- Why no further copy of a job is dispatched (R53). -/
inductive StopReason where
  | cancelled | spoilLimit | routeLimit | printerLost
  deriving DecidableEq, Repr, Inhabited

/-- A job's state (R53). -/
inductive JobState where
  | queued | printing | ended
  deriving DecidableEq, Repr, Inhabited

/-- An ended job's outcome (R53). -/
inductive JobOutcome where
  | complete | incomplete
  deriving DecidableEq, Repr, Inhabited

/-- Why an ended job is INCOMPLETE (R53). -/
inductive JobReason where
  | cancelled | spoilLimit | routeLimit | doubt | printerLost
  deriving DecidableEq, Repr, Inhabited

/-- The six states of a window (R114). -/
inductive WindowState where
  | closed | open | suspended | closing | counting | held
  deriving DecidableEq, Repr, Inhabited

/-- The class of a tender at a declaration, in the order of R147's table. -/
inductive TenderClass where
  | indeterminate | exact | within | outOfLimit | over | short
  deriving DecidableEq, Repr, Inhabited

/-- The status a declaration gives, in the order of R148's table. -/
inductive DeclarationStatus where
  | held | variance | cleared
  deriving DecidableEq, Repr, Inhabited

/-- The status of a shift record (R153). -/
inductive RecordStatus where
  | cleared | variance | signedOff
  deriving DecidableEq, Repr, Inhabited

/-- SETUP or TRADING (R181). -/
inductive OfficeMode where
  | setup | trading
  deriving DecidableEq, Repr, Inhabited

/-- OK or FAULT (R184). -/
inductive AuditStatus where
  | ok | fault
  deriving DecidableEq, Repr, Inhabited

/-- The cause of the last reset (R172). -/
inductive ResetCause where
  | powerOn | pin | restart
  deriving DecidableEq, Repr, Inhabited

/-- The three flash areas (R177); also where the live settings were last loaded from (R178). -/
inductive Area where
  | user1 | user2 | factory
  deriving DecidableEq, Repr, Inhabited

/-- The three store operations (R178). -/
inductive StoreKind where
  | save | load | restore
  deriving DecidableEq, Repr, Inhabited

/-- The reply codes, in the order of R164's table; `storeFault` is only ever a settings operation's result. -/
inductive ReplyCode where
  | ok | accepted | badCheck | unknownRequest | badLength | badPosition | grade | notPermitted | range | mode | state
  | noStock | noPrinter | queueFull | tableFull | conflict | notFound | historyFull | layout | busy | storeFault
  deriving DecidableEq, Repr, Inhabited

/-! ### Ticket layouts (chapter 4) -/

/-- What a field shows; TEXT names its slot 1..8 (R77). -/
inductive FieldKind where
  | text (slot : Nat)
  | serial | value | position | clerk | date | check | copy
  deriving DecidableEq, Repr, Inhabited

/-- Character size (R77). -/
inductive FieldSize where
  | normal | double
  deriving DecidableEq, Repr, Inhabited

/-- A field entry (R77). -/
structure FieldEntry where
  kind   : FieldKind
  row    : Nat
  column : Nat
  width  : Nat
  size   : FieldSize
  stripe : Bool
  deriving DecidableEq, Repr, Inhabited

/-- Why a layout is INVALID, with the field indices it concerns, in the order of R80. -/
inductive LayoutReason where
  | notNumbered
  | serialMissing
  | serialRepeated (second : Nat)
  | serialNarrow (index : Nat)
  | valueRepeated (second : Nat)
  | checkRepeated (second : Nat)
  | overlap (first second : Nat)
  deriving DecidableEq, Repr, Inhabited

/-- A layout table: its field entries, and the reason it is INVALID; it is VALID when there is none (R77, R80). -/
structure Layout where
  entries : List FieldEntry
  invalid : Option LayoutReason
  deriving DecidableEq, Repr, Inhabited

/-- One field as printed (R88). -/
structure Segment where
  column : Nat
  size   : FieldSize
  text   : List Byte
  deriving DecidableEq, Repr, Inhabited

/-- One print line (R88). -/
structure PrintLine where
  row      : Nat
  segments : List Segment
  deriving DecidableEq, Repr, Inhabited

/-- The data written to a ticket's stripe (R89). -/
structure StripeRecord where
  stockType : Nat
  serial    : Nat
  value     : Nat
  position  : Nat
  checkCode : Nat
  texts     : List (List Byte)
  deriving DecidableEq, Repr, Inhabited

/-! ### The stock register (chapter 1) -/

/-- The first four fields of a stock type record, its definition (R1). -/
structure StockDefinition where
  defined  : Bool
  numbered : Bool
  striped  : Bool
  digits   : Nat
  deriving DecidableEq, Repr, Inhabited

/-- A stock type record (R1). -/
structure StockType where
  definition  : StockDefinition
  threshold   : Nat
  lowNotified : Bool
  lowPending  : Bool
  deriving DecidableEq, Repr, Inhabited

/-- An exception entry (R9). -/
structure ExceptionEntry where
  first       : Nat
  run         : Nat
  disposition : Disposition
  position    : Option Position
  fault       : Option Nat
  deriving DecidableEq, Repr, Inhabited

/-- A pack record (R3). -/
structure Pack where
  id         : Nat
  stockType  : Fin 8
  first      : Nat
  count      : Nat
  direction  : Direction
  next       : Option Nat
  remaining  : Nat
  location   : Location
  condition  : PackCondition
  exceptions : List ExceptionEntry
  deriving DecidableEq, Repr, Inhabited

/-- An in-path entry (R6). -/
structure InPathEntry where
  pack     : Nat
  serial   : Nat
  tag      : Nat
  copy     : Nat
  position : Position
  shift    : Nat
  value    : Nat
  tender   : Tender
  command  : Byte
  deriving DecidableEq, Repr, Inhabited

/-- An entry of the doubtful list (R15). -/
structure DoubtfulEntry where
  pack     : Nat
  serial   : Nat
  printer  : Fin 6
  position : Position
  shift    : Nat
  value    : Nat
  tender   : Tender
  tag      : Nat
  deriving DecidableEq, Repr, Inhabited

/-! ### Tallies, positions and the shift history (chapters 6, 7, 8) -/

/-- The per-tender part of a tally set (R128). -/
structure TenderTally where
  sales       : Nat
  salesCount  : Nat
  refunds     : Nat
  refundCount : Nat
  saturated   : Bool
  deriving DecidableEq, Repr, Inhabited

/-- The per-stock-type part of a tally set (R128). -/
structure StockTally where
  issued  : Nat
  spoiled : Nat
  voided  : Nat
  deriving DecidableEq, Repr, Inhabited

/-- A tally set (R128). -/
structure Tallies where
  tender         : PerTender TenderTally
  residue        : Int
  lifts          : Nat
  liftsCount     : Nat
  liftsSaturated : Bool
  stock          : Vector StockTally 8
  deriving DecidableEq, Repr, Inhabited

/-- An entry of a recent-issues list (R125). -/
structure RecentIssue where
  serial    : Nat
  pack      : Nat
  stockType : Fin 8
  value     : Nat
  tender    : Tender
  credited  : Nat
  residue   : Int
  deriving DecidableEq, Repr, Inhabited

/-- What a declaration found for one tender (R142). -/
structure TenderFigure where
  expected : Int
  declared : Nat
  variance : Int
  cls      : TenderClass
  deriving DecidableEq, Repr, Inhabited

/-- The declared figures of a window (R142). The declared cash D and the three non-cash totals are the `declared` of the
four tenders. -/
structure DeclaredFigures where
  counts    : Vector Nat 12
  faces     : Vector Nat 12
  clamped   : Bool
  tender    : PerTender TenderFigure
  tolerance : Nat
  limit     : Nat
  status    : DeclarationStatus
  deriving DecidableEq, Repr, Inhabited

/-- A window's position record (R110). -/
structure WindowRecord where
  state        : WindowState
  clerk        : Option Nat
  grade        : Option Grade
  shift        : Option Nat
  opened       : Option Nat
  closedAt     : Option Nat
  float        : Nat
  tallies      : Tallies
  recent       : List RecentIssue
  outstanding  : Nat
  declarations : Nat
  declared     : Option DeclaredFigures
  reserved     : Bool
  countReady   : Bool
  deriving DecidableEq, Repr, Inhabited

/-- The console's record (R111) and the tally set kept beside it (R129). -/
structure ConsoleRecord where
  grade       : Grade
  outstanding : Nat
  recent      : List RecentIssue
  tallies     : Tallies
  deriving DecidableEq, Repr, Inhabited

/-- A shift record (R153). -/
structure ShiftRecord where
  shift        : Nat
  window       : Fin 15
  clerk        : Nat
  grade        : Grade
  opened       : Option Nat
  closedAt     : Option Nat
  float        : Nat
  tallies      : Tallies
  figures      : DeclaredFigures
  declarations : Nat
  status       : RecordStatus
  signedOffBy  : Option Nat
  collected    : Bool
  endPending   : Bool
  deriving DecidableEq, Repr, Inhabited

/-! ### The fault log (chapter 5) -/

/-- A code of a standing entry with its marks (R91). -/
structure CodeMarks where
  code      : FaultCode
  met       : Bool
  readySeen : Bool
  confirmed : Bool
  deriving DecidableEq, Repr, Inhabited

/-- A fault entry (R91). -/
structure FaultEntry where
  number       : Nat
  printer      : Fin 6
  cls          : FaultClass
  first        : CodeMarks
  later        : List CodeMarks
  cleared      : Bool
  raisedAt     : Option Nat
  clearedAt    : Option Nat
  cause        : Option ClearingCause
  tag          : Option Nat
  serial       : Option Nat
  pack         : Option Nat
  position     : Option Position
  missingRun   : Option Nat
  note         : Option Nat
  withdraw     : Option Bool
  pending      : Bool
  deriving DecidableEq, Repr, Inhabited

/-! ### The job scheduler (chapter 3) -/

/-- A job record (R53). Routing is none for AUTO. -/
structure Job where
  tag             : Nat
  position        : Position
  shift           : Nat
  stockType       : Fin 8
  routing         : Option (Fin 6)
  assigned        : Fin 6
  copies          : Nat
  value           : Nat
  tender          : Tender
  slots           : List (List Byte)
  copyStates      : List CopyState
  serials         : List Nat
  spoilCount      : Nat
  blanksSpoiled   : Nat
  rerouteCount    : Nat
  cancelRequested : Bool
  stop            : Option StopReason
  state           : JobState
  outcome         : Option JobOutcome
  reason          : Option JobReason
  endPending      : Bool
  deriving DecidableEq, Repr, Inhabited

/-! ### The printer ports (chapter 2) -/

/-- What a PRINT command carries (R30, R88, R89). -/
structure PrintBody where
  side   : Bin
  lines  : List PrintLine
  stripe : Option StripeRecord
  deriving DecidableEq, Repr, Inhabited

/-- A command as sent on a printer link (R30). -/
structure Command where
  number : Byte
  kind   : CommandKind
  body   : Option PrintBody
  deriving DecidableEq, Repr, Inhabited

/-- The hold and resume counts of a printer's setting item as a temperature sample reads them (R41, R174). -/
structure HeatLimits where
  hold   : Nat
  resume : Nat
  deriving DecidableEq, Repr, Inhabited

/-- The volatile part of a printer record (R28). The in-path list is retained and stands in `Retained`; the packs in the
bins are a view of the pack records. `limits` holds what the last sample read of the printer's setting item (R41, R174: the hold and
resume are read at each sample). `sentSince` says how many commands have been sent after the reference command, as R31's order of sending
calls for; it is counted up to 256, where the window holds every number. `refill` and `sent` are the model's own: that the next valid
sample fills the whole temperature window (R41), and the last command sent on the link. -/
structure Printer where
  state          : PrinterState
  identity       : Option Identity
  senseA         : Option BinSense
  senseB         : Option BinSense
  nextCommand    : Byte
  outstanding    : Option (Byte × CommandKind)
  reference      : Option Byte
  sentSince      : Nat
  lastAcceptance : Option Acceptance
  lastCondition  : Option Condition
  timeoutCount   : Nat
  identTries     : Nat
  temperatures   : List Nat
  average        : Option Nat
  limits         : Option HeatLimits
  sensorFailed   : Bool
  spoilCount     : Nat
  counters       : Vector Nat 12
  openFault      : Option Nat
  confirmPending : Bool
  disablePending : Bool
  statePending   : Bool
  queue          : List Nat
  refill         : Bool
  sent           : Option Command
  deriving DecidableEq, Repr, Inhabited

/-! ### The host link and the notice queue (chapter 9) -/

/-- A reply as handed to the transmitter (R164): code, request code echoed, body. -/
structure Reply where
  code : ReplyCode
  echo : Byte
  body : List Byte
  deriving DecidableEq, Repr, Inhabited

/-- The receiver's four states (R161), with what each has taken of the frame. `overlap`: the frame's start byte came while a
reply was still leaving. -/
inductive Receiver where
  | hunting
  | header (overlap : Bool) (address : Option Byte)
  | body (got : List Byte) (left : Nat)
  | skipping (left : Nat)
  deriving DecidableEq, Repr, Inhabited

/-- The link controller (R159 to R164). `reply` is the last reply sent and `leaving` says that its last byte has not left;
`rateNext` and `restartNext` are what waits for that (R160, R163). -/
structure Link where
  receiver    : Receiver
  unit        : Fin 4
  rate        : Fin 4
  reply       : Option Reply
  leaving     : Bool
  rateNext    : Option (Fin 4)
  restartNext : Bool
  deriving DecidableEq, Repr, Inhabited

/-- A settings operation's result (R178). -/
structure StoreResult where
  kind       : StoreKind
  area       : Area
  good       : Bool
  officeCode : Option Nat
  deriving DecidableEq, Repr, Inhabited

/-- A notice as placed, with what R170 says it carries. -/
inductive Notice where
  | jobEnd (tag : Nat) (position : Position) (shift : Nat) (stockType : Fin 8) (assigned : Fin 6)
      (copies issued doubtful undispatched spoiled reroutes : Nat) (outcome : Option JobOutcome)
      (reason : Option JobReason) (serials : List Nat)
  | fault (number : Nat) (printer : Fin 6) (cls : FaultClass) (first : FaultCode) (cleared : Bool)
      (cause : Option ClearingCause)
  | stockLow (stockType : Fin 8) (remaining : Nat)
  | countReady (window : Fin 15) (shift : Option Nat) (state : WindowState)
  | shiftEnd (shift : Nat) (window : Fin 15) (status : RecordStatus) (classes : PerTender TenderClass)
      (collected : Bool)
  | printerState (printer : Fin 6) (state : PrinterState) (disablePending : Bool) (openFault : Option Nat)
  | settingsDone (result : StoreResult)
  | start (cause : ResetCause) (audit : AuditStatus) (source : Area)
  deriving DecidableEq, Repr

/-- The notice queue (R166, R167). `started`: START has been placed since the last reset (R168). -/
structure NoticeQueue where
  queue       : List Notice
  lastFetched : Option Notice
  attention   : Bool
  started     : Bool
  deriving DecidableEq, Repr

/-! ### Settings and office control (chapter 10) -/

/-- The OFFICE item (R174). -/
structure OfficeItem where
  code      : Nat
  unit      : Nat
  tolerance : Nat
  limit     : Nat
  deriving DecidableEq, Repr, Inhabited

/-- The POSITION p item: the two sets as the bytes R188 gives, bit n for printer n or stock type n (R113). -/
structure Permissions where
  printerSet : Byte
  stockSet   : Byte
  enabled    : Bool
  deriving DecidableEq, Repr, Inhabited

/-- The PRINTER p item, in whole degrees (R174). -/
structure PrinterItem where
  enabled : Bool
  hold    : Nat
  resume  : Nat
  deriving DecidableEq, Repr, Inhabited

/-- The live settings but for the STOCK TYPE items, which are the stock type records (R1, R174). -/
structure LiveSettings where
  office        : OfficeItem
  faces         : Vector Nat 12
  layouts       : Vector Layout 8
  permissions   : Vector Permissions 15
  printerItems  : Vector PrinterItem 6
  deriving DecidableEq, Repr, Inhabited

/-- A whole set of items, as a flash area holds them (R177). -/
structure SettingsImage where
  office       : OfficeItem
  faces        : Vector Nat 12
  stockTypes   : Vector (StockDefinition × Nat) 8
  layouts      : Vector (List FieldEntry) 8
  permissions  : Vector Permissions 15
  printerItems : Vector PrinterItem 6
  deriving DecidableEq, Repr, Inhabited

/-- A flash area: the set of items it holds, none when it was never written or stands erased, and its CRC-16 (R177). -/
structure FlashArea where
  contents : Option SettingsImage
  crc      : BitVec 16
  deriving DecidableEq, Repr, Inhabited

/-- The three flash areas (R177). -/
structure Flash where
  area1       : FlashArea
  area2       : FlashArea
  factoryArea : FlashArea
  deriving DecidableEq, Repr, Inhabited

/-- The operation running (R178): a save carries the copy it took at acceptance. -/
inductive StoreOperation where
  | save (area : Area) (copy : SettingsImage)
  | load (area : Area)
  | restore (area : Area)
  deriving DecidableEq, Repr, Inhabited

/-- The settings store (R178). -/
structure Store where
  running     : Option StoreOperation
  donePending : Bool
  lastResult  : Option StoreResult
  source      : Area
  deriving DecidableEq, Repr, Inhabited

/-- Office control's volatile state (R181, R183, R187). The clock is none while the clock-set flag is clear. -/
structure Office where
  mode       : OfficeMode
  date       : Option (List Byte)
  clock      : Option Nat
  resetCause : ResetCause
  deriving DecidableEq, Repr, Inhabited

/-! ### Retained memory (R24) -/

/-- What the battery holds across every reset: the stock register with the in-path and doubtful lists, the position table,
the shift history, the fault log, the audit status, and whether the stored retained checksum matches (R24). -/
structure Retained where
  stockTypes      : Vector StockType 8
  packs           : List Pack
  doubtful        : List DoubtfulEntry
  inPath          : Vector (List InPathEntry) 6
  console         : ConsoleRecord
  windows         : Vector WindowRecord 15
  nextShift       : Nat
  history         : List ShiftRecord
  faults          : List FaultEntry
  nextFault       : Nat
  audit           : AuditStatus
  checksumMatches : Bool
  deriving DecidableEq, Repr, Inhabited

/-! ### Tables by tender -/

/-- The entry of a tender. -/
def PerTender.get {α : Type} (t : PerTender α) : Tender → α
  | .cash => t.cash
  | .card => t.card
  | .voucher => t.voucher
  | .warrant => t.warrant

/-- The entry of one tender changed. -/
def PerTender.update {α : Type} (t : PerTender α) (d : Tender) (f : α → α) : PerTender α :=
  match d with
  | .cash => { t with cash := f t.cash }
  | .card => { t with card := f t.card }
  | .voucher => { t with voucher := f t.voucher }
  | .warrant => { t with warrant := f t.warrant }

/-- The four entries in tender order. -/
def PerTender.toList {α : Type} (t : PerTender α) : List α := [t.cash, t.card, t.voucher, t.warrant]

/-- An image of every entry, the tender named. -/
def PerTender.map {α β : Type} (f : Tender → α → β) (t : PerTender α) : PerTender β :=
  { cash := f .cash t.cash, card := f .card t.card, voucher := f .voucher t.voucher, warrant := f .warrant t.warrant }

/-! ### Grades -/

/-- Grades in rising order. -/
def Grade.rank : Grade → Nat
  | .relief => 0
  | .clerk => 1
  | .supervisor => 2

end Sys2Proof.Machine
end

