-- ==== Sys2Proof/Machine/Encode.lean ====
section
/-! DEFINITION. The bytes of reply and notice bodies and of the frames the MD24 sends (chapter 11, R164, R188): numbers most
significant byte first, enumerations by their place in their list, an absent optional field as 0 where its range excludes 0
and with every bit set elsewhere. -/

namespace Sys2Proof.Machine

/-! ### Fields -/

/-- A yes/no field: 1 is yes and 0 is no (R188). DESIGN CHOICE, notes/assumptions/50.md. -/
def bFlag (b : Bool) : List Byte := be 1 (if b then 1 else 0)

/-- A signed field of 5 bytes, two's complement (R188). -/
def bSigned (n : Int) : List Byte := be 5 (n % 1099511627776).toNat

/-- A field sent with every bit set: an absent optional field whose range includes 0 (R188). -/
def bAbsent (w : Nat) : List Byte := be w (256 ^ w - 1)

/-- An optional field whose range excludes 0. -/
def bOptZero (w : Nat) (o : Option Nat) : List Byte := be w (o.getD 0)

/-- An optional field whose range includes 0. -/
def bOpt (w : Nat) : Option Nat → List Byte
  | none => bAbsent w
  | some n => be w n

/-- A list: a 1-byte entry count, then the entries (R188). -/
def bList {α : Type} (f : α → List Byte) (l : List α) : List Byte := be 1 l.length ++ l.flatMap f

/-! ### Enumerations -/

/-- The number of a tender. -/
def Tender.code : Tender → Nat
  | .cash => 0 | .card => 1 | .voucher => 2 | .warrant => 3

/-- The number of a direction. -/
def Direction.code : Direction → Nat
  | .ascending => 0 | .descending => 1

/-- The number of a location (DEDUCED, notes/assumptions/10.md). -/
def Location.code : Location → Nat
  | .store => 0
  | .bin p .a => p.val + 1
  | .bin p .b => p.val + 7

/-- The number of a pack condition (R5). -/
def PackCondition.code : PackCondition → Nat
  | .usable => 0 | .suspended => 1 | .exhausted => 2

/-- The number of a disposition (R9). -/
def Disposition.code : Disposition → Nat
  | .spoiled => 0 | .voided => 1 | .doubtful => 2 | .missing => 3 | .writtenOff => 4

/-- The number of a printer state (R29). -/
def PrinterState.code : PrinterState → Nat
  | .poweredDown => 0 | .starting => 1 | .ready => 2 | .busy => 3 | .heatHold => 4 | .faulted => 5 | .offline => 6
  | .disabled => 7

/-- The number of a command kind (chapter 11). -/
def CommandKind.code : CommandKind → Nat
  | .ident => 0 | .print => 1 | .poll => 2 | .clear => 3

/-- The number of a fault code (R90). -/
def FaultCode.code : FaultCode → Nat
  | .misfeed => 0 | .stripe => 1 | .binEmpty => 2 | .jam => 3 | .cutter => 4 | .coverOpen => 5 | .headHot => 6
  | .sensorFail => 7 | .linkLost => 8 | .doubt => 9 | .repeatedSpoil => 10 | .clerkNote => 11

/-- The number of a fault class. -/
def FaultClass.code : FaultClass → Nat
  | .transient => 0 | .standing => 1 | .attended => 2

/-- The number of a clearing cause. -/
def ClearingCause.code : ClearingCause → Nat
  | .transient => 0 | .met => 1 | .closed => 2 | .powerOff => 3 | .startUp => 4

/-- The number of a copy state. -/
def CopyState.code : CopyState → Nat
  | .undispatched => 0 | .inPath => 1 | .issued => 2 | .doubtful => 3

/-- The number of a stop reason. -/
def StopReason.code : StopReason → Nat
  | .cancelled => 0 | .spoilLimit => 1 | .routeLimit => 2 | .printerLost => 3

/-- The number of a job state. -/
def JobState.code : JobState → Nat
  | .queued => 0 | .printing => 1 | .ended => 2

/-- The number of a job outcome. -/
def JobOutcome.code : JobOutcome → Nat
  | .complete => 0 | .incomplete => 1

/-- The number of a job's reason. -/
def JobReason.code : JobReason → Nat
  | .cancelled => 0 | .spoilLimit => 1 | .routeLimit => 2 | .doubt => 3 | .printerLost => 4

/-- The number of a window state. -/
def WindowState.code : WindowState → Nat
  | .closed => 0 | .open => 1 | .suspended => 2 | .closing => 3 | .counting => 4 | .held => 5

/-- The number of a tender's class, in the order of R147's table. DEDUCED, notes/assumptions/15.md. -/
def TenderClass.code : TenderClass → Nat
  | .indeterminate => 0 | .exact => 1 | .within => 2 | .outOfLimit => 3 | .over => 4 | .short => 5

/-- The number of a declaration's status, in the order of R148's table. DEDUCED, notes/assumptions/15.md. -/
def DeclarationStatus.code : DeclarationStatus → Nat
  | .held => 0 | .variance => 1 | .cleared => 2

/-- The number of a record's status (R153). -/
def RecordStatus.code : RecordStatus → Nat
  | .cleared => 0 | .variance => 1 | .signedOff => 2

/-- The number of an office mode. -/
def OfficeMode.code : OfficeMode → Nat
  | .setup => 0 | .trading => 1

/-- The number of an audit status. -/
def AuditStatus.code : AuditStatus → Nat
  | .ok => 0 | .fault => 1

/-- The number of a reset cause. -/
def ResetCause.code : ResetCause → Nat
  | .powerOn => 0 | .pin => 1 | .restart => 2

/-- The number of a settings source: AREA-1 0, AREA-2 1, FACTORY 2 (R172). -/
def Area.sourceCode : Area → Nat
  | .user1 => 0 | .user2 => 1 | .factory => 2

/-- The number of a settings area in a request or notice (DEDUCED, notes/assumptions/11.md). -/
def Area.areaCode : Area → Nat
  | .user1 => 1 | .user2 => 2 | .factory => 3

/-- The number of a store operation (R178). -/
def StoreKind.code : StoreKind → Nat
  | .save => 0 | .load => 1 | .restore => 2

/-- Reply codes 0x00..0x14, in the order of the reply code table (R164, chapter 11). -/
def ReplyCode.code : ReplyCode → Nat
  | .ok => 0 | .accepted => 1 | .badCheck => 2 | .unknownRequest => 3 | .badLength => 4 | .badPosition => 5
  | .grade => 6 | .notPermitted => 7 | .range => 8 | .mode => 9 | .state => 10 | .noStock => 11 | .noPrinter => 12
  | .queueFull => 13 | .tableFull => 14 | .conflict => 15 | .notFound => 16 | .historyFull => 17 | .layout => 18
  | .busy => 19 | .storeFault => 20

/-- The number of a field kind (R77). -/
def FieldKind.code : FieldKind → Nat
  | .text _ => 0 | .serial => 1 | .value => 2 | .position => 3 | .clerk => 4 | .date => 5 | .check => 6 | .copy => 7

/-- The slot of a TEXT field; absent for the other kinds. -/
def FieldKind.slot? : FieldKind → Option Nat
  | .text n => some n
  | .serial | .value | .position | .clerk | .date | .check | .copy => none

/-- The number of a character size. -/
def FieldSize.code : FieldSize → Nat
  | .normal => 0 | .double => 1

/-- The number of a layout's reason (R80). -/
def LayoutReason.code : LayoutReason → Nat
  | .notNumbered => 0 | .serialMissing => 1 | .serialRepeated _ => 2 | .serialNarrow _ => 3 | .valueRepeated _ => 4
  | .checkRepeated _ => 5 | .overlap _ _ => 6

/-- The field indices a layout's reason concerns (R80). -/
def LayoutReason.indices : LayoutReason → List Nat
  | .notNumbered | .serialMissing => []
  | .serialRepeated i | .serialNarrow i | .valueRepeated i | .checkRepeated i => [i]
  | .overlap i j => [i, j]

/-- The number of an acceptance or a condition as a reply carries it is not sent by the MD24; a bin is A 0, B 1. -/
def Bin.code : Bin → Nat
  | .a => 0 | .b => 1

/-! ### Records -/

/-- A position byte. -/
def bPosition (pos : Position) : List Byte := be 1 pos.number

/-- A printer byte. -/
def bPrinter (p : Fin 6) : List Byte := be 1 (p.val + 1)

/-- An exception entry, in the order of R9's table. -/
def ExceptionEntry.bytes (e : ExceptionEntry) : List Byte :=
  be 4 e.first ++ be 2 e.run ++ be 1 e.disposition.code ++ bOpt 1 (e.position.map Position.number) ++ bOptZero 2 e.fault

/-- A pack record without its exception list, in the order of R3's table. -/
def Pack.bytes (k : Pack) : List Byte :=
  be 2 k.id ++ be 1 k.stockType.val ++ be 4 k.first ++ be 2 k.count ++ be 1 k.direction.code ++ bOpt 4 k.next ++
    be 2 k.remaining ++ be 1 k.location.code ++ be 1 k.condition.code

/-- A pack summary (R23). -/
def Pack.summary (k : Pack) : List Byte :=
  be 2 k.id ++ be 1 k.stockType.val ++ be 1 k.location.code ++ be 1 k.condition.code ++ be 2 k.remaining

/-- A doubtful list entry, in the order of R15's table. -/
def DoubtfulEntry.bytes (d : DoubtfulEntry) : List Byte :=
  be 2 d.pack ++ be 4 d.serial ++ bPrinter d.printer ++ bPosition d.position ++ be 2 d.shift ++ be 3 d.value ++
    be 1 d.tender.code ++ be 2 d.tag

/-- An in-path entry, in the order of R6's table. -/
def InPathEntry.bytes (e : InPathEntry) : List Byte :=
  be 2 e.pack ++ be 4 e.serial ++ be 2 e.tag ++ be 1 e.copy ++ bPosition e.position ++ be 2 e.shift ++ be 3 e.value ++
    be 1 e.tender.code ++ be 1 e.command.toNat

/-- A recent-issues entry, in the order of R125's table. -/
def RecentIssue.bytes (e : RecentIssue) : List Byte :=
  be 4 e.serial ++ be 2 e.pack ++ be 1 e.stockType.val ++ be 3 e.value ++ be 1 e.tender.code ++ be 3 e.credited ++
    bSigned e.residue

/-- A tender's sales and refunds (R128). -/
def TenderTally.bytes (t : TenderTally) : List Byte :=
  be 4 t.sales ++ be 2 t.salesCount ++ be 4 t.refunds ++ be 2 t.refundCount ++ bFlag t.saturated

/-- A stock type's issued, spoiled and voided counts (R128). -/
def StockTally.bytes (t : StockTally) : List Byte := be 2 t.issued ++ be 2 t.spoiled ++ be 2 t.voided

/-- The lifts of a tally set (R128). -/
def Tallies.liftBytes (t : Tallies) : List Byte := be 4 t.lifts ++ be 2 t.liftsCount ++ bFlag t.liftsSaturated

/-- A tally set in full (R140). -/
def Tallies.bytes (t : Tallies) : List Byte :=
  t.tender.toList.flatMap TenderTally.bytes ++ bSigned t.residue ++ t.liftBytes ++ t.stock.toList.flatMap StockTally.bytes

/-- A tender's line of the DECLARE reply (chapter 11). -/
def TenderFigure.bytes (f : TenderFigure) : List Byte :=
  bSigned f.expected ++ be 4 f.declared ++ bSigned f.variance ++ be 1 f.cls.code

/-- Twelve counts, then the twelve faces they were counted against. -/
def DeclaredFigures.countBytes (d : DeclaredFigures) : List Byte :=
  d.counts.toList.flatMap (be 2) ++ d.faces.toList.flatMap (be 3)

/-- The declared figures, in the order of R142's list. -/
def DeclaredFigures.bytes (d : DeclaredFigures) : List Byte :=
  d.countBytes ++ be 4 d.tender.cash.declared ++ bFlag d.clamped ++ be 4 d.tender.card.declared ++
    be 4 d.tender.voucher.declared ++ be 4 d.tender.warrant.declared ++
    (d.tender.toList.flatMap fun f => bSigned f.expected ++ bSigned f.variance ++ be 1 f.cls.code) ++
    be 2 d.tolerance ++ be 3 d.limit ++ be 1 d.status.code

/-- The length of the declared figures: an absent record is that many bytes with every bit set (DESIGN CHOICE, notes/assumptions/12.md). -/
def declaredLength : Nat := 127

/-- A window's record but for its tallies, list and declared figures, in the order of R110's table (R126). -/
def WindowRecord.bytes (r : WindowRecord) : List Byte :=
  be 1 r.state.code ++ bOptZero 2 r.clerk ++ bOpt 1 (r.grade.map Grade.rank) ++ bOptZero 2 r.shift ++ bOpt 3 r.opened ++
    bOpt 3 r.closedAt ++ be 3 r.float ++ be 1 r.outstanding ++ be 1 r.declarations ++ bFlag r.reserved ++
    bFlag r.countReady

/-- A shift record, in the order of R153's table. DESIGN CHOICE, notes/assumptions/13.md. -/
def ShiftRecord.bytes (r : ShiftRecord) : List Byte :=
  be 2 r.shift ++ be 1 (r.window.val + 1) ++ be 2 r.clerk ++ be 1 r.grade.rank ++ bOpt 3 r.opened ++ bOpt 3 r.closedAt ++
    be 3 r.float ++ r.tallies.tender.toList.flatMap TenderTally.bytes ++ r.figures.tender.toList.flatMap TenderFigure.bytes ++
    bSigned r.tallies.residue ++ r.tallies.liftBytes ++ r.figures.countBytes ++ bFlag r.figures.clamped ++
    be 2 r.figures.tolerance ++ be 3 r.figures.limit ++ r.tallies.stock.toList.flatMap StockTally.bytes ++
    be 1 r.declarations ++ be 1 r.status.code ++ bOptZero 2 r.signedOffBy ++ bFlag r.collected ++ bFlag r.endPending

/-- One shift record of the list READ SHIFT 0 gives (R156). -/
def ShiftRecord.summary (r : ShiftRecord) : List Byte :=
  be 2 r.shift ++ be 1 (r.window.val + 1) ++ be 1 r.status.code ++ bFlag r.collected

/-- Does a standing code carry the ready seen mark (R91)? -/
def FaultCode.needsReady : FaultCode → Bool
  | .jam | .cutter => true
  | .misfeed | .stripe | .binEmpty | .coverOpen | .headHot | .sensorFail | .linkLost | .doubt | .repeatedSpoil
  | .clerkNote => false

/-- Does a standing code carry the confirmed mark (R91)? -/
def FaultCode.needsConfirmation : FaultCode → Bool
  | .jam | .cutter | .repeatedSpoil => true
  | .misfeed | .stripe | .binEmpty | .coverOpen | .headHot | .sensorFail | .linkLost | .doubt | .clerkNote => false

/-- The marks of one code: met, ready seen for JAM and CUTTER, confirmed for JAM, CUTTER and REPEATED-SPOIL (R91).
A mark that a code does not have is left out. DESIGN CHOICE, notes/assumptions/48.md. -/
def CodeMarks.bytes (c : CodeMarks) : List Byte :=
  bFlag c.met ++ (if c.code.needsReady then bFlag c.readySeen else []) ++
    (if c.code.needsConfirmation then bFlag c.confirmed else [])

/-- A fault entry, in the order of R91's table. The marks of its codes follow one another without a count, and an entry that is not
standing sends none. DESIGN CHOICE, notes/assumptions/48.md. -/
def FaultEntry.bytes (e : FaultEntry) : List Byte :=
  be 2 e.number ++ bPrinter e.printer ++ be 1 e.cls.code ++ be 1 e.first.code.code ++
    bList (fun c => be 1 c.code.code) e.later ++
    (if e.cls = .standing then (e.first :: e.later).flatMap CodeMarks.bytes else []) ++
    bFlag e.cleared ++ bOpt 3 e.raisedAt ++ bOpt 3 e.clearedAt ++ bOpt 1 (e.cause.map ClearingCause.code) ++
    bOptZero 2 e.tag ++ bOpt 4 e.serial ++ bOptZero 2 e.pack ++ bOpt 1 (e.position.map Position.number) ++
    bOptZero 2 e.missingRun ++ bOpt 1 e.note ++ bOpt 1 (e.withdraw.map fun b => if b then 1 else 0) ++ bFlag e.pending

/-- How many copies stand in a state (R54). -/
def Job.copiesIn (j : Job) (c : CopyState) : Nat := j.copyStates.count c

/-- A job record but for its text slots, in the order of R53's table, then the three counters (R71). -/
def Job.bytes (j : Job) : List Byte :=
  be 2 j.tag ++ bPosition j.position ++ be 2 j.shift ++ be 1 j.stockType.val ++
    be 1 (match j.routing with | none => 0 | some p => p.val + 1) ++ bPrinter j.assigned ++ be 1 j.copies ++
    be 3 j.value ++ be 1 j.tender.code ++ bList (fun c => be 1 c.code) j.copyStates ++ bList (be 4) j.serials ++
    be 1 j.spoilCount ++ be 1 j.blanksSpoiled ++ be 1 j.rerouteCount ++ bFlag j.cancelRequested ++
    bOpt 1 (j.stop.map StopReason.code) ++ be 1 j.state.code ++ bOpt 1 (j.outcome.map JobOutcome.code) ++
    bOpt 1 (j.reason.map JobReason.code) ++ bFlag j.endPending ++
    be 1 (j.copiesIn .issued) ++ be 1 (j.copiesIn .doubtful) ++ be 1 (j.copiesIn .undispatched)

/-- The text slots of a job, slot 1 first, behind the slot count, which is the count of the list (R71, R188). DESIGN CHOICE,
notes/assumptions/58.md. -/
def Job.textBytes (j : Job) : List Byte := be 1 j.slots.length ++ Sys2Proof.textBytes j.slots

/-- A field entry as a setting item holds it (R77). -/
def FieldEntry.bytes (f : FieldEntry) : List Byte :=
  be 1 f.kind.code ++ bOptZero 1 f.kind.slot? ++ be 1 f.row ++ be 1 f.column ++ be 1 f.width ++ be 1 f.size.code ++
    bFlag f.stripe

/-- A layout's validity (VALID 0, INVALID 1), its reason and the reason's field indices (R79, R82). A VALID layout's reason is sent as
absent and its field indices as an empty list. DESIGN CHOICE, notes/assumptions/47.md. -/
def Layout.verdict (l : Layout) : List Byte :=
  bFlag l.invalid.isSome ++ bOpt 1 (l.invalid.map LayoutReason.code) ++
    bList (be 1) ((l.invalid.map LayoutReason.indices).getD [])

/-- A bin's last sense, or its absence (R51). DEDUCED, notes/assumptions/41.md. -/
def bSense : Option BinSense → List Byte
  | none => bAbsent 1 ++ bAbsent 1
  | some b => bFlag b.present ++ bFlag b.low

/-- A printer's identity, or its absence (R51). DEDUCED, notes/assumptions/41.md. -/
def bIdentity : Option Identity → List Byte
  | none => bAbsent 1 ++ bAbsent 1 ++ bAbsent 1 ++ bAbsent 1
  | some i => be 1 i.typeCode ++ be 1 i.headWidth ++ bFlag i.stripe ++ be 1 i.bins

/-! ### Notices (R170, chapter 11) -/

/-- The notice kind, 1..8. -/
def Notice.kind : Notice → Nat
  | .jobEnd .. => 1 | .fault .. => 2 | .stockLow .. => 3 | .countReady .. => 4 | .shiftEnd .. => 5 | .printerState .. => 6
  | .settingsDone .. => 7 | .start .. => 8

/-- The notice body: what the notice names, then what it carries. -/
def Notice.body : Notice → List Byte
  | .jobEnd tag position shift stockType assigned copies issued doubtful undispatched spoiled reroutes outcome reason
      serials =>
    be 2 tag ++ bPosition position ++ be 2 shift ++ be 1 stockType.val ++ bPrinter assigned ++ be 1 copies ++ be 1 issued ++
      be 1 doubtful ++ be 1 undispatched ++ be 1 spoiled ++ be 1 reroutes ++ bOpt 1 (outcome.map JobOutcome.code) ++
      bOpt 1 (reason.map JobReason.code) ++ bList (be 4) serials
  | .fault number printer cls first cleared cause =>
    be 2 number ++ bPrinter printer ++ be 1 cls.code ++ be 1 first.code ++ bFlag cleared ++
      bOpt 1 (cause.map ClearingCause.code)
  | .stockLow stockType remaining => be 1 stockType.val ++ be 3 remaining
  | .countReady window shift state => be 1 (window.val + 1) ++ bOptZero 2 shift ++ be 1 state.code
  | .shiftEnd shift window status classes collected =>
    be 2 shift ++ be 1 (window.val + 1) ++ be 1 status.code ++ (classes.toList.flatMap fun c => be 1 c.code) ++
      bFlag collected
  | .printerState printer state disablePending openFault =>
    bPrinter printer ++ be 1 state.code ++ bFlag disablePending ++ bOptZero 2 openFault
  | .settingsDone r =>
    be 1 r.area.areaCode ++ be 1 r.kind.code ++
      be 1 (if r.good then ReplyCode.ok.code else ReplyCode.storeFault.code) ++ bOpt 2 r.officeCode
  | .start cause audit source => be 1 cause.code ++ be 1 audit.code ++ be 1 source.sourceCode

/-- The notice part of a FETCH NOTICE reply: kind, body length, body; kind 0 for no notice. -/
def noticeBytes : Option Notice → List Byte
  | none => be 1 0 ++ be 1 0
  | some n => be 1 n.kind ++ be 1 n.body.length ++ n.body

/-! ### Frames the MD24 sends -/

/-- A reply frame (R164); none for a body above the limit of 240 bytes (DESIGN CHOICE, notes/assumptions/13.md). -/
def Reply.frame (unit : Fin 4) (r : Reply) : Option (List Byte) :=
  if r.body.length ≤ 240 then
    let covered := [BitVec.ofNat 8 (0xC0 + unit.val), BitVec.ofNat 8 r.body.length, BitVec.ofNat 8 r.code.code, r.echo] ++
      r.body
    some (0xA5#8 :: covered ++ be 2 (crc16 covered).toNat)
  else none

/-- A segment of a print line (chapter 11, PRINT body). -/
def Segment.bytes (g : Segment) : List Byte := be 1 g.column ++ be 1 g.size.code ++ be 1 g.text.length ++ g.text

/-- A print line. -/
def PrintLine.bytes (l : PrintLine) : List Byte := be 1 l.row ++ bList Segment.bytes l.segments

/-- A stripe record (chapter 11, Stripe record). -/
def StripeRecord.bytes (r : StripeRecord) : List Byte :=
  be 1 r.stockType ++ be 4 r.serial ++ be 3 r.value ++ be 1 r.position ++ be 1 r.checkCode ++ be 1 r.texts.length ++
    Sys2Proof.textBytes r.texts

/-- A PRINT body. -/
def PrintBody.bytes (b : PrintBody) : List Byte :=
  let stripe := match b.stripe with | none => [] | some r => r.bytes
  be 1 b.side.code ++ bList PrintLine.bytes b.lines ++ be 2 stripe.length ++ stripe

/-- A printer command frame (chapter 11, Printer frames). -/
def Command.frame (c : Command) : List Byte :=
  let body := match c.body with | none => [] | some b => b.bytes
  let covered := c.number :: BitVec.ofNat 8 c.kind.code :: (be 2 body.length ++ body)
  0x5A#8 :: covered ++ be 2 (crc16 covered).toNat

end Sys2Proof.Machine
end

