-- ==== Sys2Proof/Config.lean ====
section
/-! DEFINITION. What the spec leaves to the part: the two free values. Neither has a body, so nothing proved here can rest on
a value of it. -/

namespace Sys2Proof.Config

/-- The revision IDENTIFY reports, 0..255, whose value no rule gives (R172). Free value: DESIGN CHOICE, notes/assumptions/2.md. -/
opaque revision : Byte

/-- What a start-up finds in a retained memory whose battery did not hold it (00_scope.md, Electrical summary; R186, The
records after a mismatch), for the n-th time that happens. Free value: DESIGN CHOICE, notes/assumptions/3.md. -/
opaque lostRetained : Nat → Machine.Retained

end Sys2Proof.Config
end

