-- ==== Sys2Proof/Machine/Factory.lean ====
section
/-! DEFINITION. The factory values of the setting items (R174) and the records of a part whose retained memory has never
been used (R26, R109, R127, R141, R158). -/

namespace Sys2Proof.Machine

/-- Zero tallies: a CLOSED window's (R128). -/
def zeroTallies : Tallies :=
  let t : TenderTally := { sales := 0, salesCount := 0, refunds := 0, refundCount := 0, saturated := false }
  { tender := { cash := t, card := t, voucher := t, warrant := t }
    residue := 0
    lifts := 0
    liftsCount := 0
    liftsSaturated := false
    stock := Vector.replicate 8 { issued := 0, spoiled := 0, voided := 0 } }

/-- The values of R124: a CLOSED window. -/
def closedWindow : WindowRecord :=
  { state := .closed
    clerk := none
    grade := none
    shift := none
    opened := none
    closedAt := none
    float := 0
    tallies := zeroTallies
    recent := []
    outstanding := 0
    declarations := 0
    declared := none
    reserved := false
    countReady := false }

/-- The console of an unused part (R111, R127, R129). -/
def unusedConsole : ConsoleRecord :=
  { grade := .supervisor, outstanding := 0, recent := [], tallies := zeroTallies }

/-- The factory definition and threshold of a stock type (R174). Of types 2..7 the spec says only that they are undefined:
the other fields are DESIGN CHOICE, notes/assumptions/4.md. -/
def factoryStockType (k : Fin 8) : StockDefinition × Nat :=
  if k.val = 0 then ({ defined := true, numbered := true, striped := true, digits := 8 }, 200)
  else if k.val = 1 then ({ defined := true, numbered := true, striped := false, digits := 8 }, 100)
  else ({ defined := false, numbered := false, striped := false, digits := 6 }, 0)

/-- The factory settings (R174): printers 1..6 and stock types 0 and 1 at every window. -/
def factoryImage : SettingsImage :=
  { office := { code := 0, unit := 5, tolerance := 50, limit := 2000 }
    faces := #v[5000, 2000, 1000, 500, 200, 100, 50, 20, 10, 5, 2, 1]
    stockTypes := #v[factoryStockType 0, factoryStockType 1, factoryStockType 2, factoryStockType 3,
      factoryStockType 4, factoryStockType 5, factoryStockType 6, factoryStockType 7]
    layouts := Vector.replicate 8 []
    permissions := Vector.replicate 15 { printerSet := 0x7E#8, stockSet := 0x03#8, enabled := true }
    printerItems := Vector.replicate 6 { enabled := true, hold := 70, resume := 60 } }

/-- A stock type record as a load into an empty register leaves it (R1), low-notified as given. -/
def factoryRecord (k : Fin 8) (notified : Bool) : StockType :=
  { definition := (factoryStockType k).1
    threshold := (factoryStockType k).2
    lowNotified := notified
    lowPending := false }

/-- Retained memory never used, with the stock type records of the factory settings; types 0 and 1 stand below their
thresholds when `low`. -/
def unusedRetained (low : Bool) (audit : AuditStatus) (matching : Bool) : Retained :=
  { stockTypes := #v[factoryRecord 0 low, factoryRecord 1 low, factoryRecord 2 false, factoryRecord 3 false,
      factoryRecord 4 false, factoryRecord 5 false, factoryRecord 6 false, factoryRecord 7 false]
    packs := []
    doubtful := []
    inPath := Vector.replicate 6 []
    console := unusedConsole
    windows := Vector.replicate 15 closedWindow
    nextShift := 1
    history := []
    faults := []
    nextFault := 1
    audit := audit
    checksumMatches := matching }

/-- The volatile part of a printer record as a reset clears it (R52), before start-up places the printer. -/
def clearedPrinter : Printer :=
  { state := .poweredDown
    identity := none
    senseA := none
    senseB := none
    nextCommand := 0#8
    outstanding := none
    reference := none
    sentSince := 0
    lastAcceptance := none
    lastCondition := none
    timeoutCount := 0
    identTries := 0
    temperatures := []
    average := none
    limits := none
    sensorFailed := false
    spoilCount := 0
    counters := Vector.replicate 12 0
    openFault := none
    confirmPending := false
    disablePending := false
    statePending := false
    queue := []
    refill := false
    sent := none }

end Sys2Proof.Machine
end

