-- ==== Sys2Proof/Machine/Flash.lean ====
section
/-! DEFINITION. The setting items as bytes, and the three flash areas (R174, R175, R177): a whole set of items with its CRC-16,
good when the CRC matches the contents. -/

namespace Sys2Proof.Machine

/-! ### Items (R174, R175) -/

/-- The OFFICE item. -/
def OfficeItem.bytes (o : OfficeItem) : List Byte := be 2 o.code ++ be 1 o.unit ++ be 2 o.tolerance ++ be 3 o.limit

/-- The fields of the STOCK TYPE item. -/
def stockItemBytes (d : StockDefinition) (threshold : Nat) : List Byte :=
  bFlag d.defined ++ bFlag d.numbered ++ bFlag d.striped ++ be 1 d.digits ++ be 2 threshold

/-- The POSITION item. -/
def Permissions.bytes (m : Permissions) : List Byte := [m.printerSet, m.stockSet] ++ bFlag m.enabled

/-- The stored fields of the PRINTER item. -/
def PrinterItem.stored (i : PrinterItem) : List Byte := bFlag i.enabled ++ be 1 i.hold ++ be 1 i.resume

/-- A whole set of items, the items in the order of R174 and every field by R188. DESIGN CHOICE, notes/assumptions/39.md. -/
def SettingsImage.bytes (m : SettingsImage) : List Byte :=
  m.office.bytes ++ m.faces.toList.flatMap (be 3) ++ (m.stockTypes.toList.flatMap fun x => stockItemBytes x.1 x.2) ++
    m.layouts.toList.flatMap (bList FieldEntry.bytes) ++ m.permissions.toList.flatMap Permissions.bytes ++
    m.printerItems.toList.flatMap PrinterItem.stored

/-- The CRC-16 over a set of items, computed as on the host link (R162, R177). -/
def SettingsImage.crc (m : SettingsImage) : BitVec 16 := crc16 m.bytes

/-! ### Areas (R177) -/

/-- An area with nothing in it: never written, or erased at the start of a write (R177, R178). Erased bits read as 1
(PRESUMED, notes/assumptions/39.md). -/
def FlashArea.erased : FlashArea := { contents := none, crc := 0xFFFF#16 }

/-- An area written whole, its CRC last (R178). -/
def FlashArea.holding (m : SettingsImage) : FlashArea := { contents := some m, crc := m.crc }

/-- The contents of a good area: one whose CRC matches its contents; none for a bad one (R177). -/
def FlashArea.good (a : FlashArea) : Option SettingsImage := a.contents.filter fun m => decide (a.crc = m.crc)

/-- User area 1, when good. -/
def Flash.user1 (f : Flash) : Option SettingsImage := f.area1.good

/-- User area 2, when good. -/
def Flash.user2 (f : Flash) : Option SettingsImage := f.area2.good

/-- The factory area, when good. -/
def Flash.factory (f : Flash) : Option SettingsImage := f.factoryArea.good

/-- The contents of an area, when good (R177). -/
def Flash.read (f : Flash) : Area → Option SettingsImage
  | .user1 => f.user1
  | .user2 => f.user2
  | .factory => f.factory

/-- What a write leaves in an area: a whole set with its CRC, or nothing. -/
def FlashArea.written : Option SettingsImage → FlashArea
  | some m => .holding m
  | none => .erased

/-- A user area written or erased; the factory area cannot be (R177). -/
def Flash.write (f : Flash) (a : Area) (m : Option SettingsImage) : Flash :=
  match a with
  | .user1 => { f with area1 := .written m }
  | .user2 => { f with area2 := .written m }
  | .factory => f

/-- The first good area in the order start-up reads them, and its contents; the factory values when all are bad (R186, step 3). -/
def Flash.firstGood (f : Flash) : Area × SettingsImage :=
  match f.user1, f.user2, f.factory with
  | some m, _, _ => (.user1, m)
  | none, some m, _ => (.user2, m)
  | none, none, some m => (.factory, m)
  | none, none, none => (.factory, factoryImage)

/-- The user area as a restore's start leaves it: bad when the factory area is good, untouched when it is not (R180).
DEDUCED, notes/assumptions/28.md. -/
def Flash.beginRestore (f : Flash) (a : Area) : Flash := if f.factory.isSome then f.write a none else f

/-- The flash of a new part: both user areas never written, the factory area written at manufacture (R177).
DESIGN CHOICE, notes/assumptions/1.md. -/
def Flash.new : Flash := { area1 := .erased, area2 := .erased, factoryArea := .holding factoryImage }

end Sys2Proof.Machine
end

