-- ==== Sys2Proof/Machine/State.lean ====
section
/-! DEFINITION. The state of the MD24, and the state a new part is in when its first start-up has ended. -/

namespace Sys2Proof.Machine

/-- Everything the spec gives the part (INVENTORY.md, State), and the queue of the commands that wait. -/
structure State where
  /-- Retained memory (R24). -/
  ret       : Retained
  /-- The volatile printer records, port 1 first (R28). -/
  printers  : Vector Printer 6
  /-- The job pool (R53). Among its ENDED records the one that ended earlier stands earlier (R169): an end moves its record to
  the tail. -/
  pool      : List Job
  /-- The next-tag value (R55). -/
  nextTag   : Nat
  /-- The link controller (R159 to R164). -/
  link      : Link
  /-- The notice queue (R166 to R168). -/
  notices   : NoticeQueue
  /-- The live settings (R174). -/
  live      : LiveSettings
  /-- The settings store (R178). -/
  store     : Store
  /-- The three flash areas (R177). -/
  flash     : Flash
  /-- Office control (R181 to R183). -/
  office    : Office
  /-- The fitted count read from the straps, 1..6 (R52). -/
  fitted    : Nat
  /-- The MODEL's own: how often a free value has been drawn (DESIGN CHOICE, notes/assumptions/3.md). -/
  freeDraws : Nat
  /-- The commands that wait, first in first out. -/
  pending   : List Instr
  deriving DecidableEq, Repr

/-- The MD24 never stops: no rule gives a command an outcome after which the part does not go on. -/
inductive Fault where
  deriving DecidableEq, Repr

/-- Why a command has no meaning. -/
inductive Refusal where
  /-- Raised by `exec` for a command whose meaning is not written. Safe: nothing is claimed of the command. -/
  | notModelled (mnemonic : String)
  deriving DecidableEq, Repr

/-- A printer that start-up has just put in STARTING: its first IDENT, number 0, is outstanding (R44, R52). -/
def identifyingPrinter : Printer :=
  { clearedPrinter with
    state := .starting
    nextCommand := 1#8
    outstanding := some (0#8, .ident)
    sentSince := 1
    identTries := 1
    sent := some { number := 0#8, kind := .ident, body := none } }

/-- A new part when its first start-up (power-on, every strap pin low) has ended: R52, R76, R173, R186, R187 give the values.
The retained memory has never been used, so its checksum did not match (R184). START is in the notice queue, and behind it,
in the order of R169, the six printers placed in STARTING and the two stock types below their thresholds.
DESIGN CHOICE, notes/assumptions/1.md. -/
def State.reset : State :=
  { ret := unusedRetained true .fault true
    printers := Vector.replicate 6 identifyingPrinter
    pool := []
    nextTag := 1
    link :=
      { receiver := .hunting
        unit := 0
        rate := 0
        reply := none
        leaving := false
        rateNext := none
        restartNext := false }
    notices :=
      { queue := [
          .start .powerOn .fault .factory,
          .printerState 0 .starting false none,
          .printerState 1 .starting false none,
          .printerState 2 .starting false none,
          .printerState 3 .starting false none,
          .printerState 4 .starting false none,
          .printerState 5 .starting false none,
          .stockLow 0 0,
          .stockLow 1 0]
        lastFetched := none
        attention := true
        started := true }
    live :=
      { office := factoryImage.office
        faces := factoryImage.faces
        layouts := #v[{ entries := [], invalid := some .serialMissing }, { entries := [], invalid := some .serialMissing },
          { entries := [], invalid := some .notNumbered }, { entries := [], invalid := some .notNumbered },
          { entries := [], invalid := some .notNumbered }, { entries := [], invalid := some .notNumbered },
          { entries := [], invalid := some .notNumbered }, { entries := [], invalid := some .notNumbered }]
        permissions := factoryImage.permissions
        printerItems := factoryImage.printerItems }
    store := { running := none, donePending := false, lastResult := none, source := .factory }
    flash := .new
    office := { mode := .setup, date := none, clock := none, resetCause := .powerOn }
    fitted := 6
    freeDraws := 0
    pending := [] }

end Sys2Proof.Machine
end

