-- ==== Sys2Proof/Machine/Ops.lean ====
section
/-! DEFINITION. The named reads and updates of the state, and how a request is judged and answered (R112, R163, R165). -/

namespace Sys2Proof.Machine

/-! ### One update per field -/

/-- `s` with its ret replaced. -/
def State.setRet (s : State) (x : Retained) : State := { s with ret := x }

/-- `s` with its printers replaced. -/
def State.setPrinters (s : State) (x : Vector Printer 6) : State := { s with printers := x }

/-- `s` with its pool replaced. -/
def State.setPool (s : State) (x : List Job) : State := { s with pool := x }

/-- `s` with its nextTag replaced. -/
def State.setNextTag (s : State) (x : Nat) : State := { s with nextTag := x }

/-- `s` with its link replaced. -/
def State.setLink (s : State) (x : Link) : State := { s with link := x }

/-- `s` with its notices replaced. -/
def State.setNotices (s : State) (x : NoticeQueue) : State := { s with notices := x }

/-- `s` with its live replaced. -/
def State.setLive (s : State) (x : LiveSettings) : State := { s with live := x }

/-- `s` with its store replaced. -/
def State.setStore (s : State) (x : Store) : State := { s with store := x }

/-- `s` with its flash replaced. -/
def State.setFlash (s : State) (x : Flash) : State := { s with flash := x }

/-- `s` with its office replaced. -/
def State.setOffice (s : State) (x : Office) : State := { s with office := x }

/-- `s` with its fitted replaced. -/
def State.setFitted (s : State) (x : Nat) : State := { s with fitted := x }

/-- `s` with its freeDraws replaced. -/
def State.setFreeDraws (s : State) (x : Nat) : State := { s with freeDraws := x }

/-- `s` with its pending replaced. -/
def State.setPending (s : State) (x : List Instr) : State := { s with pending := x }

/-- `s` with its retained stockTypes replaced. -/
def State.setStockTypes (s : State) (x : Vector StockType 8) : State := { s with ret := { s.ret with stockTypes := x } }

/-- `s` with its retained packs replaced. -/
def State.setPacks (s : State) (x : List Pack) : State := { s with ret := { s.ret with packs := x } }

/-- `s` with its retained doubtful replaced. -/
def State.setDoubtful (s : State) (x : List DoubtfulEntry) : State := { s with ret := { s.ret with doubtful := x } }

/-- `s` with its retained inPath replaced. -/
def State.setInPath (s : State) (x : Vector (List InPathEntry) 6) : State := { s with ret := { s.ret with inPath := x } }

/-- `s` with its retained console replaced. -/
def State.setConsole (s : State) (x : ConsoleRecord) : State := { s with ret := { s.ret with console := x } }

/-- `s` with its retained windows replaced. -/
def State.setWindows (s : State) (x : Vector WindowRecord 15) : State := { s with ret := { s.ret with windows := x } }

/-- `s` with its retained nextShift replaced. -/
def State.setNextShift (s : State) (x : Nat) : State := { s with ret := { s.ret with nextShift := x } }

/-- `s` with its retained history replaced. -/
def State.setHistory (s : State) (x : List ShiftRecord) : State := { s with ret := { s.ret with history := x } }

/-- `s` with its retained faults replaced. -/
def State.setFaults (s : State) (x : List FaultEntry) : State := { s with ret := { s.ret with faults := x } }

/-- `s` with its retained nextFault replaced. -/
def State.setNextFault (s : State) (x : Nat) : State := { s with ret := { s.ret with nextFault := x } }

/-- `s` with its retained audit replaced. -/
def State.setAudit (s : State) (x : AuditStatus) : State := { s with ret := { s.ret with audit := x } }

/-- `s` with its retained checksumMatches replaced. -/
def State.setChecksum (s : State) (x : Bool) : State := { s with ret := { s.ret with checksumMatches := x } }
/-! ### Records by their numbers -/

/-- The six printers, by number. -/
def allPrinters : List (Fin 6) := List.finRange 6

/-- The fifteen windows, by position. -/
def allWindows : List (Fin 15) := List.finRange 15

/-- The eight stock types, by number. -/
def allTypes : List (Fin 8) := List.finRange 8

/-- The record of a printer. -/
def State.printer (s : State) (p : Fin 6) : Printer := s.printers[p]

/-- The in-path list of a printer (R6), oldest first. -/
def State.path (s : State) (p : Fin 6) : List InPathEntry := s.ret.inPath[p]

/-- The record of a window. -/
def State.window (s : State) (w : Fin 15) : WindowRecord := s.ret.windows[w]

/-- The record of a stock type. -/
def State.stockType (s : State) (t : Fin 8) : StockType := s.ret.stockTypes[t]

/-- The layout table of a stock type. -/
def State.layout (s : State) (t : Fin 8) : Layout := s.live.layouts[t]

/-- The pack record with an id, if the pack table holds one. -/
def State.pack? (s : State) (id : Nat) : Option Pack := s.ret.packs.find? (·.id = id)

/-- The job record with a tag, if the pool holds one. -/
def State.job? (s : State) (tag : Nat) : Option Job := s.pool.find? (·.tag = tag)

/-- The fault entry with a number, if the log holds one. -/
def State.fault? (s : State) (number : Nat) : Option FaultEntry := s.ret.faults.find? (·.number = number)

/-- The shift record with a number, if the history holds one. -/
def State.record? (s : State) (number : Nat) : Option ShiftRecord := s.ret.history.find? (·.shift = number)

/-- The pack the register locates in a bin (R28). -/
def State.binPack? (s : State) (p : Fin 6) (side : Bin) : Option Pack :=
  s.ret.packs.find? (·.location = .bin p side)

/-- One printer's record changed. -/
def State.modPrinter (s : State) (p : Fin 6) (f : Printer → Printer) : State :=
  s.setPrinters (updAt s.printers p f)

/-- One window's record changed. -/
def State.modWindow (s : State) (w : Fin 15) (f : WindowRecord → WindowRecord) : State :=
  s.setWindows (updAt s.ret.windows w f)

/-- One stock type's record changed. -/
def State.modStockType (s : State) (t : Fin 8) (f : StockType → StockType) : State :=
  s.setStockTypes (updAt s.ret.stockTypes t f)

/-- The pack record with an id changed; of two under one id, both. DESIGN CHOICE, notes/assumptions/54.md. -/
def State.modPack (s : State) (id : Nat) (f : Pack → Pack) : State :=
  s.setPacks (s.ret.packs.map fun k => if k.id = id then f k else k)

/-- The job record with a tag changed. -/
def State.modJob (s : State) (tag : Nat) (f : Job → Job) : State :=
  s.setPool (s.pool.map fun j => if j.tag = tag then f j else j)

/-- The fault entry with a number changed. -/
def State.modFault (s : State) (number : Nat) (f : FaultEntry → FaultEntry) : State :=
  s.setFaults (s.ret.faults.map fun e => if e.number = number then f e else e)

/-- The shift record with a number changed. -/
def State.modRecord (s : State) (number : Nat) (f : ShiftRecord → ShiftRecord) : State :=
  s.setHistory (s.ret.history.map fun r => if r.shift = number then f r else r)

/-- A position's outstanding count changed (R110, R111). -/
def State.modOutstanding (s : State) (pos : Position) (f : Nat → Nat) : State :=
  match pos with
  | .console => s.setConsole { s.ret.console with outstanding := f s.ret.console.outstanding }
  | .window w => s.modWindow w fun r => { r with outstanding := f r.outstanding }

/-- A position's outstanding count. -/
def State.outstanding (s : State) : Position → Nat
  | .console => s.ret.console.outstanding
  | .window w => (s.window w).outstanding

/-- A position's recent-issues list (R125). -/
def State.recent (s : State) : Position → List RecentIssue
  | .console => s.ret.console.recent
  | .window w => (s.window w).recent

/-! ### Numbering that wraps (00_scope.md, Conventions) -/

/-- The number after `n`: 1 after 65,535, and 0 never. -/
def bump (n : Nat) : Nat := if n ≥ 65535 then 1 else n + 1

/-- The first of `n` and the numbers after it that is not used, within `k` tries. -/
def firstFree : Nat → List Nat → Nat → Nat
  | 0, _, n => n
  | k + 1, used, n => if n ∈ used then firstFree k used (bump n) else n

/-- The first free number from `n` on: as many tries as there are used numbers are enough. -/
def freeNumber (used : List Nat) (n : Nat) : Nat := firstFree used.length used n

/-- A count that stops at its limit (00_scope.md, Saturating counters). -/
def saturating (limit n : Nat) : Nat := if n > limit then limit else n

/-! ### Judging and answering a request -/

/-- The reply code of the first check that fails, the checks in the order a rule gives them (R163). -/
def judge : List (Bool × ReplyCode) → Option ReplyCode
  | [] => none
  | (passes, code) :: rest => if passes then judge rest else some code

/-- The reply frame goes to the transmitter (R164).
DESIGN CHOICE, notes/assumptions/7.md. DESIGN CHOICE, notes/assumptions/9.md. -/
def State.answer (s : State) (code : ReplyCode) (request : Nat) (body : List Byte) : State :=
  s.setLink { s.link with reply := some { code := code, echo := BitVec.ofNat 8 request, body := body }, leaving := true }

/-- A request judged by its checks: a refusal changes nothing but the reply, whose body is empty (R163, R164). -/
def State.judged (s : State) (request : Nat) (checks : List (Bool × ReplyCode)) (taken : State) : State :=
  match judge checks with
  | some code => s.answer code request []
  | none => taken

/-- The grade of a position (R112): a CLOSED window holds none. -/
def State.gradeOf (s : State) : Position → Option Grade
  | .console => some .supervisor
  | .window w => if (s.window w).state = .closed then none else (s.window w).grade

/-- Does a position hold a grade or a higher one (R112)? -/
def State.holds (s : State) (pos : Position) (needed : Grade) : Bool :=
  match s.gradeOf pos with
  | none => false
  | some g => decide (needed.rank ≤ g.rank)

/-- Does a position hold SUPERVISOR? -/
def State.supervises (s : State) (pos : Position) : Bool := s.holds pos .supervisor

/-- The window numbered 1..15. -/
def windowOf (n : Nat) : Option (Fin 15) :=
  if h : 1 ≤ n ∧ n - 1 < 15 then some ⟨n - 1, h.2⟩ else none

/-- The subject window of a shift request (R112): the requesting window, or the console's target. -/
def subjectOf (pos : Position) (target : Nat) : Option (Fin 15) :=
  match pos with
  | .window w => some w
  | .console => windowOf target

/-- The shift number a position's jobs carry: 0 for the console (R53), and for a window that holds none (DESIGN CHOICE,
notes/assumptions/59.md). -/
def State.shiftOf (s : State) : Position → Nat
  | .console => 0
  | .window w => (s.window w).shift.getD 0

end Sys2Proof.Machine
end

