-- ==== Sys2Proof/Machine/Operands.lean ====
section
/-! DEFINITION. The fields of a request read as values: every enumeration is numbered from 0 in the order in which the
manual first lists it, and a value outside its list or range is none (R188, Enumerations, Received values). -/

namespace Sys2Proof.Machine

/-- A printer 1..6. -/
def printerOf (n : Nat) : Option (Fin 6) :=
  if h : 1 ≤ n ∧ n - 1 < 6 then some ⟨n - 1, h.2⟩ else none

/-- A stock type 0..7. -/
def stockOf (n : Nat) : Option (Fin 8) :=
  if h : n < 8 then some ⟨n, h⟩ else none

/-- A yes/no field: 1 is yes and 0 is no (R188). DESIGN CHOICE, notes/assumptions/50.md. -/
def flagOf : Nat → Option Bool
  | 0 => some false
  | 1 => some true
  | _ => none

/-- CASH 0, CARD 1, VOUCHER 2, WARRANT 3. -/
def tenderOf : Nat → Option Tender
  | 0 => some .cash
  | 1 => some .card
  | 2 => some .voucher
  | 3 => some .warrant
  | _ => none

/-- RELIEF 0, CLERK 1, SUPERVISOR 2. -/
def gradeOf : Nat → Option Grade
  | 0 => some .relief
  | 1 => some .clerk
  | 2 => some .supervisor
  | _ => none

/-- ASCENDING 0, DESCENDING 1. -/
def directionOf : Nat → Option Direction
  | 0 => some .ascending
  | 1 => some .descending
  | _ => none

/-- A routing: 0 is AUTO, 1..6 a printer. -/
def routingOf (n : Nat) : Option (Option (Fin 6)) :=
  if n = 0 then some none else (printerOf n).map some

/-- A destination or location: 0 STORE, 1..6 bin A of the printer, 7..12 bin B (DEDUCED, notes/assumptions/10.md). -/
def locationOf (n : Nat) : Option Location :=
  if n = 0 then some .store
  else if n ≤ 6 then (printerOf n).map (Location.bin · .a)
  else (printerOf (n - 6)).map (Location.bin · .b)

/-- A settings area: 1, 2, or 3 for factory (DEDUCED, notes/assumptions/11.md). -/
def areaOf : Nat → Option Area
  | 1 => some .user1
  | 2 => some .user2
  | 3 => some .factory
  | _ => none

/-- A user area: 1 or 2. -/
def userAreaOf : Nat → Option Area
  | 1 => some .user1
  | 2 => some .user2
  | _ => none

/-- Is a character in the printable range 0x20..0x7E? -/
def printable (c : Byte) : Bool := decide (0x20 ≤ c.toNat ∧ c.toNat ≤ 0x7E)

/-- Are the text slots in range (R56, check 5)? -/
def slotsInRange (slots : List (List Byte)) : Bool :=
  decide (slots.length ≤ 8) && slots.all fun t => decide (t.length ≤ 32) && t.all printable

/-- A number within a range that includes both ends. -/
def within (lo hi n : Nat) : Bool := decide (lo ≤ n ∧ n ≤ hi)

/-- A serial 0..999,999,999. -/
def serialInRange (n : Nat) : Bool := decide (n ≤ 999999999)

/-- A field of `w` bytes with every bit set. It stands for absence in a field whose range takes in 0, and is out of range at the check of
such a field where the request does not allow absence (R188). DEDUCED, notes/assumptions/51.md. -/
def everyBit (w : Nat) : Nat := 256 ^ w - 1

/-- A number 1..65,535, as tags, pack ids, fault, shift and clerk numbers are: an absent one is sent as 0, so that 65,535 is a number
like any other (R188). -/
def numberInRange (n : Nat) : Bool := within 1 65535 n

/-- Is a printer in the position's printer set (R113)? The console has no set and passes. -/
def State.permitsPrinter (s : State) (pos : Position) (p : Fin 6) : Bool :=
  match pos with
  | .console => true
  | .window w => (s.live.permissions[w]).printerSet.getLsbD (p.val + 1)

/-- Is a stock type number in the position's stock set (R113)? No set holds a number above 7. -/
def State.permitsStock (s : State) (pos : Position) (t : Nat) : Bool :=
  match pos with
  | .console => true
  | .window w => decide (t < 8) && (s.live.permissions[w]).stockSet.getLsbD t

/-- The kind of a raw field entry; a TEXT needs its slot 1..8 (R79, check 2). DESIGN CHOICE, notes/assumptions/25.md. -/
def fieldKindOf (kind slot : Nat) : Option FieldKind :=
  match kind with
  | 0 => if 1 ≤ slot ∧ slot ≤ 8 then some (.text slot) else none
  | 1 => some .serial
  | 2 => some .value
  | 3 => some .position
  | 4 => some .clerk
  | 5 => some .date
  | 6 => some .check
  | 7 => some .copy
  | _ => none

/-- NORMAL 0, DOUBLE 1. -/
def fieldSizeOf : Nat → Option FieldSize
  | 0 => some .normal
  | 1 => some .double
  | _ => none

/-- How many columns a field of a width occupies (R78). -/
def occupiedWidth (size : FieldSize) (width : Nat) : Nat :=
  match size with
  | .normal => width
  | .double => 2 * width

/-- A field entry within its own ranges (R79, check 2). -/
def fieldOf (f : RawField) : Option FieldEntry := do
  let kind ← fieldKindOf f.kind f.slot
  let size ← fieldSizeOf f.size
  let stripe ← flagOf f.stripe
  if f.row ≤ 15 ∧ f.column ≤ 63 ∧ 1 ≤ f.width ∧ f.width ≤ 32 ∧ f.column + occupiedWidth size f.width ≤ 64 ∧
      (size = .double → f.row ≤ 14) then
    some { kind := kind, row := f.row, column := f.column, width := f.width, size := size, stripe := stripe }
  else none

/-- Every entry within its own ranges, or none. -/
def fieldsOf : List RawField → Option (List FieldEntry)
  | [] => some []
  | f :: rest => do
    let e ← fieldOf f
    let es ← fieldsOf rest
    some (e :: es)

end Sys2Proof.Machine
end

