-- ==== Sys2Proof/Machine/Receiver.lean ====
section
/-! DEFINITION. The receiver of the host link (R159, R161, R162): what it does with each byte of the line, and when the frame of a
request is taken. -/

namespace Sys2Proof.Machine

/-- The number of a byte that starts a frame (R161). -/
def startByte : Nat := 0xA5

/-- The receiver after the length byte of a frame (R161): a frame for another unit, or one that overlaps a reply, is skipped. -/
def afterLength (own : Bool) (address length : Byte) : Receiver :=
  if length.toNat > 240 then .hunting
  else if own then .body [address, length] (length.toNat + 4)
  else .skipping (length.toNat + 4)

/-- The receiver after a byte, but for the last byte of a frame taken whole (R161). -/
def Receiver.take (unit : Fin 4) (leaving : Bool) (b : Byte) : Receiver → Receiver
  | .hunting => if b.toNat = startByte then .header leaving none else .hunting
  | .header overlap none =>
    if 0xB0 ≤ b.toNat ∧ b.toNat < 0xB4 then .header overlap (some b) else .hunting
  | .header overlap (some a) => afterLength (decide (a.toNat = 0xB0 + unit.val) && !overlap) a b
  | .body got left => if left ≤ 1 then .hunting else .body (got ++ [b]) (left - 1)
  | .skipping left => if left ≤ 1 then .hunting else .skipping (left - 1)

/-- The frame a byte completes, from its address byte to its last CRC byte (R161). -/
def Receiver.completes (b : Byte) : Receiver → Option (List Byte)
  | .body got left => if left ≤ 1 then some (got ++ [b]) else none
  | .hunting | .header _ _ | .skipping _ => none

/-- The checks of R162 on a complete frame. A length is judged before the position, so any position serves to judge it. -/
def frameChecks (f : List Byte) : List (Bool × ReplyCode) :=
  let n := field f 1 1
  let code := field f 2 1
  let body := (f.drop 4).take n
  [(decide ((crc16 (f.take (n + 4))).toNat = field f (n + 4) 2), .badCheck),
    (knownCode code, .unknownRequest),
    ((parseRequest code .console body).isSome, .badLength),
    ((Position.ofNumber (field f 3 1)).isSome, .badPosition)]

/-- A complete frame checked: the first failure is answered, the request code echoed as received (R162). A frame that passes
brings a request, which is a command of its own. DESIGN CHOICE, notes/assumptions/23.md. -/
def State.checkFrame (s : State) (f : List Byte) : State := s.judged (field f 2 1) (frameChecks f) s

/-- One byte received (R161). -/
def State.receiveByte (s : State) (b : Byte) : State :=
  let done := s.link.receiver.completes b
  let s := s.setLink { s.link with receiver := s.link.receiver.take s.link.unit s.link.leaving b }
  match done with
  | none => s
  | some f => s.checkFrame f

/-- One byte of the line (R159): a byte with a framing error is discarded as if it had not arrived. -/
def State.hear (s : State) : LineByte → State
  | .whole b => s.receiveByte b
  | .framingError => s

/-- A stretch of the line received, byte after byte. -/
def State.receiveLine (s : State) (line : List LineByte) : State := line.foldl State.hear s

/-- Does a request frame that begins now reach the checks (R161)? Only while HUNTING does a start byte start a frame, and a frame that
overlaps a reply still leaving is discarded. -/
def State.lineFree (s : State) : Bool := decide (s.link.receiver = .hunting) && !s.link.leaving

/-- The frame of a request has come (R161, R163): `t` is what its meaning leaves when the frame reaches the checks. Otherwise its
bytes go through the receiver as any others: those that fall inside a frame begun before start nothing, and a frame that overlaps a
reply is discarded. DEDUCED, notes/assumptions/9.md. -/
def State.taken (s : State) (i : Instr) (t : State) : Host.Outcome State Fault Refusal :=
  .next (if s.lineFree then t else s.receiveLine ((i.frame s.link.unit).map .whole))

end Sys2Proof.Machine
end

