-- ==== Sys2Proof/Machine/Flags.lean ====
section
/-! DEFINITION. The pending flags and the arbiter of the notice queue (R166 to R171): which record waits first, what its
notice says, and what placing it does. A flag is set by changing its record and then letting the arbiter act. -/

namespace Sys2Proof.Machine

/-- The total remaining of a stock type: over its USABLE packs (R2). -/
def State.totalRemaining (s : State) (t : Fin 8) : Nat :=
  ((s.ret.packs.filter fun k => decide (k.stockType = t ∧ k.condition = .usable)).map (·.remaining)).sum

/-- A record that waits for the notice queue (R168). -/
inductive Waiting where
  | job (j : Job)
  | fault (e : FaultEntry)
  | countReady (w : Fin 15)
  | shiftEnd (r : ShiftRecord)
  | printer (p : Fin 6)
  | stockType (t : Fin 8)
  | store (result : StoreResult)
  deriving DecidableEq, Repr

/-- The first waiting record of one position: COUNT-READY before its SHIFT-END records, those oldest first (R169). -/
def State.waitingAt (s : State) (w : Fin 15) : Option Waiting :=
  if (s.window w).countReady then some (.countReady w)
  else (s.ret.history.find? fun r => decide (r.window = w) && r.endPending).map .shiftEnd

/-- The first waiting record in the order of R169. -/
def State.firstWaiting (s : State) : Option Waiting :=
  ((s.pool.find? (·.endPending)).map .job).or <|
  ((s.ret.faults.find? (·.pending)).map .fault).or <|
  (allWindows.findSome? s.waitingAt).or <|
  ((allPrinters.find? fun p => (s.printer p).statePending).map .printer).or <|
  ((allTypes.find? fun t => (s.stockType t).lowPending).map .stockType).or <|
  if s.store.donePending then s.store.lastResult.map .store else none

/-- The JOB-END notice of a job (R66). -/
def Job.notice (j : Job) : Notice :=
  .jobEnd j.tag j.position j.shift j.stockType j.assigned j.copies (j.copiesIn .issued) (j.copiesIn .doubtful)
    (j.copiesIn .undispatched) j.blanksSpoiled j.rerouteCount j.outcome j.reason j.serials

/-- The notice of a waiting record as the state stands (R170). -/
def State.noticeOf (s : State) : Waiting → Notice
  | .job j => j.notice
  | .fault e => .fault e.number e.printer e.cls e.first.code e.cleared e.cause
  | .countReady w => .countReady w (s.window w).shift (s.window w).state
  | .shiftEnd r => .shiftEnd r.shift r.window r.status (r.figures.tender.map fun _ f => f.cls) r.collected
  | .printer p => .printerState p (s.printer p).state (s.printer p).disablePending (s.printer p).openFault
  | .stockType t => .stockLow t (s.totalRemaining t)
  | .store r => .settingsDone r

/-- A window enters COUNTING: COUNT-READY pending is set (R122). -/
def WindowRecord.enterCounting (r : WindowRecord) : WindowRecord := { r with state := .counting, countReady := true }

/-- A job record returns to the pool, and its position's outstanding count falls by one; a CLOSING window whose count
reaches 0 goes to COUNTING (R66, R121, R171). -/
def State.releaseJob (s : State) (j : Job) : State :=
  let s := (s.setPool (s.pool.filter fun k => decide (k.tag ≠ j.tag))).modOutstanding j.position (· - 1)
  match j.position with
  | .console => s
  | .window w =>
    if (s.window w).state = .closing ∧ (s.window w).outstanding = 0 then s.modWindow w WindowRecord.enterCounting else s

/-- What placing a notice does to its record (R171). -/
def State.settlePlaced (s : State) : Waiting → State
  | .job j => s.releaseJob j
  | .fault e => s.modFault e.number fun x => { x with pending := false }
  | .countReady w => s.modWindow w fun r => { r with countReady := false }
  | .shiftEnd r => s.modRecord r.shift fun x => { x with endPending := false }
  | .printer p => s.modPrinter p fun x => { x with statePending := false }
  | .stockType t => s.modStockType t fun x => { x with lowPending := false }
  | .store _ => s.setStore { s.store with donePending := false }

/-- A notice placed at the end of the queue; the attention line is driven (R166, R167). -/
def State.pushNotice (s : State) (n : Notice) : State :=
  s.setNotices { s.notices with queue := s.notices.queue ++ [n], attention := true }

/-- The queue's limit (R166). -/
def noticeLimit : Nat := 32

/-- Places filled from the waiting records, one at a time in the order of R169, while the queue has room and `fuel` lasts. -/
def fillPlaces : Nat → State → State
  | 0, s => s
  | fuel + 1, s =>
    if s.notices.queue.length < noticeLimit then
      match s.firstWaiting with
      | none => s
      | some w => fillPlaces fuel ((s.pushNotice (s.noticeOf w)).settlePlaced w)
    else s

/-- The arbiter acts: never before START has been placed (R168). Each placement takes one of 32 places, so 32 are enough.
DEDUCED, notes/assumptions/19.md. -/
def State.arbitrate (s : State) : State :=
  if s.notices.started then fillPlaces noticeLimit s else s

/-- Does any record wait for a place (R166)? -/
def State.anyWaiting (s : State) : Bool := s.firstWaiting.isSome

/-- The low-stock check for a stock type (R2). -/
def State.lowStockCheck (s : State) (t : Fin 8) : State :=
  let k := s.stockType t
  if k.definition.defined && k.definition.numbered then
    if s.totalRemaining t < k.threshold then
      if k.lowNotified then s
      else (s.modStockType t fun x => { x with lowNotified := true, lowPending := true }).arbitrate
    else s.modStockType t fun x => { x with lowNotified := false }
  else s

/-- The low-stock check for every stock type, in number order (R26). -/
def State.lowStockAll (s : State) : State := allTypes.foldl State.lowStockCheck s

end Sys2Proof.Machine
end

