-- ==== Sys2Proof/Machine/Composer.lean ====
section
/-! DEFINITION. The ticket composer (chapter 4): the combined check and the extent of a layout, field contents, the check
code, print lines and the stripe record. -/

namespace Sys2Proof.Machine

/-! ### Layouts (R78, R80) -/

/-- The columns a field occupies (R78). -/
def FieldEntry.occupied (f : FieldEntry) : Nat := occupiedWidth f.size f.width

/-- The rows a field occupies (R78). -/
def FieldEntry.height (f : FieldEntry) : Nat :=
  match f.size with
  | .normal => 1
  | .double => 2

/-- The layout extent (R78). -/
def layoutExtent (fields : List FieldEntry) : Nat :=
  (fields.map fun f => f.column + f.occupied).foldl max 0

/-- Do the rectangles of two fields share a cell (R78)? -/
def FieldEntry.overlaps (f g : FieldEntry) : Bool :=
  decide (f.row < g.row + g.height ∧ g.row < f.row + f.height ∧
    f.column < g.column + g.occupied ∧ g.column < f.column + f.occupied)

/-- The indices of the fields of a kind, in layout order. -/
def indicesOf (kind : FieldKind) (fields : List FieldEntry) : List Nat :=
  (fields.zipIdx.filter fun p => decide (p.1.kind = kind)).map (·.2)

/-- The overlapping pair whose first index is lowest, and of those the one whose second index is lowest (R80). -/
def firstOverlap : Nat → List FieldEntry → Option (Nat × Nat)
  | _, [] => none
  | i, f :: rest =>
    match rest.findIdx? f.overlaps with
    | some j => some (i, i + 1 + j)
    | none => firstOverlap (i + 1) rest

/-- The combined check: the first constraint that fails, in the order of R80. -/
def combinedCheck (d : StockDefinition) (fields : List FieldEntry) : Option LayoutReason :=
  if ¬(d.defined ∧ d.numbered) then some .notNumbered
  else
    match indicesOf .serial fields with
    | [] => some .serialMissing
    | _ :: second :: _ => some (.serialRepeated second)
    | [i] =>
      if (fields[i]?.map (·.width)).getD 0 < d.digits then some (.serialNarrow i)
      else
        match indicesOf .value fields, indicesOf .check fields with
        | _ :: second :: _, _ => some (.valueRepeated second)
        | _, _ :: second :: _ => some (.checkRepeated second)
        | _, _ => (firstOverlap 0 fields).map fun p => .overlap p.1 p.2

/-- The layout table of a type replaced by entries and their combined check (R79, R80). -/
def State.storeLayout (s : State) (t : Fin 8) (fields : List FieldEntry) : State :=
  s.setLive { s.live with
    layouts := s.live.layouts.set t { entries := fields, invalid := combinedCheck (s.stockType t).definition fields } }

/-- The combined check run again on the stored layout of a type (R80). -/
def State.recheckLayout (s : State) (t : Fin 8) : State := s.storeLayout t (s.layout t).entries

/-! ### Field contents (R84 to R87) -/

/-- The decimal digits of a number, within `fuel + 1` digits. -/
def decimal : Nat → Nat → List Byte
  | 0, n => [BitVec.ofNat 8 (0x30 + n % 10)]
  | fuel + 1, n =>
    if n < 10 then [BitVec.ofNat 8 (0x30 + n)] else decimal fuel (n / 10) ++ [BitVec.ofNat 8 (0x30 + n % 10)]

/-- Characters put in front of a text up to a width. -/
def padFront (c : Byte) (w : Nat) (text : List Byte) : List Byte := List.replicate (w - text.length) c ++ text

/-- A number with leading zeros to a width. -/
def zeroPadded (w n : Nat) : List Byte := padFront 0x30#8 w (decimal 9 n)

/-- A text field: padded on the right, or cut (R84). -/
def fitText (w : Nat) (text : List Byte) : List Byte :=
  text.take w ++ List.replicate (w - text.length) 0x20#8

/-- A number field: padded on the left, or all asterisks (R84). -/
def fitNumber (w : Nat) (text : List Byte) : List Byte :=
  if text.length ≤ w then padFront 0x20#8 w text else List.replicate w 0x2A#8

/-- The check code (R87). -/
def checkCode (serial value stockType position : Nat) : Nat :=
  (7 * (serial % 1000000) + 3 * value + 11 * stockType + 13 * position) % 97

/-- What the composer reads for one ticket (R83). -/
structure Ticket where
  job      : Job
  copy     : Nat
  serial   : Nat
  digits   : Nat
  striped  : Bool
  clerk    : Option Nat
  date     : Option (List Byte)
  layout   : List FieldEntry
  deriving DecidableEq, Repr

/-- The ticket's check code. -/
def Ticket.check (k : Ticket) : Nat :=
  checkCode k.serial k.job.value k.job.stockType.val k.job.position.number

/-- A VALUE text: whole units, a point, two hundredths digits (R86). -/
def valueText (v : Nat) : List Byte := decimal 9 (v / 100) ++ [0x2E#8] ++ zeroPadded 2 (v % 100)

/-- The filled text of a field (R84 to R86). -/
def Ticket.fill (k : Ticket) (f : FieldEntry) : List Byte :=
  match f.kind with
  | .text slot => fitText f.width (k.job.slots[slot - 1]?.getD [])
  | .date => fitText f.width (k.date.getD [])
  | .serial => fitNumber f.width (zeroPadded k.digits k.serial)
  | .value => fitNumber f.width (valueText k.job.value)
  | .position => fitNumber f.width (zeroPadded 2 k.job.position.number)
  | .clerk => fitNumber f.width (zeroPadded 5 (k.clerk.getD 0))
  | .check => fitNumber f.width (zeroPadded 2 k.check)
  | .copy => fitNumber f.width (decimal 9 k.copy ++ [0x2F#8] ++ decimal 9 k.job.copies)

/-! ### Print lines and the stripe record (R88, R89) -/

/-- A segment put after those of the same or a lower column (R88). -/
def insertSegment (g : Segment) : List Segment → List Segment
  | [] => [g]
  | h :: rest => if g.column < h.column then g :: h :: rest else h :: insertSegment g rest

/-- The segments of a row in increasing column order, fields of one column in layout order (R88). -/
def Ticket.segments (k : Ticket) (row : Nat) : List Segment :=
  ((k.layout.filter fun f => decide (f.row = row)).map fun f => ({
    column := f.column
    size := f.size
    text := k.fill f } : Segment)).foldl (fun acc g => insertSegment g acc) []

/-- One print line for each row that is the top row of a field, in increasing row order (R88). -/
def Ticket.lines (k : Ticket) : List PrintLine :=
  (List.range 16).filterMap fun row =>
    match k.segments row with
    | [] => none
    | g :: rest => some { row := row, segments := g :: rest }

/-- The stripe record of a striped type (R89). -/
def Ticket.stripe (k : Ticket) : Option StripeRecord :=
  if k.striped then
    some {
      stockType := k.job.stockType.val
      serial := k.serial
      value := k.job.value
      position := k.job.position.number
      checkCode := k.check
      texts := (k.layout.filter (·.stripe)).map k.fill }
  else none

/-- What the composer reads when a copy of a job is dispatched on a serial (R83). -/
def State.ticket (s : State) (j : Job) (copy serial : Nat) : Ticket :=
  let d := (s.stockType j.stockType).definition
  { job := j
    copy := copy
    serial := serial
    digits := d.digits
    striped := d.striped
    clerk := match j.position with
      | .console => none
      | .window w => (s.window w).clerk
    date := s.office.date
    layout := (s.layout j.stockType).entries }

/-- The body of the PRINT for a copy, with the bin the register used (R83, R88). -/
def State.compose (s : State) (j : Job) (copy serial : Nat) (side : Bin) : PrintBody :=
  let k := s.ticket j copy serial
  { side := side, lines := k.lines, stripe := k.stripe }

end Sys2Proof.Machine
end

