-- ==== Sys2Proof/Machine/Scheduler.lean ====
section
/-! DEFINITION. The job scheduler (chapter 3): copy states, the AUTO choice, the end test, the copy reports and rerouting. -/

namespace Sys2Proof.Machine

/-- Does a printer qualify for a stock type (R47)? -/
def State.qualifies (s : State) (p : Fin 6) (t : Fin 8) : Bool :=
  match (s.printer p).identity with
  | none => false
  | some i => decide (layoutExtent (s.layout t).entries ≤ i.headWidth) && (i.stripe || !(s.stockType t).definition.striped)

/-- Does a bin of the printer hold a pack that passes a test? -/
def State.anyBin (s : State) (p : Fin 6) (test : Pack → Bool) : Bool :=
  (s.binPack? p .a).any test || (s.binPack? p .b).any test

/-- Can a take use the pack for a stock type (R7)? -/
def Pack.takeable (k : Pack) (t : Fin 8) : Bool :=
  decide (k.stockType = t ∧ k.condition = .usable ∧ 0 < k.remaining)

/-- The most jobs a printer's queue holds (R60). -/
def queueLimit : Nat := 8

/-- Is a printer eligible in the AUTO choice (R59)? -/
def State.eligible (s : State) (pos : Position) (t : Fin 8) (p : Fin 6) : Bool :=
  s.permitsPrinter pos p && decide ((s.printer p).state = .ready ∨ (s.printer p).state = .busy) &&
    !(s.printer p).disablePending && s.qualifies p t && s.anyBin p (·.takeable t) &&
    decide ((s.printer p).queue.length < queueLimit)

/-- The printer with the shorter queue, the first of two with the same (R59). -/
def State.shorterQueue (s : State) : Option (Fin 6) → Fin 6 → Option (Fin 6)
  | none, p => some p
  | some q, p => if (s.printer p).queue.length < (s.printer q).queue.length then some p else some q

/-- The AUTO choice (R59). -/
def State.autoChoice (s : State) (pos : Position) (t : Fin 8) : Option (Fin 6) :=
  (allPrinters.filter (s.eligible pos t)).foldl s.shorterQueue none

/-- The next copy of a job: its lowest-numbered UNDISPATCHED copy (R54). -/
def Job.nextCopy (j : Job) : Option Nat :=
  (j.copyStates.findIdx? fun c => decide (c = .undispatched)).map (· + 1)

/-- The state of one copy changed. -/
def Job.setCopy (j : Job) (copy : Nat) (c : CopyState) : Job :=
  { j with copyStates := j.copyStates.set (copy - 1) c }

/-- Is a copy of the job IN-PATH? A job with none is movable (R67). -/
def Job.anyInPath (j : Job) : Bool := j.copyStates.contains .inPath

/-- Does the end test end the job (R65)? -/
def Job.mustEnd (j : Job) : Bool :=
  decide (j.state ≠ .ended) && !j.anyInPath && (j.stop.isSome || !j.copyStates.contains .undispatched)

/-- The reason a stop reason gives. -/
def StopReason.asReason : StopReason → JobReason
  | .cancelled => .cancelled
  | .spoilLimit => .spoilLimit
  | .routeLimit => .routeLimit
  | .printerLost => .printerLost

/-- The outcome and reason of a job that ends (R65, step 1). -/
def Job.verdict (j : Job) : JobOutcome × Option JobReason :=
  match j.stop with
  | some r => (.incomplete, some r.asReason)
  | none => if j.copyStates.contains .doubtful then (.incomplete, some .doubt) else (.complete, none)

/-- A job's record when it has ended (R65). -/
def Job.end (j : Job) : Job :=
  { j with state := .ended, outcome := some j.verdict.1, reason := j.verdict.2, endPending := true }

/-- A tag taken off a printer's queue. -/
def State.leaveQueue (s : State) (p : Fin 6) (tag : Nat) : State :=
  s.modPrinter p fun x => { x with queue := x.queue.filter fun n => decide (n ≠ tag) }

/-- A tag put at the tail of a printer's queue (R60). -/
def State.joinQueue (s : State) (p : Fin 6) (tag : Nat) : State :=
  s.modPrinter p fun x => { x with queue := x.queue ++ [tag] }

/-- A job ends: its record goes behind those that ended before it, and JOB-END waits (R65). -/
def State.endJob (s : State) (j : Job) : State :=
  (((s.leaveQueue j.assigned j.tag).setPool
    ((s.pool.filter fun k => decide (k.tag ≠ j.tag)) ++ [j.end])).arbitrate)

/-- The end test of R65 for a tag. -/
def State.endTest (s : State) (tag : Nat) : State :=
  match s.job? tag with
  | none => s
  | some j => if j.mustEnd then s.endJob j else s

/-- A stop reason set unless one is present. -/
def Job.stopWith (j : Job) (r : StopReason) : Job := { j with stop := some (j.stop.getD r) }

/-! ### Rerouting (R67 to R69) -/

/-- The four states in which AUTO jobs are due for reroute (R67). -/
def PrinterState.reroutes : PrinterState → Bool
  | .faulted | .offline | .disabled | .heatHold => true
  | .poweredDown | .starting | .ready | .busy => false

/-- A job moved to the tail of another printer's queue (R68). -/
def State.moveJob (s : State) (j : Job) (winner : Fin 6) : State :=
  ((s.leaveQueue j.assigned j.tag).joinQueue winner j.tag).modJob j.tag fun k =>
    { k with assigned := winner, rerouteCount := k.rerouteCount + 1 }

/-- R68 for one tag of a queue: an AUTO job none of whose copies is in path. A job left in place is given the end test. -/
def State.rerouteJob (s : State) (tag : Nat) : State :=
  match s.job? tag with
  | none => s
  | some j =>
    if j.routing.isSome || j.anyInPath then s
    else if j.rerouteCount ≥ 3 then
      (s.modJob tag fun k => { k with stop := some .routeLimit, rerouteCount := 4 }).endTest tag
    else
      match s.autoChoice j.position j.stockType with
      | some winner => s.moveJob j winner
      | none => s.endTest tag

/-- A reroute pass over a printer's queue, in queue order; nothing is due in the other four states (R67). -/
def State.reroutePass (s : State) (p : Fin 6) : State :=
  if (s.printer p).state.reroutes then (s.printer p).queue.foldl State.rerouteJob s else s

/-- A pass over every printer in one of the four states, in number order (R67). -/
def State.passAll (s : State) : State := allPrinters.foldl State.reroutePass s

/-- The specific-routed jobs of a printer's queue lose their printer (R69). R69 gives no order in which they end: the model ends them
in queue order, and their JOB-ENDs wait or are placed in that order (R169). DESIGN CHOICE, notes/assumptions/62.md. -/
def State.losePrinter (s : State) (p : Fin 6) : State :=
  (s.printer p).queue.foldl (fun s tag =>
    match s.job? tag with
    | none => s
    | some j => if j.routing.isSome then (s.modJob tag (·.stopWith .printerLost)).endTest tag else s) s

/-! ### What the register reports of a copy (R61 to R64) -/

/-- A copy report: the record is changed and the end test made; when that settled the last copy in path of the job of a
printer in one of the four states, a reroute pass follows (R67). A tag no longer in the pool is dropped (R61). -/
def State.reportCopy (s : State) (p : Fin 6) (tag : Nat) (f : Job → Job) : State :=
  match s.job? tag with
  | none => s
  | some j =>
    let s := (s.modJob tag f).endTest tag
    if (f j).anyInPath then s else s.reroutePass p

/-- A copy issued (R61). -/
def Job.issued (copy serial : Nat) (j : Job) : Job :=
  { j.setCopy copy .issued with serials := j.serials ++ [serial] }

/-- A copy spoiled (R62). -/
def Job.spoiled (copy : Nat) (j : Job) : Job :=
  { j.setCopy copy .undispatched with
    blanksSpoiled := j.blanksSpoiled + 1
    spoilCount := saturating 3 (j.spoilCount + 1)
    stop := if j.stop = none ∧ j.spoilCount ≥ 2 then some .spoilLimit else j.stop }

/-- A copy returned unfed (R63). -/
def Job.returned (copy : Nat) (j : Job) : Job := j.setCopy copy .undispatched

/-- A copy doubtful (R64). -/
def Job.doubted (copy : Nat) (j : Job) : Job := j.setCopy copy .doubtful

end Sys2Proof.Machine
end

