-- ==== Sys2Proof/Machine/FaultLog.lean ====
section
/-! DEFINITION. Printer states (R29, R36, R43, R49) and the fault log (chapter 5): raises, transient and attended entries,
the marks, the clearing test. -/

namespace Sys2Proof.Machine

/-! ### Printer states -/

/-- A state that drops the outstanding command when entered (R30). -/
def PrinterState.dropsCommand : PrinterState → Bool
  | .poweredDown | .disabled | .starting => true
  | .ready | .busy | .heatHold | .faulted | .offline => false

/-- A state that loses the specific-routed jobs when entered (R69). -/
def PrinterState.losesJobs : PrinterState → Bool
  | .offline | .disabled | .poweredDown => true
  | .starting | .ready | .busy | .heatHold | .faulted => false

/-- A printer enters a state (R29): between READY and BUSY nothing follows; any other change sets PRINTER-STATE pending and
reaches the scheduler, which ends the specific-routed jobs of a lost printer, makes a reroute pass over this printer in one
of the four states, and makes a pass over every such printer when this one enters READY (R67, R69). -/
def State.setPrinterState (s : State) (p : Fin 6) (st : PrinterState) : State :=
  let old := (s.printer p).state
  if old = st then s
  else if (old = .ready ∧ st = .busy) ∨ (old = .busy ∧ st = .ready) then s.modPrinter p fun x => { x with state := st }
  else
    let s := (s.modPrinter p fun x => { x with
      state := st
      statePending := true
      outstanding := if st.dropsCommand then none else x.outstanding }).arbitrate
    let s := if st.losesJobs then s.losePrinter p else s
    if st = .ready then s.passAll else s.reroutePass p

/-- READY and BUSY follow the in-path list (R29). -/
def State.syncBusy (s : State) (p : Fin 6) : State :=
  if (s.printer p).state = .ready ∧ s.path p ≠ [] then s.setPrinterState p .busy
  else if (s.printer p).state = .busy ∧ s.path p = [] then s.setPrinterState p .ready
  else s

/-- A setting of whole degrees as a count (R41). -/
def degreesToCount (h : Nat) : Nat := (h + 10) * 8

/-- The hold and resume counts of a printer's live setting item, as a sample reads them (R41, R174). -/
def State.heatLimits (s : State) (p : Fin 6) : HeatLimits :=
  { hold := degreesToCount (s.live.printerItems[p]).hold, resume := degreesToCount (s.live.printerItems[p]).resume }

/-- Is the average present and at or above the hold count? Both stand as of the last sample, so that a setting written since takes
effect at the next one (R41, R174). DEDUCED, notes/assumptions/46.md. -/
def Printer.tooHot (x : Printer) : Bool :=
  match x.average, x.limits with
  | some a, some l => decide (l.hold ≤ a)
  | _, _ => false

/-- Is the average present and at or below the resume count, both as of the last sample? -/
def Printer.cooled (x : Printer) : Bool :=
  match x.average, x.limits with
  | some a, some l => decide (a ≤ l.resume)
  | _, _ => false

/-- A pending disable completed: it is cleared and the printer becomes DISABLED (R49). -/
def State.completeDisable (s : State) (p : Fin 6) : State :=
  (s.modPrinter p fun x => { x with disablePending := false }).setPrinterState p .disabled

/-- A printer that leaves FAULTED is placed (R36). -/
def State.leaveFaulted (s : State) (p : Fin 6) : State :=
  if (s.printer p).disablePending ∧ s.path p = [] then s.completeDisable p
  else if (s.printer p).tooHot then s.setPrinterState p .heatHold
  else if s.path p ≠ [] then s.setPrinterState p .busy
  else s.setPrinterState p .ready

/-- Does the doubtful list hold an entry for the printer? -/
def State.hasDoubt (s : State) (p : Fin 6) : Bool := s.ret.doubtful.any fun d => decide (d.printer = p)

/-! ### Entries -/

/-- A code with clear marks (R93). -/
def freshCode (c : FaultCode) : CodeMarks := { code := c, met := false, readySeen := false, confirmed := false }

/-- An entry as created, before its number and what its occasion sets (R91). -/
def blankEntry (p : Fin 6) (cls : FaultClass) (c : FaultCode) : FaultEntry :=
  { number := 0
    printer := p
    cls := cls
    first := freshCode c
    later := []
    cleared := false
    raisedAt := none
    clearedAt := none
    cause := none
    tag := none
    serial := none
    pack := none
    position := none
    missingRun := none
    note := none
    withdraw := none
    pending := true }

/-- The most entries of the log (R104). -/
def faultLimit : Nat := 64

/-- A full log loses its oldest CLEARED entry (R104); one without a CLEARED entry loses none, and the new entry is appended all the
same. DESIGN CHOICE, notes/assumptions/56.md. -/
def makeRoom (log : List FaultEntry) : List FaultEntry :=
  if log.length < faultLimit then log else log.eraseP (·.cleared)

/-- A printer's counter for a code raised by one (R105). -/
def State.countFault (s : State) (p : Fin 6) (c : FaultCode) : State :=
  s.modPrinter p fun x => { x with
    counters := updAt x.counters (Fin.ofNat 12 c.code) fun n => saturating 65535 (n + 1) }

/-- The number a new entry is given, once room is made for it (R92). -/
def State.freshFaultNumber (s : State) : Nat :=
  freeNumber ((makeRoom s.ret.faults).map (·.number)) s.ret.nextFault

/-- A new entry added at the end of the log under the number R92 gives, its code counted (R104, R105). -/
def State.logEntry (s : State) (e : FaultEntry) : State :=
  let n := s.freshFaultNumber
  ((s.setFaults (makeRoom s.ret.faults ++ [{ e with number := n, raisedAt := s.office.clock }])).setNextFault
    (bump n)).countFault e.printer e.first.code

/-- The fields a blank gives an entry that concerns it (R91, R93, R100). -/
structure Occasion where
  tag      : Nat
  serial   : Nat
  pack     : Nat
  position : Position
  deriving DecidableEq, Repr

/-- The occasion of an in-path entry. -/
def InPathEntry.occasion (e : InPathEntry) : Occasion :=
  { tag := e.tag, serial := e.serial, pack := e.pack, position := e.position }

/-- The occasion of a doubtful entry. -/
def DoubtfulEntry.occasion (d : DoubtfulEntry) : Occasion :=
  { tag := d.tag, serial := d.serial, pack := d.pack, position := d.position }

/-- An entry with the fields of its occasion. -/
def FaultEntry.of (e : FaultEntry) (o : Option Occasion) : FaultEntry :=
  match o with
  | none => e
  | some o => { e with tag := some o.tag, serial := some o.serial, pack := some o.pack, position := some o.position }

/-- A transient entry (R100): CLEARED at once; its notice waits. -/
def State.logTransient (s : State) (p : Fin 6) (c : FaultCode) (o : Occasion) : State :=
  (s.logEntry { (blankEntry p .transient c).of (some o) with
    cleared := true
    cause := some .transient
    clearedAt := s.office.clock }).arbitrate

/-- An attended entry (R102). -/
def State.logNote (s : State) (p : Fin 6) (pos : Position) (note : Nat) (withdraw : Bool) : State :=
  (s.logEntry { blankEntry p .attended .clerkNote with
    position := some pos
    note := some note
    withdraw := some withdraw }).arbitrate

/-! ### Standing entries -/

/-- Does an entry list a code (R93)? -/
def FaultEntry.lists (e : FaultEntry) (c : FaultCode) : Bool := (e.first :: e.later).any fun m => decide (m.code = c)

/-- The marks of every listed code changed. -/
def FaultEntry.mapMarks (e : FaultEntry) (f : CodeMarks → CodeMarks) : FaultEntry :=
  { e with first := f e.first, later := e.later.map f }

/-- A raise met by an open entry (R93): the marks of a listed code are cleared, a new code is appended while fewer than 4
later codes stand, and a code beyond them is not kept. -/
def FaultEntry.join (e : FaultEntry) (c : FaultCode) : FaultEntry :=
  if e.lists c then e.mapMarks fun m => if m.code = c then freshCode c else m
  else if e.later.length < 4 then { e with later := e.later ++ [freshCode c] }
  else e

/-- Does a raise append a code to an open entry (R93, Counting)? -/
def FaultEntry.gains (e : FaultEntry) (c : FaultCode) : Bool := !e.lists c && decide (e.later.length < 4)

/-- A standing code raised (R93). With no open standing entry one is opened and the printer moves to OFFLINE for LINK-LOST
and to FAULTED otherwise; an open one is joined. -/
def State.raise (s : State) (p : Fin 6) (c : FaultCode) (o : Option Occasion) : State :=
  match (s.printer p).openFault with
  | none =>
    let n := s.freshFaultNumber
    (((s.logEntry ((blankEntry p .standing c).of o)).modPrinter p fun x => { x with openFault := some n }).arbitrate)
      |>.setPrinterState p (if c = .linkLost then .offline else .faulted)
  | some n =>
    let s' := if (s.fault? n).any (·.gains c) then s.countFault p c else s
    s'.modFault n (·.join c)

/-- The marks of the open standing entry's codes changed; no entry, no mark (R95). -/
def State.markCodes (s : State) (p : Fin 6) (f : CodeMarks → CodeMarks) : State :=
  match (s.printer p).openFault with
  | none => s
  | some n => s.modFault n (·.mapMarks f)

/-- A READY report's marks (R95): JAM and CUTTER are met once confirmed too. -/
def CodeMarks.ready (m : CodeMarks) : CodeMarks :=
  match m.code with
  | .jam | .cutter => { m with readySeen := true, met := m.met || m.confirmed }
  | .coverOpen | .headHot => { m with met := true }
  | .misfeed | .stripe | .binEmpty | .sensorFail | .linkLost | .doubt | .repeatedSpoil | .clerkNote => m

/-- A confirmation's marks (R95, R99). -/
def CodeMarks.confirm (m : CodeMarks) : CodeMarks :=
  match m.code with
  | .jam | .cutter => { m with confirmed := true, met := m.met || m.readySeen }
  | .repeatedSpoil => { m with confirmed := true, met := true }
  | .misfeed | .stripe | .binEmpty | .coverOpen | .headHot | .sensorFail | .linkLost | .doubt | .clerkNote => m

/-- A code met by its own event: a valid sample, an identity reply, the last doubtful entry ruled on (R95). -/
def CodeMarks.meet (c : FaultCode) (m : CodeMarks) : CodeMarks := if m.code = c then { m with met := true } else m

/-- The fault code of a printer's own condition (R35). -/
def conditionCode : Condition → Option FaultCode
  | .ready => none
  | .jam => some .jam
  | .cutter => some .cutter
  | .coverOpen => some .coverOpen
  | .headHot => some .headHot

/-- Does the printer hold a standing condition (R94)? `answered`: an identity reply has been accepted since it entered
OFFLINE. -/
def State.holdsCondition (s : State) (p : Fin 6) (answered : Bool) : Bool :=
  let x := s.printer p
  (x.lastCondition.bind conditionCode).isSome || x.sensorFailed || decide (x.spoilCount ≥ 3) || s.hasDoubt p ||
    (decide (x.state = .offline) && !answered)

/-- Is every code of the entry met (R96)? -/
def FaultEntry.allMet (e : FaultEntry) : Bool := (e.first :: e.later).all (·.met)

/-- An entry CLEARED for a cause; its notice waits (R96, R97, R103). -/
def FaultEntry.clear (e : FaultEntry) (cause : ClearingCause) (clock : Option Nat) : FaultEntry :=
  { e with cleared := true, cause := some cause, clearedAt := clock, pending := true }

/-- What the port does when its open standing entry has cleared (R96): a printer in FAULTED is placed by R36, one in OFFLINE
waits for step 4 of R45. -/
def State.entryCleared (s : State) (p : Fin 6) (e : FaultEntry) : State :=
  let s := s.modPrinter p fun x => { x with
    openFault := none
    confirmPending := false
    spoilCount := if e.lists .repeatedSpoil then 0 else x.spoilCount }
  if (s.printer p).state = .faulted then s.leaveFaulted p else s

/-- The clearing test (R96). -/
def State.clearingTest (s : State) (p : Fin 6) (answered : Bool) : State :=
  match (s.printer p).openFault.bind s.fault? with
  | none => s
  | some e =>
    if e.allMet && !s.holdsCondition p answered then
      ((s.modFault e.number (·.clear .met s.office.clock)).arbitrate).entryCleared p e
    else s

end Sys2Proof.Machine
end

