-- ==== Sys2Proof/Machine/Tally.lean ====
section
/-! DEFINITION. The tally unit (chapter 7): cash rounding, saturation, credits, spoils, voids, refunds and lifts, and the
recent-issues list (R125). -/

namespace Sys2Proof.Machine

/-- The limit of every tally total (R131). -/
def totalLimit : Nat := 999999999

/-- The limit of every tally count (R132). -/
def countLimit : Nat := 65535

/-- A count raised by one, saturating without a flag (R132). -/
def raiseCount (n : Nat) : Nat := saturating countLimit (n + 1)

/-- A cash amount of a sale rounded to the unit: the lower multiple at a tie (R130). -/
def roundSale (unit value : Nat) : Nat :=
  if 2 * (value % unit) ≤ unit then value / unit * unit else (value / unit + 1) * unit

/-- A cash amount of a refund rounded to the unit: the higher multiple at a tie (R130). -/
def roundRefund (unit value : Nat) : Nat :=
  if 2 * (value % unit) < unit then value / unit * unit else (value / unit + 1) * unit

/-- The residue kept within its bounds (R133). -/
def clampResidue (r : Int) : Int :=
  if r > 999999999 then 999999999 else if r < -999999999 then -999999999 else r

/-- An amount added to the sales total and the sales count raised (R131, R134). -/
def TenderTally.addSale (t : TenderTally) (amount : Nat) : TenderTally :=
  { t with
    sales := saturating totalLimit (t.sales + amount)
    salesCount := raiseCount t.salesCount
    saturated := t.saturated || decide (t.sales + amount > totalLimit) }

/-- An amount added to the refund total and the refund count raised (R131, R138). -/
def TenderTally.addRefund (t : TenderTally) (amount : Nat) : TenderTally :=
  { t with
    refunds := saturating totalLimit (t.refunds + amount)
    refundCount := raiseCount t.refundCount
    saturated := t.saturated || decide (t.refunds + amount > totalLimit) }

/-- What a void takes off the sales total: nothing from a saturated one (R131, R137). -/
def TenderTally.reversible (t : TenderTally) (amount : Nat) : Nat :=
  if t.saturated ∧ t.sales = totalLimit then 0 else amount

/-- A sale reversed (R137). A total below the amount credited stops at 0, and the reply carries the whole amount. DESIGN CHOICE,
notes/assumptions/57.md. -/
def TenderTally.reverseSale (t : TenderTally) (amount : Nat) : TenderTally :=
  { t with sales := t.sales - t.reversible amount, salesCount := t.salesCount - 1 }

/-- The residue moved, for CASH alone (R134, R137). -/
def Tallies.moveResidue (t : Tallies) (d : Tender) (r : Int) : Tallies :=
  if d = .cash then { t with residue := clampResidue (t.residue + r) } else t

/-- The stock type part of a tally set changed. -/
def Tallies.modStock (t : Tallies) (k : Fin 8) (f : StockTally → StockTally) : Tallies :=
  { t with stock := updAt t.stock k f }

/-- The tender part of a tally set changed. -/
def Tallies.modTender (t : Tallies) (d : Tender) (f : TenderTally → TenderTally) : Tallies :=
  { t with tender := t.tender.update d f }

/-- An issue credited (R134, steps 2 to 5). -/
def Tallies.credit (t : Tallies) (d : Tender) (amount : Nat) (residue : Int) (k : Fin 8) : Tallies :=
  ((t.modTender d (·.addSale amount)).moveResidue d residue).modStock k fun x => { x with issued := raiseCount x.issued }

/-- A spoil counted (R136). -/
def Tallies.spoil (t : Tallies) (k : Fin 8) : Tallies :=
  t.modStock k fun x => { x with spoiled := raiseCount x.spoiled }

/-- A credit reversed (R137). -/
def Tallies.reverse (t : Tallies) (e : RecentIssue) : Tallies :=
  ((t.modTender e.tender (·.reverseSale e.credited)).moveResidue e.tender (-e.residue)).modStock e.stockType fun x =>
    { x with issued := x.issued - 1, voided := raiseCount x.voided }

/-- A refund recorded (R138). -/
def Tallies.refund (t : Tallies) (d : Tender) (amount : Nat) : Tallies := t.modTender d (·.addRefund amount)

/-- A lift recorded (R139). -/
def Tallies.lift (t : Tallies) (amount : Nat) : Tallies :=
  { t with
    lifts := saturating totalLimit (t.lifts + amount)
    liftsCount := raiseCount t.liftsCount
    liftsSaturated := t.liftsSaturated || decide (t.lifts + amount > totalLimit) }

/-- An entry made in a recent-issues list: a full list of 16 loses its oldest first (R125). -/
def addRecent (l : List RecentIssue) (e : RecentIssue) : List RecentIssue :=
  (if l.length ≥ 16 then l.tail else l) ++ [e]

/-- The amount credited and the residue of a sale (R134, step 1). -/
def State.saleOf (s : State) (tender : Tender) (value : Nat) : Nat × Int :=
  if tender = .cash then
    let rounded := roundSale s.live.office.unit value
    (rounded, (rounded : Int) - value)
  else (value, 0)

/-- The amount recorded of a refund (R138, step 1). -/
def State.refundOf (s : State) (tender : Tender) (value : Nat) : Nat :=
  if tender = .cash then roundRefund s.live.office.unit value else value

/-- Does a credit or spoil pass the test of R134? The console's always does. -/
def State.creditable (s : State) (pos : Position) (shift : Nat) : Bool :=
  match pos with
  | .console => true
  | .window w => decide ((s.window w).state ≠ .closed ∧ (s.window w).shift = some shift)

/-- A position's tally set changed. -/
def State.modTallies (s : State) (pos : Position) (f : Tallies → Tallies) : State :=
  match pos with
  | .console => s.setConsole { s.ret.console with tallies := f s.ret.console.tallies }
  | .window w => s.modWindow w fun r => { r with tallies := f r.tallies }

/-- A position's recent-issues list changed. -/
def State.modRecent (s : State) (pos : Position) (f : List RecentIssue → List RecentIssue) : State :=
  match pos with
  | .console => s.setConsole { s.ret.console with recent := f s.ret.console.recent }
  | .window w => s.modWindow w fun r => { r with recent := f r.recent }

/-- An issue credit (R134): discarded, or rounded and credited with a recent-issues entry. -/
def State.credit (s : State) (pos : Position) (shift : Nat) (t : Fin 8) (serial pack value : Nat) (tender : Tender) :
    State :=
  if s.creditable pos shift then
    let sale := s.saleOf tender value
    (s.modTallies pos (·.credit tender sale.1 sale.2 t)).modRecent pos (addRecent · {
      serial := serial
      pack := pack
      stockType := t
      value := value
      tender := tender
      credited := sale.1
      residue := sale.2 })
  else s

/-- A spoil handed to the tally unit (R136). -/
def State.countSpoil (s : State) (pos : Position) (shift : Nat) (t : Fin 8) : State :=
  if s.creditable pos shift then s.modTallies pos (·.spoil t) else s

/-- The console's tally set and recent-issues list emptied (R125, R129). -/
def State.emptyConsole (s : State) : State :=
  s.setConsole { s.ret.console with tallies := zeroTallies, recent := [] }

end Sys2Proof.Machine
end

