-- ==== Sys2Proof/Machine/Register.lean ====
section
/-! DEFINITION. The stock register (chapter 1): takes, returns, exceptions, outcomes, the doubtful list, and the audit. -/

namespace Sys2Proof.Machine

/-! ### A pack and its range (R3, R4, R9) -/

/-- The serial `i` places from the first, in the pack's direction (R4). -/
def Pack.serialAt (k : Pack) (i : Nat) : Nat :=
  match k.direction with
  | .ascending => k.first + i
  | .descending => k.first - i

/-- How many blanks have been taken (R4). -/
def Pack.taken (k : Pack) : Nat := k.count - k.remaining

/-- The most recently taken serial (R8). -/
def Pack.lastTaken (k : Pack) : Option Nat := if k.taken = 0 then none else some (k.serialAt (k.taken - 1))

/-- A serial one step on, in the pack's direction. -/
def Pack.stepSerial (k : Pack) (serial : Nat) : Nat :=
  match k.direction with
  | .ascending => serial + 1
  | .descending => serial - 1

/-- A pack that has handed out its next serial (R7). -/
def Pack.takeOne (k : Pack) : Pack :=
  { k with remaining := k.remaining - 1, next := if k.remaining ≤ 1 then none else k.next.map k.stepSerial }

/-- A pack whose most recently taken serial is back (R8). -/
def Pack.putBack (k : Pack) (serial : Nat) : Pack :=
  { k with remaining := k.remaining + 1, next := some serial }

/-- A pack with no blank left to take (R14, R21). -/
def Pack.emptied (k : Pack) : Pack := { k with remaining := 0, next := none }

/-- Does a run directly follow an exception entry in the pack's direction (R9)? -/
def Pack.follows (k : Pack) (e : ExceptionEntry) (first : Nat) : Bool :=
  match k.direction with
  | .ascending => decide (first = e.first + e.run)
  | .descending => decide (e.first = first + e.run)

/-- Would a run merge into the last exception entry (R9)? -/
def Pack.merges (k : Pack) (e : ExceptionEntry) : Bool :=
  match k.exceptions.getLast? with
  | none => false
  | some l => decide (e.disposition ≠ .doubtful ∧ l.disposition = e.disposition ∧ l.position = e.position) &&
      k.follows l e.first

/-- The number of entries that suspends a USABLE pack (R10). -/
def suspendAt : Nat := 21

/-- A run added to the exception list: merged into the last entry, or appended; the append that makes the 21st entry suspends
a USABLE pack (R9, R10). A list already at its bound of 24 is appended to past it. DESIGN CHOICE, notes/assumptions/55.md. -/
def Pack.addRun (k : Pack) (e : ExceptionEntry) : Pack :=
  if k.merges e then
    { k with exceptions := k.exceptions.dropLast ++
        (k.exceptions.getLast?.map fun l => { l with run := l.run + e.run }).toList }
  else
    { k with
      exceptions := k.exceptions ++ [e]
      condition := if k.exceptions.length + 1 = suspendAt ∧ k.condition = .usable then .suspended else k.condition }

/-- The run lengths of the entries of a disposition (R3). -/
def Pack.runs (k : Pack) (d : Disposition) : Nat :=
  ((k.exceptions.filter fun e => decide (e.disposition = d)).map (·.run)).sum

/-- How many entries of all in-path lists name a pack (R3). -/
def State.inPathOf (s : State) (id : Nat) : Nat :=
  (allPrinters.map fun p => (s.path p).countP fun e => decide (e.pack = id)).sum

/-- Blanks taken for printing, or found missing (R3). -/
def Pack.consumed (k : Pack) : Int := (k.count : Int) - k.remaining - k.runs .writtenOff

/-- The issued blanks of a pack with so many blanks in path (R3). -/
def Pack.issued (k : Pack) (inPath : Nat) : Int :=
  k.consumed - inPath - k.runs .spoiled - k.runs .voided - k.runs .doubtful - k.runs .missing

/-! ### Shared changes -/

/-- An exception added to a pack; the low-stock check runs when that suspends it (R9, R10). With no record of the pack no exception is
added. DESIGN CHOICE, notes/assumptions/52.md (a void), 53.md (a blank made DOUBTFUL at start-up). -/
def State.addException (s : State) (id : Nat) (e : ExceptionEntry) : State :=
  match s.pack? id with
  | none => s
  | some k =>
    let s := s.modPack id (·.addRun e)
    if (k.addRun e).condition = k.condition then s else s.lowStockCheck k.stockType

/-- The low-stock check for a pack's stock type. -/
def State.lowStockOf (s : State) (id : Nat) : State :=
  match s.pack? id with
  | none => s
  | some k => s.lowStockCheck k.stockType

/-- A pack made EXHAUSTED, which returns it to STORE (R5). -/
def Pack.exhaust (k : Pack) : Pack := { k with condition := .exhausted, location := .store }

/-- The EXHAUSTED test of a pack (R5). DEDUCED, notes/assumptions/35.md. -/
def State.exhaustTest (s : State) (id : Nat) : State :=
  s.modPack id fun k => if k.remaining = 0 ∧ s.inPathOf id = 0 then k.exhaust else k

/-- A printer's in-path list changed; READY and BUSY follow it (R29). -/
def State.modPath (s : State) (p : Fin 6) (f : List InPathEntry → List InPathEntry) : State :=
  (s.setInPath (updAt s.ret.inPath p f)).syncBusy p

/-- An in-path entry removed (R6). -/
def State.dropEntry (s : State) (p : Fin 6) (e : InPathEntry) : State :=
  s.modPath p fun l => l.filter fun x => decide ¬(x.pack = e.pack ∧ x.serial = e.serial)

/-! ### The take (R7) -/

/-- The bin a take uses: of two that qualify the one with the smaller remaining, bin A at a tie. -/
def State.takeBin (s : State) (p : Fin 6) (t : Fin 8) : Option (Pack × Bin) :=
  match (s.binPack? p .a).filter (·.takeable t), (s.binPack? p .b).filter (·.takeable t) with
  | none, none => none
  | some a, none => some (a, .a)
  | none, some b => some (b, .b)
  | some a, some b => if b.remaining < a.remaining then some (b, .b) else some (a, .a)

/-- The most entries of an in-path list (R6). -/
def pathLimit : Nat := 2

/-- A blank asked for (R7): none, or the state with the blank in path, its entry, and the bin used. The entry is given but for
its pack id and serial. A next serial that is absent while blanks remain reads as 0 (DESIGN CHOICE, notes/assumptions/43.md). -/
def State.take (s : State) (p : Fin 6) (t : Fin 8) (e : InPathEntry) : Option (State × InPathEntry × Bin) :=
  if (s.path p).length ≥ pathLimit ∨ s.hasDoubt p then none
  else
    match s.takeBin p t with
    | none => none
    | some (k, side) =>
      let e := { e with pack := k.id, serial := k.next.getD 0 }
      some (((s.modPack k.id Pack.takeOne).modPath p (· ++ [e])).lowStockCheck t, e, side)

/-! ### Doubtful conversions and returns (R8, R15) -/

/-- A blank in path becomes DOUBTFUL (R15). One whose pack has no record is put on the doubtful list without an exception (DESIGN
CHOICE, notes/assumptions/53.md), and a doubtful list already at its bound of 12 is appended to past it (DESIGN CHOICE,
notes/assumptions/55.md). -/
def State.makeDoubtful (s : State) (p : Fin 6) (e : InPathEntry) : State :=
  let fault := (s.printer p).openFault
  let s := (s.dropEntry p e).addException e.pack {
    first := e.serial
    run := 1
    disposition := .doubtful
    position := some e.position
    fault := fault }
  let s := s.setDoubtful (s.ret.doubtful ++ [{
    pack := e.pack
    serial := e.serial
    printer := p
    position := e.position
    shift := e.shift
    value := e.value
    tender := e.tender
    tag := e.tag }])
  (s.reportCopy p e.tag (Job.doubted e.copy)).exhaustTest e.pack

/-- Is an entry still in its printer's list? -/
def State.stillInPath (s : State) (p : Fin 6) (e : InPathEntry) : Bool :=
  (s.path p).any fun x => decide (x.pack = e.pack ∧ x.serial = e.serial)

/-- An entry and every later blank of the same pack in the list, oldest first (R8). -/
def fromEntry (path : List InPathEntry) (e : InPathEntry) : List InPathEntry :=
  (path.dropWhile fun x => decide ¬(x.pack = e.pack ∧ x.serial = e.serial)).filter fun x => decide (x.pack = e.pack)

/-- A blank returned to its pack, or made DOUBTFUL with every later blank of its pack when it is not the pack's most recently
taken serial (R8). An entry already off the list is not returned again (R34). -/
def State.returnBlank (s : State) (p : Fin 6) (e : InPathEntry) : State :=
  if s.stillInPath p e then
    if (s.pack? e.pack).any fun k => decide (k.lastTaken = some e.serial) then
      (((s.dropEntry p e).modPack e.pack (·.putBack e.serial)).lowStockOf e.pack).reportCopy p e.tag
        (Job.returned e.copy)
    else (fromEntry (s.path p) e).foldl (fun s x => s.makeDoubtful p x) s
  else s

/-- Returns handed over together, given oldest first: applied newest first (R8). DEDUCED, notes/assumptions/16.md. -/
def State.returnAll (s : State) (p : Fin 6) (es : List InPathEntry) : State :=
  es.reverse.foldl (fun s e => s.returnBlank p e) s

/-! ### Outcomes (R11, R12, R14) -/

/-- A blank issued (R11). -/
def State.issueBlank (s : State) (p : Fin 6) (e : InPathEntry) : State :=
  let t := (s.pack? e.pack).map (·.stockType)
  let s := s.dropEntry p e
  let s := match t with
    | none => s
    | some t => s.credit e.position e.shift t e.serial e.pack e.value e.tender
  (s.reportCopy p e.tag (Job.issued e.copy e.serial)).exhaustTest e.pack

/-- A blank spoiled, with the number of the fault entry logged for it (R12). -/
def State.spoilBlank (s : State) (p : Fin 6) (e : InPathEntry) (fault : Nat) : State :=
  let t := (s.pack? e.pack).map (·.stockType)
  let s := (s.dropEntry p e).addException e.pack {
    first := e.serial
    run := 1
    disposition := .spoiled
    position := some e.position
    fault := some fault }
  let s := match t with
    | none => s
    | some t => s.countSpoil e.position e.shift t
  (s.reportCopy p e.tag (Job.spoiled e.copy)).exhaustTest e.pack

/-- The run of a pack's remaining blanks (R14, R21): none when nothing remains, since a run holds at least one blank (R9). A next
serial that is absent while blanks remain reads as 0. DESIGN CHOICE, notes/assumptions/43.md. -/
def Pack.restRun (k : Pack) (d : Disposition) (fault : Option Nat) : Option ExceptionEntry :=
  if k.remaining = 0 then none
  else some { first := k.next.getD 0, run := k.remaining, disposition := d, position := none, fault := fault }

/-- All remaining blanks of a pack moved into one run (R14, R21). -/
def State.runOut (s : State) (id : Nat) (d : Disposition) (fault : Option Nat) : State :=
  match s.pack? id with
  | none => s
  | some k =>
    let s := match k.restRun d fault with
      | none => s
      | some e => s.addException id e
    ((s.modPack id Pack.emptied).exhaustTest id).lowStockCheck k.stockType

/-- A bin found empty against the register's count (R14): the blank and every later one of its pack are returned, then all
remaining blanks are MISSING, and the transient entry learns the length of the run (R100). -/
def State.binEmptied (s : State) (p : Fin 6) (e : InPathEntry) (fault : Nat) : State :=
  let s := s.returnAll p (fromEntry (s.path p) e)
  let run := (s.pack? e.pack).map (·.remaining)
  (s.modFault fault fun x => { x with missingRun := run }).runOut e.pack .missing (some fault)

/-! ### The audit (R25) -/

/-- The lowest and highest serial of a pack's range (R4). -/
def Pack.range (k : Pack) : Int × Int :=
  match k.direction with
  | .ascending => (k.first, (k.first : Int) + k.count - 1)
  | .descending => ((k.first : Int) - k.count + 1, k.first)

/-- Do two packs of one type share a serial (R18)? A range of no blanks shares none. -/
def Pack.collides (k j : Pack) : Bool :=
  decide (k.stockType = j.stockType ∧ max k.range.1 j.range.1 ≤ min k.range.2 j.range.2)

/-- How many places a serial lies from the pack's first, in its direction. -/
def Pack.offset (k : Pack) (serial : Nat) : Int :=
  match k.direction with
  | .ascending => (serial : Int) - k.first
  | .descending => (k.first : Int) - serial

/-- The stretches of the range that the exceptions and the in-path serials of a pack cover: offset and length. -/
def Pack.stretches (k : Pack) (path : List InPathEntry) : List (Int × Nat) :=
  (k.exceptions.map fun e => (k.offset e.first, e.run)) ++
    (path.filter fun e => decide (e.pack = k.id)).map fun e => (k.offset e.serial, 1)

/-- No two stretches share a place. -/
def disjoint : List (Int × Nat) → Bool
  | [] => true
  | a :: rest => (rest.all fun b => decide (a.1 + a.2 ≤ b.1 ∨ b.1 + b.2 ≤ a.1)) && disjoint rest

/-- Every in-path entry of every printer, printer by printer. -/
def State.allPaths (s : State) : List InPathEntry := allPrinters.flatMap s.path

/-- Do next serial and remaining agree (R25)? -/
def Pack.nextAgrees (k : Pack) : Bool :=
  match k.next with
  | none => decide (k.remaining = 0)
  | some n => decide (k.remaining ≠ 0 ∧ k.offset n = (k.count : Int) - k.remaining)

/-- The pack tests of STOCK CHECK (R25). The overlap test is made against every other record of the table, under whatever id: one
copy of the record itself is left out. -/
def State.packSound (s : State) (k : Pack) : Bool :=
  let inPath := s.inPathOf k.id
  let issued := k.issued inPath
  let stretches := k.stretches s.allPaths
  decide (0 ≤ issued ∧
    (k.count : Int) = k.remaining + inPath + issued + (k.exceptions.map (·.run)).sum) &&
  k.nextAgrees &&
  (stretches.all fun a => decide (0 ≤ a.1 ∧ a.1 + a.2 ≤ (k.count : Int) - k.remaining)) && disjoint stretches &&
  decide (k.exceptions.length ≤ 24) &&
  ((k.exceptions.filter fun e => decide (e.disposition = .doubtful)).map (·.first)).isPerm
    ((s.ret.doubtful.filter fun d => decide (d.pack = k.id)).map (·.serial)) &&
  (s.ret.packs.erase k).all fun j => !k.collides j

/-- A number put into a rising list. -/
def insertRising (n : Nat) : List Nat → List Nat
  | [] => [n]
  | m :: rest => if n ≤ m then n :: m :: rest else m :: insertRising n rest

/-- The ids of the packs that fail a test, in increasing order (R25); of each failed record its id (DESIGN CHOICE,
notes/assumptions/54.md). -/
def State.failedPacks (s : State) : List Nat :=
  ((s.ret.packs.filter fun k => !s.packSound k).map (·.id)).foldl (fun acc n => insertRising n acc) []

end Sys2Proof.Machine
end

