-- ==== Sys2Proof/Machine/Shifts.lean ====
section
/-! DEFINITION. The position table and the reconciliation unit (chapters 6 and 8): shift numbers, the history bound,
declarations, finalising. -/

namespace Sys2Proof.Machine

/-! ### Shift numbers and the history (R115, R120, R154) -/

/-- The shift numbers in use (R115). -/
def State.shiftsInUse (s : State) : List Nat :=
  (allWindows.filterMap fun w => if (s.window w).state = .closed then none else (s.window w).shift) ++
    s.ret.history.map (·.shift) ++ s.ret.doubtful.map (·.shift)

/-- The number a new shift receives (R115). -/
def State.freshShift (s : State) : Nat := freeNumber s.shiftsInUse s.ret.nextShift

/-- How many windows hold a reserved history slot. -/
def State.reservedSlots (s : State) : Nat := allWindows.countP fun w => (s.window w).reserved

/-- The bound on shift records and reserved slots (R154). -/
def historyLimit : Nat := 32

/-- The history with room for one more reservation: as it is below the bound, and without its oldest collected record at it;
none when no record can go (R120). -/
def State.historyWithRoom (s : State) : Option (List ShiftRecord) :=
  if s.ret.history.length + s.reservedSlots < historyLimit then some s.ret.history
  else if s.ret.history.any (·.collected) then some (s.ret.history.eraseP (·.collected))
  else none

/-- The doubtful entries of a window's present shift (R120, R126, R143). -/
def State.doubtOf (s : State) (w : Fin 15) : List DoubtfulEntry :=
  s.ret.doubtful.filter fun d => decide (d.position = .window w ∧ (s.window w).shift = some d.shift)

/-! ### The declaration (R144 to R148) -/

/-- The exact sum of count × face (R144). -/
def countedCash (counts faces : Vector Nat 12) : Nat := ((counts.toList.zip faces.toList).map fun p => p.1 * p.2).sum

/-- The expected amount of a tender (R145). -/
def WindowRecord.expected (r : WindowRecord) (d : Tender) : Int :=
  let t := r.tallies.tender.get d
  if d = .cash then (r.float : Int) + t.sales - t.refunds - r.tallies.lifts
  else (t.sales : Int) - t.refunds

/-- Is an input of the tender saturated, or the declared cash clamped (R147, row 1)? -/
def WindowRecord.indeterminate (r : WindowRecord) (d : Tender) (clamped : Bool) : Bool :=
  (r.tallies.tender.get d).saturated || (decide (d = .cash) && (r.tallies.liftsSaturated || clamped))

/-- The class of a tender, from the first row of R147's table that applies. -/
def classify (indeterminate : Bool) (variance : Int) (tolerance limit : Nat) : TenderClass :=
  if indeterminate then .indeterminate
  else if variance = 0 then .exact
  else if variance.natAbs ≤ tolerance then .within
  else if variance.natAbs > limit then .outOfLimit
  else if variance > 0 then .over
  else .short

/-- The figures of one tender (R145 to R147): the tolerance is the cash tolerance for CASH and 0 for the others. -/
def WindowRecord.figure (r : WindowRecord) (o : OfficeItem) (clamped : Bool) (d : Tender) (declared : Nat) : TenderFigure :=
  let expected := r.expected d
  let variance := (declared : Int) - expected
  { expected := expected
    declared := declared
    variance := variance
    cls := classify (r.indeterminate d clamped) variance (if d = .cash then o.tolerance else 0) o.limit }

/-- The status of a declaration (R148). -/
def statusOf (classes : List TenderClass) : DeclarationStatus :=
  if classes.any fun c => decide (c = .outOfLimit ∨ c = .indeterminate) then .held
  else if classes.any fun c => decide (c = .over ∨ c = .short) then .variance
  else .cleared

/-- The figures of a declaration (R142, R144 to R148). -/
def WindowRecord.declare (r : WindowRecord) (o : OfficeItem) (counts faces : Vector Nat 12) (card voucher warrant : Nat) :
    DeclaredFigures :=
  let counted := countedCash counts faces
  let clamped := decide (counted > totalLimit)
  let tender : PerTender TenderFigure := {
    cash := r.figure o clamped .cash (saturating totalLimit counted)
    card := r.figure o clamped .card card
    voucher := r.figure o clamped .voucher voucher
    warrant := r.figure o clamped .warrant warrant }
  { counts := counts
    faces := faces
    clamped := clamped
    tender := tender
    tolerance := o.tolerance
    limit := o.limit
    status := statusOf (tender.toList.map (·.cls)) }

/-! ### Finalising (R124, R152, R153) -/

/-- The shift record of a window (R153). An absent clerk, grade or shift number goes in as 0, RELIEF and 0. DESIGN CHOICE,
notes/assumptions/59.md. -/
def WindowRecord.record (r : WindowRecord) (w : Fin 15) (figures : DeclaredFigures) (status : RecordStatus)
    (signedOffBy : Option Nat) : ShiftRecord :=
  { shift := r.shift.getD 0
    window := w
    clerk := r.clerk.getD 0
    grade := r.grade.getD .relief
    opened := r.opened
    closedAt := r.closedAt
    float := r.float
    tallies := r.tallies
    figures := figures
    declarations := r.declarations
    status := status
    signedOffBy := signedOffBy
    collected := false
    endPending := true }

/-- A window returned to CLOSED (R124). Its outstanding count is 0 already; a COUNT-READY flag that still waits is kept, as
R122 shows the notice of a window finalised before it (DEDUCED, notes/assumptions/22.md). -/
def WindowRecord.finalised (r : WindowRecord) : WindowRecord := { closedWindow with countReady := r.countReady }

/-- A shift finalised (R152): its record at the end of the history, SHIFT-END pending, the window CLOSED. -/
def State.finalise (s : State) (w : Fin 15) (figures : DeclaredFigures) (status : RecordStatus) (signedOffBy : Option Nat) :
    State :=
  ((s.setHistory (s.ret.history ++ [(s.window w).record w figures status signedOffBy])).modWindow w
    WindowRecord.finalised).arbitrate

/-- The status a record takes from a declaration that finalises (R149); none from one that holds. -/
def DeclarationStatus.finalises : DeclarationStatus → Option RecordStatus
  | .held => none
  | .variance => some .variance
  | .cleared => some .cleared

/-- The window's record as a declaration leaves it before its status is acted on (R149, steps 1 and 3). -/
def WindowRecord.declared' (r : WindowRecord) (f : DeclaredFigures) : WindowRecord :=
  { r with declarations := r.declarations + 1, declared := some f }

/-- A declaration taken (R149). -/
def State.takeDeclaration (s : State) (w : Fin 15) (f : DeclaredFigures) : State :=
  let s := s.modWindow w (·.declared' f)
  match f.status.finalises with
  | some status => s.finalise w f status none
  | none => s.modWindow w fun r => { r with state := .held }

/-! ### Leaving the records of a shift behind (R127) -/

/-- Every window CLOSED with the values of R124 (R127, CLEAR AUDIT). -/
def State.closeAllWindows (s : State) : State := s.setWindows (Vector.replicate 15 closedWindow)

end Sys2Proof.Machine
end

