-- ==== Sys2Proof/Machine/Positions.lean ====
section
/-! DEFINITION. The shift requests (chapter 6): OPEN SHIFT, SUSPEND, RESUME, CASH LIFT, CLOSE, REOPEN, READ POSITION. -/

namespace Sys2Proof.Machine

/-- Is a window in one of the states given? -/
def State.windowIn (s : State) (w : Fin 15) (states : List WindowState) : Bool := decide ((s.window w).state ∈ states)

/-- Is the request the console's? -/
def fromConsole (pos : Position) : Bool := decide (pos = .console)

/-! ### OPEN SHIFT (R115, R116) -/

/-- A window's record filled by OPEN SHIFT (R116). -/
def WindowRecord.openShift (r : WindowRecord) (clerk : Nat) (grade : Grade) (float shift : Nat) (clock : Option Nat) :
    WindowRecord :=
  { r with
    state := .open
    clerk := some clerk
    grade := some grade
    shift := some shift
    opened := clock
    closedAt := none
    float := float
    declarations := 0
    declared := none
    reserved := false
    countReady := false }

/-- A shift opened under the number R115 gives (R116). -/
def State.beginShift (s : State) (w : Fin 15) (clerk : Nat) (grade : Grade) (float : Nat) : State :=
  (s.modWindow w (·.openShift clerk grade float s.freshShift s.office.clock)).setNextShift (bump s.freshShift)

/-- Checks 2 and 3 of R116. -/
def State.openChecks (s : State) (w : Fin 15) : List (Bool × ReplyCode) :=
  [(decide (s.office.mode = .trading), .mode), ((s.live.permissions[w]).enabled, .notPermitted)]

/-- OPEN SHIFT (R116). -/
def execOpenShift (pos : Position) (target clerk grade float : Nat) (s : State) : Host.Outcome State Fault Refusal :=
  s.taken (.openShift pos target clerk grade float) <|
    match subjectOf pos target with
    | none => s.answer .range 0x30 []
    | some w =>
      s.judged 0x30 (s.openChecks w) <|
        match gradeOf grade with
        | none => s.answer .range 0x30 []
        | some g =>
          s.judged 0x30 [(numberInRange clerk && decide (float ≤ 999999), .range),
              (decide (g ≠ .supervisor) || fromConsole pos, .grade), (s.windowIn w [.closed], .state)]
            ((s.beginShift w clerk g float).answer .ok 0x30 (be 2 s.freshShift))

/-! ### SUSPEND and RESUME POSITION (R117, R118) -/

/-- A window's state alone changed. -/
def State.setWindowState (s : State) (w : Fin 15) (st : WindowState) : State :=
  s.modWindow w fun r => { r with state := st }

/-- SUSPEND POSITION (R117). -/
def execSuspendPosition (pos : Position) (target : Nat) (s : State) : Host.Outcome State Fault Refusal :=
  s.taken (.suspendPosition pos target) <|
    match subjectOf pos target with
    | none => s.answer .range 0x31 []
    | some w => s.judged 0x31 [(s.windowIn w [.open], .state)] ((s.setWindowState w .suspended).answer .ok 0x31 [])

/-- RESUME POSITION (R118). -/
def execResumePosition (pos : Position) (target clerk : Nat) (s : State) : Host.Outcome State Fault Refusal :=
  s.taken (.resumePosition pos target clerk) <|
    match subjectOf pos target with
    | none => s.answer .range 0x32 []
    | some w =>
      s.judged 0x32 [(numberInRange clerk, .range), (s.windowIn w [.suspended], .state),
          (fromConsole pos || decide ((s.window w).clerk = some clerk), .grade)]
        ((s.setWindowState w .open).answer .ok 0x32 [])

/-! ### CASH LIFT (R119, R139) -/

/-- CASH LIFT (R119). -/
def execCashLift (pos : Position) (target amount : Nat) (s : State) : Host.Outcome State Fault Refusal :=
  s.taken (.cashLift pos target amount) <|
    match subjectOf pos target with
    | none => s.answer .range 0x33 []
    | some w =>
      let t := (s.window w).tallies.lift amount
      s.judged 0x33 [(s.holds pos .clerk, .grade), (within 1 999999 amount, .range),
          (s.windowIn w [.open, .suspended], .state)]
        ((s.modTallies (.window w) (·.lift amount)).answer .ok 0x33 (be 4 t.lifts ++ be 2 t.liftsCount))

/-! ### CLOSE SHIFT and REOPEN SHIFT (R120, R123) -/

/-- A window's record when its close is taken (R120): to COUNTING with nothing outstanding, else to CLOSING. -/
def WindowRecord.close (r : WindowRecord) (clock : Option Nat) : WindowRecord :=
  let r := { r with reserved := true, closedAt := clock }
  if r.outstanding = 0 then r.enterCounting else { r with state := .closing }

/-- A close taken with the history room made for it (R120). -/
def State.closeWindow (s : State) (w : Fin 15) (history : List ShiftRecord) : State :=
  ((s.setHistory history).modWindow w (·.close s.office.clock)).arbitrate

/-- The reply of a close: OK at once in COUNTING, ACCEPTED in CLOSING; the new state and the outstanding count (R120). -/
def State.answerClose (s : State) (w : Fin 15) (history : List ShiftRecord) : State :=
  let r := (s.window w).close s.office.clock
  (s.closeWindow w history).answer (if r.outstanding = 0 then .ok else .accepted) 0x34
    (be 1 r.state.code ++ be 1 r.outstanding)

/-- CLOSE SHIFT (R120). -/
def execCloseShift (pos : Position) (target : Nat) (s : State) : Host.Outcome State Fault Refusal :=
  s.taken (.closeShift pos target) <|
    match subjectOf pos target with
    | none => s.answer .range 0x34 []
    | some w =>
      s.judged 0x34 [(s.windowIn w [.open, .suspended], .state), (decide (s.doubtOf w = []), .state)] <|
        match s.historyWithRoom with
        | none => s.answer .historyFull 0x34 []
        | some h => s.answerClose w h

/-- A window's record reopened (R123). -/
def WindowRecord.reopen (r : WindowRecord) : WindowRecord :=
  { r with state := .open, reserved := false, countReady := false, closedAt := none }

/-- REOPEN SHIFT (R123). -/
def execReopenShift (pos : Position) (target : Nat) (s : State) : Host.Outcome State Fault Refusal :=
  s.taken (.reopenShift pos target) <|
    match subjectOf pos target with
    | none => s.answer .range 0x35 []
    | some w =>
      s.judged 0x35 [(s.supervises pos, .grade), (s.windowIn w [.closing, .counting], .state)]
        ((s.modWindow w WindowRecord.reopen).answer .ok 0x35 [])

/-! ### READ POSITION (R126) -/

/-- The ISSUES part: the number of entries and up to 8 from an index (R126). -/
def issuesBody (l : List RecentIssue) (index : Nat) : List Byte :=
  be 1 l.length ++ bList RecentIssue.bytes ((l.drop index).take 8)

/-- The RECORD part of a window (R126). -/
def State.recordBody (s : State) (w : Fin 15) : List Byte :=
  let m := s.live.permissions[w]
  (s.window w).bytes ++ [m.printerSet, m.stockSet] ++ bFlag m.enabled ++ be 1 (s.doubtOf w).length

/-- The DECLARED part: an absent record has every bit set (DESIGN CHOICE, notes/assumptions/12.md). -/
def declaredBody : Option DeclaredFigures → List Byte
  | none => bAbsent declaredLength
  | some f => f.bytes

/-- The body READ POSITION answers with, by part: RECORD 0, TALLIES 1, DECLARED 2, ISSUES 3 (R126). -/
def State.positionBody (s : State) (pos : Position) (part index : Nat) : List Byte :=
  match pos with
  | .console =>
    let c := s.ret.console
    if part = 0 then be 1 c.grade.rank ++ be 1 c.outstanding
    else if part = 1 then c.tallies.bytes
    else if part = 2 then declaredBody none
    else issuesBody c.recent index
  | .window w =>
    let r := s.window w
    if part = 0 then s.recordBody w
    else if part = 1 then r.tallies.bytes
    else if part = 2 then declaredBody r.declared
    else issuesBody r.recent index

/-- READ POSITION (R126). -/
def execReadPosition (pos : Position) (target part index : Nat) (s : State) : Host.Outcome State Fault Refusal :=
  s.taken (.readPosition pos target part index) <|
    match Position.ofNumber target with
    | none => s.answer .range 0x36 []
    | some subject =>
      s.judged 0x36 [(decide (part ≤ 3 ∧ index ≤ 15), .range)] (s.answer .ok 0x36 (s.positionBody subject part index))

end Sys2Proof.Machine
end

