-- ==== Sys2Proof/Machine/CashUp.lean ====
section
/-! DEFINITION. The requests of the reconciliation unit (chapter 8): DECLARE, SIGN OFF SHIFT, READ SHIFT, COLLECT SHIFT. -/

namespace Sys2Proof.Machine

/-! ### DECLARE (R142, R143, R149) -/

/-- The reason a STATE refusal of DECLARE carries, when it is refused (R143): NOT-COUNTING 0, LIMIT 1, DOUBT 2. -/
def State.declareRefusal (s : State) (w : Fin 15) : Option Nat :=
  let r := s.window w
  if r.state = .counting ∨ (r.state = .held ∧ r.declarations < 3) then
    if s.doubtOf w = [] then none else some 2
  else if r.state = .held then some 1
  else some 0

/-- Is every count of a face of 0 zero (R143, check 3)? -/
def countsUsable (counts faces : Vector Nat 12) : Bool :=
  (counts.toList.zip faces.toList).all fun p => decide (p.2 = 0 → p.1 = 0)

/-- The counts and the three totals within their ranges (R142, R143). -/
def State.declarable (s : State) (counts : Vector Nat 12) (card voucher warrant : Nat) : Bool :=
  decide (card ≤ totalLimit ∧ voucher ≤ totalLimit ∧ warrant ≤ totalLimit) &&
    counts.toList.all (fun n => decide (n ≤ 65535)) &&
    countsUsable counts s.live.faces

/-- The figures of a declaration by a window as the state stands (R144 to R148). -/
def State.figures (s : State) (w : Fin 15) (counts : Vector Nat 12) (card voucher warrant : Nat) : DeclaredFigures :=
  (s.window w).declare s.live.office counts s.live.faces card voucher warrant

/-- The body of an OK reply to DECLARE (R149, chapter 11). -/
def State.declareBody (s : State) (w : Fin 15) (f : DeclaredFigures) : List Byte :=
  let r := s.window w
  f.tender.toList.flatMap TenderFigure.bytes ++ bFlag f.clamped ++ be 1 f.status.code ++ be 1 (r.declarations + 1) ++
    (match f.status.finalises with
    | none => be 1 WindowState.held.code ++ be 2 0
    | some _ => be 1 WindowState.closed.code ++ bOptZero 2 r.shift)

/-- DECLARE (R143, R149). -/
def execDeclare (pos : Position) (target : Nat) (counts : Vector Nat 12) (card voucher warrant : Nat) (s : State) :
    Host.Outcome State Fault Refusal :=
  s.taken (.declare pos target counts card voucher warrant) <|
    match subjectOf pos target with
    | none => s.answer .range 0x38 []
    | some w =>
      s.judged 0x38 [(s.declarable counts card voucher warrant, .range)] <|
        match s.declareRefusal w with
        | some reason => s.answer .state 0x38 (be 1 reason)
        | none =>
          let f := s.figures w counts card voucher warrant
          (s.takeDeclaration w f).answer .ok 0x38 (s.declareBody w f)

/-! ### SIGN OFF SHIFT (R151) -/

/-- SIGN OFF SHIFT (R151): a HELD window always holds declared figures. DEDUCED, notes/assumptions/36.md. -/
def execSignOffShift (pos : Position) (target supervisor : Nat) (s : State) : Host.Outcome State Fault Refusal :=
  s.taken (.signOffShift pos target supervisor) <|
    s.judged 0x39 [(fromConsole pos, .grade), (numberInRange supervisor, .range)] <|
    match windowOf target with
    | none => s.answer .range 0x39 []
    | some w =>
      match s.windowIn w [.held], (s.window w).declared with
      | true, some f =>
        (s.finalise w f .signedOff (some supervisor)).answer .ok 0x39 (bOptZero 2 (s.window w).shift)
      | _, _ => s.answer .state 0x39 []

/-! ### READ SHIFT and COLLECT SHIFT (R156, R157) -/

/-- The history as a list (R156): the number of records is an item of its own, and the list of summaries opens with its count too
(R188). DESIGN CHOICE, notes/assumptions/58.md. -/
def State.historyBody (s : State) : List Byte :=
  be 1 s.ret.history.length ++ be 1 s.reservedSlots ++ bList ShiftRecord.summary s.ret.history

/-- READ SHIFT (R156). -/
def execReadShift (pos : Position) (number : Nat) (s : State) : Host.Outcome State Fault Refusal :=
  s.taken (.readShift pos number) <|
    if number = 0 then s.answer .ok 0x3A s.historyBody
    else
      s.judged 0x3A [(numberInRange number, .range)] <|
        match s.record? number with
        | none => s.answer .notFound 0x3A []
        | some r => s.answer .ok 0x3A r.bytes

/-- COLLECT SHIFT (R157); its grade is judged first (R165). -/
def execCollectShift (pos : Position) (number : Nat) (s : State) : Host.Outcome State Fault Refusal :=
  s.taken (.collectShift pos number) <| s.judged 0x3B [(s.supervises pos, .grade), (numberInRange number, .range),
      ((s.record? number).isSome, .notFound)]
    ((s.modRecord number fun r => { r with collected := true }).answer .ok 0x3B [])

end Sys2Proof.Machine
end

