-- ==== Sys2Proof/Machine/Ports.lean ====
section
/-! DEFINITION. The printer port controllers (chapter 2): sending, the choice of the next command, dispatch, the handling of
replies, timeouts, temperature and identification. -/

namespace Sys2Proof.Machine

/-! ### Sending and choosing (R30, R37, R38) -/

/-- A command sent (R30): it takes the next command number, is outstanding, and is one more after the reference command (R31).
DESIGN CHOICE, notes/assumptions/7.md. -/
def State.send (s : State) (p : Fin 6) (kind : CommandKind) (body : Option PrintBody) : State :=
  s.modPrinter p fun x => { x with
    nextCommand := x.nextCommand + 1#8
    outstanding := some (x.nextCommand, kind)
    sentSince := saturating 256 (x.sentSince + 1)
    sent := some { number := x.nextCommand, kind := kind, body := body } }

/-- Why the port chooses: afresh, since the slot has become free or something a dispatch condition depends on has changed, or
because the waiting interval has run out (R37). -/
inductive Trigger where
  | afresh | interval
  deriving DecidableEq, Repr

/-- The job at the head of a printer's queue and its next copy, when the scheduler has a copy to give (R60). -/
def State.headCopy (s : State) (p : Fin 6) : Option (Job × Nat) :=
  match (s.printer p).queue with
  | [] => none
  | tag :: _ =>
    match s.job? tag with
    | none => none
    | some j => if j.stop.isSome then none else j.nextCopy.map fun c => (j, c)

/-- The dispatch conditions 1 to 4 of R38; after a timeout no PRINT is sent until a reply is accepted (R39). -/
def State.mayPrint (s : State) (p : Fin 6) : Bool :=
  let x := s.printer p
  decide ((x.state = .ready ∨ x.state = .busy) ∧ x.lastAcceptance = some .taken ∧ x.lastCondition = some .ready ∧
    (s.path p).length ≤ 1 ∧ x.timeoutCount = 0) && !x.disablePending

/-- The in-path entry a dispatch asks for, but for pack id and serial (R38, step 2). -/
def State.intendedEntry (s : State) (p : Fin 6) (j : Job) (copy : Nat) : InPathEntry :=
  { pack := 0
    serial := 0
    tag := j.tag
    copy := copy
    position := j.position
    shift := j.shift
    value := j.value
    tender := j.tender
    command := (s.printer p).nextCommand }

/-- A copy dispatched: a QUEUED job becomes PRINTING (R60). -/
def Job.dispatched (copy : Nat) (j : Job) : Job :=
  { j.setCopy copy .inPath with state := if j.state = .queued then .printing else j.state }

/-- A PRINT for the next copy when every dispatch condition of R38 holds; none otherwise. -/
def State.dispatch (s : State) (p : Fin 6) : Option State :=
  if s.mayPrint p then
    match s.headCopy p with
    | none => none
    | some (j, copy) =>
      if s.qualifies p j.stockType then
        match s.take p j.stockType (s.intendedEntry p j copy) with
        | none => none
        | some (s', e, side) =>
          some ((s'.send p .print (some (s'.compose j copy e.serial side))).modJob j.tag (Job.dispatched copy))
      else none
  else none

/-- A POLL sent. -/
def State.poll (s : State) (p : Fin 6) : State := s.send p .poll none

/-- A POLL when the path is not empty, or when the waiting interval has run out (R37). -/
def State.pollOrWait (s : State) (p : Fin 6) (trigger : Trigger) : State :=
  if s.path p ≠ [] ∨ trigger = .interval then s.poll p else s

/-- The port's choice of the next command in a free slot (R37, R39). -/
def State.choose (s : State) (trigger : Trigger) (p : Fin 6) : State :=
  let x := s.printer p
  if x.outstanding.isSome then s
  else
    match x.state with
    | .poweredDown | .disabled | .starting | .offline => s
    | .faulted =>
      if s.path p = [] ∧ x.confirmPending ∧ x.timeoutCount = 0 then s.send p .clear none
      else s.pollOrWait p trigger
    | .heatHold => s.pollOrWait p trigger
    | .ready | .busy =>
      match s.dispatch p with
      | some s' => s'
      | none => s.pollOrWait p trigger

/-- What a take reads of the pack in a bin (R7). -/
structure BinView where
  id        : Nat
  stockType : Fin 8
  condition : PackCondition
  remaining : Nat
  deriving DecidableEq, Repr

/-- What the dispatch conditions of a port depend on (R38), in their order, and its queue: a job that joins it, and one that leaves it,
makes the port choose (R58, R65, R68). -/
structure DispatchView where
  queue          : List Nat
  state          : PrinterState
  disablePending : Bool
  lastAcceptance : Option Acceptance
  lastCondition  : Option Condition
  inPath         : Nat
  copy           : Option (Nat × Nat)
  qualifies      : Bool
  binA           : Option BinView
  binB           : Option BinView
  doubt          : Bool
  deriving DecidableEq, Repr

/-- A pack as a take sees it. -/
def Pack.view (k : Pack) : BinView :=
  { id := k.id, stockType := k.stockType, condition := k.condition, remaining := k.remaining }

/-- What the dispatch conditions of a port read in a state (R38). -/
def State.dispatchView (s : State) (p : Fin 6) : DispatchView :=
  let x := s.printer p
  { queue := x.queue
    state := x.state
    disablePending := x.disablePending
    lastAcceptance := x.lastAcceptance
    lastCondition := x.lastCondition
    inPath := (s.path p).length
    copy := (s.headCopy p).map fun c => (c.1.tag, c.2)
    qualifies := (s.headCopy p).any fun c => s.qualifies p c.1.stockType
    binA := (s.binPack? p .a).map Pack.view
    binB := (s.binPack? p .b).map Pack.view
    doubt := s.hasDoubt p }

/-- A port chooses afresh when something its dispatch conditions depend on is no longer what it was in the state before (R37). -/
def State.wake (s before : State) (p : Fin 6) : State :=
  if s.dispatchView p = before.dispatchView p then s else s.choose .afresh p

/-- Every port whose dispatch conditions a step has changed chooses afresh, by number, at the end of the step's own effect (R37);
`before` is the state the step met. DEDUCED, notes/assumptions/26.md. -/
def State.wakeAll (s before : State) : State := allPrinters.foldl (fun s p => s.wake before p) s

/-! ### Temperature (R41 to R43) -/

/-- The marker a failed sensor forces the average to (R42). -/
def sensorMarker : Nat := 1280

/-- A sample's window and average in a printer record. -/
def Printer.setWindow (x : Printer) (w : List Nat) : Printer :=
  { x with temperatures := w, average := some (w.sum / 4) }

/-- A valid sample: it fills the window after an identification, an ENABLE or a sensor failure, and is added as the newest
otherwise (R41, R42). DEDUCED, notes/assumptions/6.md. -/
def Printer.takeSample (x : Printer) (n : Nat) : Printer :=
  if x.refill ∨ x.sensorFailed ∨ x.temperatures = [] then
    { x.setWindow [n, n, n, n] with refill := false, sensorFailed := false }
  else x.setWindow (x.temperatures.tail ++ [n])

/-- A sample taken (R41, R42): it reads the hold and resume counts (R174). A failed one forces the marker and raises SENSOR-FAIL; the
next valid one meets the code. A count above 1023 is none of the link's and changes nothing (DESIGN CHOICE,
notes/assumptions/21.md). -/
def State.takeSample (s : State) (p : Fin 6) (n : Nat) : State :=
  if n = 0 ∨ n = 1023 then
    (s.modPrinter p fun x => { x with
      average := some sensorMarker
      sensorFailed := true
      limits := some (s.heatLimits p) }).raise p .sensorFail none
  else if n < 1023 then
    let failed := (s.printer p).sensorFailed
    let s := s.modPrinter p fun x => { x.takeSample n with limits := some (s.heatLimits p) }
    if failed then s.markCodes p (·.meet .sensorFail) else s
  else s

/-- The average compared with the hold and resume counts the sample has read (R43). -/
def State.compareHeat (s : State) (p : Fin 6) : State :=
  match (s.printer p).state with
  | .ready | .busy => if (s.printer p).tooHot then s.setPrinterState p .heatHold else s
  | .heatHold =>
    if (s.printer p).cooled then s.setPrinterState p (if s.path p = [] then .ready else .busy) else s
  | .poweredDown | .starting | .faulted | .offline | .disabled => s

/-! ### A reply (R31 to R35) -/

/-- Does a number name a command of the window: from the reference command up to but not including the one answered, in order of
sending (R31)? A window of 256 commands or more, which commands dropped at a DISABLE can bring (R30), holds every number.
DEDUCED, notes/assumptions/30.md. -/
def inWindow (sentSince : Nat) (reference answered c : Byte) : Bool :=
  decide (256 ≤ sentSince ∨ (c - reference).toNat < (answered - reference).toNat)

/-- How many commands before the one answered a command was sent. -/
def commandAge (answered c : Byte) : Nat := (answered - c).toNat

/-- The outstanding command a reply answers, unless the reply is discarded (R31). -/
def State.answered (s : State) (p : Fin 6) (r : PrinterReply) : Option (Byte × CommandKind) :=
  match (s.printer p).outstanding with
  | none => none
  | some (n, kind) => if r.answers = n then some (n, kind) else none

/-- The settlements of one reply, by the command of each entry (R32, R34): those before c, the one of c, and those to be
returned (the ones after c, the one of c when its outcome is NOT-FED with cause NONE, and that of a refused PRINT). -/
structure Settlement where
  lost     : List InPathEntry
  outcome  : Option InPathEntry
  returned : List InPathEntry
  deriving DecidableEq, Repr

/-- The settlements of a reply that answers command `n` of a kind (R32, R34). -/
def settle (path : List InPathEntry) (n : Byte) (kind : CommandKind) (r : PrinterReply) : Settlement :=
  let c := commandAge n r.outcomeOf
  let handed := decide (r.outcome ≠ .notFed)
  { lost := path.filter fun e => decide (c < commandAge n e.command)
    outcome := if handed then path.find? fun e => decide (commandAge n e.command = c) else none
    returned := path.filter fun e =>
      let a := commandAge n e.command
      decide (0 < a ∧ a < c) || (decide (a = c) && !handed) ||
        decide (a = 0 ∧ kind = .print ∧ r.acceptance = .refused) }

/-- One more consecutive spoil; REPEATED-SPOIL is raised when that makes 3 (R33, R101). -/
def State.countConsecutive (s : State) (p : Fin 6) (e : InPathEntry) : State :=
  let n := (s.printer p).spoilCount
  let s := s.modPrinter p fun x => { x with spoilCount := saturating 3 (n + 1) }
  if n + 1 = 3 then s.raise p .repeatedSpoil (some e.occasion) else s

/-- What the port raises for a spoil, and the number of its entry (R33). -/
def State.raiseSpoil (s : State) (p : Fin 6) (cause : SpoilCause) (e : InPathEntry) : State × Nat :=
  match cause with
  | .misfeed => (s.logTransient p .misfeed e.occasion, s.freshFaultNumber)
  | .stripe => (s.logTransient p .stripe e.occasion, s.freshFaultNumber)
  | .jam =>
    let s := s.raise p .jam (some e.occasion)
    (s, (s.printer p).openFault.getD 0)
  | .cutter =>
    let s := s.raise p .cutter (some e.occasion)
    (s, (s.printer p).openFault.getD 0)

/-- What the port raises and counts for the outcome of c, and the number of the entry logged (R33). -/
def State.raiseOutcome (s : State) (p : Fin 6) (o : PrintOutcome) (e : InPathEntry) : State × Nat :=
  match o with
  | .done => (s.modPrinter p fun x => { x with spoilCount := 0 }, 0)
  | .spoiled cause =>
    let r := s.raiseSpoil p cause e
    (r.1.countConsecutive p e, r.2)
  | .notFed => (s, 0)
  | .binEmpty => (s.logTransient p .binEmpty e.occasion, s.freshFaultNumber)

/-- The outcome of c applied to its blank (R33). -/
def State.applyOutcome (s : State) (p : Fin 6) (o : PrintOutcome) (fault : Nat) (e : InPathEntry) : State :=
  match o with
  | .done => s.issueBlank p e
  | .spoiled _ => s.spoilBlank p e fault
  | .notFed => s
  | .binEmpty => s.binEmptied p e fault

/-- DOUBT raised when blanks became doubtful since the list held `before` entries: the occasion is the oldest of them
(R32, R93). -/
def State.raiseDoubtSince (s : State) (p : Fin 6) (before : Nat) : State :=
  match s.ret.doubtful.drop before with
  | [] => s
  | d :: _ => s.raise p .doubt (some d.occasion)

/-- The settlements applied: the port's raises, then the conversions, the outcome of c and the returns, then DOUBT (R32, R33).
DEDUCED, notes/assumptions/16.md. -/
def State.applySettlement (s : State) (p : Fin 6) (o : PrintOutcome) (w : Settlement) : State :=
  let before := s.ret.doubtful.length
  let raised := match w.outcome with
    | none => (s, 0)
    | some e => s.raiseOutcome p o e
  let s := w.lost.foldl (fun s e => s.makeDoubtful p e) raised.1
  let s := match w.outcome with
    | none => s
    | some e => s.applyOutcome p o raised.2 e
  (s.returnAll p w.returned).raiseDoubtSince p before

/-- What an accepted reply leaves in the printer record (R34); a bin beyond those fitted is not sensed (R189). -/
def Printer.record (x : Printer) (n : Byte) (r : PrinterReply) (bins : Nat) : Printer :=
  { x with
    reference := some n
    sentSince := 0
    lastAcceptance := some r.acceptance
    senseA := some r.senseA
    senseB := if bins < 2 then x.senseB else some r.senseB
    timeoutCount := 0 }

/-- The bins fitted by the printer's identity. -/
def Printer.bins (x : Printer) : Nat := (x.identity.map (·.bins)).getD 2

/-- A CLEAR answered TAKEN (R34, R99). -/
def State.confirmed (s : State) (p : Fin 6) : State :=
  (s.modPrinter p fun x => { x with confirmPending := false, spoilCount := 0 }).markCodes p CodeMarks.confirm

/-- The acceptance of a reply (R34). -/
def State.takeAcceptance (s : State) (p : Fin 6) (n : Byte) (kind : CommandKind) (r : PrinterReply) : State :=
  let s := s.modPrinter p fun x => { x.record n r x.bins with lastCondition := some r.condition }
  if kind = .clear ∧ r.acceptance = .taken then s.confirmed p else s

/-- The condition of a reply: a fault raised, or a READY report (R35, R95). -/
def State.takeCondition (s : State) (p : Fin 6) (c : Condition) : State :=
  match conditionCode c with
  | some code => s.raise p code none
  | none => s.markCodes p CodeMarks.ready

/-- A pending disable completed when the printer is READY or HEAT-HOLD with nothing in path (R49).
DEDUCED, notes/assumptions/17.md. -/
def State.finishDisable (s : State) (p : Fin 6) : State :=
  let x := s.printer p
  if x.disablePending ∧ s.path p = [] ∧ (x.state = .ready ∨ x.state = .heatHold) then s.completeDisable p else s

/-- An accepted reply to a PRINT, a POLL or a CLEAR, in the order of R95; then the freed slot is used and the other ports choose
afresh (R37). -/
def State.acceptReply (s : State) (p : Fin 6) (n : Byte) (kind : CommandKind) (r : PrinterReply) : State :=
  let before := s
  let s := s.modPrinter p fun x => { x with outstanding := none }
  let s := s.applySettlement p r.outcome (settle (s.path p) n kind r)
  let s := s.takeAcceptance p n kind r
  let s := (s.takeSample p r.temperature).compareHeat p
  let s := (s.takeCondition p r.condition).clearingTest p false
  ((s.finishDisable p).choose .afresh p).wakeAll before

/-- A reply to a PRINT, a POLL or a CLEAR (R31, R32); a discarded one changes nothing. -/
def State.receiveReply (s : State) (p : Fin 6) (r : PrinterReply) : State :=
  match s.answered p r with
  | none => s
  | some (n, kind) =>
    if kind ≠ .ident ∧
        (s.printer p).reference.any fun ref => inWindow (s.printer p).sentSince ref n r.outcomeOf then s.acceptReply p n kind r
    else s

/-! ### Identification (R44 to R46) -/

/-- An IDENT sent; in STARTING it increases identification tries (R44). -/
def State.sendIdent (s : State) (p : Fin 6) : State :=
  (s.modPrinter p fun x => { x with
    identTries := if x.state = .starting then saturating 10 (x.identTries + 1) else x.identTries }).send p .ident none

/-- What POWER PRINTER on clears in the printer record (R44, steps 1 and 2). -/
def Printer.forget (x : Printer) : Printer :=
  { x with
    identity := none
    senseA := none
    senseB := none
    temperatures := []
    average := none
    limits := none
    sensorFailed := false
    spoilCount := 0
    lastAcceptance := none
    lastCondition := none
    reference := none
    sentSince := 0
    timeoutCount := 0
    identTries := 0 }

/-- Identification begun as POWER PRINTER on begins it (R44): the printer is STARTING and an IDENT goes at once. -/
def State.startIdentification (s : State) (p : Fin 6) : State :=
  ((s.modPrinter p Printer.forget).setPrinterState p .starting).sendIdent p

/-- Does the identity report one bin while the register locates a pack in bin B (R45, R50)? -/
def State.strandedBinB (s : State) (p : Fin 6) : Bool :=
  (s.printer p).identity.any (fun i => decide (i.bins = 1)) && (s.binPack? p .b).isSome

/-- Step 1 of R45 with the acceptance (R34). -/
def Printer.identified (x : Printer) (n : Byte) (r : PrinterReply) (i : Identity) : Printer :=
  { x.record n r i.bins with
    outstanding := none
    identity := some i
    senseB := if i.bins = 1 then none else some r.senseB
    refill := true }

/-- Step 3 of R45: LINK-LOST is met, a READY condition gives its marks, and the clearing test is made (R95, R96). -/
def State.linkAnswered (s : State) (p : Fin 6) (c : Condition) : State :=
  let s := s.markCodes p (·.meet .linkLost)
  let s := if c = .ready then
      (s.modPrinter p fun x => { x with lastCondition := some .ready }).markCodes p CodeMarks.ready
    else s
  s.clearingTest p true

/-- The raises of step 4 of R45: DOUBT for doubtful entries, and a fault condition; a failed sample's SENSOR-FAIL has been raised at
step 2. DEDUCED, notes/assumptions/18.md. -/
def State.raiseAtIdentity (s : State) (p : Fin 6) (c : Condition) : State :=
  let s := s.modPrinter p fun x => { x with lastCondition := some c }
  let s := if s.hasDoubt p then s.raise p .doubt none else s
  match conditionCode c with
  | some code => s.raise p code none
  | none => s

/-- Step 4 of R45: the state the printer is placed in. -/
def State.placeIdentified (s : State) (p : Fin 6) : State :=
  if (s.printer p).openFault.isSome then s.setPrinterState p .faulted
  else if (s.printer p).disablePending then s.completeDisable p
  else if s.strandedBinB p then s.setPrinterState p .disabled
  else if (s.printer p).tooHot then s.setPrinterState p .heatHold
  else s.setPrinterState p .ready

/-- An accepted reply to IDENT (R45). A failed sample raises SENSOR-FAIL once, with the sample of step 2 (R42) and so before the DOUBT of
step 4. DEDUCED, notes/assumptions/18.md. -/
def State.acceptIdentity (s : State) (p : Fin 6) (n : Byte) (r : PrinterReply) (i : Identity) : State :=
  let before := s
  let s := (s.modPrinter p (·.identified n r i)).takeSample p r.temperature
  let s := (s.linkAnswered p r.condition).raiseAtIdentity p r.condition
  ((s.placeIdentified p).choose .afresh p).wakeAll before

/-- A reply to IDENT (R31, R45); a discarded one changes nothing. -/
def State.receiveIdentity (s : State) (p : Fin 6) (r : PrinterReply) (i : Identity) : State :=
  match s.answered p r with
  | none => s
  | some (n, kind) =>
    if kind = .ident ∧ 32 ≤ i.headWidth ∧ i.headWidth ≤ 64 ∧ (i.bins = 1 ∨ i.bins = 2) then s.acceptIdentity p n r i
    else s

/-! ### Timers (R37, R39, R40, R44, R46) -/

/-- LINK-LOST in a printing state (R40). -/
def State.loseLink (s : State) (p : Fin 6) : State :=
  let before := s
  let s := (s.path p).foldl (fun s e => s.makeDoubtful p e) s
  let s := (s.raise p .linkLost none).raiseDoubtSince p before.ret.doubtful.length
  ((s.setPrinterState p .offline).modPrinter p fun x => { x with timeoutCount := 0 }).wakeAll before

/-- The reply timer of a command other than IDENT expires (R39). DESIGN CHOICE, notes/assumptions/27.md. -/
def State.expireReply (s : State) (p : Fin 6) : State :=
  match (s.printer p).outstanding with
  | none => s
  | some (_, kind) =>
    if kind = .ident then s
    else
      let n := (s.printer p).timeoutCount + 1
      let s := s.modPrinter p fun x => { x with outstanding := none, timeoutCount := n }
      if n < 3 then s.poll p else s.loseLink p

/-- LINK-LOST at the tenth unanswered IDENT (R44), and DOUBT behind it when the doubtful list holds an entry for the printer
(R90). -/
def State.giveUpIdentifying (s : State) (p : Fin 6) : State :=
  let before := s
  let s := s.raise p .linkLost none
  let s := if s.hasDoubt p then s.raise p .doubt none else s
  (s.modPrinter p fun x => { x with identTries := 0 }).wakeAll before

/-- The reply timer of an IDENT expires: the tenth of a STARTING period raises LINK-LOST (R44); otherwise only the time of the
next IDENT follows (R46). DESIGN CHOICE, notes/assumptions/27.md. -/
def State.expireIdent (s : State) (p : Fin 6) : State :=
  match (s.printer p).outstanding with
  | none => s
  | some (_, kind) =>
    if kind = .ident then
      let s := s.modPrinter p fun x => { x with outstanding := none }
      if (s.printer p).state = .starting ∧ (s.printer p).identTries ≥ 10 then s.giveUpIdentifying p else s
    else s

/-- The identification interval runs out: IDENT is sent in STARTING or OFFLINE when none is outstanding (R44, R46). -/
def State.identDue (s : State) (p : Fin 6) : State :=
  let x := s.printer p
  if x.outstanding.isNone ∧ (x.state = .starting ∨ x.state = .offline) then s.sendIdent p else s

/-- A DISABLE taken by the printer's state (R49, R102): DISABLED at once, or disable pending set. -/
def State.withdraw (s : State) (p : Fin 6) : State :=
  let x := s.printer p
  if (x.state = .ready ∨ (x.state = .heatHold ∧ s.path p = [])) ∧ !x.disablePending then s.setPrinterState p .disabled
  else s.modPrinter p fun x => { x with disablePending := true }

/-- Is a DISABLE completed at once (R49, R102)? -/
def State.withdrawsAtOnce (s : State) (p : Fin 6) : Bool :=
  let x := s.printer p
  decide (x.state = .ready ∨ (x.state = .heatHold ∧ s.path p = [])) && !x.disablePending

end Sys2Proof.Machine
end

