-- ==== Sys2Proof/Machine/Printers.lean ====
section
/-! DEFINITION. The printer requests (chapters 2 and 5): POWER, DISABLE, ENABLE, READ and RESUME PRINTER. -/

namespace Sys2Proof.Machine

/-! ### POWER PRINTER (R44, R48) -/

/-- Is the printer's port fitted (R44, R102)? -/
def State.isFitted (s : State) (p : Fin 6) : Bool := decide (p.val + 1 ≤ s.fitted)

/-- POWER PRINTER on (R44); its grade is judged first (R165). An on field that is neither yes nor no is out of range.
DESIGN CHOICE, notes/assumptions/32.md. -/
def execPowerPrinterOn (pos : Position) (printer onField : Nat) (s : State) : Host.Outcome State Fault Refusal :=
  s.taken (.powerPrinterOn pos printer onField) <|
    s.judged 0x20 [(s.supervises pos, .grade), (decide (onField = 1), .range)] <|
    match printerOf printer with
    | none => s.answer .range 0x20 []
    | some p =>
      s.judged 0x20 [(s.isFitted p, .range), ((s.live.printerItems[p]).enabled, .range),
          (decide ((s.printer p).state = .poweredDown), .state)]
        ((s.startIdentification p).answer .accepted 0x20 [])

/-- The open standing entry cleared by POWER PRINTER off, whatever its codes and marks (R97). An entry that lists REPEATED-SPOIL leaves
the consecutive-spoil count as it is (R33). DESIGN CHOICE, notes/assumptions/63.md. -/
def State.clearAtPowerOff (s : State) (p : Fin 6) : State :=
  match (s.printer p).openFault with
  | none => s
  | some n =>
    ((s.modFault n (·.clear .powerOff s.office.clock)).modPrinter p fun x => { x with openFault := none }).arbitrate

/-- A printer switched off (R48, steps 1 to 4). -/
def State.powerOff (s : State) (p : Fin 6) : State :=
  ((s.setPrinterState p .poweredDown).modPrinter p fun x => { x with
    disablePending := false
    confirmPending := false }).clearAtPowerOff p

/-- POWER PRINTER off (R48); its grade is judged first (R165). -/
def execPowerPrinterOff (pos : Position) (printer : Nat) (s : State) : Host.Outcome State Fault Refusal :=
  s.taken (.powerPrinterOff pos printer) <| s.judged 0x20 [(s.supervises pos, .grade)] <|
    match printerOf printer with
    | none => s.answer .range 0x20 []
    | some p =>
      s.judged 0x20 [(decide ((s.printer p).state ≠ .poweredDown), .state),
          (decide ((s.printer p).queue = [] ∧ s.path p = []), .state)]
        ((s.powerOff p).answer .ok 0x20 [])

/-! ### DISABLE and ENABLE PRINTER (R49, R50) -/

/-- Does DISABLE PRINTER take the request in this state (R49)? -/
def PrinterState.disables : PrinterState → Bool
  | .poweredDown | .disabled => false
  | .starting | .ready | .busy | .heatHold | .faulted | .offline => true

/-- The reply code of a DISABLE taken (R49, R102). -/
def State.withdrawCode (s : State) (p : Fin 6) : ReplyCode := if s.withdrawsAtOnce p then .ok else .accepted

/-- DISABLE PRINTER (R49); its grade is judged first (R165). -/
def execDisablePrinter (pos : Position) (printer : Nat) (s : State) : Host.Outcome State Fault Refusal :=
  s.taken (.disablePrinter pos printer) <| s.judged 0x21 [(s.supervises pos, .grade)] <|
    match printerOf printer with
    | none => s.answer .range 0x21 []
    | some p =>
      s.judged 0x21 [((s.printer p).state.disables, .state)]
        (((s.withdraw p).wakeAll s).answer (s.withdrawCode p) 0x21 [])

/-- A DISABLED printer enabled (R50): READY, a POLL in the next slot, and DOUBT raised at once for doubtful entries. -/
def State.reenable (s : State) (p : Fin 6) : State :=
  let before := s
  let s := s.modPrinter p fun x => { x with lastAcceptance := none, lastCondition := none, refill := true }
  let s := s.setPrinterState p .ready
  let s := if s.hasDoubt p then s.raise p .doubt none else s
  (s.poll p).wakeAll before

/-- ENABLE PRINTER (R50); its grade is judged first (R165). -/
def execEnablePrinter (pos : Position) (printer : Nat) (s : State) : Host.Outcome State Fault Refusal :=
  s.taken (.enablePrinter pos printer) <| s.judged 0x22 [(s.supervises pos, .grade)] <|
    match printerOf printer with
    | none => s.answer .range 0x22 []
    | some p =>
      if (s.printer p).disablePending then
        ((s.modPrinter p fun x => { x with disablePending := false }).wakeAll s).answer .ok 0x22 []
      else
        s.judged 0x22 [(decide ((s.printer p).state = .disabled), .state), (!s.strandedBinB p, .state)]
          ((s.reenable p).answer .ok 0x22 [])

/-! ### READ PRINTER and RESUME PRINTER (R51, R98) -/

/-- The id of the pack in a bin, or empty (R28). -/
def State.binId (s : State) (p : Fin 6) (side : Bin) : Option Nat := (s.binPack? p side).map (·.id)

/-- The body READ PRINTER answers with (R51). The temperature window is sent as a list of samples (R188). DESIGN CHOICE,
notes/assumptions/64.md. -/
def State.printerBody (s : State) (p : Fin 6) : List Byte :=
  let x := s.printer p
  be 1 x.state.code ++ bFlag x.disablePending ++ bFlag x.confirmPending ++ bIdentity x.identity ++
    bOptZero 2 (s.binId p .a) ++ bSense x.senseA ++ bOptZero 2 (s.binId p .b) ++ bSense x.senseB ++
    bList InPathEntry.bytes (s.path p) ++ be 1 x.nextCommand.toNat ++ bList (be 2) x.temperatures ++ bOpt 2 x.average ++
    bFlag x.sensorFailed ++ be 1 x.spoilCount ++ bOptZero 2 x.openFault ++ bList (be 2) x.queue

/-- READ PRINTER (R51). -/
def execReadPrinter (pos : Position) (printer : Nat) (s : State) : Host.Outcome State Fault Refusal :=
  s.taken (.readPrinter pos printer) <|
    match printerOf printer with
    | none => s.answer .range 0x23 []
    | some p => s.answer .ok 0x23 (s.printerBody p)

/-- Is there something to confirm (R98, check 5)? -/
def State.confirmable (s : State) (p : Fin 6) : Bool :=
  decide ((s.printer p).spoilCount = 3) ||
    ((s.printer p).openFault.bind s.fault?).any fun e =>
      (e.first :: e.later).any fun m => m.code.needsConfirmation && !m.confirmed

/-- RESUME PRINTER (R98): the CLEAR waits for the port's next choice. DEDUCED, notes/assumptions/20.md. -/
def execResumePrinter (pos : Position) (printer : Nat) (s : State) : Host.Outcome State Fault Refusal :=
  s.taken (.resumePrinter pos printer) <|
    match printerOf printer with
    | none => s.answer .range 0x24 []
    | some p =>
      s.judged 0x24 [(s.holds pos .clerk, .grade), (s.permitsPrinter pos p, .notPermitted),
          (decide ((s.printer p).state = .faulted), .state), (s.confirmable p, .state)]
        ((s.modPrinter p fun x => { x with confirmPending := true }).answer .accepted 0x24 [])

end Sys2Proof.Machine
end

