-- ==== Sys2Proof/Machine/Faults.lean ====
section
/-! DEFINITION. The requests of the fault log (chapter 5): REPORT, CLOSE and READ FAULTS, FAULT COUNTS. -/

namespace Sys2Proof.Machine

/-! ### REPORT FAULT and CLOSE FAULT (R102, R103) -/

/-- Is an entry an attended one that is OPEN? -/
def FaultEntry.attends (e : FaultEntry) : Bool := decide (e.cls = .attended) && !e.cleared

/-- The most attended entries OPEN (R102). -/
def attendedLimit : Nat := 24

/-- The withdraw of a note (R102): POWERED-DOWN and DISABLED printers are left unchanged. -/
def State.withdrawFor (s : State) (p : Fin 6) (withdraw : Bool) : State :=
  if withdraw && (s.printer p).state.disables then s.withdraw p else s

/-- The reply code of a note (R102). -/
def State.noteCode (s : State) (p : Fin 6) (withdraw : Bool) : ReplyCode :=
  if withdraw && (s.printer p).state.disables then s.withdrawCode p else .ok

/-- A note that passes its checks (R102). -/
def State.report (s : State) (pos : Position) (p : Fin 6) (note : Nat) (withdraw : Bool) : State :=
  ((((s.logNote p pos note withdraw).withdrawFor p withdraw).wakeAll s).answer (s.noteCode p withdraw) 0x28
    (be 2 s.freshFaultNumber))

/-- REPORT FAULT (R102). -/
def execReportFault (pos : Position) (printer note withdraw : Nat) (s : State) : Host.Outcome State Fault Refusal :=
  s.taken (.reportFault pos printer note withdraw) <|
    match printerOf printer, flagOf withdraw with
    | some p, some w =>
      s.judged 0x28 [(s.isFitted p && decide (note ≤ 15), .range),
          (decide (s.ret.faults.countP FaultEntry.attends < attendedLimit), .tableFull)]
        (s.report pos p note w)
    | _, _ => s.answer .range 0x28 []

/-- An attended entry closed (R103). -/
def State.closeNote (s : State) (number : Nat) : State :=
  (s.modFault number (·.clear .closed s.office.clock)).arbitrate

/-- CLOSE FAULT (R103); its grade is judged first (R165). -/
def execCloseFault (pos : Position) (number : Nat) (s : State) : Host.Outcome State Fault Refusal :=
  s.taken (.closeFault pos number) <| s.judged 0x29 [(s.supervises pos, .grade), (numberInRange number, .range)] <|
    match s.fault? number with
    | none => s.answer .notFound 0x29 []
    | some e => s.judged 0x29 [(e.attends, .state)] ((s.closeNote number).answer .ok 0x29 [])

/-! ### READ FAULTS and FAULT COUNTS (R106, R107) -/

/-- The entries from a starting number on that match a selection, in log order (R106). -/
def State.faultsFrom (s : State) (fromNumber selection : Nat) : List FaultEntry :=
  let l := if fromNumber = 0 then s.ret.faults else s.ret.faults.dropWhile fun e => decide (e.number ≠ fromNumber)
  if selection = 0 then l else l.filter (!·.cleared)

/-- The body READ FAULTS answers with (R106). -/
def State.faultsBody (s : State) (fromNumber selection : Nat) : List Byte :=
  let l := s.faultsFrom fromNumber selection
  be 1 s.ret.faults.length ++ be 1 (s.ret.faults.countP (!·.cleared)) ++ bList FaultEntry.bytes (l.take 8) ++
    bOptZero 2 (l[8]?.map (·.number))

/-- READ FAULTS (R106). -/
def execReadFaults (pos : Position) (fromNumber selection : Nat) (s : State) : Host.Outcome State Fault Refusal :=
  s.taken (.readFaults pos fromNumber selection) <|
    s.judged 0x2A [(decide (fromNumber ≤ 65535 ∧ selection ≤ 1), .range),
      (decide (fromNumber = 0) || (s.fault? fromNumber).isSome, .notFound)]
    (s.answer .ok 0x2A (s.faultsBody fromNumber selection))

/-- The body FAULT COUNTS answers with (R107). -/
def State.countsBody (s : State) (p : Fin 6) : List Byte :=
  (s.printer p).counters.toList.flatMap (be 2) ++ bOptZero 2 (s.printer p).openFault ++
    be 1 (s.ret.faults.countP fun e => e.attends && decide (e.printer = p))

/-- FAULT COUNTS (R107). -/
def execFaultCounts (pos : Position) (printer : Nat) (s : State) : Host.Outcome State Fault Refusal :=
  s.taken (.faultCounts pos printer) <|
    match printerOf printer with
    | none => s.answer .range 0x2B []
    | some p => s.answer .ok 0x2B (s.countsBody p)

end Sys2Proof.Machine
end

