-- ==== Sys2Proof/Machine/HostLink.lean ====
section
/-! DEFINITION. The link controller and the notice requests (chapter 9): FETCH NOTICE, SET LINK RATE, RESTART, IDENTIFY, and what
the receiver does with the bytes of frames that bring no request. -/

namespace Sys2Proof.Machine

/-! ### FETCH NOTICE (R166) -/

/-- The body of a FETCH NOTICE reply: notices in the queue, the waiting flag, the notice (R166, chapter 11). -/
def State.fetchBody (s : State) (n : Option Notice) : List Byte :=
  be 1 s.notices.queue.length ++ bFlag s.anyWaiting ++ noticeBytes n

/-- The oldest notice removed; it becomes the last fetched one, and the freed place is filled (R166 to R168).
DEDUCED, notes/assumptions/40.md. -/
def State.fetchOldest (s : State) (n : Notice) (rest : List Notice) : State :=
  (s.setNotices { s.notices with queue := rest, lastFetched := some n, attention := !rest.isEmpty }).arbitrate

/-- FETCH NOTICE with repeat no (R166). -/
def State.fetch (s : State) : State :=
  match s.notices.queue with
  | [] => s.answer .ok 0x06 (s.fetchBody none)
  | n :: rest =>
    let s' := s.fetchOldest n rest
    s'.answer .ok 0x06 (s'.fetchBody (some n))

/-- FETCH NOTICE with repeat yes (R166). -/
def State.fetchAgain (s : State) : State := s.answer .ok 0x06 (s.fetchBody s.notices.lastFetched)

/-- FETCH NOTICE, by its repeat field (R166). DESIGN CHOICE, notes/assumptions/32.md. -/
def execFetchNotice (pos : Position) (repeatField : Nat) (s : State) : Host.Outcome State Fault Refusal :=
  s.taken (.fetchNotice pos repeatField) <|
    match flagOf repeatField with
    | none => s.answer .range 0x06 []
    | some false => s.fetch
    | some true => s.fetchAgain

/-- FETCH NOTICE with repeat yes (R166). -/
def execFetchNoticeRepeat (pos : Position) (s : State) : Host.Outcome State Fault Refusal :=
  s.taken (.fetchNoticeRepeat pos) s.fetchAgain

/-! ### SET LINK RATE, RESTART, IDENTIFY (R160, R163, R172) -/

/-- SET LINK RATE (R160): another rate waits for the reply to leave. -/
def execSetLinkRate (pos : Position) (rate : Nat) (s : State) : Host.Outcome State Fault Refusal :=
  s.taken (.setLinkRate pos rate) <| s.judged 0x4C [(s.supervises pos, .grade)] <|
    if h : rate < 4 then
      (s.setLink { s.link with rateNext := if s.link.rate.val = rate then none else some ⟨rate, h⟩ }).answer .ok 0x4C []
    else s.answer .range 0x4C []

/-- The last byte of the SET LINK RATE reply has left (R160); with no rate waiting nothing happens.
DESIGN CHOICE, notes/assumptions/27.md. -/
def execLinkRateChange (s : State) : Host.Outcome State Fault Refusal :=
  .next <|
    match s.link.rateNext with
    | none => s
    | some r => s.setLink { s.link with rate := r, rateNext := none, leaving := false, receiver := .hunting }

/-- RESTART (R163): the reset follows the reply, whose code is OK. DESIGN CHOICE, notes/assumptions/61.md. -/
def execRestart (pos : Position) (s : State) : Host.Outcome State Fault Refusal :=
  s.taken (.restart pos) <| s.judged 0x4D [(s.supervises pos, .grade)]
    ((s.setLink { s.link with restartNext := true }).answer .ok 0x4D [])

/-- The body IDENTIFY answers with (R172); the revision is a free value (DESIGN CHOICE, notes/assumptions/2.md). -/
def State.identityBody (s : State) : List Byte :=
  be 2 0x4C56 ++ be 2 0x0D24 ++ [Config.revision] ++ be 1 s.link.unit.val ++ be 1 s.link.rate.val ++
    be 1 s.office.resetCause.code ++ be 1 s.office.mode.code ++ be 1 s.ret.audit.code ++ be 1 s.store.source.sourceCode ++
    be 1 s.fitted ++ bFlag s.office.clock.isSome

/-- IDENTIFY (R172). -/
def execIdentify (pos : Position) (s : State) : Host.Outcome State Fault Refusal :=
  s.taken (.identify pos) (s.answer .ok 0x4E s.identityBody)

/-- The last byte of an ordinary reply has left (R161); a reply with a rate or a reset behind it has rows of its own.
DESIGN CHOICE, notes/assumptions/27.md. -/
def execReplyLastByteLeft (s : State) : Host.Outcome State Fault Refusal :=
  .next (if s.link.rateNext.isNone && !s.link.restartNext then s.setLink { s.link with leaving := false } else s)

/-! ### The receiver (R161, R162) -/

/-- The bytes of a complete frame that fails a check of R162. -/
def execFrameCheckFailed (line : List LineByte) (s : State) : Host.Outcome State Fault Refusal := .next (s.receiveLine line)

/-- The bytes of a frame that gets no reply (R161). -/
def execFrameDiscarded (line : List LineByte) (s : State) : Host.Outcome State Fault Refusal := .next (s.receiveLine line)

/-- Bytes, and then a gap over 20 ms, which runs on across bytes with a framing error (R159): the frame is discarded (R161). -/
def execGapTimeout (line : List LineByte) (s : State) : Host.Outcome State Fault Refusal :=
  let s := s.receiveLine line
  .next (s.setLink { s.link with receiver := .hunting })

end Sys2Proof.Machine
end

