-- ==== Sys2Proof/Machine/Jobs.lean ====
section
/-! DEFINITION. The requests of the job scheduler (chapter 3): ISSUE TICKET, CANCEL JOB, READ JOB, VOID TICKET, REFUND. -/

namespace Sys2Proof.Machine

/-! ### ISSUE TICKET (R56 to R58) -/

/-- The most jobs a position has outstanding (R53). -/
def outstandingLimit : Nat := 6

/-- The most records of the job pool (R53). -/
def poolLimit : Nat := 48

/-- May a position sell: the console, or a window that is OPEN (R56, check 2)? -/
def State.sells (s : State) : Position → Bool
  | .console => true
  | .window w => decide ((s.window w).state = .open)

/-- A defined and numbered stock type (R56, check 5). -/
def State.numberedType (s : State) (n : Nat) : Option (Fin 8) :=
  (stockOf n).filter fun t => (s.stockType t).definition.defined && (s.stockType t).definition.numbered

/-- Does a printer take specific-routed jobs (R57, check 2)? -/
def Printer.takesJobs (x : Printer) : Bool :=
  decide (x.state ≠ .poweredDown ∧ x.state ≠ .starting ∧ x.state ≠ .offline ∧ x.state ≠ .disabled) && !x.disablePending

/-- The printer check (R57): the printer that takes the job, or the refusal. -/
def State.issuePrinter (s : State) (pos : Position) (t : Fin 8) : Option (Fin 6) → Except ReplyCode (Fin 6)
  | some p =>
    match judge [
        (s.permitsPrinter pos p, .notPermitted),
        ((s.printer p).takesJobs, .state),
        (s.anyBin p fun k => decide (k.stockType = t), .noStock),
        (s.qualifies p t, .range),
        (decide ((s.printer p).queue.length < queueLimit), .queueFull)] with
    | some code => .error code
    | none => .ok p
  | none =>
    match s.autoChoice pos t with
    | some p => .ok p
    | none => .error .noPrinter

/-- The tag a new job receives (R55). -/
def State.freshTag (s : State) : Nat := freeNumber (s.pool.map (·.tag)) s.nextTag

/-- A job accepted onto a printer's queue (R58, steps 1 to 5). -/
def State.acceptJob (s : State) (pos : Position) (t : Fin 8) (routing : Option (Fin 6)) (p : Fin 6) (copies value : Nat)
    (tender : Tender) (slots : List (List Byte)) : State :=
  let tag := s.freshTag
  let job : Job := {
    tag := tag
    position := pos
    shift := s.shiftOf pos
    stockType := t
    routing := routing
    assigned := p
    copies := copies
    value := value
    tender := tender
    slots := slots
    copyStates := List.replicate copies .undispatched
    serials := []
    spoilCount := 0
    blanksSpoiled := 0
    rerouteCount := 0
    cancelRequested := false
    stop := none
    state := .queued
    outcome := none
    reason := none
    endPending := false }
  (((s.setPool (s.pool ++ [job])).setNextTag (bump tag)).joinQueue p tag).modOutstanding pos (· + 1)

/-- The first five checks of R56. -/
def State.issueChecks (s : State) (pos : Position) (stockType routing copies value tender : Nat)
    (slots : List (List Byte)) : List (Bool × ReplyCode) :=
  [(decide (s.office.mode = .trading), .mode),
    (s.sells pos, .state),
    (s.holds pos .relief, .grade),
    (s.permitsStock pos stockType, .notPermitted),
    ((s.numberedType stockType).isSome && (routingOf routing).isSome && within 1 9 copies && decide (value ≤ 999999) &&
      (tenderOf tender).isSome && slotsInRange slots, .range)]

/-- Checks 6 and 7 of R56. -/
def State.roomChecks (s : State) (pos : Position) (t : Fin 8) : List (Bool × ReplyCode) :=
  [((s.layout t).invalid.isNone, .layout),
    (decide (s.outstanding pos < outstandingLimit ∧ s.pool.length < poolLimit), .queueFull)]

/-- An ISSUE TICKET whose fields are in range (R56, checks 6 to 8, and R58): the port of the printer whose queue the job joins then
chooses afresh. -/
def State.issue (s : State) (pos : Position) (t : Fin 8) (routing : Option (Fin 6)) (copies value : Nat) (tender : Tender)
    (slots : List (List Byte)) : State :=
  s.judged 0x01 (s.roomChecks pos t) <|
    match s.issuePrinter pos t routing with
    | .error code => s.answer code 0x01 []
    | .ok p =>
      ((s.acceptJob pos t routing p copies value tender slots).wakeAll s).answer .accepted 0x01
        (be 2 s.freshTag ++ bPrinter p)

/-- ISSUE TICKET (R56). -/
def execIssueTicket (pos : Position) (stockType routing copies value tender : Nat) (slots : List (List Byte)) (s : State) :
    Host.Outcome State Fault Refusal :=
  s.taken (.issueTicket pos stockType routing copies value tender slots) <|
    s.judged 0x01 (s.issueChecks pos stockType routing copies value tender slots) <|
    match s.numberedType stockType, routingOf routing, tenderOf tender with
    | some t, some r, some d => s.issue pos t r copies value d slots
    | _, _, _ => s.answer .range 0x01 []

/-! ### CANCEL JOB and READ JOB (R70, R71) -/

/-- May a position cancel a job: its own, or any at SUPERVISOR (R70, check 2)? -/
def State.mayCancel (s : State) (pos : Position) (j : Job) : Bool := decide (j.position = pos) || s.supervises pos

/-- A cancel that passes its checks (R70). -/
def State.cancel (s : State) (j : Job) : State :=
  if j.stop.isSome then s.answer .accepted 0x02 []
  else
    (((s.modJob j.tag fun k => { k with cancelRequested := true, stop := some .cancelled }).endTest j.tag).wakeAll s).answer
      (if j.anyInPath then .accepted else .ok) 0x02 []

/-- CANCEL JOB (R70). -/
def execCancelJob (pos : Position) (tag : Nat) (s : State) : Host.Outcome State Fault Refusal :=
  s.taken (.cancelJob pos tag) <| s.judged 0x02 [(numberInRange tag, .range)] <|
    match s.job? tag with
    | none => s.answer .notFound 0x02 []
    | some j => s.judged 0x02 [(s.mayCancel pos j, .grade), (decide (j.state ≠ .ended), .state)] (s.cancel j)

/-- READ JOB (R71). -/
def execReadJob (pos : Position) (tag part : Nat) (s : State) : Host.Outcome State Fault Refusal :=
  s.taken (.readJob pos tag part) <| s.judged 0x03 [(numberInRange tag, .range), (decide (part ≤ 1), .range)] <|
    match s.job? tag with
    | none => s.answer .notFound 0x03 []
    | some j => s.answer .ok 0x03 (if part = 0 then j.bytes else j.textBytes)

/-! ### VOID TICKET and REFUND (R72 to R74) -/

/-- The entry a void names in the voiding window's list (R72, check 4). -/
def State.recentEntry (s : State) (w : Fin 15) (serial : Nat) (t : Fin 8) : Option RecentIssue :=
  (s.window w).recent.find? fun e => decide (e.serial = serial ∧ e.stockType = t)

/-- The VOIDED run of an entry (R17). -/
def RecentIssue.voidRun (e : RecentIssue) (w : Fin 15) : ExceptionEntry :=
  { first := e.serial, run := 1, disposition := .voided, position := some (.window w), fault := none }

/-- Can the register add the VOIDED exception (R17)? With no record of the entry's pack there is no list that could be full, and the
void is taken: no VOIDED run is added, and the tally is reversed all the same. DESIGN CHOICE, notes/assumptions/52.md. -/
def State.canVoid (s : State) (w : Fin 15) (e : RecentIssue) : Bool :=
  (s.pack? e.pack).all fun k => k.merges (e.voidRun w) || decide (k.exceptions.length < suspendAt)

/-- A void applied (R73); the run may suspend its pack, which is a dispatch condition of the port that holds it (R10, R37). -/
def State.voidEntry (s : State) (w : Fin 15) (e : RecentIssue) : State :=
  (((s.addException e.pack (e.voidRun w)).modTallies (.window w) (·.reverse e)).modRecent (.window w) (·.erase e)).wakeAll s

/-- The amount a void reverses (R137). -/
def State.reversed (s : State) (w : Fin 15) (e : RecentIssue) : Nat :=
  ((s.window w).tallies.tender.get e.tender).reversible e.credited

/-- A void of a ticket of a window that passes checks 1 and 2 (R72, checks 3 to 5, and R73). -/
def State.void (s : State) (w : Fin 15) (serial : Nat) (t : Fin 8) : State :=
  s.judged 0x04 [(decide ((s.window w).state = .open ∨ (s.window w).state = .suspended), .state)] <|
    match s.recentEntry w serial t with
    | none => s.answer .notFound 0x04 []
    | some e =>
      s.judged 0x04 [(s.canVoid w e, .tableFull)] <|
        (s.voidEntry w e).answer .ok 0x04 (be 4 e.serial ++ be 1 e.tender.code ++ be 3 (s.reversed w e))

/-- Does a void request pass its grade check (R72, check 2)? -/
def State.mayVoid (s : State) : Position → Bool
  | .console => true
  | .window w => s.holds (.window w) .clerk

/-- VOID TICKET (R72). -/
def execVoidTicket (pos : Position) (serial stockType target : Nat) (s : State) : Host.Outcome State Fault Refusal :=
  s.taken (.voidTicket pos serial stockType target) <|
    match stockOf stockType, subjectOf pos target with
    | some t, some w =>
      s.judged 0x04 [(serialInRange serial, .range), (s.mayVoid pos, .grade)] (s.void w serial t)
    | _, _ => s.answer .range 0x04 []

/-- A refund that passes its checks (R74, R138). -/
def State.recordRefund (s : State) (pos : Position) (value : Nat) (d : Tender) : State :=
  let amount := s.refundOf d value
  (s.modTallies pos (·.refund d amount)).answer .ok 0x05 (be 3 amount)

/-- May a position refund: a window that is OPEN (R74, check 1)? -/
def State.mayRefund (s : State) : Position → Bool
  | .console => false
  | .window w => decide ((s.window w).state = .open)

/-- REFUND (R74). -/
def execRefund (pos : Position) (value tender : Nat) (s : State) : Host.Outcome State Fault Refusal :=
  s.taken (.refund pos value tender) <|
    s.judged 0x05 [(s.mayRefund pos, .state), (s.holds pos .clerk, .grade), (decide (value ≤ 999999), .range)] <|
    match tenderOf tender with
    | none => s.answer .range 0x05 []
    | some d => s.recordRefund pos value d

end Sys2Proof.Machine
end

