-- ==== Sys2Proof/Machine/Settings.lean ====
section
/-! DEFINITION. The settings store (chapter 10): field ranges, the copy of the live settings, loads, and the end of an
operation. -/

namespace Sys2Proof.Machine

/-! ### Ranges (R174) -/

/-- The rounding units (R174). -/
def roundingUnits : List Nat := [1, 2, 5, 10, 20, 50]

/-- OFFICE within its ranges; a code with every bit set is out of range (R174, R188). DEDUCED, notes/assumptions/51.md. -/
def OfficeItem.inRange (o : OfficeItem) : Bool :=
  decide (o.code ≤ 65535 ∧ o.code ≠ everyBit 2 ∧ o.unit ∈ roundingUnits ∧ o.tolerance ≤ 10000 ∧ o.tolerance ≤ o.limit ∧
    o.limit ≤ 1000000)

/-- DENOMINATIONS within their range (R174). -/
def facesInRange (faces : Vector Nat 12) : Bool := faces.toList.all fun n => decide (n ≤ 100000)

/-- The definition a write of STOCK TYPE k carries; none when a flag is neither yes nor no (R174, R188). -/
def definitionOf (defined numbered striped digits : Nat) : Option StockDefinition := do
  let defined ← flagOf defined
  let numbered ← flagOf numbered
  let striped ← flagOf striped
  if 6 ≤ digits ∧ digits ≤ 9 then some { defined := defined, numbered := numbered, striped := striped, digits := digits }
  else none

/-- The sets a write of POSITION p carries: bit 0 and bit 7 of the printer set stand for no printer (R113, R188).
DESIGN CHOICE, notes/assumptions/33.md. A stock set with every bit set is out of range (R188). DEDUCED,
notes/assumptions/51.md. -/
def permissionsOf (printerSet stockSet enabled : Nat) : Option Permissions := do
  let enabled ← flagOf enabled
  if printerSet < 256 ∧ stockSet < 256 ∧ stockSet ≠ everyBit 1 ∧ ¬ printerSet.testBit 0 ∧ ¬ printerSet.testBit 7 then
    some { printerSet := BitVec.ofNat 8 printerSet, stockSet := BitVec.ofNat 8 stockSet, enabled := enabled }
  else none

/-- The item a write of PRINTER p carries (R174). -/
def printerItemOf (enabled hold resume : Nat) : Option PrinterItem := do
  let enabled ← flagOf enabled
  if 40 ≤ hold ∧ hold ≤ 100 ∧ 30 ≤ resume ∧ resume < hold then
    some { enabled := enabled, hold := hold, resume := resume }
  else none

/-! ### Loads and copies (R1, R81, R178, R179) -/

/-- Does the pack table hold a record of a type (R1)? -/
def State.hasPacks (s : State) (t : Fin 8) : Bool := s.ret.packs.any fun k => decide (k.stockType = t)

/-- A stock type record as a load leaves it (R1). -/
def StockType.load (x : StockType) (hasPacks : Bool) (item : StockDefinition × Nat) : StockType :=
  if hasPacks then { x with threshold := item.2 }
  else { x with
    definition := item.1
    threshold := item.2
    lowNotified := x.lowNotified && decide (item.1 = x.definition) }

/-- Does the pool hold a job of a type that can still dispatch (R79, R81)? -/
def State.hasLiveJob (s : State) (t : Fin 8) : Bool :=
  s.pool.any fun j => decide (j.stockType = t ∧ j.state ≠ .ended)

/-- The layouts offered by a load taken, but for types with a live job; then the combined check on every one (R81). -/
def State.loadLayouts (s : State) (offered : Vector (List FieldEntry) 8) : State :=
  allTypes.foldl (fun s t => if s.hasLiveJob t then s.recheckLayout t else s.storeLayout t offered[t]) s

/-- A whole set of items taken into the live settings (R179), before any low-stock check. -/
def State.takeImage (s : State) (m : SettingsImage) : State :=
  let s := s.setLive { s.live with
    office := m.office
    faces := m.faces
    permissions := m.permissions
    printerItems := m.printerItems }
  let s := s.setStockTypes (Vector.ofFn fun t => (s.stockType t).load (s.hasPacks t) m.stockTypes[t])
  s.loadLayouts m.layouts

/-- The copy of the live items a save takes (R178). -/
def State.liveImage (s : State) : SettingsImage :=
  { office := s.live.office
    faces := s.live.faces
    stockTypes := s.ret.stockTypes.map fun x => (x.definition, x.threshold)
    layouts := s.live.layouts.map (·.entries)
    permissions := s.live.permissions
    printerItems := s.live.printerItems }

/-- An operation ends (R178): its result is recorded and SETTINGS-DONE waits. -/
def State.storeDone (s : State) (r : StoreResult) : State :=
  (s.setStore { s.store with running := none, donePending := true, lastResult := some r }).arbitrate

/-- A write to a user area ends (R178, R180): read back good, or left bad. DEDUCED, notes/assumptions/31.md. -/
def State.writeDone (s : State) (kind : StoreKind) (a : Area) (m : SettingsImage) (good : Bool) : State :=
  (if good then s.setFlash (s.flash.write a (some m)) else s).storeDone {
    kind := kind
    area := a
    good := good
    officeCode := if good then some m.office.code else none }

end Sys2Proof.Machine
end

