-- ==== Sys2Proof/Machine/Stock.lean ====
section
/-! DEFINITION. The stock requests (chapter 1): LOAD, MOVE, WRITE OFF, RETIRE, READ and LIST PACKS, RESOLVE DOUBTFUL, STOCK
CHECK. -/

namespace Sys2Proof.Machine

/-! ### LOAD PACK and MOVE PACK (R19, R20) -/

/-- The record a LOAD PACK asks for, when each field is in its range (R19, check 2). -/
def packOf (packId stockType first count direction destination : Nat) : Option Pack := do
  let t ← stockOf stockType
  let d ← directionOf direction
  let l ← locationOf destination
  if numberInRange packId ∧ serialInRange first ∧ within 1 2000 count then
    some {
      id := packId
      stockType := t
      first := first
      count := count
      direction := d
      next := some first
      remaining := count
      location := l
      condition := .usable
      exceptions := [] }
  else none

/-- Does a pack's range lie within the serials and the printed digits (R4)? -/
def Pack.fits (k : Pack) (digits : Nat) : Bool :=
  decide (0 ≤ k.range.1 ∧ k.range.2 ≤ 999999999 ∧ k.range.2 < 10 ^ digits)

/-- May a pack be put in a place: any in STORE; in an empty bin of a printer in use, and bin B of a printer identified with
two (R19, check 8)? -/
def State.admits (s : State) : Location → Bool
  | .store => true
  | .bin p side =>
    let x := s.printer p
    (s.binPack? p side).isNone && decide (x.state ≠ .offline ∧ x.state ≠ .poweredDown ∧ x.state ≠ .starting) &&
      match side with
      | .a => true
      | .b => x.identity.any fun i => decide (i.bins = 2)

/-- The most records of the pack table (R3). -/
def packLimit : Nat := 64

/-- Checks 3 to 8 of R19. -/
def State.loadChecks (s : State) (k : Pack) : List (Bool × ReplyCode) :=
  let d := (s.stockType k.stockType).definition
  [(d.defined && d.numbered, .range),
    (k.fits d.digits, .range),
    ((s.pack? k.id).isNone, .conflict),
    (!s.ret.packs.any k.collides, .conflict),
    (decide (s.ret.packs.length < packLimit), .tableFull),
    (s.admits k.location, .state)]

/-- A pack placed: in a bin it lets jobs be rerouted (R67), and the ports choose afresh (R37). -/
def State.packPlaced (s before : State) (l : Location) : State :=
  match l with
  | .store => s.wakeAll before
  | .bin _ _ => s.passAll.wakeAll before

/-- A pack record created (R19). -/
def State.createPack (s : State) (k : Pack) : State :=
  ((s.setPacks (s.ret.packs ++ [k])).lowStockCheck k.stockType).packPlaced s k.location

/-- LOAD PACK (R19); its grade is judged first (R165). -/
def execLoadPack (pos : Position) (packId stockType first count direction destination : Nat) (s : State) :
    Host.Outcome State Fault Refusal :=
  s.taken (.loadPack pos packId stockType first count direction destination) <|
    s.judged 0x10 [(s.supervises pos, .grade), (decide (s.ret.audit = .ok), .mode)] <|
    match packOf packId stockType first count direction destination with
    | none => s.answer .range 0x10 []
    | some k => s.judged 0x10 (s.loadChecks k) ((s.createPack k).answer .ok 0x10 [])

/-- A pack moved (R20). -/
def State.relocate (s : State) (k : Pack) (l : Location) : State :=
  (s.modPack k.id fun x => { x with location := l }).packPlaced s l

/-- A MOVE PACK of a record that exists (R20, checks 2 and 3). -/
def State.move (s : State) (k : Pack) (destination : Nat) : State :=
  match locationOf destination with
  | none => s.answer .range 0x11 []
  | some l =>
    s.judged 0x11 [(decide (k.condition ≠ .exhausted ∧ s.inPathOf k.id = 0 ∧ l ≠ k.location) && s.admits l, .state)]
      ((s.relocate k l).answer .ok 0x11 [])

/-- MOVE PACK (R20); its grade is judged first (R165). -/
def execMovePack (pos : Position) (packId destination : Nat) (s : State) : Host.Outcome State Fault Refusal :=
  s.taken (.movePack pos packId destination) <|
    s.judged 0x11 [(s.supervises pos, .grade), (numberInRange packId, .range)] <|
    match s.pack? packId with
    | none => s.answer .notFound 0x11 []
    | some k => s.move k destination

/-! ### WRITE OFF PACK and RETIRE PACK (R21, R22) -/

/-- WRITE OFF PACK (R21); its grade is judged first (R165). -/
def execWriteOffPack (pos : Position) (packId : Nat) (s : State) : Host.Outcome State Fault Refusal :=
  s.taken (.writeOffPack pos packId) <| s.judged 0x12 [(s.supervises pos, .grade), (numberInRange packId, .range)] <|
    match s.pack? packId with
    | none => s.answer .notFound 0x12 []
    | some k =>
      s.judged 0x12 [(decide (k.condition ≠ .exhausted ∧ s.inPathOf packId = 0), .state)]
        (((s.runOut packId .writtenOff none).wakeAll s).answer .ok 0x12 [])

/-- Does any position's recent-issues list hold an entry from a pack (R22)? -/
def State.recentlyIssued (s : State) (packId : Nat) : Bool :=
  (s.ret.console.recent ++ allWindows.flatMap fun w => (s.window w).recent).any fun e => decide (e.pack = packId)

/-- May a pack be retired (R22)? -/
def State.retirable (s : State) (k : Pack) : Bool :=
  decide (k.condition = .exhausted) && !(k.exceptions.any fun e => decide (e.disposition = .doubtful)) &&
    !s.recentlyIssued k.id

/-- A pack record removed (R22). -/
def State.removePack (s : State) (packId : Nat) : State :=
  s.setPacks (s.ret.packs.filter fun k => decide (k.id ≠ packId))

/-- RETIRE PACK (R22); its grade is judged first (R165). -/
def execRetirePack (pos : Position) (packId : Nat) (s : State) : Host.Outcome State Fault Refusal :=
  s.taken (.retirePack pos packId) <| s.judged 0x13 [(s.supervises pos, .grade), (numberInRange packId, .range)] <|
    match s.pack? packId with
    | none => s.answer .notFound 0x13 []
    | some k => s.judged 0x13 [(s.retirable k, .state)] ((s.removePack packId).answer .ok 0x13 [])

/-! ### READ PACK and LIST PACKS (R23) -/

/-- A derived count in two bytes. One that an inconsistent register makes negative goes modulo 65,536 (R23, R188).
DESIGN CHOICE, notes/assumptions/44.md. -/
def bDerived (n : Int) : List Byte := be 2 (n % 65536).toNat

/-- The body READ PACK answers with (R23). -/
def State.packBody (s : State) (k : Pack) (index : Nat) : List Byte :=
  let inPath := s.inPathOf k.id
  k.bytes ++ be 1 inPath ++ bDerived k.consumed ++ bDerived (k.issued inPath) ++ be 1 k.exceptions.length ++
    bList ExceptionEntry.bytes ((k.exceptions.drop index).take 12)

/-- READ PACK (R23). -/
def execReadPack (pos : Position) (packId index : Nat) (s : State) : Host.Outcome State Fault Refusal :=
  s.taken (.readPack pos packId index) <|
    s.judged 0x14 [(numberInRange packId, .range), (decide (index ≤ 23), .range)] <|
    match s.pack? packId with
    | none => s.answer .notFound 0x14 []
    | some k => s.answer .ok 0x14 (s.packBody k index)

/-- A pack put into a list by rising id. -/
def insertPack (k : Pack) : List Pack → List Pack
  | [] => [k]
  | j :: rest => if k.id ≤ j.id then k :: j :: rest else j :: insertPack k rest

/-- The value of a filter field that stands for any (DESIGN CHOICE, notes/assumptions/14.md). -/
def anyFilter : Nat := 255

/-- Does a pack pass the filter (R23)? The location is 0 for STORE and 1..6 for either bin of a printer. -/
def Pack.passes (k : Pack) (stockType location start : Nat) : Bool :=
  decide ((stockType = anyFilter ∨ k.stockType.val = stockType) ∧ start ≤ k.id) &&
    (decide (location = anyFilter) ||
      match k.location with
      | .store => decide (location = 0)
      | .bin p _ => decide (location = p.val + 1))

/-- The packs that pass, by rising id (R23). -/
def State.filtered (s : State) (stockType location start : Nat) : List Pack :=
  (s.ret.packs.filter (·.passes stockType location start)).foldl (fun acc k => insertPack k acc) []

/-- The body of a filtered LIST PACKS (R23). -/
def State.listBody (s : State) (stockType location start : Nat) : List Byte :=
  let l := s.filtered stockType location start
  bList Pack.summary (l.take 16) ++ bFlag (decide (l.length > 16))

/-- LIST PACKS (R23). -/
def execListPacks (pos : Position) (selection stockType location start : Nat) (s : State) :
    Host.Outcome State Fault Refusal :=
  s.taken (.listPacks pos selection stockType location start) <|
    if selection = 0 then
      s.judged 0x15 [(decide ((stockType ≤ 7 ∨ stockType = anyFilter) ∧ (location ≤ 6 ∨ location = anyFilter)) &&
          numberInRange start, .range)]
        (s.answer .ok 0x15 (s.listBody stockType location start))
    else if selection = 1 then s.answer .ok 0x15 (bList DoubtfulEntry.bytes s.ret.doubtful)
    else s.answer .range 0x15 []

/-! ### RESOLVE DOUBTFUL (R16) -/

/-- The doubtful entry of a blank (R16). -/
def State.doubtful? (s : State) (packId serial : Nat) : Option DoubtfulEntry :=
  s.ret.doubtful.find? fun d => decide (d.pack = packId ∧ d.serial = serial)

/-- Is an exception entry the DOUBTFUL entry of a serial? -/
def ExceptionEntry.doubts (e : ExceptionEntry) (serial : Nat) : Bool :=
  decide (e.disposition = .doubtful ∧ e.first = serial)

/-- After a ruling: when the doubtful list holds no further entry for the printer, DOUBT is met and the clearing test is made
(R16, R95, R96). -/
def State.settleDoubt (s : State) (d : DoubtfulEntry) : State :=
  if s.hasDoubt d.printer then s else (s.markCodes d.printer (·.meet .doubt)).clearingTest d.printer false

/-- May a doubtful blank be ruled ISSUED (R16)? -/
def State.mayIssueDoubt (s : State) (d : DoubtfulEntry) : Bool :=
  match d.position with
  | .console => true
  | .window w =>
    decide (((s.window w).state = .open ∨ (s.window w).state = .suspended) ∧ (s.window w).shift = some d.shift)

/-- The stock type of a pack, if the table holds it. -/
def State.typeOf (s : State) (packId : Nat) : Option (Fin 8) := (s.pack? packId).map (·.stockType)

/-- A doubtful blank ruled ISSUED (R16). With no record of its pack there is no stock type to credit, and no credit follows.
DESIGN CHOICE, notes/assumptions/45.md. -/
def State.resolveIssued (s : State) (d : DoubtfulEntry) : State :=
  let t := s.typeOf d.pack
  let s := s.modPack d.pack fun k => { k with exceptions := k.exceptions.eraseP (·.doubts d.serial) }
  let s := s.setDoubtful (s.ret.doubtful.erase d)
  let s := match t with
    | none => s
    | some t => s.credit d.position d.shift t d.serial d.pack d.value d.tender
  s.settleDoubt d

/-- A DOUBTFUL entry changed in place into a SPOILED one (R16). -/
def Pack.spoilDoubt (k : Pack) (serial : Nat) : Pack :=
  { k with exceptions := k.exceptions.map fun e => if e.doubts serial then { e with disposition := .spoiled } else e }

/-- A doubtful blank ruled SPOILED (R16). With no record of its pack there is no stock type to count it under, and no spoil is counted.
DESIGN CHOICE, notes/assumptions/45.md. -/
def State.resolveSpoiled (s : State) (d : DoubtfulEntry) : State :=
  let t := s.typeOf d.pack
  let s := s.modPack d.pack (·.spoilDoubt d.serial)
  let s := s.setDoubtful (s.ret.doubtful.erase d)
  let s := match t with
    | none => s
    | some t => s.countSpoil d.position d.shift t
  s.settleDoubt d

/-- The checks of RESOLVE DOUBTFUL before its record is looked for (R16, R165, R188). -/
def State.resolveChecks (s : State) (pos : Position) (packId serial : Nat) : List (Bool × ReplyCode) :=
  [(s.supervises pos, .grade), (numberInRange packId && serialInRange serial, .range)]

/-- RESOLVE DOUBTFUL with ruling ISSUED, 0; another ruling is out of range (R16). DESIGN CHOICE, notes/assumptions/32.md. -/
def execResolveDoubtfulIssued (pos : Position) (packId serial ruling : Nat) (s : State) :
    Host.Outcome State Fault Refusal :=
  s.taken (.resolveDoubtfulIssued pos packId serial ruling) <|
    s.judged 0x16 (s.resolveChecks pos packId serial ++ [(decide (ruling = 0), .range)]) <|
    match s.doubtful? packId serial with
    | none => s.answer .notFound 0x16 []
    | some d => s.judged 0x16 [(s.mayIssueDoubt d, .state)] (((s.resolveIssued d).wakeAll s).answer .ok 0x16 [])

/-- RESOLVE DOUBTFUL with ruling SPOILED (R16). -/
def execResolveDoubtfulSpoiled (pos : Position) (packId serial : Nat) (s : State) : Host.Outcome State Fault Refusal :=
  s.taken (.resolveDoubtfulSpoiled pos packId serial) <| s.judged 0x16 (s.resolveChecks pos packId serial) <|
    match s.doubtful? packId serial with
    | none => s.answer .notFound 0x16 []
    | some d => ((s.resolveSpoiled d).wakeAll s).answer .ok 0x16 []

/-! ### STOCK CHECK (R25) -/

/-- The office leaves TRADING, or stays in SETUP (R182): on leaving, the console is emptied. -/
def State.enterSetup (s : State) : State :=
  if s.office.mode = .trading then (s.setOffice { s.office with mode := .setup }).emptyConsole else s

/-- A failed audit (R25, R184). -/
def State.failAudit (s : State) : State := (s.setAudit .fault).enterSetup

/-- STOCK CHECK (R25); its grade is judged first (R165). -/
def execStockCheck (pos : Position) (s : State) : Host.Outcome State Fault Refusal :=
  s.taken (.stockCheck pos) <| s.judged 0x17 [(s.supervises pos, .grade)] <|
    let body := bList (be 2) s.failedPacks ++ bFlag s.ret.checksumMatches
    (if s.failedPacks = [] ∧ s.ret.checksumMatches then s else s.failAudit).answer .ok 0x17 body

end Sys2Proof.Machine
end

