-- ==== Sys2Proof/Machine/OfficeControl.lean ====
section
/-! DEFINITION. Office control (chapter 10): OPEN and CLOSE OFFICE, the clock, CLEAR AUDIT, start-up and the three resets. -/

namespace Sys2Proof.Machine

/-! ### OPEN OFFICE and CLOSE OFFICE (R181, R182) -/

/-- A business date text: 8 printable characters (R181). -/
def dateInRange (date : List Byte) : Bool := decide (date.length = 8) && date.all printable

/-- The office opened (R181, steps 1 to 3). -/
def State.openOffice (s : State) (date : List Byte) : State :=
  (s.setPrinters (s.printers.map fun x => { x with counters := Vector.replicate 12 0 })).setOffice
    { s.office with mode := .trading, date := some date }

/-- OPEN OFFICE (R181). -/
def execOpenOffice (pos : Position) (date : List Byte) (s : State) : Host.Outcome State Fault Refusal :=
  s.taken (.openOffice pos date) <| s.judged 0x48 [(s.supervises pos, .grade), (dateInRange date, .range),
      (decide (s.office.mode = .setup ∧ s.ret.audit = .ok), .mode), (decide (s.store.running = none), .busy)]
    ((s.openOffice date).answer .ok 0x48 [])

/-- Is every window CLOSED? -/
def State.allClosed (s : State) : Bool := s.ret.windows.toList.all fun r => decide (r.state = .closed)

/-- CLOSE OFFICE (R182). -/
def execCloseOffice (pos : Position) (s : State) : Host.Outcome State Fault Refusal :=
  s.taken (.closeOffice pos) <| s.judged 0x49 [(s.supervises pos, .grade), (decide (s.office.mode = .trading), .mode),
      (s.allClosed && decide (s.pool = []), .state)]
    (s.enterSetup.answer .ok 0x49 [])

/-! ### The clock (R183) -/

/-- The last second of a day (R183). -/
def lastSecond : Nat := 86399

/-- SET TIME (R183). -/
def execSetTime (pos : Position) (seconds : Nat) (s : State) : Host.Outcome State Fault Refusal :=
  s.taken (.setTime pos seconds) <|
    s.judged 0x4A [(s.supervises pos, .grade), (decide (seconds ≤ lastSecond), .range)]
    ((s.setOffice { s.office with clock := some seconds }).answer .ok 0x4A [])

/-- The second after one (R183). -/
def nextSecond (n : Nat) : Nat := if n ≥ lastSecond then 0 else n + 1

/-- A second passes (R183): an unset clock stays unset. -/
def execClockTick (s : State) : Host.Outcome State Fault Refusal :=
  .next (s.setOffice { s.office with clock := s.office.clock.map nextSecond })

/-! ### CLEAR AUDIT (R184) -/

/-- Step 1: the register emptied (R26). -/
def State.clearRegister (s : State) : State :=
  (((s.setPacks []).setDoubtful []).setInPath (Vector.replicate 6 [])).lowStockAll

/-- Step 2: the fault log emptied (R109). -/
def State.clearLog (s : State) : State :=
  ((s.setFaults []).setNextFault 1).setPrinters
    (s.printers.map fun x => { x with openFault := none, confirmPending := false })

/-- The states in which CLEAR AUDIT identifies a printer afresh (R184, step 3). -/
def PrinterState.restarts : PrinterState → Bool
  | .starting | .ready | .heatHold | .faulted | .offline => true
  | .busy | .disabled | .poweredDown => false

/-- Step 3: the printers in use identified afresh (R184). -/
def State.restartPrinters (s : State) : State :=
  allPrinters.foldl (fun s p => if (s.printer p).state.restarts then s.startIdentification p else s) s

/-- Steps 4 and 5: every window CLOSED, the console emptied, the history emptied (R127, R158). -/
def State.clearShifts (s : State) : State :=
  (((s.closeAllWindows).setNextShift 1).emptyConsole).setHistory []

/-- The retained records emptied and the audit started afresh (R184). -/
def State.clearAudit (s : State) : State :=
  (((s.clearRegister.clearLog.restartPrinters).clearShifts).setChecksum true).setAudit .ok

/-- CLEAR AUDIT (R184). -/
def execClearAudit (pos : Position) (s : State) : Host.Outcome State Fault Refusal :=
  s.taken (.clearAudit pos) <|
    s.judged 0x4B [(decide (pos = .console), .grade), (decide (s.office.mode = .setup), .mode),
      (decide (s.ret.audit = .fault) || s.allClosed, .state), (decide (s.pool = []), .state)]
    (s.clearAudit.answer .ok 0x4B [])

/-! ### Start-up (R185 to R187) -/

/-- The fitted count of the straps: 0 and 7 are read as 6 (R52). -/
def fittedOf (n : Fin 8) : Nat := if n.val = 0 ∨ n.val = 7 then 6 else n.val

/-- The notice queue as a reset leaves it (R173). -/
def emptyQueue : NoticeQueue := { queue := [], lastFetched := none, attention := false, started := false }

/-- Steps 1 and 2: the straps sampled and the volatile state cleared (R173, R186). -/
def State.clearVolatile (s : State) (cause : ResetCause) (straps : Straps) : State :=
  let s := s.setFitted (fittedOf straps.fitted)
  let s := s.setLink {
    receiver := .hunting
    unit := straps.unit
    rate := straps.rate
    reply := none
    leaving := false
    rateNext := none
    restartNext := false }
  let s := ((s.setPool []).setNextTag 1).setNotices emptyQueue
  let s := s.setPrinters (Vector.replicate 6 clearedPrinter)
  let s := s.setStockTypes (s.ret.stockTypes.map fun x => { x with lowNotified := false, lowPending := false })
  let s := s.emptyConsole.setStore { running := none, donePending := false, lastResult := none, source := s.store.source }
  s.setOffice { mode := .setup, date := none, clock := none, resetCause := cause }

/-- Step 3: the settings loaded (R186). -/
def State.loadAtStart (s : State) : State :=
  let g := s.flash.firstGood
  (s.takeImage g.2).setStore { s.store with source := g.1 }

/-- Step 4: the retained checksum verified; a mismatch sets the audit status to FAULT and is replaced (R186).
DESIGN CHOICE, notes/assumptions/29.md. -/
def State.verifyChecksum (s : State) : State :=
  if s.ret.checksumMatches then s else (s.setAudit .fault).setChecksum true

/-- Step 5: every in-path entry DOUBTFUL, oldest first, printer by printer; then the low-stock check of every type (R26). -/
def State.doubtPaths (s : State) : State :=
  (allPrinters.foldl (fun s p => (s.path p).foldl (fun s e => s.makeDoubtful p e) s) s).lowStockAll

/-- Step 6: every OPEN standing entry cleared; the clock is unset (R97, R109). -/
def State.clearStanding (s : State) : State :=
  s.setFaults (s.ret.faults.map fun e => if e.cls = .standing ∧ ¬ e.cleared then e.clear .startUp none else e)

/-- A window at start-up: nothing outstanding, CLOSING goes to COUNTING, and COUNTING sets COUNT-READY pending (R127). -/
def WindowRecord.settle (r : WindowRecord) : WindowRecord :=
  let r := { r with outstanding := 0 }
  if r.state = .closing ∨ r.state = .counting then r.enterCounting else r

/-- Step 7: the positions settled (R127). -/
def State.settlePositions (s : State) : State :=
  (s.setConsole { s.ret.console with outstanding := 0 }).setWindows (s.ret.windows.map WindowRecord.settle)

/-- Step 8: STARTING for every port fitted and enabled (R52). -/
def State.startPrinters (s : State) : State :=
  allPrinters.foldl (fun s p =>
    if s.isFitted p && (s.live.printerItems[p]).enabled then s.startIdentification p else s) s

/-- Step 9: START placed as the first notice; from then on the arbiter places the waiting records (R173). -/
def State.placeStart (s : State) : State :=
  let s := s.pushNotice (.start s.office.resetCause s.ret.audit s.store.source)
  (s.setNotices { s.notices with started := true }).arbitrate

/-- Start-up (R186). The queue of commands that wait is the model's own and is kept. -/
def State.startUp (s : State) (cause : ResetCause) (straps : Straps) : State :=
  (((((((s.clearVolatile cause straps).loadAtStart).verifyChecksum).doubtPaths).clearStanding).settlePositions).startPrinters).placeStart

/-- A retained memory whose battery did not hold it: what it then holds is a free value, but for the console's grade, which is always
SUPERVISOR (R111), and its checksum does not match (DESIGN CHOICE, notes/assumptions/3.md); what breaks a bound or a law there is handled as found (DESIGN CHOICE,
notes/assumptions/60.md). -/
def State.loseRetained (s : State) : State :=
  let lost := Config.lostRetained s.freeDraws
  (s.setRet { lost with checksumMatches := false, console := { lost.console with grade := .supervisor } }).setFreeDraws
    (s.freeDraws + 1)

/-- A power-on reset (R185, R186). -/
def execPowerOn (straps : Straps) (retainedHeld : Bool) (s : State) : Host.Outcome State Fault Refusal :=
  .next ((if retainedHeld then s else s.loseRetained).startUp .powerOn straps)

/-- A reset from the reset pin (R185). -/
def execResetPin (straps : Straps) (s : State) : Host.Outcome State Fault Refusal := .next (s.startUp .pin straps)

/-- The reset that follows a RESTART reply (R163, R185). DESIGN CHOICE, notes/assumptions/34.md. -/
def execRestartReset (straps : Straps) (s : State) : Host.Outcome State Fault Refusal := .next (s.startUp .restart straps)

end Sys2Proof.Machine
end

