-- ==== Sys2Proof/Machine/PortEvents.lean ====
section
/-! DEFINITION. The events of the printer ports (chapter 2, R189): replies, discarded replies, and the timers. -/

namespace Sys2Proof.Machine

/-- A reply to a PRINT, a POLL or a CLEAR (R32). -/
def execPrinterReply (p : Fin 6) (reply : PrinterReply) (s : State) : Host.Outcome State Fault Refusal :=
  .next (s.receiveReply p reply)

/-- A reply to an IDENT (R45). -/
def execIdentReply (p : Fin 6) (reply : PrinterReply) (identity : Identity) (s : State) :
    Host.Outcome State Fault Refusal :=
  .next (s.receiveIdentity p reply identity)

/-- The bytes of a reply frame read by the port (R31, R189): a frame that fails a test of its form is discarded, and the rest are
taken as the command outstanding calls for. -/
def State.receiveFrame (s : State) (p : Fin 6) (bytes : List Byte) : State :=
  match (s.printer p).outstanding with
  | none => s
  | some (_, kind) =>
    match parsePrinterFrame (decide (kind = .ident)) bytes with
    | none => s
    | some (r, none) => s.receiveReply p r
    | some (r, some i) => s.receiveIdentity p r i

/-- The bytes of a reply frame, which the tests of R31 and R189 discard when it fails one: the timer runs on. -/
def execPrinterReplyDiscarded (p : Fin 6) (bytes : List Byte) (s : State) : Host.Outcome State Fault Refusal :=
  .next (s.receiveFrame p bytes)

/-- Bytes of a reply cut off by a gap over 20 ms: they are discarded (R189). -/
def execPrinterReplyGap (_p : Fin 6) (_bytes : List Byte) (s : State) : Host.Outcome State Fault Refusal := .next s

/-- The 200 ms reply timer of a command other than IDENT (R39). -/
def execReplyTimeout (p : Fin 6) (s : State) : Host.Outcome State Fault Refusal := .next (s.expireReply p)

/-- The reply timer of an IDENT (R44, R46). -/
def execIdentTimeout (p : Fin 6) (s : State) : Host.Outcome State Fault Refusal := .next (s.expireIdent p)

/-- The waiting interval of R37. -/
def execPollInterval (p : Fin 6) (s : State) : Host.Outcome State Fault Refusal := .next (s.choose .interval p)

/-- The identification interval of R44 and R46. -/
def execIdentInterval (p : Fin 6) (s : State) : Host.Outcome State Fault Refusal := .next (s.identDue p)

end Sys2Proof.Machine
end

