-- ==== Sys2Proof/Machine/SettingItems.lean ====
section
/-! DEFINITION. The settings requests (chapter 10): READ and WRITE SETTING by item, SAVE, LOAD, RESTORE, and the ends of the three
store operations. -/

namespace Sys2Proof.Machine

/-! ### READ SETTING (R82, R175) -/

/-- The STOCK TYPE item, with the low-notified flag and the number of pack records (R175). -/
def State.stockTypeBody (s : State) (t : Fin 8) : List Byte :=
  let x := s.stockType t
  stockItemBytes x.definition x.threshold ++ bFlag x.lowNotified ++ be 1 (s.ret.packs.countP fun k => decide (k.stockType = t))

/-- The PRINTER item (R175): hold and resume in degrees, then both as counts. DESIGN CHOICE, notes/assumptions/49.md. -/
def PrinterItem.bytes (i : PrinterItem) : List Byte :=
  i.stored ++ be 2 (degreesToCount i.hold) ++ be 2 (degreesToCount i.resume)

/-- The LAYOUT item: its entries, validity and reason, and the extent (R82). -/
def Layout.bytes (l : Layout) : List Byte :=
  bList FieldEntry.bytes l.entries ++ l.verdict ++ be 1 (layoutExtent l.entries)

/-- The body of an item other than LAYOUT; none for an item or index out of range (R175). -/
def State.settingBody (s : State) (item index : Nat) : Option (List Byte) :=
  match item with
  | 0 => if index = 0 then some s.live.office.bytes else none
  | 1 => if index = 0 then some (s.live.faces.toList.flatMap (be 3)) else none
  | 2 => (stockOf index).map s.stockTypeBody
  | 4 => (windowOf index).map fun w => (s.live.permissions[w]).bytes
  | 5 => (printerOf index).map fun p => (s.live.printerItems[p]).bytes
  | _ => none

/-- READ SETTING for every item but LAYOUT (R175). DESIGN CHOICE, notes/assumptions/32.md. -/
def execReadSetting (pos : Position) (item index : Nat) (s : State) : Host.Outcome State Fault Refusal :=
  s.taken (.readSetting pos item index) <|
    match s.settingBody item index with
    | none => s.answer .range 0x40 []
    | some body => s.answer .ok 0x40 body

/-- READ SETTING for LAYOUT k (R82). -/
def execReadSettingLayout (pos : Position) (index : Nat) (s : State) : Host.Outcome State Fault Refusal :=
  s.taken (.readSettingLayout pos index) <|
    match stockOf index with
    | none => s.answer .range 0x40 []
    | some t => s.answer .ok 0x40 (s.layout t).bytes

/-! ### WRITE SETTING (R176) -/

/-- Is a LOAD SETTINGS running (R176, check 3)? -/
def Store.loading (x : Store) : Bool :=
  match x.running with
  | some (.load _) => true
  | some (.save _ _) | some (.restore _) | none => false

/-- Checks 1 to 3 of R176. -/
def State.writeChecks (s : State) (pos : Position) (known : Bool) : List (Bool × ReplyCode) :=
  [(known, .range), (s.supervises pos, .grade), (!s.store.loading, .busy)]

/-- Is the office in SETUP? -/
def State.inSetup (s : State) : Bool := decide (s.office.mode = .setup)

/-- WRITE SETTING for OFFICE; an unknown item is refused at check 1 (R176). DESIGN CHOICE, notes/assumptions/32.md. -/
def execWriteSettingOffice (pos : Position) (item index code unit tolerance limit : Nat) (s : State) :
    Host.Outcome State Fault Refusal :=
  let o : OfficeItem := { code := code, unit := unit, tolerance := tolerance, limit := limit }
  s.taken (.writeSettingOffice pos item index code unit tolerance limit) <|
    s.judged 0x41 (s.writeChecks pos (decide (item = 0 ∧ index = 0)) ++ [(s.inSetup, .mode), (o.inRange, .range)])
    ((s.setLive { s.live with office := o }).answer .ok 0x41 [])

/-- WRITE SETTING for DENOMINATIONS (R176). -/
def execWriteSettingDenominations (pos : Position) (index : Nat) (faces : Vector Nat 12) (s : State) :
    Host.Outcome State Fault Refusal :=
  s.taken (.writeSettingDenominations pos index faces) <|
    s.judged 0x41 (s.writeChecks pos (decide (index = 0)) ++ [(s.inSetup, .mode), (facesInRange faces, .range)])
    ((s.setLive { s.live with faces := faces }).answer .ok 0x41 [])

/-- A stock type record replaced by a write (R176): a changed definition clears low-notified and has the layout checked again; the
low-stock check follows. -/
def State.writeStockType (s : State) (t : Fin 8) (d : StockDefinition) (threshold : Nat) : State :=
  if (s.stockType t).definition = d then
    (s.modStockType t fun x => { x with threshold := threshold }).lowStockCheck t
  else
    ((s.modStockType t fun x => { x with
      definition := d
      threshold := threshold
      lowNotified := false }).recheckLayout t).lowStockCheck t

/-- WRITE SETTING for STOCK TYPE k (R1, R176). -/
def execWriteSettingStockType (pos : Position) (index defined numbered striped digits threshold : Nat) (s : State) :
    Host.Outcome State Fault Refusal :=
  s.taken (.writeSettingStockType pos index defined numbered striped digits threshold) <|
    s.judged 0x41 (s.writeChecks pos (stockOf index).isSome) <|
    match stockOf index, definitionOf defined numbered striped digits with
    | some t, some d =>
      s.judged 0x41 [(decide (threshold ≤ 9999), .range), (decide ((s.stockType t).definition = d) || !s.hasPacks t, .state)]
        (((s.writeStockType t d threshold).wakeAll s).answer .ok 0x41 [])
    | _, _ => s.answer .range 0x41 []

/-- WRITE SETTING for LAYOUT k (R79, R176): the reply carries the validity and the reason. -/
def execWriteSettingLayout (pos : Position) (index : Nat) (fields : List RawField) (s : State) :
    Host.Outcome State Fault Refusal :=
  s.taken (.writeSettingLayout pos index fields) <|
    s.judged 0x41 (s.writeChecks pos (stockOf index).isSome ++ [(decide (fields.length ≤ 12), .range)]) <|
    match stockOf index, fieldsOf fields with
    | some t, some entries =>
      let s' := s.storeLayout t entries
      s.judged 0x41 [(!s.hasLiveJob t, .state)] (s'.answer .ok 0x41 (s'.layout t).verdict)
    | _, _ => s.answer .range 0x41 []

/-- WRITE SETTING for POSITION p (R113, R176). -/
def execWriteSettingPosition (pos : Position) (index printerSet stockSet enabled : Nat) (s : State) :
    Host.Outcome State Fault Refusal :=
  s.taken (.writeSettingPosition pos index printerSet stockSet enabled) <|
    s.judged 0x41 (s.writeChecks pos (windowOf index).isSome) <|
    match windowOf index, permissionsOf printerSet stockSet enabled with
    | some w, some m =>
      (s.setLive { s.live with permissions := s.live.permissions.set w m }).answer .ok 0x41 []
    | _, _ => s.answer .range 0x41 []

/-- WRITE SETTING for PRINTER p (R176). -/
def execWriteSettingPrinter (pos : Position) (index enabled hold resume : Nat) (s : State) :
    Host.Outcome State Fault Refusal :=
  s.taken (.writeSettingPrinter pos index enabled hold resume) <|
    s.judged 0x41 (s.writeChecks pos (printerOf index).isSome) <|
    match printerOf index, printerItemOf enabled hold resume with
    | some p, some i =>
      (s.setLive { s.live with printerItems := s.live.printerItems.set p i }).answer .ok 0x41 []
    | _, _ => s.answer .range 0x41 []

/-! ### The store requests (R178 to R180) -/

/-- The common checks of the store requests after the area's (R178). -/
def State.storeChecks (s : State) (pos : Position) : List (Bool × ReplyCode) :=
  [(s.supervises pos, .grade), (s.inSetup, .mode), (decide (s.store.running = none) && !s.store.donePending, .busy)]

/-- An operation started (R178). -/
def State.startStore (s : State) (op : StoreOperation) : State := s.setStore { s.store with running := some op }

/-- SAVE SETTINGS (R178): the copy is taken and the area becomes bad. -/
def execSaveSettings (pos : Position) (area : Nat) (s : State) : Host.Outcome State Fault Refusal :=
  s.taken (.saveSettings pos area) <|
    match userAreaOf area with
    | none => s.answer .range 0x42 []
    | some a =>
      s.judged 0x42 (s.storeChecks pos)
        (((s.startStore (.save a s.liveImage)).setFlash (s.flash.write a none)).answer .accepted 0x42 [])

/-- LOAD SETTINGS (R179). -/
def execLoadSettings (pos : Position) (area : Nat) (s : State) : Host.Outcome State Fault Refusal :=
  s.taken (.loadSettings pos area) <|
    match areaOf area with
    | none => s.answer .range 0x43 []
    | some a => s.judged 0x43 (s.storeChecks pos) ((s.startStore (.load a)).answer .accepted 0x43 [])

/-- RESTORE FACTORY (R180). -/
def execRestoreFactory (pos : Position) (area : Nat) (s : State) : Host.Outcome State Fault Refusal :=
  s.taken (.restoreFactory pos area) <|
    match userAreaOf area with
    | none => s.answer .range 0x44 []
    | some a =>
      s.judged 0x44 (s.storeChecks pos)
        (((s.startStore (.restore a)).setFlash (s.flash.beginRestore a)).answer .accepted 0x44 [])

/-! ### The ends of the operations (R178 to R180) -/

/-- A save completes (R178); with no save running nothing happens. DESIGN CHOICE, notes/assumptions/27.md. -/
def execSaveComplete (readBackOk : Bool) (s : State) : Host.Outcome State Fault Refusal :=
  .next <|
    match s.store.running with
    | some (.save a m) => s.writeDone .save a m readBackOk
    | some (.load _) | some (.restore _) | none => s

/-- A good area taken by a load (R179): low-notified and layouts follow, then the low-stock check of every type. -/
def State.loadImage (s : State) (a : Area) (m : SettingsImage) : State :=
  let s := (s.takeImage m).lowStockAll
  s.setStore { s.store with source := a }

/-- A load ends (R179). -/
def State.loadDone (s : State) (a : Area) : State :=
  match s.flash.read a with
  | none => s.storeDone { kind := .load, area := a, good := false, officeCode := none }
  | some m => (s.loadImage a m).storeDone { kind := .load, area := a, good := true, officeCode := some m.office.code }

/-- A load completes (R179); with no load running nothing happens. DESIGN CHOICE, notes/assumptions/27.md. -/
def execLoadComplete (s : State) : Host.Outcome State Fault Refusal :=
  .next <|
    match s.store.running with
    | some (.load a) => (s.loadDone a).wakeAll s
    | some (.save _ _) | some (.restore _) | none => s

/-- A restore ends (R180). -/
def State.restoreDone (s : State) (a : Area) (readBackOk : Bool) : State :=
  match s.flash.factory with
  | none => s.storeDone { kind := .restore, area := a, good := false, officeCode := none }
  | some m => s.writeDone .restore a m readBackOk

/-- A restore completes (R180); with no restore running nothing happens. DESIGN CHOICE, notes/assumptions/27.md. -/
def execRestoreComplete (readBackOk : Bool) (s : State) : Host.Outcome State Fault Refusal :=
  .next <|
    match s.store.running with
    | some (.restore a) => s.restoreDone a readBackOk
    | some (.save _ _) | some (.load _) | none => s

end Sys2Proof.Machine
end

