-- ==== Sys2Proof/Machine/Dispatch.lean ====
section
/-! DEFINITION. One arm per command: its meaning. -/

namespace Sys2Proof.Machine

def exec (i : Instr) (s : State) : Host.Outcome State Fault Refusal :=
  match i with
  | .issueTicket pos stockType routing copies value tender slots => Sys2Proof.Machine.execIssueTicket pos stockType routing copies value tender slots s
  | .cancelJob pos tag => Sys2Proof.Machine.execCancelJob pos tag s
  | .readJob pos tag part => Sys2Proof.Machine.execReadJob pos tag part s
  | .voidTicket pos serial stockType target => Sys2Proof.Machine.execVoidTicket pos serial stockType target s
  | .refund pos value tender => Sys2Proof.Machine.execRefund pos value tender s
  | .fetchNotice pos repeatField => Sys2Proof.Machine.execFetchNotice pos repeatField s
  | .fetchNoticeRepeat pos => Sys2Proof.Machine.execFetchNoticeRepeat pos s
  | .loadPack pos packId stockType first count direction destination => Sys2Proof.Machine.execLoadPack pos packId stockType first count direction destination s
  | .movePack pos packId destination => Sys2Proof.Machine.execMovePack pos packId destination s
  | .writeOffPack pos packId => Sys2Proof.Machine.execWriteOffPack pos packId s
  | .retirePack pos packId => Sys2Proof.Machine.execRetirePack pos packId s
  | .readPack pos packId index => Sys2Proof.Machine.execReadPack pos packId index s
  | .listPacks pos selection stockType location start => Sys2Proof.Machine.execListPacks pos selection stockType location start s
  | .resolveDoubtfulIssued pos packId serial ruling => Sys2Proof.Machine.execResolveDoubtfulIssued pos packId serial ruling s
  | .resolveDoubtfulSpoiled pos packId serial => Sys2Proof.Machine.execResolveDoubtfulSpoiled pos packId serial s
  | .stockCheck pos => Sys2Proof.Machine.execStockCheck pos s
  | .powerPrinterOn pos printer onField => Sys2Proof.Machine.execPowerPrinterOn pos printer onField s
  | .powerPrinterOff pos printer => Sys2Proof.Machine.execPowerPrinterOff pos printer s
  | .disablePrinter pos printer => Sys2Proof.Machine.execDisablePrinter pos printer s
  | .enablePrinter pos printer => Sys2Proof.Machine.execEnablePrinter pos printer s
  | .readPrinter pos printer => Sys2Proof.Machine.execReadPrinter pos printer s
  | .resumePrinter pos printer => Sys2Proof.Machine.execResumePrinter pos printer s
  | .reportFault pos printer note withdraw => Sys2Proof.Machine.execReportFault pos printer note withdraw s
  | .closeFault pos number => Sys2Proof.Machine.execCloseFault pos number s
  | .readFaults pos fromNumber selection => Sys2Proof.Machine.execReadFaults pos fromNumber selection s
  | .faultCounts pos printer => Sys2Proof.Machine.execFaultCounts pos printer s
  | .openShift pos target clerk grade float => Sys2Proof.Machine.execOpenShift pos target clerk grade float s
  | .suspendPosition pos target => Sys2Proof.Machine.execSuspendPosition pos target s
  | .resumePosition pos target clerk => Sys2Proof.Machine.execResumePosition pos target clerk s
  | .cashLift pos target amount => Sys2Proof.Machine.execCashLift pos target amount s
  | .closeShift pos target => Sys2Proof.Machine.execCloseShift pos target s
  | .reopenShift pos target => Sys2Proof.Machine.execReopenShift pos target s
  | .readPosition pos target part index => Sys2Proof.Machine.execReadPosition pos target part index s
  | .declare pos target counts card voucher warrant => Sys2Proof.Machine.execDeclare pos target counts card voucher warrant s
  | .signOffShift pos target supervisor => Sys2Proof.Machine.execSignOffShift pos target supervisor s
  | .readShift pos number => Sys2Proof.Machine.execReadShift pos number s
  | .collectShift pos number => Sys2Proof.Machine.execCollectShift pos number s
  | .readSetting pos item index => Sys2Proof.Machine.execReadSetting pos item index s
  | .readSettingLayout pos index => Sys2Proof.Machine.execReadSettingLayout pos index s
  | .writeSettingOffice pos item index code unit tolerance limit => Sys2Proof.Machine.execWriteSettingOffice pos item index code unit tolerance limit s
  | .writeSettingDenominations pos index faces => Sys2Proof.Machine.execWriteSettingDenominations pos index faces s
  | .writeSettingStockType pos index defined numbered striped digits threshold => Sys2Proof.Machine.execWriteSettingStockType pos index defined numbered striped digits threshold s
  | .writeSettingLayout pos index fields => Sys2Proof.Machine.execWriteSettingLayout pos index fields s
  | .writeSettingPosition pos index printerSet stockSet enabled => Sys2Proof.Machine.execWriteSettingPosition pos index printerSet stockSet enabled s
  | .writeSettingPrinter pos index enabled hold resume => Sys2Proof.Machine.execWriteSettingPrinter pos index enabled hold resume s
  | .saveSettings pos area => Sys2Proof.Machine.execSaveSettings pos area s
  | .loadSettings pos area => Sys2Proof.Machine.execLoadSettings pos area s
  | .restoreFactory pos area => Sys2Proof.Machine.execRestoreFactory pos area s
  | .openOffice pos date => Sys2Proof.Machine.execOpenOffice pos date s
  | .closeOffice pos => Sys2Proof.Machine.execCloseOffice pos s
  | .setTime pos seconds => Sys2Proof.Machine.execSetTime pos seconds s
  | .clearAudit pos => Sys2Proof.Machine.execClearAudit pos s
  | .setLinkRate pos rate => Sys2Proof.Machine.execSetLinkRate pos rate s
  | .restart pos => Sys2Proof.Machine.execRestart pos s
  | .identify pos => Sys2Proof.Machine.execIdentify pos s
  | .frameCheckFailed line => Sys2Proof.Machine.execFrameCheckFailed line s
  | .frameDiscarded line => Sys2Proof.Machine.execFrameDiscarded line s
  | .gapTimeout line => Sys2Proof.Machine.execGapTimeout line s
  | .linkRateChange => Sys2Proof.Machine.execLinkRateChange s
  | .powerOn straps retainedHeld => Sys2Proof.Machine.execPowerOn straps retainedHeld s
  | .resetPin straps => Sys2Proof.Machine.execResetPin straps s
  | .restartReset straps => Sys2Proof.Machine.execRestartReset straps s
  | .printerReply printer reply => Sys2Proof.Machine.execPrinterReply printer reply s
  | .identReply printer reply identity => Sys2Proof.Machine.execIdentReply printer reply identity s
  | .printerReplyDiscarded printer bytes => Sys2Proof.Machine.execPrinterReplyDiscarded printer bytes s
  | .printerReplyGap printer bytes => Sys2Proof.Machine.execPrinterReplyGap printer bytes s
  | .replyTimeout printer => Sys2Proof.Machine.execReplyTimeout printer s
  | .identTimeout printer => Sys2Proof.Machine.execIdentTimeout printer s
  | .pollInterval printer => Sys2Proof.Machine.execPollInterval printer s
  | .identInterval printer => Sys2Proof.Machine.execIdentInterval printer s
  | .clockTick => Sys2Proof.Machine.execClockTick s
  | .saveComplete readBackOk => Sys2Proof.Machine.execSaveComplete readBackOk s
  | .loadComplete => Sys2Proof.Machine.execLoadComplete s
  | .restoreComplete readBackOk => Sys2Proof.Machine.execRestoreComplete readBackOk s
  | .replyLastByteLeft => Sys2Proof.Machine.execReplyLastByteLeft s

end Sys2Proof.Machine
end

