-- ==== Sys2Proof/Safety.lean ====
section
/-! DEFINITION. The words the statements are written in: the parts of the state a frame names, what a reply leaves on the link, when
the arbiter and the ports have nothing to do, and the invariants of a sound state. -/

namespace Sys2Proof.Machine

/-! ### Frames -/

/-- The parts of the state a frame tells apart: every field of `State`, and of retained memory field by field. -/
inductive Part where
  | stockTypes | packs | doubtful | inPath | console | windows | nextShift | history | faults | nextFault | audit | checksum
  | printers | pool | nextTag | link | notices | live | store | flash | office | fitted | freeDraws | pending
  deriving DecidableEq, Repr

/-- Is a part the same in two states? -/
def Part.same (s t : State) : Part → Prop
  | .stockTypes => t.ret.stockTypes = s.ret.stockTypes
  | .packs => t.ret.packs = s.ret.packs
  | .doubtful => t.ret.doubtful = s.ret.doubtful
  | .inPath => t.ret.inPath = s.ret.inPath
  | .console => t.ret.console = s.ret.console
  | .windows => t.ret.windows = s.ret.windows
  | .nextShift => t.ret.nextShift = s.ret.nextShift
  | .history => t.ret.history = s.ret.history
  | .faults => t.ret.faults = s.ret.faults
  | .nextFault => t.ret.nextFault = s.ret.nextFault
  | .audit => t.ret.audit = s.ret.audit
  | .checksum => t.ret.checksumMatches = s.ret.checksumMatches
  | .printers => t.printers = s.printers
  | .pool => t.pool = s.pool
  | .nextTag => t.nextTag = s.nextTag
  | .link => t.link = s.link
  | .notices => t.notices = s.notices
  | .live => t.live = s.live
  | .store => t.store = s.store
  | .flash => t.flash = s.flash
  | .office => t.office = s.office
  | .fitted => t.fitted = s.fitted
  | .freeDraws => t.freeDraws = s.freeDraws
  | .pending => t.pending = s.pending

/-- Every part but those listed is the same in `t` as in `s`. -/
def State.keepsBut (s t : State) (changed : List Part) : Prop := ∀ a : Part, a ∉ changed → a.same s t

/-- Every place of a table but one is the same. -/
def othersKept {α : Type} {n : Nat} (v u : Vector α n) (i : Fin n) : Prop := ∀ j : Fin n, j ≠ i → u[j] = v[j]

/-! ### Replies -/

/-- The link of `t` is that of `s` with this reply handed to the transmitter. -/
def State.replies (s t : State) (code : ReplyCode) (request : Nat) (body : List Byte) : Prop :=
  t.link = { s.link with reply := some { code := code, echo := BitVec.ofNat 8 request, body := body }, leaving := true }

/-- The command answers a next state that differs from `s` in the reply alone. -/
def State.onlyReplies (s : State) (c : Instr) (code : ReplyCode) (request : Nat) (body : List Byte) : Prop :=
  ∃ t, exec c s = .next t ∧ s.replies t code request body ∧ s.keepsBut t [.link]

/-- The command is refused with the code of the first check of a list that fails, and changes nothing but the reply (R163). -/
def State.refuses (s : State) (c : Instr) (request : Nat) : List (Prop × ReplyCode) → Prop
  | [] => True
  | (passes, code) :: rest => (¬ passes → s.onlyReplies c code request []) ∧ (passes → s.refuses c request rest)

/-! ### When nothing else happens -/

/-- A port that sends nothing when it chooses: it awaits a reply, or its printer is in a state in which it sends no PRINT, POLL or
CLEAR (R37). -/
def State.portQuiet (s : State) (p : Fin 6) : Prop :=
  (s.printer p).outstanding.isSome = true ∨ (s.printer p).state ∈ [.poweredDown, .starting, .offline, .disabled]

/-- No port sends anything when it chooses. -/
def State.portsQuiet (s : State) : Prop := ∀ p : Fin 6, s.portQuiet p

/-- No port but one sends anything when it chooses. -/
def State.othersQuiet (s : State) (p : Fin 6) : Prop := ∀ q : Fin 6, q ≠ p → s.portQuiet q

/-- The notice queue is full, so that the arbiter places nothing (R168). -/
def State.queueFull (s : State) : Prop := 32 ≤ s.notices.queue.length

/-- A window that does not hold SUPERVISOR (R112). -/
def State.lacksSupervisor (s : State) (pos : Position) : Prop :=
  ∃ w, pos = .window w ∧ ((s.window w).state = .closed ∨ (s.window w).grade ≠ some .supervisor)

/-- The window a shift request acts on (R112): the requesting window, or the console's target. -/
def actsOn (pos : Position) (target : Nat) (w : Fin 15) : Prop :=
  pos = .window w ∨ (pos = .console ∧ target = w.val + 1)

/-- A doubtful blank of a window's present shift awaits a ruling (R120, R143). -/
def State.awaitsRuling (s : State) (w : Fin 15) : Prop :=
  ∃ d ∈ s.ret.doubtful, d.position = .window w ∧ (s.window w).shift = some d.shift

/-- The tally set of a position (R128, R129). -/
def State.tallies (s : State) : Position → Tallies
  | .console => s.ret.console.tallies
  | .window w => (s.window w).tallies

/-- A credit or a spoil of a position's shift is not discarded: the console's never, a window's while the shift is its own
(R134, R136). -/
def State.counted (s : State) (pos : Position) (shift : Nat) : Prop :=
  pos = .console ∨ ∃ w, pos = .window w ∧ (s.window w).state ≠ .closed ∧ (s.window w).shift = some shift

/-- A tally set with one more spoiled blank of a type, and nothing else changed (R132, R136). -/
def Tallies.oneMoreSpoiled (old new : Tallies) (k : Fin 8) : Prop :=
  new = { old with stock := new.stock } ∧
    new.stock[k] = { old.stock[k] with spoiled := min 65535 (old.stock[k].spoiled + 1) } ∧ othersKept old.stock new.stock k

/-- What the credit of a sale of a type leaves of its position (R125, R130 to R134): the tender line, the residue and the type's issued
count have grown, saturating, and the sale stands last in the recent issues, of which a full list has lost its oldest. -/
def State.credits (s t : State) (e : InPathEntry) (k : Fin 8) : Prop :=
  let old := s.tallies e.position
  let new := t.tallies e.position
  let amount := if e.tender = .cash then roundSale s.live.office.unit e.value else e.value
  let gained : Int := if e.tender = .cash then (amount : Int) - e.value else 0
  new = { old with
    tender := old.tender.update e.tender (fun y => { y with
      sales := min 999999999 (y.sales + amount)
      salesCount := min 65535 (y.salesCount + 1)
      saturated := y.saturated || decide (999999999 < y.sales + amount) })
    residue := if e.tender = .cash then clampResidue (old.residue + gained) else old.residue
    stock := new.stock } ∧
  new.stock[k] = { old.stock[k] with issued := min 65535 (old.stock[k].issued + 1) } ∧ othersKept old.stock new.stock k ∧
  t.recent e.position = (if 16 ≤ (s.recent e.position).length then (s.recent e.position).tail else s.recent e.position) ++ [{
    serial := e.serial, pack := e.pack, stockType := k, value := e.value, tender := e.tender, credited := amount,
    residue := gained }]

/-- The tally set and recent issues of every position but one are as they were. -/
def State.talliesKeptBut (s t : State) (pos : Position) : Prop :=
  ∀ q, q ≠ pos → t.tallies q = s.tallies q ∧ t.recent q = s.recent q

/-- The tally set and recent issues of every position are as they were. -/
def State.talliesKept (s t : State) : Prop := ∀ q, t.tallies q = s.tallies q ∧ t.recent q = s.recent q

/-- A sale of a type credited to its position, or discarded when the window's shift is no longer its own (R134), and no other
position touched. -/
def State.creditsOrDiscards (s t : State) (e : InPathEntry) (k : Fin 8) : Prop :=
  (s.counted e.position e.shift → s.credits t e k) ∧
    (¬ s.counted e.position e.shift → t.tallies e.position = s.tallies e.position ∧ t.recent e.position = s.recent e.position) ∧
    s.talliesKeptBut t e.position

/-- A spoil of a type counted for its position, or discarded when the window's shift is no longer its own (R136), and nothing else of
any tally set or recent issues changed. -/
def State.spoilsOrDiscards (s t : State) (e : InPathEntry) (k : Fin 8) : Prop :=
  (s.counted e.position e.shift → (s.tallies e.position).oneMoreSpoiled (t.tallies e.position) k) ∧
    (¬ s.counted e.position e.shift → t.tallies e.position = s.tallies e.position) ∧
    t.recent e.position = s.recent e.position ∧ s.talliesKeptBut t e.position

/-- Windows and console apart from their tally sets and recent-issues lists are as they were. -/
def State.positionsKeptButTallies (s t : State) : Prop :=
  (∀ w, t.window w = { s.window w with tallies := (t.window w).tallies, recent := (t.window w).recent }) ∧
    t.ret.console = { s.ret.console with tallies := t.ret.console.tallies, recent := t.ret.console.recent }

/-! ### What the statements compare with -/

/-- A serial lies in a pack's range (R4). -/
def Pack.holdsSerial (k : Pack) (n : Int) : Prop :=
  match k.direction with
  | .ascending => k.first ≤ n ∧ n < (k.first : Int) + k.count
  | .descending => (k.first : Int) - k.count < n ∧ n ≤ k.first

/-- A pack may be put in a place: any in STORE; in an empty bin of a printer in use, and in bin B of a printer with two (R19, check
8). -/
def State.placeFree (s : State) : Location → Prop
  | .store => True
  | .bin p side => (∀ k ∈ s.ret.packs, k.location ≠ .bin p side) ∧ (s.printer p).state ∉ [.offline, .poweredDown, .starting] ∧
      (side = .b → ∃ i, (s.printer p).identity = some i ∧ i.bins = 2)

/-- A fault entry apart from whether its notice still waits. -/
def FaultEntry.settled (e : FaultEntry) : FaultEntry := { e with pending := false }

/-- The DOUBTFUL exception entry of a blank in path, with the fault number that stands at its conversion (R15). -/
def doubtRun (e : InPathEntry) (fault : Option Nat) : ExceptionEntry :=
  { first := e.serial, run := 1, disposition := .doubtful, position := some e.position, fault := fault }

/-- What start-up leaves of a pack whose blanks in path were `lost`, oldest first (R15, R26): their DOUBTFUL entries, and the
condition R5 and R10 then give it. -/
def Pack.atStartUp (k : Pack) (lost : List InPathEntry) : Pack :=
  let k' := { k with exceptions := k.exceptions ++ lost.map (doubtRun · none) }
  if lost = [] then k
  else if k.remaining = 0 then { k' with condition := .exhausted, location := .store }
  else if k.condition = .usable ∧ k.exceptions.length ≤ 20 ∧ 20 < k'.exceptions.length then { k' with condition := .suspended }
  else k'

/-- A shift record apart from whether its notice still waits. -/
def ShiftRecord.settled (r : ShiftRecord) : ShiftRecord := { r with endPending := false }

/-- A window's record apart from whether its notice still waits. -/
def WindowRecord.settled (r : WindowRecord) : WindowRecord := { r with countReady := false }

/-- The doubtful entry a blank in path of a printer becomes (R15). -/
def doubtfulFrom (p : Fin 6) (e : InPathEntry) : DoubtfulEntry :=
  { pack := e.pack
    serial := e.serial
    printer := p
    position := e.position
    shift := e.shift
    value := e.value
    tender := e.tender
    tag := e.tag }

/-- The code and position of a request that needs SUPERVISOR and is judged by that first (R165).
DEDUCED, notes/assumptions/24.md. -/
def supervisorFirst : Instr → Option (Nat × Position)
  | .loadPack pos _ _ _ _ _ _ => some (0x10, pos)
  | .movePack pos _ _ => some (0x11, pos)
  | .writeOffPack pos _ => some (0x12, pos)
  | .retirePack pos _ => some (0x13, pos)
  | .resolveDoubtfulIssued pos _ _ _ => some (0x16, pos)
  | .resolveDoubtfulSpoiled pos _ _ => some (0x16, pos)
  | .stockCheck pos => some (0x17, pos)
  | .powerPrinterOn pos _ _ => some (0x20, pos)
  | .powerPrinterOff pos _ => some (0x20, pos)
  | .disablePrinter pos _ => some (0x21, pos)
  | .enablePrinter pos _ => some (0x22, pos)
  | .closeFault pos _ => some (0x29, pos)
  | .collectShift pos _ => some (0x3B, pos)
  | .openOffice pos _ => some (0x48, pos)
  | .closeOffice pos => some (0x49, pos)
  | .setTime pos _ => some (0x4A, pos)
  | .setLinkRate pos _ => some (0x4C, pos)
  | .restart pos => some (0x4D, pos)
  | .issueTicket .. | .cancelJob .. | .readJob .. | .voidTicket .. | .refund .. | .fetchNotice .. | .fetchNoticeRepeat ..
  | .readPack .. | .listPacks .. | .readPrinter .. | .resumePrinter .. | .reportFault .. | .readFaults .. | .faultCounts ..
  | .openShift .. | .suspendPosition .. | .resumePosition .. | .cashLift .. | .closeShift .. | .reopenShift ..
  | .readPosition .. | .declare .. | .signOffShift .. | .readShift .. | .readSetting .. | .readSettingLayout ..
  | .writeSettingOffice .. | .writeSettingDenominations .. | .writeSettingStockType .. | .writeSettingLayout ..
  | .writeSettingPosition .. | .writeSettingPrinter .. | .saveSettings .. | .loadSettings .. | .restoreFactory ..
  | .clearAudit .. | .identify .. | .frameCheckFailed .. | .frameDiscarded .. | .gapTimeout .. | .linkRateChange
  | .powerOn .. | .resetPin .. | .restartReset .. | .printerReply .. | .identReply .. | .printerReplyDiscarded ..
  | .printerReplyGap .. | .replyTimeout .. | .identTimeout .. | .pollInterval .. | .identInterval .. | .clockTick
  | .saveComplete .. | .loadComplete | .restoreComplete .. | .replyLastByteLeft => none

/-- The first twelve bytes and flag of an IDENTIFY reply, but for the revision (R172, chapter 11). -/
def identityBytes (s : State) (revision : Byte) : List Byte :=
  [0x4C#8, 0x56#8, 0x0D#8, 0x24#8, revision, BitVec.ofNat 8 s.link.unit.val, BitVec.ofNat 8 s.link.rate.val,
    BitVec.ofNat 8 s.office.resetCause.code, BitVec.ofNat 8 s.office.mode.code, BitVec.ofNat 8 s.ret.audit.code,
    BitVec.ofNat 8 s.store.source.sourceCode, BitVec.ofNat 8 s.fitted, if s.office.clock.isSome then 1#8 else 0#8]

/-! ### Invariants -/

/-- The notice queue's law (R166, R167): at most 32 notices, and the attention line driven exactly while there is one. -/
def State.noticesSound (s : State) : Prop :=
  s.notices.queue.length ≤ 32 ∧ s.notices.attention = !s.notices.queue.isEmpty

/-- Office control's law (R181, R183): TRADING only under audit status OK and with a date of 8 printable characters, and a clock
within the day. -/
def State.officeSound (s : State) : Prop :=
  (s.office.mode = .trading → s.ret.audit = .ok ∧ s.office.date.isSome = true) ∧
    (∀ d, s.office.date = some d → d.length = 8 ∧ ∀ c ∈ d, 0x20 ≤ c.toNat ∧ c.toNat ≤ 0x7E) ∧
    ∀ n, s.office.clock = some n → n ≤ 86399

/-- The job pool's law (R53, R55): at most 48 records, no tag twice, every tag and the next tag 1..65,535. -/
def State.poolSound (s : State) : Prop :=
  s.pool.length ≤ 48 ∧ (s.pool.map (·.tag)).Nodup ∧ (∀ j ∈ s.pool, 1 ≤ j.tag ∧ j.tag ≤ 65535) ∧
    1 ≤ s.nextTag ∧ s.nextTag ≤ 65535

/-- The law of the in-path lists' length (R6). -/
def State.pathsSound (s : State) : Prop := ∀ p : Fin 6, (s.path p).length ≤ 2

/-- The serials of a pack in the recent-issues lists of all positions, as stretches of its range (R125). -/
def State.recentStretches (s : State) (k : Pack) : List (Int × Nat) :=
  ((s.ret.console.recent ++ allWindows.flatMap fun w => (s.window w).recent).filter fun e => decide (e.pack = k.id)).map
    fun e => (k.offset e.serial, 1)

/-- The law of one pack: the tests of R25, conservation (R18) among them, and what keeps them: its range lies above 0 (R4); its
condition is EXHAUSTED exactly when nothing remains and nothing is in path (R5); its exception list keeps room for every blank in path
and for one run of the rest (R10); and no serial of its exceptions, of the blanks in path and of the recent issues stands twice or
outside the taken part. -/
def State.packLaw (s : State) (k : Pack) : Prop :=
  let stretches := k.stretches s.allPaths ++ s.recentStretches k
  s.packSound k = true ∧ 0 ≤ k.range.1 ∧ (∀ e ∈ k.exceptions, 1 ≤ e.run) ∧
    (k.condition = .exhausted ↔ k.remaining = 0 ∧ s.inPathOf k.id = 0) ∧
    (k.condition = .usable → k.exceptions.length ≤ 20) ∧
    k.exceptions.length + s.inPathOf k.id + (if k.remaining = 0 then 0 else 1) ≤ 24 ∧
    (∀ a ∈ stretches, 0 ≤ a.1 ∧ a.1 + a.2 ≤ (k.count : Int) - k.remaining) ∧ disjoint stretches = true

/-- The law of the doubtful list (R15): at most 12 entries, and at most 2 blanks of a printer doubtful or in path together. -/
def State.doubtLaw (s : State) : Prop :=
  s.ret.doubtful.length ≤ 12 ∧
    ∀ p : Fin 6, (s.ret.doubtful.filter fun d => decide (d.printer = p)).length + (s.path p).length ≤ 2

/-- The law of the pack table (R3, R5): at most 64 records, no pack id twice, and at most one record in a bin. -/
def State.tableLaw (s : State) : Prop :=
  s.ret.packs.length ≤ 64 ∧ (s.ret.packs.map (·.id)).Nodup ∧
    ∀ p : Fin 6, ∀ side ∈ [Bin.a, .b], s.ret.packs.countP (fun k => decide (k.location = .bin p side)) ≤ 1

/-- The laws of the stock register (R3, R5, R6, R10, R15, R18): those of the pack table, of every pack and of the doubtful list, every
blank in path from a pack in a bin of its printer, and a pack record for every doubtful blank and every recent issue. -/
def State.stockSound (s : State) : Prop :=
  s.tableLaw ∧ (∀ k ∈ s.ret.packs, s.packLaw k) ∧ s.doubtLaw ∧
    (∀ p : Fin 6, ∀ e ∈ s.path p, ∃ k ∈ s.ret.packs, k.id = e.pack ∧ (k.location = .bin p .a ∨ k.location = .bin p .b)) ∧
    (∀ d ∈ s.ret.doubtful, ∃ k ∈ s.ret.packs, k.id = d.pack) ∧
    (∀ e ∈ s.ret.console.recent, ∃ k ∈ s.ret.packs, k.id = e.pack) ∧
    ∀ w : Fin 15, ∀ e ∈ (s.window w).recent, ∃ k ∈ s.ret.packs, k.id = e.pack

/-- The law of one entry of the fault log (R91, R92, R93, R100): its number is 1..65,535, a transient entry is CLEARED, and it lists no
code twice and at most 4 after the first. -/
def FaultEntry.law (e : FaultEntry) : Prop :=
  1 ≤ e.number ∧ e.number ≤ 65535 ∧ (e.cls = .transient → e.cleared = true) ∧ e.later.length ≤ 4 ∧
    ((e.first :: e.later).map (·.code)).Nodup

/-- The laws of the fault log (R91 to R93, R102, R104): at most 64 entries, no number twice and the next one in range, at most 24
attended entries OPEN, and an OPEN standing entry of a printer, the one its record names, exactly while it is FAULTED or OFFLINE. -/
def State.faultsSound (s : State) : Prop :=
  s.ret.faults.length ≤ 64 ∧ (s.ret.faults.map (·.number)).Nodup ∧ (∀ e ∈ s.ret.faults, e.law) ∧
    1 ≤ s.ret.nextFault ∧ s.ret.nextFault ≤ 65535 ∧
    s.ret.faults.countP (fun e => decide (e.cls = .attended ∧ e.cleared = false)) ≤ 24 ∧
    ∀ p : Fin 6,
      (s.ret.faults.filter fun e => decide (e.cls = .standing ∧ e.cleared = false ∧ e.printer = p)).map (·.number) =
        (s.printer p).openFault.toList ∧
      ((s.printer p).openFault.isSome = true ↔ (s.printer p).state ∈ [.faulted, .offline])

/-- The shift history's law (R154) and what keeps it: a window holds a reserved slot exactly in CLOSING, COUNTING and HELD. -/
def State.historySound (s : State) : Prop :=
  s.ret.history.length + s.reservedSlots ≤ 32 ∧
    ∀ w : Fin 15, (s.window w).reserved = true ↔ (s.window w).state ∈ [.closing, .counting, .held]

end Sys2Proof.Machine
end

