-- ==== Sys2Proof/Certificates/Slice0/Obligations.lean ====
section
/-! DEFINITION. The statements for the provers, in the order of OBLIGATIONS.json: the step, reset, the requests as a whole, then the
blocks chapter by chapter, the invariants, and the request bytes. -/

open Sys2Proof Sys2Proof.Machine

/-! ### The step -/

/-- A step runs the command at the front of the queue on the state with the queue's rest; on an empty queue nothing happens
(the second clause is the model's choice, notes/assumptions/5.md). -/
def Obligations.StepRunsTheFrontCommand : Prop :=
  (∀ (s : State) (c : Instr) (rest : List Instr), s.pending = c :: rest → step s = exec c (s.setPending rest)) ∧
    ∀ s : State, s.pending = [] → step s = .next s

/-- Every step but a power-on that lost the retained memory keeps the laws of the stock register: at most 64 pack records and at most one
in a bin, blanks are conserved and the tests of STOCK CHECK pass, no serial has two fates, and the doubtful list holds at most 2 entries
of a printer, each matched by its exception entry (R3, R5, R6, R10, R15, R18, R25). -/
def Obligations.StockRegisterStaysSound : Prop :=
  ∀ s t : State, s.stockSound → (∀ straps, s.pending.head? ≠ some (.powerOn straps false)) → step s = .next t → t.stockSound

/-- No command touches the queue of those that wait, and none reads it. -/
def Obligations.CommandsKeepTheQueue : Prop :=
  ∀ (c : Instr) (s t : State) (q : List Instr), exec c s = .next t →
    t.pending = s.pending ∧ exec c (s.setPending q) = .next (t.setPending q)

/-- Every command completes in every state: the manual gives each request a reply and each event an effect (R163). -/
def Obligations.EveryCommandCompletes : Prop := ∀ (c : Instr) (s : State), ∃ t, exec c s = .next t

/-! ### Reset -/

/-- What the first start-up of a part whose retained memory has never been used leaves (power-on, every strap low: that this is the
state after reset is the model's choice, notes/assumptions/1.md). -/
def Obligations.FirstStartUpOfANewPart : Prop :=
  exec (.powerOn { unit := 0, rate := 0, fitted := 0 } true)
      { State.reset with ret := unusedRetained false .ok false } = .next State.reset ∧
    State.reset.office = { mode := .setup, date := none, clock := none, resetCause := .powerOn } ∧
    State.reset.ret.audit = .fault ∧ State.reset.store.source = .factory ∧ State.reset.fitted = 6 ∧
    State.reset.pool = [] ∧ State.reset.nextTag = 1 ∧
    State.reset.ret.packs = [] ∧ State.reset.ret.doubtful = [] ∧ State.reset.ret.faults = [] ∧
    State.reset.ret.nextFault = 1 ∧ State.reset.ret.history = [] ∧ State.reset.ret.nextShift = 1 ∧
    (∀ w : Fin 15, State.reset.window w = closedWindow) ∧
    (∀ p : Fin 6, (State.reset.printer p).state = .starting ∧
      (State.reset.printer p).outstanding = some (0#8, .ident) ∧ State.reset.path p = []) ∧
    State.reset.notices.queue.head? = some (.start .powerOn .fault .factory) ∧ State.reset.notices.attention = true

/-- The link, the pool, the notices, office control, the live settings and their source, and the audit status after any of the three
resets (R1, R76, R81, R159, R173, R178, R179, R186, R187): the live settings are those of the first good area, and a stock type with
pack records keeps its definition. A power-on that lost the retained memory fails the checksum. That a restart resets whether or not a
RESTART waits is the model's choice, notes/assumptions/34.md. -/
def Obligations.ResetsStartAfresh : Prop :=
  ∀ (s : State) (straps : Straps) (c : Instr) (cause : ResetCause) (held : Bool),
    (c, cause, held) ∈ [(Instr.powerOn straps true, .powerOn, true), (.powerOn straps false, .powerOn, false),
      (.resetPin straps, .pin, true), (.restartReset straps, .restart, true)] →
    let source : Area := if s.flash.user1.isSome then .user1 else if s.flash.user2.isSome then .user2 else .factory
    let m := (s.flash.read source).getD factoryImage
    ∃ t, exec c s = .next t ∧
      t.pool = [] ∧ t.nextTag = 1 ∧
      t.office = { mode := .setup, date := none, clock := none, resetCause := cause } ∧
      t.link = { receiver := .hunting, unit := straps.unit, rate := straps.rate, reply := none, leaving := false,
                 rateNext := none, restartNext := false } ∧
      t.fitted = (if straps.fitted.val = 0 ∨ straps.fitted.val = 7 then 6 else straps.fitted.val) ∧
      t.store = { running := none, donePending := false, lastResult := none, source := source } ∧
      t.live.office = m.office ∧ t.live.faces = m.faces ∧ t.live.permissions = m.permissions ∧
      t.live.printerItems = m.printerItems ∧
      (∀ k : Fin 8,
        (t.stockType k).threshold = m.stockTypes[k].2 ∧
        ((∀ x ∈ t.ret.packs, x.stockType ≠ k) → (t.stockType k).definition = m.stockTypes[k].1) ∧
        (held = true → (∃ x ∈ s.ret.packs, x.stockType = k) → (t.stockType k).definition = (s.stockType k).definition) ∧
        t.layout k =
          { entries := m.layouts[k], invalid := combinedCheck (t.stockType k).definition m.layouts[k] }) ∧
      t.flash = s.flash ∧
      t.notices.queue.head? = some (.start cause t.ret.audit t.store.source) ∧ t.notices.attention = true ∧
      t.notices.lastFetched = none ∧ t.ret.checksumMatches = true ∧
      t.ret.audit = (if held && s.ret.checksumMatches then s.ret.audit else .fault)

/-- What every reset that held the retained memory does to the retained records and the printers (R5, R10, R15, R26, R52, R97, R109,
R122, R127, R158): blanks in path are doubtful, each with its exception entry, the packs keep every other field, OPEN standing entries
are cleared and no other entry changes, COUNT-READY waits or is placed for every window in COUNTING, and every stock type below its
threshold is notified afresh. That a restart resets whether or not a RESTART waits is the model's choice, notes/assumptions/34.md. So is,
in contents that only a lost retained memory brings, what start-up does with a blank in path whose pack has no record (53.md), with two
pack records under one id (54.md) and with a list already at its bound (55.md). -/
def Obligations.StartUpSettlesTheRecords : Prop :=
  ∀ (s : State) (straps : Straps) (c : Instr), c ∈ [.powerOn straps true, .resetPin straps, .restartReset straps] →
    ∃ t, exec c s = .next t ∧
      t.ret.doubtful = s.ret.doubtful ++ allPrinters.flatMap (fun p => (s.path p).map (doubtfulFrom p)) ∧
      (∀ p, t.path p = []) ∧
      t.ret.packs = s.ret.packs.map (fun k =>
        k.atStartUp ((allPrinters.flatMap s.path).filter fun e => decide (e.pack = k.id))) ∧
      t.ret.faults.map (·.settled) = s.ret.faults.map (fun e =>
        (if e.cls = .standing ∧ e.cleared = false then
          { e with cleared := true, cause := some .startUp, clearedAt := none } else e).settled) ∧
      t.ret.nextFault = s.ret.nextFault ∧
      (∀ w, (t.window w).settled = { (s.window w).settled with
        outstanding := 0
        state := if (s.window w).state = .closing then .counting else (s.window w).state }) ∧
      (∀ w, (t.window w).state = .counting →
        (t.window w).countReady = true ∨ Notice.countReady w (t.window w).shift .counting ∈ t.notices.queue) ∧
      (∀ k,
        if (t.stockType k).definition.defined = true ∧ (t.stockType k).definition.numbered = true then
          ((t.stockType k).lowNotified = true ↔ t.totalRemaining k < (t.stockType k).threshold) ∧
            ((t.stockType k).lowNotified = true →
              (t.stockType k).lowPending = true ∨ Notice.stockLow k (t.totalRemaining k) ∈ t.notices.queue)
        else (t.stockType k).lowNotified = false ∧ (t.stockType k).lowPending = false) ∧
      t.ret.nextShift = s.ret.nextShift ∧
      t.ret.history.map (·.settled) = s.ret.history.map (·.settled) ∧
      t.ret.console = { s.ret.console with outstanding := 0, tallies := zeroTallies, recent := [] } ∧
      ∀ p : Fin 6,
        (t.printer p).identity = none ∧ (t.printer p).queue = [] ∧ (t.printer p).openFault = none ∧
        (t.printer p).counters = Vector.replicate 12 0 ∧ (t.printer p).temperatures = [] ∧
        (t.printer p).confirmPending = false ∧ (t.printer p).disablePending = false ∧
        if p.val + 1 ≤ t.fitted ∧ (t.live.printerItems[p]).enabled = true then
          (t.printer p).state = .starting ∧ (t.printer p).outstanding = some (0#8, .ident) ∧
            (t.printer p).nextCommand = 1#8
        else (t.printer p).state = .poweredDown ∧ (t.printer p).outstanding = none ∧ (t.printer p).nextCommand = 0#8

/-! ### Requests as a whole -/

/-- Every request is answered by one reply that echoes its code and carries none of the codes of R162 nor STORE-FAULT
(R163, R164). -/
def Obligations.RequestsAreAnswered : Prop :=
  ∀ (i : Instr) (s : State) (code : Nat) (pos : Position) (body : List Byte), s.lineFree →
    requestBytes i = some (code, pos, body) →
      ∃ t r, exec i s = .next t ∧ t.link.reply = some r ∧ t.link.leaving = true ∧ r.echo = BitVec.ofNat 8 code ∧
        r.code ∉ [.badCheck, .unknownRequest, .badLength, .badPosition, .storeFault]

/-- A request refused by any check changes nothing but the reply, whose body is empty but for DECLARE's reason (R163, R164), numbered
as notes/assumptions/15.md says. -/
def Obligations.RefusalsChangeNothing : Prop :=
  ∀ (i : Instr) (s t : State) (r : Reply) (code : Nat) (pos : Position) (body : List Byte), s.lineFree →
    requestBytes i = some (code, pos, body) → exec i s = .next t → t.link.reply = some r →
      r.code ∉ [.ok, .accepted] →
        s.keepsBut t [.link] ∧ t.link = { s.link with reply := some r, leaving := true } ∧
          (r.body = [] ∨ (code = 0x38 ∧ r.code = .state ∧ (r.body = [0#8] ∨ r.body = [1#8] ∨ r.body = [2#8])))

/-- A request whose grade is judged first is refused with GRADE from a window that does not hold SUPERVISOR, and CLEAR AUDIT
and SIGN OFF SHIFT from every window (R112, R165). -/
def Obligations.GradeIsJudgedFirst : Prop :=
  (∀ (i : Instr) (s : State) (code : Nat) (pos : Position), supervisorFirst i = some (code, pos) →
      s.lineFree → s.lacksSupervisor pos → s.onlyReplies i .grade code []) ∧
    ∀ (s : State) (w : Fin 15) (target supervisor : Nat), s.lineFree →
      s.onlyReplies (.clearAudit (.window w)) .grade 0x4B [] ∧
        s.onlyReplies (.signOffShift (.window w) target supervisor) .grade 0x39 []

/-- The reading requests answer OK with the body of what they name and change nothing but the reply. Model's choices among these bodies,
in notes/assumptions/: IDENTIFY's revision (2), the location byte of READ PACK and LIST PACKS (10), absent declared figures (12), a body
above 240 bytes kept whole (13), the codes of LIST PACKS (14), the numbers of the enumerations and of the parts (15), no slot of a field
that is no TEXT (25), an absent identity or sense (41), READ PACK's derived counts (44), a VALID layout's verdict (47), code marks (48),
the order of the PRINTER item (49), flags (50), the record count of READ SHIFT 0 sent twice and the slot count of READ JOB TEXTS once
(58), the temperature window as a list (64). A number above 65,535, and 0 where it names no record, is out of range. -/
def Obligations.ReadsAnswerAndChangeNothing : Prop :=
  ∀ (s : State) (pos : Position), s.lineFree →
    (∀ n a b : Nat, n = 0 ∨ 65535 < n →
      s.onlyReplies (.readJob pos n a) .range 0x03 [] ∧ s.onlyReplies (.readPack pos n a) .range 0x14 [] ∧
      s.onlyReplies (.listPacks pos 0 a b n) .range 0x15 [] ∧
      (n ≠ 0 → s.onlyReplies (.readFaults pos n a) .range 0x2A [] ∧ s.onlyReplies (.readShift pos n) .range 0x3A [])) ∧
    (∀ (tag part : Nat) (j : Job), 1 ≤ tag → tag ≤ 65535 → part ≤ 1 → s.job? tag = some j →
      s.onlyReplies (.readJob pos tag part) .ok 0x03 (if part = 0 then j.bytes else j.textBytes)) ∧
    s.onlyReplies (.fetchNoticeRepeat pos) .ok 0x06
      (be 1 s.notices.queue.length ++ bFlag s.anyWaiting ++ noticeBytes s.notices.lastFetched) ∧
    (∀ (packId index : Nat) (k : Pack), 1 ≤ packId → packId ≤ 65535 → index ≤ 23 → s.pack? packId = some k →
      s.onlyReplies (.readPack pos packId index) .ok 0x14 (s.packBody k index)) ∧
    (∀ stockType location start : Nat, stockType ≤ 7 ∨ stockType = 255 → location ≤ 6 ∨ location = 255 → 1 ≤ start →
      start ≤ 65535 →
        s.onlyReplies (.listPacks pos 0 stockType location start) .ok 0x15 (s.listBody stockType location start)) ∧
    (∀ stockType location start : Nat,
      s.onlyReplies (.listPacks pos 1 stockType location start) .ok 0x15 (bList DoubtfulEntry.bytes s.ret.doubtful)) ∧
    (∀ p : Fin 6, s.onlyReplies (.readPrinter pos (p.val + 1)) .ok 0x23 (s.printerBody p)) ∧
    (∀ fromNumber selection : Nat, fromNumber ≤ 65535 → selection ≤ 1 →
      fromNumber = 0 ∨ (s.fault? fromNumber).isSome = true →
        s.onlyReplies (.readFaults pos fromNumber selection) .ok 0x2A (s.faultsBody fromNumber selection)) ∧
    (∀ part index : Nat, part ≤ 3 → index ≤ 15 →
      s.onlyReplies (.readPosition pos 0 part index) .ok 0x36 (s.positionBody .console part index)) ∧
    (∀ (w : Fin 15) (part index : Nat), part ≤ 3 → index ≤ 15 →
      s.onlyReplies (.readPosition pos (w.val + 1) part index) .ok 0x36 (s.positionBody (.window w) part index)) ∧
    s.onlyReplies (.readShift pos 0) .ok 0x3A s.historyBody ∧
    (∀ (n : Nat) (r : ShiftRecord), 1 ≤ n → n ≤ 65535 → s.record? n = some r →
      s.onlyReplies (.readShift pos n) .ok 0x3A r.bytes) ∧
    (∀ (item index : Nat) (body : List Byte), s.settingBody item index = some body →
      s.onlyReplies (.readSetting pos item index) .ok 0x40 body) ∧
    (∀ k : Fin 8, s.onlyReplies (.readSettingLayout pos k.val) .ok 0x40 (s.layout k).bytes) ∧
    s.onlyReplies (.identify pos) .ok 0x4E (identityBytes s Config.revision)

/-- FAULT COUNTS, whole (R107). -/
def Obligations.FaultCountsReply : Prop :=
  ∀ (s : State) (pos : Position) (n : Nat), s.lineFree →
    (n = 0 ∨ 6 < n → s.onlyReplies (.faultCounts pos n) .range 0x2B []) ∧
    ∀ p : Fin 6, n = p.val + 1 →
      s.onlyReplies (.faultCounts pos n) .ok 0x2B
        ((s.printer p).counters.toList.flatMap (be 2) ++ be 2 ((s.printer p).openFault.getD 0) ++
          be 1 (s.ret.faults.filter fun e => decide (e.cls = .attended ∧ e.cleared = false ∧ e.printer = p)).length)

/-! ### Office control -/

/-- SET TIME and the passing of a second (R183), and OPEN OFFICE and CLOSE OFFICE taken (R181, R182). -/
def Obligations.OfficeDayAndClock : Prop :=
  (∀ (s : State) (pos : Position) (seconds : Nat), s.lineFree → s.supervises pos = true →
    (86399 < seconds → s.onlyReplies (.setTime pos seconds) .range 0x4A []) ∧
    (seconds ≤ 86399 → ∃ t, exec (.setTime pos seconds) s = .next t ∧
      t.office = { s.office with clock := some seconds } ∧ s.replies t .ok 0x4A [] ∧ s.keepsBut t [.office, .link])) ∧
  (∀ s : State, ∃ t, exec .clockTick s = .next t ∧ s.keepsBut t [.office] ∧
    t.office = { s.office with clock := t.office.clock } ∧
    (s.office.clock = none → t.office.clock = none) ∧
    (∀ n, s.office.clock = some n → n < 86399 → t.office.clock = some (n + 1)) ∧
    (s.office.clock = some 86399 → t.office.clock = some 0)) ∧
  (∀ (s : State) (pos : Position) (date : List Byte), s.lineFree → s.supervises pos = true → date.length = 8 →
    (∀ c ∈ date, 0x20 ≤ c.toNat ∧ c.toNat ≤ 0x7E) → s.office.mode = .setup → s.ret.audit = .ok →
    s.store.running = none →
    ∃ t, exec (.openOffice pos date) s = .next t ∧
      t.office = { s.office with mode := .trading, date := some date } ∧
      (∀ p : Fin 6, t.printer p = { s.printer p with counters := Vector.replicate 12 0 }) ∧
      s.replies t .ok 0x48 [] ∧ s.keepsBut t [.office, .printers, .link]) ∧
  (∀ (s : State) (pos : Position) (date : List Byte), s.lineFree → s.supervises pos = true → date.length = 8 →
    (∀ c ∈ date, 0x20 ≤ c.toNat ∧ c.toNat ≤ 0x7E) → s.office.mode = .trading ∨ s.ret.audit = .fault →
      s.onlyReplies (.openOffice pos date) .mode 0x48 []) ∧
  ∀ (s : State) (pos : Position), s.lineFree → s.supervises pos = true → s.office.mode = .trading →
    (∀ w, (s.window w).state = .closed) → s.pool = [] →
    ∃ t, exec (.closeOffice pos) s = .next t ∧
      t.office = { s.office with mode := .setup } ∧
      t.ret.console = { s.ret.console with tallies := zeroTallies, recent := [] } ∧
      s.replies t .ok 0x49 [] ∧ s.keepsBut t [.office, .console, .link]

/-- CLEAR AUDIT taken (R184, with R26, R109, R127 and R158). -/
def Obligations.ClearAuditEmptiesTheRecords : Prop :=
  ∀ s : State, s.lineFree → s.office.mode = .setup → s.ret.audit = .fault ∨ (∀ w, (s.window w).state = .closed) → s.pool = [] →
    ∃ t, exec (.clearAudit .console) s = .next t ∧
      t.ret.packs = [] ∧ t.ret.doubtful = [] ∧ (∀ p, t.path p = []) ∧ t.ret.faults = [] ∧ t.ret.nextFault = 1 ∧
      (∀ w, t.window w = closedWindow) ∧ t.ret.nextShift = 1 ∧ t.ret.history = [] ∧
      t.ret.console = { s.ret.console with tallies := zeroTallies, recent := [] } ∧
      t.ret.audit = .ok ∧ t.ret.checksumMatches = true ∧
      (∀ k, (t.stockType k).definition = (s.stockType k).definition ∧ (t.stockType k).threshold = (s.stockType k).threshold) ∧
      (∀ p, (t.printer p).openFault = none ∧ (t.printer p).confirmPending = false ∧
        (t.printer p).counters = (s.printer p).counters ∧ (t.printer p).disablePending = (s.printer p).disablePending ∧
        if (s.printer p).state ∈ [.starting, .ready, .heatHold, .faulted, .offline] then
          (t.printer p).state = .starting ∧ (t.printer p).identity = none ∧
            (t.printer p).outstanding = some ((s.printer p).nextCommand, .ident)
        else (t.printer p).state = (s.printer p).state ∧ (t.printer p).outstanding = (s.printer p).outstanding) ∧
      s.replies t .ok 0x4B [] ∧
      s.keepsBut t [.stockTypes, .packs, .doubtful, .inPath, .console, .windows, .nextShift, .history, .faults, .nextFault,
        .audit, .checksum, .printers, .notices, .store, .link]

/-! ### Settings -/

/-- A WRITE SETTING that replaces OFFICE, DENOMINATIONS, POSITION p or PRINTER p (R174, R176). Model's choices: bits 0 and 7 of a
printer set (notes/assumptions/33.md), 1 for yes (50.md), and a code or stock set with every bit set out of range (R188, 51.md). -/
def Obligations.PlainSettingWrites : Prop :=
  ∀ (s : State) (pos : Position), s.lineFree → s.supervises pos = true → s.store.loading = false →
    (∀ code unit tolerance limit : Nat, s.office.mode = .setup → code < 65535 → unit ∈ [1, 2, 5, 10, 20, 50] →
      tolerance ≤ 10000 → tolerance ≤ limit → limit ≤ 1000000 →
      ∃ t, exec (.writeSettingOffice pos 0 0 code unit tolerance limit) s = .next t ∧
        t.live = { s.live with office := { code := code, unit := unit, tolerance := tolerance, limit := limit } } ∧
        s.replies t .ok 0x41 [] ∧ s.keepsBut t [.live, .link]) ∧
    (∀ unit tolerance limit : Nat, s.office.mode = .setup →
      s.onlyReplies (.writeSettingOffice pos 0 0 65535 unit tolerance limit) .range 0x41 []) ∧
    (∀ (w : Fin 15) (printerSet enabled : Nat),
      s.onlyReplies (.writeSettingPosition pos (w.val + 1) printerSet 255 enabled) .range 0x41 []) ∧
    (∀ faces : Vector Nat 12, s.office.mode = .setup → (∀ n ∈ faces.toList, n ≤ 100000) →
      ∃ t, exec (.writeSettingDenominations pos 0 faces) s = .next t ∧ t.live = { s.live with faces := faces } ∧
        s.replies t .ok 0x41 [] ∧ s.keepsBut t [.live, .link]) ∧
    (∀ (w : Fin 15) (printerSet stockSet : Nat) (enabled : Bool), printerSet < 128 → printerSet % 2 = 0 →
      stockSet < 255 →
      ∃ t, exec (.writeSettingPosition pos (w.val + 1) printerSet stockSet (if enabled then 1 else 0)) s = .next t ∧
        t.live.permissions[w] =
          { printerSet := BitVec.ofNat 8 printerSet, stockSet := BitVec.ofNat 8 stockSet, enabled := enabled } ∧
        othersKept s.live.permissions t.live.permissions w ∧
        t.live = { s.live with permissions := t.live.permissions } ∧
        s.replies t .ok 0x41 [] ∧ s.keepsBut t [.live, .link]) ∧
    ∀ (p : Fin 6) (enabled : Bool) (hold resume : Nat), 40 ≤ hold → hold ≤ 100 → 30 ≤ resume → resume < hold →
      ∃ t, exec (.writeSettingPrinter pos (p.val + 1) (if enabled then 1 else 0) hold resume) s = .next t ∧
        t.live.printerItems[p] = { enabled := enabled, hold := hold, resume := resume } ∧
        othersKept s.live.printerItems t.live.printerItems p ∧
        t.live = { s.live with printerItems := t.live.printerItems } ∧
        s.replies t .ok 0x41 [] ∧ s.keepsBut t [.live, .link]

/-- A WRITE SETTING of STOCK TYPE k (R1, R2, R80, R176): refused with STATE when it would change the definition under a pack;
otherwise the record, the layout's check and low-notified follow. A port that sends afresh, as its printer qualifies for its next copy
or no longer does, changes its own record at most (R37, R47). That a flag of 1 means yes is the model's choice
(notes/assumptions/50.md). -/
def Obligations.StockTypeWrite : Prop :=
  ∀ (s : State) (pos : Position) (k : Fin 8) (defined numbered striped : Bool) (digits threshold : Nat),
    s.lineFree → s.supervises pos = true → s.store.loading = false → 6 ≤ digits → digits ≤ 9 → threshold ≤ 9999 →
    let d : StockDefinition := { defined := defined, numbered := numbered, striped := striped, digits := digits }
    let c : Instr := .writeSettingStockType pos k.val (if defined then 1 else 0) (if numbered then 1 else 0)
      (if striped then 1 else 0) digits threshold
    ((∃ x ∈ s.ret.packs, x.stockType = k) → (s.stockType k).definition ≠ d → s.onlyReplies c .state 0x41 []) ∧
    ((∀ x ∈ s.ret.packs, x.stockType ≠ k) ∨ (s.stockType k).definition = d →
      ∃ t, exec c s = .next t ∧
        (t.stockType k).definition = d ∧ (t.stockType k).threshold = threshold ∧
        (defined = true → numbered = true →
          ((t.stockType k).lowNotified = true ↔ s.totalRemaining k < threshold)) ∧
        (t.layout k).entries = (s.layout k).entries ∧
        ((s.stockType k).definition ≠ d → (t.layout k).invalid = combinedCheck d (s.layout k).entries) ∧
        ((s.stockType k).definition = d → t.live = s.live) ∧
        s.replies t .ok 0x41 [] ∧
        (s.queueFull → othersKept s.ret.stockTypes t.ret.stockTypes k ∧ othersKept s.live.layouts t.live.layouts k ∧
          s.keepsBut t [.stockTypes, .live, .printers, .link] ∧
          (s.portsQuiet ∨ (s.stockType k).definition = d ∨ (∀ j ∈ s.pool, j.stockType ≠ k) →
            s.keepsBut t [.stockTypes, .live, .link])))

/-- A WRITE SETTING of LAYOUT k (R79): refused with STATE while a job of the type can still dispatch; otherwise stored in the order
given with the result of the combined check, which the reply carries. A layout is VALID exactly when it meets the seven constraints of
R80, and the reason of a type that is not defined and numbered comes before every other. The bytes of a VALID layout's verdict are the
model's choice (notes/assumptions/47.md). -/
def Obligations.LayoutsAreCheckedAndStored : Prop :=
  (∀ (s : State) (pos : Position) (k : Fin 8) (fields : List RawField) (entries : List FieldEntry),
    s.lineFree → s.supervises pos = true → s.store.loading = false → fields.length ≤ 12 → fieldsOf fields = some entries →
    ((∃ j ∈ s.pool, j.stockType = k ∧ j.state ≠ .ended) →
      s.onlyReplies (.writeSettingLayout pos k.val fields) .state 0x41 []) ∧
    ((∀ j ∈ s.pool, j.stockType = k → j.state = .ended) →
      ∃ t, exec (.writeSettingLayout pos k.val fields) s = .next t ∧
        t.layout k = { entries := entries, invalid := combinedCheck (s.stockType k).definition entries } ∧
        othersKept s.live.layouts t.live.layouts k ∧ t.live = { s.live with layouts := t.live.layouts } ∧
        s.replies t .ok 0x41 (t.layout k).verdict ∧ s.keepsBut t [.live, .link])) ∧
  ∀ (d : StockDefinition) (fields : List FieldEntry),
    (combinedCheck d fields = none ↔
      d.defined = true ∧ d.numbered = true ∧
        (fields.countP fun f => decide (f.kind = .serial)) = 1 ∧
        (∀ f ∈ fields, f.kind = .serial → d.digits ≤ f.width) ∧
        (fields.countP fun f => decide (f.kind = .value)) ≤ 1 ∧
        (fields.countP fun f => decide (f.kind = .check)) ≤ 1 ∧
        fields.Pairwise fun f g => f.overlaps g = false) ∧
    (d.defined = false ∨ d.numbered = false ↔ combinedCheck d fields = some .notNumbered)

/-- SAVE, LOAD and RESTORE accepted (R178, R179, R180): the operation runs with its copy, and the area being written is bad. That a
restore's area is bad from the request's own step, when the factory area is good, is the model's choice (notes/assumptions/28.md), and
so are the area codes (11.md). -/
def Obligations.StoreRequestsStart : Prop :=
  ∀ (s : State) (pos : Position), s.lineFree → s.supervises pos = true → s.office.mode = .setup →
    s.store.running = none → s.store.donePending = false →
    (∀ (area : Nat) (a : Area), userAreaOf area = some a →
      ∃ t copy, exec (.saveSettings pos area) s = .next t ∧
        t.store = { s.store with running := some (.save a copy) } ∧ t.flash = s.flash.write a none ∧
        copy.office = s.live.office ∧ copy.faces = s.live.faces ∧ copy.permissions = s.live.permissions ∧
        copy.printerItems = s.live.printerItems ∧
        (∀ k : Fin 8, copy.stockTypes[k] = ((s.stockType k).definition, (s.stockType k).threshold) ∧
          copy.layouts[k] = (s.layout k).entries) ∧
        s.replies t .accepted 0x42 [] ∧ s.keepsBut t [.store, .flash, .link]) ∧
    (∀ (area : Nat) (a : Area), areaOf area = some a →
      ∃ t, exec (.loadSettings pos area) s = .next t ∧ t.store = { s.store with running := some (.load a) } ∧
        s.replies t .accepted 0x43 [] ∧ s.keepsBut t [.store, .link]) ∧
    ∀ (area : Nat) (a : Area), userAreaOf area = some a →
      ∃ t, exec (.restoreFactory pos area) s = .next t ∧ t.store = { s.store with running := some (.restore a) } ∧
        t.flash = (if s.flash.factory.isSome then s.flash.write a none else s.flash) ∧
        s.replies t .accepted 0x44 [] ∧ s.keepsBut t [.store, .flash, .link]

/-- What the end of each store operation leaves in the flash and the live settings, and the result it records
(R1, R81, R178 to R180), and when an area is good (R177). A restore's OK carries the office code of the factory contents, which is 0 for
those of R174. That a STORE-FAULT result carries no office code is the model's choice
(notes/assumptions/31.md), and so are that an end with no operation running changes nothing (27.md), that an area whose read-back fails
stays erased and what its CRC covers (39.md). A load lets the ports choose afresh (R37), which changes nothing where no port can send
or no job stands in the pool. -/
def Obligations.StoreOperationsEnd : Prop :=
  (∀ (s : State) (a : Area) (m : SettingsImage) (good : Bool), s.store.running = some (.save a m) →
    ∃ t, exec (.saveComplete good) s = .next t ∧
      t.flash = (if good then s.flash.write a (some m) else s.flash) ∧
      t.store = { s.store with
        running := none
        donePending := t.store.donePending
        lastResult := some { kind := .save, area := a, good := good, officeCode := if good then some m.office.code else none } } ∧
      t.live = s.live ∧ (s.queueFull → t.store.donePending = true ∧ s.keepsBut t [.store, .flash])) ∧
  (∀ (s : State) (a : Area) (good : Bool), s.store.running = some (.restore a) →
    ∃ t, exec (.restoreComplete good) s = .next t ∧
      t.flash = (match s.flash.factory with
        | some m => if good then s.flash.write a (some m) else s.flash
        | none => s.flash) ∧
      t.store = { s.store with
        running := none
        donePending := t.store.donePending
        lastResult := some {
          kind := .restore
          area := a
          good := good && s.flash.factory.isSome
          officeCode := if good then s.flash.factory.map (·.office.code) else none } } ∧
      (s.flash.factory = some factoryImage → good = true → t.store.lastResult.bind (·.officeCode) = some 0) ∧
      t.live = s.live ∧ (s.queueFull → t.store.donePending = true ∧ s.keepsBut t [.store, .flash])) ∧
  (∀ (s : State) (a : Area), s.store.running = some (.load a) → s.flash.read a = none →
    ∃ t, exec .loadComplete s = .next t ∧ t.live = s.live ∧ t.store.running = none ∧ t.store.source = s.store.source ∧
      t.store.lastResult = some { kind := .load, area := a, good := false, officeCode := none } ∧
      (s.queueFull → t.store.donePending = true ∧ s.keepsBut t [.store])) ∧
  (∀ (s : State) (a : Area) (m : SettingsImage), s.store.running = some (.load a) → s.flash.read a = some m →
    ∃ t, exec .loadComplete s = .next t ∧
      t.live.office = m.office ∧ t.live.faces = m.faces ∧ t.live.permissions = m.permissions ∧
      t.live.printerItems = m.printerItems ∧
      (∀ k : Fin 8,
        (t.stockType k).threshold = m.stockTypes[k].2 ∧
        (t.stockType k).definition = (if s.hasPacks k then (s.stockType k).definition else m.stockTypes[k].1) ∧
        (t.layout k).entries = (if s.hasLiveJob k then (s.layout k).entries else m.layouts[k]) ∧
        (t.layout k).invalid = combinedCheck (t.stockType k).definition (t.layout k).entries) ∧
      t.store.running = none ∧ t.store.source = a ∧
      t.store.lastResult = some { kind := .load, area := a, good := true, officeCode := some m.office.code } ∧
      (s.queueFull → t.store.donePending = true ∧
        s.keepsBut t [.live, .stockTypes, .store, .packs, .inPath, .printers, .pool] ∧
        (s.portsQuiet ∨ s.pool = [] → s.keepsBut t [.live, .stockTypes, .store]))) ∧
  (∀ (s : State) (good : Bool), s.store.running = none →
    exec (.saveComplete good) s = .next s ∧ exec .loadComplete s = .next s ∧ exec (.restoreComplete good) s = .next s) ∧
  ∀ (a : FlashArea) (m : SettingsImage), a.good = some m ↔ a.contents = some m ∧ a.crc = crc16 m.bytes

/-! ### The link -/

/-- SET LINK RATE and RESTART act when their reply has left (R160, R163): the request only notes what is to follow. That the ends of a
reply change nothing when another reply's end is due is the model's choice (notes/assumptions/27.md), and so is the OK of RESTART's
reply (61.md). -/
def Obligations.LinkRequestsFollowTheirReply : Prop :=
  ∀ (s : State) (pos : Position),
    (s.lineFree → s.supervises pos = true →
      (∀ r : Fin 4, ∃ t, exec (.setLinkRate pos r.val) s = .next t ∧ s.keepsBut t [.link] ∧
        t.link = { s.link with
          rateNext := if s.link.rate = r then none else some r
          reply := some { code := .ok, echo := 0x4C#8, body := [] }
          leaving := true }) ∧
      (∀ n : Nat, 3 < n → s.onlyReplies (.setLinkRate pos n) .range 0x4C []) ∧
      ∃ t, exec (.restart pos) s = .next t ∧ s.keepsBut t [.link] ∧
        t.link = { s.link with
          restartNext := true
          reply := some { code := .ok, echo := 0x4D#8, body := [] }
          leaving := true }) ∧
    (∀ r : Fin 4, s.link.rateNext = some r →
      ∃ t, exec .linkRateChange s = .next t ∧ s.keepsBut t [.link] ∧
        t.link = { s.link with rate := r, rateNext := none, leaving := false, receiver := .hunting }) ∧
    (s.link.rateNext = none → exec .linkRateChange s = .next s) ∧
    (s.link.rateNext = none → s.link.restartNext = false →
      ∃ t, exec .replyLastByteLeft s = .next t ∧ t.link = { s.link with leaving := false } ∧ s.keepsBut t [.link])

/-- A complete frame addressed to this unit is answered by the first check of R162 it fails, the code echoed as received; bytes with a
framing error among its bytes count for nothing (R159). The bytes of a frame that fails no check change nothing here, since its request
is a command of its own (notes/assumptions/23.md). -/
def Obligations.FramesAreChecked : Prop :=
  ∀ (s : State) (line : List LineByte) (code position : Byte) (body : List Byte) (c1 c2 : Byte), s.link.receiver = .hunting →
    s.lineFree → body.length ≤ 240 →
    let covered := [BitVec.ofNat 8 (0xB0 + s.link.unit.val), BitVec.ofNat 8 body.length, code, position] ++ body
    let failure : Option ReplyCode :=
      if be 2 (crc16 covered).toNat ≠ [c1, c2] then some .badCheck
      else if knownCode code.toNat = false then some .unknownRequest
      else if parseRequest code.toNat .console body = none then some .badLength
      else if 15 < position.toNat then some .badPosition
      else none
    wholeBytes line = 0xA5#8 :: covered ++ [c1, c2] →
    match failure with
    | some f => s.onlyReplies (.frameCheckFailed line) f code.toNat []
    | none => exec (.frameCheckFailed line) s = .next s

/-- No reply and no change (R159, R161): a frame for another unit, a frame that starts while a reply is leaving, a length above 240,
and a frame cut off by a gap, with or without bytes with a framing error among their bytes. The frame of a request that comes while a
reply is leaving is one of them (notes/assumptions/9.md); one that comes inside another frame is bytes of that frame, counted towards
its end. -/
def Obligations.UnansweredFrames : Prop :=
  (∀ (i : Instr) (s : State), requestBytes i ≠ none →
    (s.link.receiver ≠ .hunting ∨ s.link.leaving = true →
      exec i s = exec (.frameDiscarded ((i.frame s.link.unit).map .whole)) s) ∧
    (i.wellFormed = true → s.link.receiver = .hunting → s.link.leaving = true → exec i s = .next s) ∧
    (∀ n, s.link.receiver = .skipping n → (i.frame s.link.unit).length < n →
      exec i s = .next (s.setLink { s.link with receiver := .skipping (n - (i.frame s.link.unit).length) })) ∧
    (∀ got n, s.link.receiver = .body got n → (i.frame s.link.unit).length < n →
      exec i s = .next (s.setLink { s.link with
        receiver := .body (got ++ i.frame s.link.unit) (n - (i.frame s.link.unit).length) }))) ∧
  ∀ (s : State) (line : List LineByte), s.link.receiver = .hunting →
    (∀ (u : Fin 4) (rest : List Byte) (length : Byte), length.toNat ≤ 240 → rest.length = length.toNat + 4 →
      u ≠ s.link.unit ∨ s.link.leaving = true →
      wholeBytes line = 0xA5#8 :: BitVec.ofNat 8 (0xB0 + u.val) :: length :: rest →
      exec (.frameDiscarded line) s = .next s) ∧
    (∀ (u : Fin 4) (length : Byte), 240 < length.toNat →
      wholeBytes line = [0xA5#8, BitVec.ofNat 8 (0xB0 + u.val), length] →
      exec (.frameDiscarded line) s = .next s) ∧
    (∀ (u : Fin 4) (rest : List Byte) (length : Byte) (n : Nat), length.toNat ≤ 240 → rest.length = length.toNat + 4 →
      n < rest.length + 3 →
      wholeBytes line = (0xA5#8 :: BitVec.ofNat 8 (0xB0 + u.val) :: length :: rest).take n →
      exec (.gapTimeout line) s = .next s)

/-! ### The notice queue -/

/-- FETCH NOTICE with repeat no (R166, R167, R168): the oldest notice goes out and is kept as the last fetched one; a full queue's
freed place goes to the first waiting record; an empty queue sends no notice; another repeat value is out of range. The flag's
values are the model's choice (notes/assumptions/50.md), and so are the numbers of the enumerations in
a notice (15.md). -/
def Obligations.FetchTakesTheOldest : Prop :=
  (∀ (s : State) (pos : Position) (n : Notice) (rest : List Notice), s.lineFree →
    s.notices.queue = n :: rest →
    ∃ t placed, exec (.fetchNotice pos 0) s = .next t ∧
      t.notices.queue = rest ++ placed ∧ t.notices.lastFetched = some n ∧
      s.replies t .ok 0x06 (be 1 t.notices.queue.length ++ bFlag t.anyWaiting ++ noticeBytes (some n)) ∧
      (s.anyWaiting = false → placed = [] ∧ t.notices.attention = !rest.isEmpty ∧ s.keepsBut t [.notices, .link]) ∧
      ∀ w, s.notices.started = true → s.notices.queue.length = 32 → s.firstWaiting = some w →
        placed = [s.noticeOf w] ∧ t.notices.attention = true) ∧
  (∀ (s : State) (pos : Position), s.lineFree → s.notices.queue = [] →
    s.onlyReplies (.fetchNotice pos 0) .ok 0x06 ([0#8] ++ bFlag s.anyWaiting ++ [0#8, 0#8])) ∧
  ∀ (s : State) (pos : Position) (n : Nat), s.lineFree → 1 < n → s.onlyReplies (.fetchNotice pos n) .range 0x06 []

/-- The arbiter, once START has been placed, adds notices behind those in the queue until it is full or nothing waits; it does
nothing when it is full already or nothing waits (R166, R168). The first notice it places is that of the first waiting record, and the
arbiter then goes on from the state that placing it leaves; which record waits first goes by class and within its class (R169). -/
def Obligations.ArbiterFillsTheQueueInOrder : Prop :=
  (∀ s : State, s.notices.started = true →
    (∃ placed, s.arbitrate.notices.queue = s.notices.queue ++ placed ∧
      ∀ w, s.firstWaiting = some w → s.notices.queue.length < 32 → placed.head? = some (s.noticeOf w)) ∧
    (∀ w, s.firstWaiting = some w → s.notices.queue.length < 32 →
      s.arbitrate = ((s.pushNotice (s.noticeOf w)).settlePlaced w).arbitrate) ∧
    (32 ≤ s.arbitrate.notices.queue.length ∨ s.arbitrate.anyWaiting = false) ∧
    s.arbitrate.notices.lastFetched = s.notices.lastFetched ∧
    (s.queueFull ∨ s.anyWaiting = false → s.arbitrate = s)) ∧
  ∀ (s : State) (x : Waiting), s.firstWaiting = some x →
    let noJob := ∀ j ∈ s.pool, j.endPending = false
    let noFault := ∀ e ∈ s.ret.faults, e.pending = false
    let noneAt := fun w : Fin 15 => (s.window w).countReady = false ∧ ∀ r ∈ s.ret.history, r.window = w → r.endPending = false
    let noPrinter := ∀ p, (s.printer p).statePending = false
    let noType := ∀ k, (s.stockType k).lowPending = false
    match x with
    | .job j => s.pool.find? (·.endPending) = some j
    | .fault e => noJob ∧ s.ret.faults.find? (·.pending) = some e
    | .countReady w => noJob ∧ noFault ∧ (s.window w).countReady = true ∧ ∀ v, v < w → noneAt v
    | .shiftEnd r => noJob ∧ noFault ∧ (s.window r.window).countReady = false ∧
        (s.ret.history.find? fun q => decide (q.window = r.window) && q.endPending) = some r ∧ ∀ v, v < r.window → noneAt v
    | .printer p => noJob ∧ noFault ∧ (∀ w, noneAt w) ∧ (s.printer p).statePending = true ∧
        ∀ q, q < p → (s.printer q).statePending = false
    | .stockType k => noJob ∧ noFault ∧ (∀ w, noneAt w) ∧ noPrinter ∧ (s.stockType k).lowPending = true ∧
        ∀ q, q < k → (s.stockType q).lowPending = false
    | .store r => noJob ∧ noFault ∧ (∀ w, noneAt w) ∧ noPrinter ∧ noType ∧ s.store.donePending = true ∧
        s.store.lastResult = some r

/-- Placing a JOB-END into the last free place frees the job's record and lowers its position's outstanding count; a CLOSING
window whose count falls to 0 is COUNTING, and its COUNT-READY waits (R66, R121, R171). -/
def Obligations.JobEndPlacement : Prop :=
  ∀ (s : State) (j : Job), s.notices.started = true → s.notices.queue.length = 31 →
    s.pool.find? (·.endPending) = some j →
    s.arbitrate.notices.queue = s.notices.queue ++ [.jobEnd j.tag j.position j.shift j.stockType j.assigned j.copies
      (j.copyStates.count .issued) (j.copyStates.count .doubtful) (j.copyStates.count .undispatched) j.blanksSpoiled
      j.rerouteCount j.outcome j.reason j.serials] ∧
    s.arbitrate.pool = s.pool.filter (fun k => decide (k.tag ≠ j.tag)) ∧
    s.arbitrate.outstanding j.position = s.outstanding j.position - 1 ∧
    ∀ w, j.position = .window w → (s.window w).state = .closing → (s.window w).outstanding = 1 →
      (s.arbitrate.window w).state = .counting ∧ (s.arbitrate.window w).countReady = true

/-! ### Positions and shifts -/

/-- OPEN SHIFT taken (R116): the shift number is the first from the next shift number on that no window with another state than CLOSED,
no shift record and no doubtful entry holds (R115). The numbers of the grades are the model's reading (notes/assumptions/15.md). -/
def Obligations.OpenShiftFillsTheRecord : Prop :=
  ∀ (s : State) (pos : Position) (target : Nat) (w : Fin 15) (clerk float : Nat) (g : Grade), s.lineFree → actsOn pos target w →
    s.office.mode = .trading → (s.live.permissions[w]).enabled = true → 1 ≤ clerk → clerk ≤ 65535 → float ≤ 999999 →
    (g = .supervisor → pos = .console) → (s.window w).state = .closed →
    let used := (allWindows.filterMap fun v => if (s.window v).state = .closed then none else (s.window v).shift) ++
      s.ret.history.map (·.shift) ++ s.ret.doubtful.map (·.shift)
    let n := freeNumber used s.ret.nextShift
    ∃ t, exec (.openShift pos target clerk g.rank float) s = .next t ∧
      t.window w = { s.window w with
        state := .open
        clerk := some clerk
        grade := some g
        shift := some n
        opened := s.office.clock
        closedAt := none
        float := float
        declarations := 0
        declared := none
        reserved := false
        countReady := false } ∧
      othersKept s.ret.windows t.ret.windows w ∧
      t.ret.nextShift = (if 65535 ≤ n then 1 else n + 1) ∧
      s.replies t .ok 0x30 (be 2 n) ∧ s.keepsBut t [.windows, .nextShift, .link]

/-- A number given to a job, a fault entry or a shift is in 1..65,535, is not in use, and is the first such from the next value on
(R55, R92, R115). -/
def Obligations.FreshNumbersAreFree : Prop :=
  ∀ (used : List Nat) (n : Nat), 1 ≤ n → n ≤ 65535 → used.length < 65535 →
    1 ≤ freeNumber used n ∧ freeNumber used n ≤ 65535 ∧ freeNumber used n ∉ used ∧
      ∃ k, freeNumber used n = (fun m => if m = 65535 then 1 else m + 1)^[k] n ∧
        ∀ i, i < k → (fun m => if m = 65535 then 1 else m + 1)^[i] n ∈ used

/-- RESUME POSITION, whole (R118). -/
def Obligations.ResumePositionRule : Prop :=
  ∀ (s : State) (pos : Position) (target clerk : Nat), s.lineFree →
    (pos = .console → target = 0 ∨ 15 < target → s.onlyReplies (.resumePosition pos target clerk) .range 0x32 []) ∧
    ∀ w, actsOn pos target w →
      (clerk = 0 ∨ 65535 < clerk → s.onlyReplies (.resumePosition pos target clerk) .range 0x32 []) ∧
      (1 ≤ clerk → clerk ≤ 65535 →
        ((s.window w).state ≠ .suspended → s.onlyReplies (.resumePosition pos target clerk) .state 0x32 []) ∧
        ((s.window w).state = .suspended →
          (pos ≠ .console → (s.window w).clerk ≠ some clerk →
            s.onlyReplies (.resumePosition pos target clerk) .grade 0x32 []) ∧
          (pos = .console ∨ (s.window w).clerk = some clerk →
            ∃ t, exec (.resumePosition pos target clerk) s = .next t ∧
              t.window w = { s.window w with state := .open } ∧ othersKept s.ret.windows t.ret.windows w ∧
              s.replies t .ok 0x32 [] ∧ s.keepsBut t [.windows, .link])))

/-- SUSPEND POSITION and REOPEN SHIFT, taken and refused with STATE (R117, R123), and CASH LIFT and REFUND taken: the totals saturate
and the replies carry the figures (R74, R119, R131, R132, R138, R139). -/
def Obligations.SuspendReopenLiftAndRefund : Prop :=
  (∀ (s : State) (pos : Position) (target : Nat) (w : Fin 15), s.lineFree → actsOn pos target w →
    ((s.window w).state ≠ .open → s.onlyReplies (.suspendPosition pos target) .state 0x31 []) ∧
    ((s.window w).state = .open →
      ∃ t, exec (.suspendPosition pos target) s = .next t ∧
        t.window w = { s.window w with state := .suspended } ∧ othersKept s.ret.windows t.ret.windows w ∧
        s.replies t .ok 0x31 [] ∧ s.keepsBut t [.windows, .link]) ∧
    (s.supervises pos = true →
      ((s.window w).state ∉ [.closing, .counting] → s.onlyReplies (.reopenShift pos target) .state 0x35 []) ∧
      ((s.window w).state ∈ [.closing, .counting] →
        ∃ t, exec (.reopenShift pos target) s = .next t ∧
          t.window w = { s.window w with state := .open, reserved := false, countReady := false, closedAt := none } ∧
          othersKept s.ret.windows t.ret.windows w ∧
          s.replies t .ok 0x35 [] ∧ s.keepsBut t [.windows, .link]))) ∧
  (∀ (s : State) (pos : Position) (target amount : Nat) (w : Fin 15), s.lineFree → actsOn pos target w → s.holds pos .clerk = true →
    1 ≤ amount → amount ≤ 999999 → (s.window w).state ∈ [.open, .suspended] →
    let old := (s.window w).tallies
    ∃ t, exec (.cashLift pos target amount) s = .next t ∧
      t.window w = { s.window w with tallies := { old with
        lifts := min 999999999 (old.lifts + amount)
        liftsCount := min 65535 (old.liftsCount + 1)
        liftsSaturated := old.liftsSaturated || decide (999999999 < old.lifts + amount) } } ∧
      othersKept s.ret.windows t.ret.windows w ∧
      s.replies t .ok 0x33 (be 4 (min 999999999 (old.lifts + amount)) ++ be 2 (min 65535 (old.liftsCount + 1))) ∧
      s.keepsBut t [.windows, .link]) ∧
  ∀ (s : State) (w : Fin 15) (value : Nat) (d : Tender), s.lineFree → (s.window w).state = .open →
    s.holds (.window w) .clerk = true → value ≤ 999999 →
    let amount := if d = .cash then roundRefund s.live.office.unit value else value
    ∃ t, exec (.refund (.window w) value d.code) s = .next t ∧
      t.window w = { s.window w with tallies := { (s.window w).tallies with
        tender := (s.window w).tallies.tender.update d fun x => { x with
          refunds := min 999999999 (x.refunds + amount)
          refundCount := min 65535 (x.refundCount + 1)
          saturated := x.saturated || decide (999999999 < x.refunds + amount) } } } ∧
      othersKept s.ret.windows t.ret.windows w ∧
      s.replies t .ok 0x05 (be 3 amount) ∧ s.keepsBut t [.windows, .link]

/-- CLOSE SHIFT: its refusals, and what a taken one leaves (R120, R122, R154) in a state where the arbiter has nothing else to
place. The numbers of the states in the reply are the model's reading (notes/assumptions/15.md). -/
def Obligations.CloseShiftRule : Prop :=
  ∀ (s : State) (pos : Position) (target : Nat) (w : Fin 15), s.lineFree → actsOn pos target w →
    ((s.window w).state ∉ [.open, .suspended] → s.onlyReplies (.closeShift pos target) .state 0x34 []) ∧
    ((s.window w).state ∈ [.open, .suspended] →
      (s.awaitsRuling w → s.onlyReplies (.closeShift pos target) .state 0x34 []) ∧
      (¬ s.awaitsRuling w →
        (32 ≤ s.ret.history.length + s.reservedSlots → (∀ r ∈ s.ret.history, r.collected = false) →
          s.onlyReplies (.closeShift pos target) .historyFull 0x34 []) ∧
        (s.ret.history.length + s.reservedSlots < 32 ∨ (∃ r ∈ s.ret.history, r.collected = true) →
          s.queueFull ∨ s.anyWaiting = false →
          ∃ t, exec (.closeShift pos target) s = .next t ∧
            (t.window w).settled = { (s.window w).settled with
              state := if (s.window w).outstanding = 0 then .counting else .closing
              closedAt := s.office.clock
              reserved := true } ∧
            othersKept s.ret.windows t.ret.windows w ∧
            t.ret.history = (if s.ret.history.length + s.reservedSlots < 32 then s.ret.history
              else s.ret.history.eraseP (·.collected)) ∧
            ((s.window w).outstanding = 0 → (t.window w).countReady = true ∨
              t.notices.queue = s.notices.queue ++ [.countReady w (s.window w).shift .counting]) ∧
            s.replies t (if (s.window w).outstanding = 0 then .ok else .accepted) 0x34
              [if (s.window w).outstanding = 0 then 4#8 else 3#8, BitVec.ofNat 8 (s.window w).outstanding] ∧
            s.keepsBut t [.windows, .history, .notices, .link])))

/-- VOID TICKET taken: the pack's VOIDED run, the reversal, the entry removed, and the amount reversed (R17, R72, R73, R137). A run that
suspends the pack lets the ports choose afresh (R10, R37). Where the amount credited is above the sales total, that the total stops at 0
and the reply carries the whole amount is the model's choice (notes/assumptions/57.md). -/
def Obligations.VoidTicketReversesTheCredit : Prop :=
  ∀ (s : State) (pos : Position) (target serial : Nat) (w : Fin 15) (k : Fin 8) (e : RecentIssue) (x : Pack),
    s.lineFree → actsOn pos target w → serial ≤ 999999999 → pos = .console ∨ s.holds pos .clerk = true →
    (s.window w).state ∈ [.open, .suspended] →
    (s.window w).recent.find? (fun e => decide (e.serial = serial ∧ e.stockType = k)) = some e →
    s.pack? e.pack = some x →
    let run : ExceptionEntry :=
      { first := e.serial, run := 1, disposition := .voided, position := some (.window w), fault := none }
    x.merges run = true ∨ x.exceptions.length < 21 →
    let old := (s.window w).tallies
    let line := old.tender.get e.tender
    let amount := if line.saturated = true ∧ line.sales = 999999999 then 0 else e.credited
    ∃ t, exec (.voidTicket pos serial k.val target) s = .next t ∧
      (t.window w).recent = (s.window w).recent.erase e ∧
      (t.window w).tallies.tender =
        old.tender.update e.tender (fun y => { y with sales := y.sales - amount, salesCount := y.salesCount - 1 }) ∧
      (t.window w).tallies.residue = (if e.tender = .cash then clampResidue (old.residue - e.residue) else old.residue) ∧
      (t.window w).tallies.lifts = old.lifts ∧ (t.window w).tallies.liftsCount = old.liftsCount ∧
      (t.window w).tallies.stock[k] =
        { issued := old.stock[k].issued - 1, spoiled := old.stock[k].spoiled, voided := min 65535 (old.stock[k].voided + 1) } ∧
      othersKept old.stock (t.window w).tallies.stock k ∧
      (t.pack? e.pack).map (·.exceptions) = some (x.addRun run).exceptions ∧
      s.replies t .ok 0x04 (be 4 serial ++ be 1 e.tender.code ++ be 3 amount) ∧
      (s.portsQuiet ∨ (∀ y ∈ s.ret.packs, y.id = e.pack → (y.addRun run).condition = y.condition) →
        t.pack? e.pack = some (x.addRun run) ∧
        (s.queueFull → othersKept s.ret.windows t.ret.windows w ∧ s.keepsBut t [.packs, .windows, .stockTypes, .link]))

/-! ### Cash-up -/

/-- The figures of a declaration (R142, R144, R145, R146). -/
def Obligations.DeclarationFigures : Prop :=
  ∀ (r : WindowRecord) (o : OfficeItem) (counts faces : Vector Nat 12) (card voucher warrant : Nat),
    let f := r.declare o counts faces card voucher warrant
    let sum := (List.range 12).foldl (fun acc i => acc + (counts.toList[i]?.getD 0) * (faces.toList[i]?.getD 0)) 0
    f.counts = counts ∧ f.faces = faces ∧ f.tolerance = o.tolerance ∧ f.limit = o.limit ∧
    (f.clamped = true ↔ 999999999 < sum) ∧ f.tender.cash.declared = min 999999999 sum ∧
    f.tender.card.declared = card ∧ f.tender.voucher.declared = voucher ∧ f.tender.warrant.declared = warrant ∧
    f.tender.cash.expected =
      (r.float : Int) + r.tallies.tender.cash.sales - r.tallies.tender.cash.refunds - r.tallies.lifts ∧
    (∀ d : Tender, d ≠ .cash →
      (f.tender.get d).expected = ((r.tallies.tender.get d).sales : Int) - (r.tallies.tender.get d).refunds) ∧
    ∀ d : Tender, (f.tender.get d).variance = ((f.tender.get d).declared : Int) - (f.tender.get d).expected

/-- The class of each tender of a declaration, whole (R147), and its shift status, whole (R148). -/
def Obligations.TenderClassesAndShiftStatus : Prop :=
  (∀ (r : WindowRecord) (o : OfficeItem) (counts faces : Vector Nat 12) (card voucher warrant : Nat) (d : Tender),
    let f := r.declare o counts faces card voucher warrant
    let x := f.tender.get d
    let unsure := (r.tallies.tender.get d).saturated = true ∨
      (d = .cash ∧ (r.tallies.liftsSaturated = true ∨ f.clamped = true))
    let tolerance := if d = .cash then o.tolerance else 0
    (unsure → x.cls = .indeterminate) ∧
    (¬ unsure → x.variance = 0 → x.cls = .exact) ∧
    (¬ unsure → x.variance ≠ 0 → x.variance.natAbs ≤ tolerance → x.cls = .within) ∧
    (¬ unsure → tolerance < x.variance.natAbs → o.limit < x.variance.natAbs → x.cls = .outOfLimit) ∧
    (¬ unsure → tolerance < x.variance.natAbs → x.variance.natAbs ≤ o.limit → 0 < x.variance → x.cls = .over) ∧
    (¬ unsure → tolerance < x.variance.natAbs → x.variance.natAbs ≤ o.limit → x.variance < 0 → x.cls = .short) ∧
    (d ≠ .cash → x.cls ≠ .within)) ∧
  ∀ (r : WindowRecord) (o : OfficeItem) (counts faces : Vector Nat 12) (card voucher warrant : Nat),
    let f := r.declare o counts faces card voucher warrant
    let held := ∃ d : Tender, (f.tender.get d).cls ∈ [.outOfLimit, .indeterminate]
    let out := ∃ d : Tender, (f.tender.get d).cls ∈ [.over, .short]
    (held → f.status = .held) ∧ (¬ held → out → f.status = .variance) ∧
    ((∀ d : Tender, (f.tender.get d).cls ∈ [.exact, .within]) → f.status = .cleared)

/-- DECLARE: its refusals with their reasons (R143, R164), and what a taken declaration leaves (R149, R152, R153). That a COUNT-READY
which still waits is kept is the model's reading (notes/assumptions/22.md), and so are the numbers of the classes, statuses and states in
the reply (15.md), the value 1 of its flag for a clamped sum (50.md) and clerk 0, RELIEF and shift 0 in the record of a window that
holds none (59.md). -/
def Obligations.DeclareRule : Prop :=
  ∀ (s : State) (pos : Position) (target : Nat) (w : Fin 15) (counts : Vector Nat 12) (card voucher warrant : Nat),
    s.lineFree → actsOn pos target w →
    let c : Instr := .declare pos target counts card voucher warrant
    let r := s.window w
    let bad := 999999999 < card ∨ 999999999 < voucher ∨ 999999999 < warrant ∨
      ∃ i : Fin 12, 65535 < counts[i] ∨ (s.live.faces[i] = 0 ∧ 0 < counts[i])
    (bad → s.onlyReplies c .range 0x38 []) ∧
    (¬ bad →
      (r.state ∉ [.counting, .held] → s.onlyReplies c .state 0x38 [0#8]) ∧
      (r.state = .held → 3 ≤ r.declarations → s.onlyReplies c .state 0x38 [1#8]) ∧
      (r.state = .counting ∨ (r.state = .held ∧ r.declarations < 3) →
        (s.awaitsRuling w → s.onlyReplies c .state 0x38 [2#8]) ∧
        (¬ s.awaitsRuling w →
          let f := r.declare s.live.office counts s.live.faces card voucher warrant
          let line := fun x : TenderFigure => bSigned x.expected ++ be 4 x.declared ++ bSigned x.variance ++ be 1 x.cls.code
          ∃ t, exec c s = .next t ∧
            s.replies t .ok 0x38 (f.tender.toList.flatMap line ++ bFlag f.clamped ++
              [BitVec.ofNat 8 f.status.code, BitVec.ofNat 8 (r.declarations + 1)] ++
              (if f.status = .held then [5#8, 0#8, 0#8] else 0#8 :: be 2 (r.shift.getD 0))) ∧
            (f.status = .held →
              t.window w = { r with state := .held, declarations := r.declarations + 1, declared := some f } ∧
              othersKept s.ret.windows t.ret.windows w ∧ s.keepsBut t [.windows, .link]) ∧
            (f.status ≠ .held →
              (t.window w).settled = closedWindow ∧
              t.ret.history.map (·.settled) = (s.ret.history ++ [({
                shift := r.shift.getD 0
                window := w
                clerk := r.clerk.getD 0
                grade := r.grade.getD .relief
                opened := r.opened
                closedAt := r.closedAt
                float := r.float
                tallies := r.tallies
                figures := f
                declarations := r.declarations + 1
                status := if f.status = .cleared then .cleared else .variance
                signedOffBy := none
                collected := false
                endPending := false } : ShiftRecord)]).map (·.settled) ∧
              (s.queueFull → othersKept s.ret.windows t.ret.windows w ∧ s.keepsBut t [.windows, .history, .link])))))

/-- SIGN OFF SHIFT from the console: refused with STATE unless HELD, and what a taken one leaves (R151, R152, R153). COLLECT SHIFT: its
refusals, and the flag it sets (R157). That a window without clerk, grade or shift number is recorded with clerk 0, RELIEF and shift 0
is the model's choice (notes/assumptions/59.md). -/
def Obligations.SignOffAndCollectShift : Prop :=
  (∀ (s : State) (w : Fin 15) (supervisor : Nat), s.lineFree → 1 ≤ supervisor → supervisor ≤ 65535 →
    let c : Instr := .signOffShift .console (w.val + 1) supervisor
    let r := s.window w
    (r.state ≠ .held → s.onlyReplies c .state 0x39 []) ∧
    ∀ f, r.state = .held → r.declared = some f →
      ∃ t, exec c s = .next t ∧ s.replies t .ok 0x39 (be 2 (r.shift.getD 0)) ∧
        (t.window w).settled = closedWindow ∧
        t.ret.history.map (·.settled) =
          (s.ret.history ++ [r.record w f .signedOff (some supervisor)]).map (·.settled) ∧
        (s.queueFull → othersKept s.ret.windows t.ret.windows w ∧ s.keepsBut t [.windows, .history, .link])) ∧
  ∀ (s : State) (pos : Position) (n : Nat), s.lineFree → s.supervises pos = true →
    (n = 0 ∨ 65535 < n → s.onlyReplies (.collectShift pos n) .range 0x3B []) ∧
    (1 ≤ n → n ≤ 65535 →
      ((∀ r ∈ s.ret.history, r.shift ≠ n) → s.onlyReplies (.collectShift pos n) .notFound 0x3B []) ∧
      ((∃ r ∈ s.ret.history, r.shift = n) →
        ∃ t, exec (.collectShift pos n) s = .next t ∧
          t.ret.history = s.ret.history.map (fun r => if r.shift = n then { r with collected := true } else r) ∧
          s.replies t .ok 0x3B [] ∧ s.keepsBut t [.history, .link]))

/-! ### Tallies -/

/-- Cash rounding by the remainder (R130): the table of sales and refunds, and how far a rounded amount lies from the exact one. -/
def Obligations.CashRounding : Prop :=
  ∀ u v q m : Nat, u ∈ [1, 2, 5, 10, 20, 50] → v ≤ 999999 → v = q * u + m → m < u →
    (2 * m < u → roundSale u v = q * u ∧ roundRefund u v = q * u) ∧
    (2 * m = u → roundSale u v = q * u ∧ roundRefund u v = (q + 1) * u) ∧
    (u < 2 * m → roundSale u v = (q + 1) * u ∧ roundRefund u v = (q + 1) * u) ∧
    roundSale u v ≤ 1000000 ∧ roundRefund u v ≤ 1000000 ∧
    2 * ((roundSale u v : Int) - v).natAbs ≤ u ∧ 2 * ((roundRefund u v : Int) - v).natAbs ≤ u

/-- A void takes back exactly what the credit gave while nothing saturated, and the sums of sales counts and issued counts stay equal
under credits and voids (R131, R132, R134, R137). -/
def Obligations.VoidUndoesTheCredit : Prop :=
  ∀ (t : Tallies) (e : RecentIssue),
    let credited := t.credit e.tender e.credited e.residue e.stockType
    let back := credited.reverse e
    let sums := fun x : Tallies => (((x.tender.toList.map (·.salesCount)).sum : Nat), ((x.stock.toList.map (·.issued)).sum : Nat))
    (∀ d : Tender, (t.tender.get d).salesCount < 65535) → (∀ k : Fin 8, t.stock[k].issued < 65535) →
    (t.tender.get e.tender).saturated = false → (t.tender.get e.tender).sales + e.credited ≤ 999999999 →
    (t.residue + e.residue).natAbs ≤ 999999999 → t.residue.natAbs ≤ 999999999 →
      back.tender = t.tender ∧ back.residue = t.residue ∧
      (∀ k : Fin 8, back.stock[k].issued = t.stock[k].issued ∧ back.stock[k].spoiled = t.stock[k].spoiled) ∧
      sums credited = ((sums t).1 + 1, (sums t).2 + 1) ∧ sums back = sums t

/-! ### The stock register -/

/-- A run added to a pack's exceptions (R9, R10): the runs of its disposition grow by it, the list by one entry unless it merges, and
the 21st entry suspends a USABLE pack; nothing else of the pack changes. The next take after a return hands out the same serial
again, and the pack is as it was (R7, R8). -/
def Obligations.PackRunsTakesAndReturns : Prop :=
  (∀ (k : Pack) (e : ExceptionEntry),
    (∀ d, (k.addRun e).runs d = k.runs d + (if d = e.disposition then e.run else 0)) ∧
    (k.addRun e).exceptions.length = (if k.merges e then k.exceptions.length else k.exceptions.length + 1) ∧
    (k.addRun e).condition =
      (if ¬ k.merges e ∧ k.exceptions.length = 20 ∧ k.condition = .usable then .suspended else k.condition) ∧
    k.addRun e = { k with exceptions := (k.addRun e).exceptions, condition := (k.addRun e).condition } ∧
    (e.disposition = .doubtful → k.merges e = false)) ∧
  ∀ (k : Pack) (n : Nat), k.next = some n → 1 ≤ k.remaining → k.remaining ≤ k.count →
    n = k.serialAt (k.count - k.remaining) →
    k.takeOne.lastTaken = some n ∧ k.takeOne.putBack n = k ∧ k.takeOne.remaining + 1 = k.remaining ∧
      (k.remaining = 1 → k.takeOne.next = none) ∧
      (1 < k.remaining → k.takeOne.next = some (k.serialAt (k.count - k.takeOne.remaining)))

/-- LOAD PACK and MOVE PACK taken while no port sends (R19, R20), and a MOVE PACK out of a bin of a FAULTED printer that waits to
confirm, whose port then chooses afresh and sends its CLEAR (R37). Then what each is refused with once the grade is held: the code of the
first check that fails, in the order of the rule, a pack id of MOVE PACK outside 1..65,535 before its first (R188). The location and
direction codes are the model's (notes/assumptions/10.md, 15.md), and so is what makes a port choose (26.md). -/
def Obligations.LoadAndMovePack : Prop :=
  (∀ (s : State) (pos : Position) (id first count : Nat) (k : Fin 8) (d : Direction) (destination : Nat) (l : Location),
    s.lineFree → s.portsQuiet → s.supervises pos = true → s.ret.audit = .ok → 1 ≤ id → id ≤ 65535 → first ≤ 999999999 →
    1 ≤ count → count ≤ 2000 → locationOf destination = some l →
    let x : Pack := { id := id, stockType := k, first := first, count := count, direction := d, next := some first,
                      remaining := count, location := l, condition := .usable, exceptions := [] }
    (s.stockType k).definition.defined = true → (s.stockType k).definition.numbered = true →
    x.fits (s.stockType k).definition.digits = true → (∀ y ∈ s.ret.packs, y.id ≠ id ∧ x.collides y = false) →
    s.ret.packs.length < 64 → s.admits l = true →
    ∃ t, exec (.loadPack pos id k.val first count d.code destination) s = .next t ∧
      t.ret.packs = s.ret.packs ++ [x] ∧ s.replies t .ok 0x10 [] ∧
      ((t.stockType k).lowNotified = true → t.totalRemaining k < (t.stockType k).threshold) ∧
      (s.queueFull → l = .store → s.keepsBut t [.packs, .stockTypes, .link]) ∧
      (s.queueFull → s.keepsBut t [.packs, .stockTypes, .pool, .printers, .link])) ∧
  (∀ (s : State) (pos : Position) (id destination : Nat) (x : Pack) (l : Location),
    s.lineFree → s.portsQuiet → s.supervises pos = true → 1 ≤ id → id ≤ 65535 → s.pack? id = some x →
    locationOf destination = some l → x.condition ≠ .exhausted → s.inPathOf id = 0 → l ≠ x.location → s.admits l = true →
    ∃ t, exec (.movePack pos id destination) s = .next t ∧
      t.ret.packs = s.ret.packs.map (fun k => if k.id = id then { k with location := l } else k) ∧
      s.replies t .ok 0x11 [] ∧ (s.queueFull → l = .store → s.keepsBut t [.packs, .link]) ∧
      (s.queueFull → s.keepsBut t [.packs, .pool, .printers, .link])) ∧
  (∀ (s : State) (pos : Position) (id destination : Nat) (x : Pack) (p : Fin 6) (side : Bin), s.lineFree → s.othersQuiet p →
    s.supervises pos = true → 1 ≤ id → id ≤ 65535 → s.pack? id = some x → locationOf destination = some .store →
    x.location = .bin p side → x.condition ≠ .exhausted → s.inPathOf id = 0 →
    (∀ y ∈ s.ret.packs, y.location = .bin p side → y.id = id) →
    let r := s.printer p
    r.outstanding = none → r.state = .faulted → s.path p = [] → r.confirmPending = true → r.timeoutCount = 0 →
    ∃ t, exec (.movePack pos id destination) s = .next t ∧
      t.printer p = { r with
        nextCommand := r.nextCommand + 1#8
        outstanding := some (r.nextCommand, .clear)
        sentSince := min 256 (r.sentSince + 1)
        sent := some { number := r.nextCommand, kind := .clear, body := none } } ∧
      othersKept s.printers t.printers p ∧ s.replies t .ok 0x11 [] ∧ s.keepsBut t [.packs, .printers, .link]) ∧
  (∀ (s : State) (pos : Position) (id k first count direction destination : Nat), s.lineFree → s.supervises pos = true →
    s.refuses (.loadPack pos id k first count direction destination) 0x10 [
      (s.ret.audit = .ok, .mode),
      ((1 ≤ id ∧ id ≤ 65535) ∧ k < 8 ∧ first ≤ 999999999 ∧ (1 ≤ count ∧ count ≤ 2000) ∧ direction < 2 ∧ destination ≤ 12,
        .range)]) ∧
  (∀ (s : State) (pos : Position) (id first count : Nat) (k : Fin 8) (d : Direction) (destination : Nat) (l : Location),
    s.lineFree → s.supervises pos = true → s.ret.audit = .ok → 1 ≤ id → id ≤ 65535 → first ≤ 999999999 →
    1 ≤ count → count ≤ 2000 → locationOf destination = some l →
    let x : Pack := { id := id, stockType := k, first := first, count := count, direction := d, next := some first,
                      remaining := count, location := l, condition := .usable, exceptions := [] }
    let stock := (s.stockType k).definition
    s.refuses (.loadPack pos id k.val first count d.code destination) 0x10 [
      (stock.defined = true ∧ stock.numbered = true, .range),
      (∀ n : Int, x.holdsSerial n → 0 ≤ n ∧ n ≤ 999999999 ∧ n < 10 ^ stock.digits, .range),
      (∀ y ∈ s.ret.packs, y.id ≠ id, .conflict),
      (∀ y ∈ s.ret.packs, y.stockType = k → ∀ n : Int, ¬ (x.holdsSerial n ∧ y.holdsSerial n), .conflict),
      (s.ret.packs.length < 64, .tableFull),
      (s.placeFree l, .state)]) ∧
  ∀ (s : State) (pos : Position) (id destination : Nat), s.lineFree → s.supervises pos = true →
    s.refuses (.movePack pos id destination) 0x11 [
      (1 ≤ id ∧ id ≤ 65535, .range),
      (∃ y ∈ s.ret.packs, y.id = id, .notFound),
      (destination ≤ 12, .range),
      (∀ x l, s.pack? id = some x → locationOf destination = some l →
        x.condition ≠ .exhausted ∧ s.inPathOf id = 0 ∧ l ≠ x.location ∧ s.placeFree l, .state)]

/-- WRITE OFF PACK and RETIRE PACK, taken and refused with STATE (R5, R21, R22). Writing off a pack that lies in a bin lets the ports
choose afresh (R37). -/
def Obligations.WriteOffAndRetire : Prop :=
  ∀ (s : State) (pos : Position) (id : Nat) (x : Pack), s.lineFree → s.supervises pos = true →
    1 ≤ id → id ≤ 65535 → s.pack? id = some x →
    (x.condition = .exhausted ∨ s.inPathOf id ≠ 0 → s.onlyReplies (.writeOffPack pos id) .state 0x12 []) ∧
    (x.condition ≠ .exhausted → s.inPathOf id = 0 →
      ∃ t y, exec (.writeOffPack pos id) s = .next t ∧ t.pack? id = some y ∧
        y.remaining = 0 ∧ y.next = none ∧ y.condition = .exhausted ∧ y.location = .store ∧
        y.runs .writtenOff = x.runs .writtenOff + x.remaining ∧
        (∀ d, d ≠ .writtenOff → y.runs d = x.runs d) ∧
        y = { x with remaining := 0, next := none, condition := .exhausted, location := .store, exceptions := y.exceptions } ∧
        s.replies t .ok 0x12 [] ∧
        (s.portsQuiet ∨ (s.queueFull ∧ ∀ k ∈ s.ret.packs, k.id = id → k.location = .store) →
          (∀ k ∈ s.ret.packs, k.id ≠ id → k ∈ t.ret.packs) ∧ (s.queueFull → s.keepsBut t [.packs, .stockTypes, .link]))) ∧
    let held := x.condition ≠ .exhausted ∨ (∃ e ∈ x.exceptions, e.disposition = .doubtful) ∨
      (∃ e ∈ s.ret.console.recent, e.pack = x.id) ∨ (∃ w, ∃ e ∈ (s.window w).recent, e.pack = x.id)
    (held → s.onlyReplies (.retirePack pos id) .state 0x13 []) ∧
    (¬ held → ∃ t, exec (.retirePack pos id) s = .next t ∧
      t.ret.packs = s.ret.packs.filter (fun k => decide (k.id ≠ id)) ∧
      s.replies t .ok 0x13 [] ∧ s.keepsBut t [.packs, .link])

/-- RESOLVE DOUBTFUL with either ruling (R16, R95, R125, R130 to R134, R136): the entry leaves the doubtful list, ISSUED removes the
exception entry and credits the sale with its recent-issues entry, SPOILED turns it into a SPOILED one and counts the spoil, and the
printer's last entry ruled on meets its DOUBT. An ISSUED ruling for a shift that is not open is refused with STATE, a blank that is not
doubtful with NOT-FOUND, and another ruling with RANGE. The rulings' numbers
are the model's reading (notes/assumptions/15.md). -/
def Obligations.ResolveDoubtfulRule : Prop :=
  (∀ (s : State) (pos : Position) (id serial : Nat) (d : DoubtfulEntry) (x : Pack), s.lineFree →
    s.supervises pos = true → 1 ≤ id → id ≤ 65535 → serial ≤ 999999999 →
    s.ret.doubtful.find? (fun d => decide (d.pack = id ∧ d.serial = serial)) = some d → s.pack? id = some x →
    let old := s.tallies d.position
    let settled := fun t : State => t.ret.doubtful = s.ret.doubtful.erase d ∧
      (∀ q, q ≠ d.position → t.tallies q = s.tallies q ∧ t.recent q = s.recent q) ∧
      ((∀ e ∈ s.ret.doubtful.erase d, e.printer ≠ d.printer) → ∀ m f, (s.printer d.printer).openFault = some m →
        s.fault? m = some f → ∃ g, t.fault? m = some g ∧ ∀ c ∈ g.first :: g.later, c.code = .doubt → c.met = true) ∧
      s.replies t .ok 0x16 [] ∧
      (s.portsQuiet → s.queueFull →
        s.positionsKeptButTallies t ∧
        s.keepsBut t [.packs, .doubtful, .console, .windows, .faults, .printers, .pool, .link])
    (∀ w, d.position = .window w →
      ¬ ((s.window w).state ∈ [.open, .suspended] ∧ (s.window w).shift = some d.shift) →
      s.onlyReplies (.resolveDoubtfulIssued pos id serial 0) .state 0x16 []) ∧
    ((∀ w, d.position = .window w → (s.window w).state ∈ [.open, .suspended] ∧ (s.window w).shift = some d.shift) →
      let amount := if d.tender = .cash then roundSale s.live.office.unit d.value else d.value
      let gained : Int := if d.tender = .cash then (amount : Int) - d.value else 0
      let left := x.exceptions.eraseP (fun e => decide (e.disposition = .doubtful ∧ e.first = serial))
      ∃ t, exec (.resolveDoubtfulIssued pos id serial 0) s = .next t ∧ settled t ∧
        (t.pack? id).map (·.exceptions) = some left ∧
        (s.portsQuiet → t.ret.packs = s.ret.packs.map (fun k => if k.id = id then { k with
          exceptions := k.exceptions.eraseP (fun e => decide (e.disposition = .doubtful ∧ e.first = serial)) } else k)) ∧
        t.tallies d.position = { old with
          tender := old.tender.update d.tender (fun y => { y with
            sales := min 999999999 (y.sales + amount)
            salesCount := min 65535 (y.salesCount + 1)
            saturated := y.saturated || decide (999999999 < y.sales + amount) })
          residue := if d.tender = .cash then clampResidue (old.residue + gained) else old.residue
          stock := (t.tallies d.position).stock } ∧
        (t.tallies d.position).stock[x.stockType] =
          { old.stock[x.stockType] with issued := min 65535 (old.stock[x.stockType].issued + 1) } ∧
        othersKept old.stock (t.tallies d.position).stock x.stockType ∧
        t.recent d.position =
          (if 16 ≤ (s.recent d.position).length then (s.recent d.position).tail else s.recent d.position) ++ [{
            serial := serial, pack := id, stockType := x.stockType, value := d.value, tender := d.tender,
            credited := amount, residue := gained }]) ∧
    (∃ t, exec (.resolveDoubtfulSpoiled pos id serial) s = .next t ∧ settled t ∧
      (t.pack? id).map (·.exceptions) = some (x.exceptions.map (fun e =>
        if e.disposition = .doubtful ∧ e.first = serial then { e with disposition := .spoiled } else e)) ∧
      (s.portsQuiet → t.ret.packs = s.ret.packs.map (fun k => if k.id = id then { k with
        exceptions := k.exceptions.map (fun e =>
          if e.disposition = .doubtful ∧ e.first = serial then { e with disposition := .spoiled } else e) } else k)) ∧
      (s.counted d.position d.shift → old.oneMoreSpoiled (t.tallies d.position) x.stockType) ∧
      (¬ s.counted d.position d.shift → t.tallies d.position = old) ∧
      t.recent d.position = s.recent d.position)) ∧
  ∀ (s : State) (pos : Position) (id serial : Nat), s.lineFree → s.supervises pos = true → 1 ≤ id → id ≤ 65535 →
    serial ≤ 999999999 →
    (∀ ruling, 1 < ruling → s.onlyReplies (.resolveDoubtfulIssued pos id serial ruling) .range 0x16 []) ∧
    ((∀ d ∈ s.ret.doubtful, ¬ (d.pack = id ∧ d.serial = serial)) →
      s.onlyReplies (.resolveDoubtfulIssued pos id serial 0) .notFound 0x16 [] ∧
        s.onlyReplies (.resolveDoubtfulSpoiled pos id serial) .notFound 0x16 [])

/-- STOCK CHECK (R25, R182): the failed packs and the checksum in the reply; a failure sets FAULT and leaves TRADING. The failed packs
are those that fail a test, in increasing order, and a pack none of whose exception runs is empty passes exactly when the six tests of
R25 hold: nothing issued below 0 with the blanks conserved (R3, R18), next serial in its place (R4), every exception run and blank in
path within the taken part and none sharing a serial, at most 24 entries, the doubtful list matched one to one, and no serial shared
with another record of its type, of whatever id. The reply's flag is log entry 50, and what it names of two failed records of one id
is 54. -/
def Obligations.StockCheckRule : Prop :=
  (∀ (s : State) (pos : Position), s.lineFree → s.supervises pos = true →
    let body := bList (be 2) s.failedPacks ++ bFlag s.ret.checksumMatches
    (s.failedPacks = [] → s.ret.checksumMatches = true → s.onlyReplies (.stockCheck pos) .ok 0x17 body) ∧
    (s.failedPacks ≠ [] ∨ s.ret.checksumMatches = false →
      ∃ t, exec (.stockCheck pos) s = .next t ∧ t.ret.audit = .fault ∧
        t.office = { s.office with mode := .setup } ∧
        t.ret.console = (if s.office.mode = .trading then { s.ret.console with tallies := zeroTallies, recent := [] }
          else s.ret.console) ∧
        s.replies t .ok 0x17 body ∧ s.keepsBut t [.audit, .office, .console, .link])) ∧
  (∀ s : State, s.failedPacks.Pairwise (· ≤ ·) ∧
    ∀ n, n ∈ s.failedPacks ↔ ∃ x ∈ s.ret.packs, x.id = n ∧ s.packSound x = false) ∧
  ∀ (s : State) (x : Pack), (∀ e ∈ x.exceptions, 1 ≤ e.run) →
    let place := fun n : Nat => match x.direction with
      | .ascending => (n : Int) - x.first
      | .descending => (x.first : Int) - n
    let taken : Int := (x.count : Int) - x.remaining
    let path := (allPrinters.flatMap s.path).filter fun e => decide (e.pack = x.id)
    let spans : List (Int × Int) :=
      (x.exceptions.map fun e => (place e.first, place e.first + (e.run : Int))) ++ path.map fun e => (place e.serial, place e.serial + 1)
    (s.packSound x = true ↔
      0 ≤ taken - path.length - (x.exceptions.map (·.run)).sum ∧
      (match x.next with
        | none => x.remaining = 0
        | some n => x.remaining ≠ 0 ∧ place n = taken) ∧
      (∀ a ∈ spans, ∀ i, a.1 ≤ i → i < a.2 → 0 ≤ i ∧ i < taken) ∧
      spans.Pairwise (fun a b => ∀ i, ¬ (a.1 ≤ i ∧ i < a.2 ∧ b.1 ≤ i ∧ i < b.2)) ∧
      x.exceptions.length ≤ 24 ∧
      ((x.exceptions.filter fun e => decide (e.disposition = .doubtful)).map (·.first)).Perm
        ((s.ret.doubtful.filter fun d => decide (d.pack = x.id)).map (·.serial)) ∧
      ∀ k ∈ s.ret.packs.erase x, k.stockType ≠ x.stockType ∨ ∀ n : Int, ¬ (x.holdsSerial n ∧ k.holdsSerial n))

/-! ### Printers -/

/-- POWER PRINTER on and off taken (R44, R48, R97), and RESUME PRINTER with its STATE refusals (R98). That 1 means on is the model's
choice (notes/assumptions/50.md), and so is that RESUME PRINTER itself sends no CLEAR, also into a free slot (20.md). -/
def Obligations.PowerAndResumePrinter : Prop :=
  (∀ (s : State) (pos : Position) (p : Fin 6), s.lineFree → s.supervises pos = true →
    (p.val + 1 ≤ s.fitted → (s.live.printerItems[p]).enabled = true → (s.printer p).state = .poweredDown →
      ∃ t, exec (.powerPrinterOn pos (p.val + 1) 1) s = .next t ∧
        (t.printer p).state = .starting ∧ (t.printer p).outstanding = some ((s.printer p).nextCommand, .ident) ∧
        (t.printer p).nextCommand = (s.printer p).nextCommand + 1#8 ∧ (t.printer p).identTries = 1 ∧
        (t.printer p).identity = none ∧ (t.printer p).senseA = none ∧ (t.printer p).senseB = none ∧
        (t.printer p).temperatures = [] ∧ (t.printer p).average = none ∧ (t.printer p).sensorFailed = false ∧
        (t.printer p).spoilCount = 0 ∧ (t.printer p).lastAcceptance = none ∧ (t.printer p).lastCondition = none ∧
        (t.printer p).reference = none ∧ (t.printer p).sentSince = 1 ∧ (t.printer p).timeoutCount = 0 ∧
        s.replies t .accepted 0x20 [] ∧
        (s.queueFull → (t.printer p).statePending = true ∧ othersKept s.printers t.printers p ∧
          s.keepsBut t [.printers, .link])) ∧
    ((s.printer p).state = .poweredDown ∨ (s.printer p).queue ≠ [] ∨ s.path p ≠ [] →
      s.onlyReplies (.powerPrinterOff pos (p.val + 1)) .state 0x20 []) ∧
    ((s.printer p).state ≠ .poweredDown → (s.printer p).queue = [] → s.path p = [] →
      ∃ t, exec (.powerPrinterOff pos (p.val + 1)) s = .next t ∧
        (t.printer p).state = .poweredDown ∧ (t.printer p).outstanding = none ∧ (t.printer p).disablePending = false ∧
        (t.printer p).confirmPending = false ∧ (t.printer p).openFault = none ∧
        s.replies t .ok 0x20 [] ∧
        (s.queueFull →
          t.ret.faults = s.ret.faults.map (fun e => if (s.printer p).openFault = some e.number then
            { e with cleared := true, cause := some .powerOff, clearedAt := s.office.clock, pending := true } else e) ∧
          othersKept s.printers t.printers p ∧ s.keepsBut t [.printers, .faults, .link]))) ∧
  ∀ (s : State) (pos : Position) (p : Fin 6), s.lineFree → s.holds pos .clerk = true → s.permitsPrinter pos p = true →
    let waits := (s.printer p).spoilCount = 3 ∨
      ∃ n e, (s.printer p).openFault = some n ∧ s.fault? n = some e ∧
        ∃ m ∈ e.first :: e.later, m.code ∈ [.jam, .cutter, .repeatedSpoil] ∧ m.confirmed = false
    ((s.printer p).state ≠ .faulted ∨ ¬ waits → s.onlyReplies (.resumePrinter pos (p.val + 1)) .state 0x24 []) ∧
    ((s.printer p).state = .faulted → waits →
      ∃ t, exec (.resumePrinter pos (p.val + 1)) s = .next t ∧
        t.printer p = { s.printer p with confirmPending := true } ∧ othersKept s.printers t.printers p ∧
        s.replies t .accepted 0x24 [] ∧ s.keepsBut t [.printers, .link])

/-- DISABLE PRINTER by the printer's state, and ENABLE PRINTER, while no other port sends and the notice queue is full (R49, R50, R69).
A printer DISABLED at once loses the specific-routed jobs of its queue; its AUTO job with no copy in path moves to the tail of the queue
the AUTO choice then gives, stays when no printer is eligible, and ends with ROUTE-LIMIT when it has moved three times (R59, R65, R67,
R68). -/
def Obligations.DisableAndEnable : Prop :=
  ∀ (s : State) (pos : Position) (p : Fin 6), s.lineFree → s.supervises pos = true → s.queueFull → s.othersQuiet p →
    let x := s.printer p
    (x.state ∈ [.poweredDown, .disabled] → s.onlyReplies (.disablePrinter pos (p.val + 1)) .state 0x21 []) ∧
    (x.state ∉ [.poweredDown, .disabled] →
      (x.disablePending = false → x.state = .ready ∨ (x.state = .heatHold ∧ s.path p = []) →
        ∃ t, exec (.disablePrinter pos (p.val + 1)) s = .next t ∧ (t.printer p).state = .disabled ∧
          (t.printer p).outstanding = none ∧ s.replies t .ok 0x21 [] ∧
          (∀ tag ∈ x.queue, ∀ j, s.job? tag = some j → j.routing.isSome = true →
            ∃ k, t.job? tag = some k ∧ k.stop = some (j.stop.getD .printerLost) ∧ (j.anyInPath = false → k.state = .ended)) ∧
          (∀ tag j, x.queue = [tag] → s.job? tag = some j → j.routing = none → .inPath ∉ j.copyStates → j.assigned = p →
            (3 ≤ j.rerouteCount → j.state ≠ .ended →
              ∃ k, t.job? tag = some k ∧ k.state = .ended ∧ k.outcome = some .incomplete ∧ k.reason = some .routeLimit ∧
                k.rerouteCount = 4 ∧ (t.printer p).queue = []) ∧
            (j.rerouteCount < 3 → (∀ q, q ≠ p → s.eligible j.position j.stockType q = false) → j.stop = none →
              .undispatched ∈ j.copyStates → t.job? tag = some j ∧ (t.printer p).queue = [tag]) ∧
            (j.rerouteCount < 3 → ∀ q, q ≠ p → s.eligible j.position j.stockType q = true →
              (∀ r, r ≠ p → s.eligible j.position j.stockType r = true →
                (s.printer q).queue.length < (s.printer r).queue.length ∨
                  ((s.printer q).queue.length = (s.printer r).queue.length ∧ q ≤ r)) →
              t.job? tag = some { j with assigned := q, rerouteCount := j.rerouteCount + 1 } ∧
                (t.printer p).queue = [] ∧ (t.printer q).queue = (s.printer q).queue ++ [tag])) ∧
          s.keepsBut t [.printers, .pool, .link]) ∧
      (x.disablePending = true ∨ x.state ∈ [.busy, .faulted, .offline, .starting] ∨
          (x.state = .heatHold ∧ s.path p ≠ []) → s.portQuiet p →
        ∃ t, exec (.disablePrinter pos (p.val + 1)) s = .next t ∧
          t.printer p = { x with disablePending := true } ∧ othersKept s.printers t.printers p ∧
          s.replies t .accepted 0x21 [] ∧ s.keepsBut t [.printers, .link])) ∧
    (x.disablePending = true → s.portQuiet p →
      ∃ t, exec (.enablePrinter pos (p.val + 1)) s = .next t ∧
        t.printer p = { x with disablePending := false } ∧ othersKept s.printers t.printers p ∧
        s.replies t .ok 0x22 [] ∧ s.keepsBut t [.printers, .link]) ∧
    (x.disablePending = false → x.state ≠ .disabled → s.onlyReplies (.enablePrinter pos (p.val + 1)) .state 0x22 []) ∧
    (x.disablePending = false → x.state = .disabled → x.openFault = none → s.strandedBinB p = false →
      ∃ t, exec (.enablePrinter pos (p.val + 1)) s = .next t ∧
        (t.printer p).state = (if s.hasDoubt p then .faulted else .ready) ∧
        (t.printer p).lastAcceptance = none ∧ (t.printer p).lastCondition = none ∧
        (t.printer p).outstanding = some (x.nextCommand, .poll) ∧ (t.printer p).reference = x.reference ∧
        (t.printer p).sentSince = min 256 (x.sentSince + 1) ∧
        s.replies t .ok 0x22 [] ∧ s.keepsBut t [.printers, .pool, .faults, .nextFault, .link])

/-- REPORT FAULT taken while the notice queue is full, no port sends and the log has room (R91, R92, R102, R104, R105): the attended
entry, and the withdraw by the printer's state (R49). That a withdraw of 1 means yes is the model's choice (notes/assumptions/50.md). -/
def Obligations.ReportFaultMakesAnEntry : Prop :=
  ∀ (s : State) (pos : Position) (p : Fin 6) (note : Nat) (withdraw : Bool), s.lineFree → s.portsQuiet → s.queueFull →
    p.val + 1 ≤ s.fitted → note ≤ 15 → s.ret.faults.length < 64 →
    (s.ret.faults.filter fun e => decide (e.cls = .attended ∧ e.cleared = false)).length < 24 →
    let n := freeNumber (s.ret.faults.map (·.number)) s.ret.nextFault
    let x := s.printer p
    ∃ t e, exec (.reportFault pos (p.val + 1) note (if withdraw then 1 else 0)) s = .next t ∧
      t.ret.faults = s.ret.faults ++ [e] ∧
      e.number = n ∧ e.printer = p ∧ e.cls = .attended ∧ e.first.code = .clerkNote ∧ e.later = [] ∧ e.cleared = false ∧
      e.raisedAt = s.office.clock ∧ e.clearedAt = none ∧ e.cause = none ∧ e.position = some pos ∧ e.note = some note ∧
      e.withdraw = some withdraw ∧ e.pending = true ∧
      t.ret.nextFault = (if 65535 ≤ n then 1 else n + 1) ∧
      (t.printer p).counters[11] = min 65535 (x.counters[11] + 1) ∧
      (∀ i : Fin 12, i ≠ 11 → (t.printer p).counters[i] = x.counters[i]) ∧
      (withdraw = false ∨ x.state ∈ [.poweredDown, .disabled] →
        t.printer p = { x with counters := (t.printer p).counters } ∧ othersKept s.printers t.printers p ∧
          s.replies t .ok 0x28 (be 2 n) ∧ s.keepsBut t [.faults, .nextFault, .printers, .link]) ∧
      (withdraw = true →
        (x.state ∈ [.busy, .faulted, .offline, .starting] ∨ (x.state = .heatHold ∧ s.path p ≠ []) ∨
            (x.disablePending = true ∧ x.state ∉ [.poweredDown, .disabled]) →
          t.printer p = { x with counters := (t.printer p).counters, disablePending := true } ∧
            othersKept s.printers t.printers p ∧
            s.replies t .accepted 0x28 (be 2 n) ∧ s.keepsBut t [.faults, .nextFault, .printers, .link]) ∧
        (x.disablePending = false → x.state = .ready ∨ (x.state = .heatHold ∧ s.path p = []) →
          (t.printer p).state = .disabled ∧ (t.printer p).outstanding = none ∧
            s.replies t .ok 0x28 (be 2 n) ∧ s.keepsBut t [.faults, .nextFault, .printers, .pool, .link]))

/-- CLOSE FAULT, whole (R103), with its notice waiting or placed (R108, R168). That the grade is judged before the range (R165) is the
model's reading (notes/assumptions/24.md). -/
def Obligations.CloseFaultRule : Prop :=
  ∀ (s : State) (pos : Position) (n : Nat), s.lineFree →
    (s.lacksSupervisor pos → s.onlyReplies (.closeFault pos n) .grade 0x29 []) ∧
    (s.supervises pos = true →
      (n = 0 ∨ 65535 < n → s.onlyReplies (.closeFault pos n) .range 0x29 []) ∧
      (1 ≤ n → n ≤ 65535 →
        ((∀ e ∈ s.ret.faults, e.number ≠ n) → s.onlyReplies (.closeFault pos n) .notFound 0x29 []) ∧
        ∀ e, s.fault? n = some e →
          (e.cls ≠ .attended ∨ e.cleared = true → s.onlyReplies (.closeFault pos n) .state 0x29 []) ∧
          (e.cls = .attended → e.cleared = false →
            ∃ t f, exec (.closeFault pos n) s = .next t ∧ t.fault? n = some f ∧
              { f with pending := true } =
                { e with cleared := true, cause := some .closed, clearedAt := s.office.clock, pending := true } ∧
              s.replies t .ok 0x29 [] ∧
              (f.pending = true ∨ ∃ q cls code, Notice.fault n q cls code true (some .closed) ∈ t.notices.queue) ∧
              (∀ q, (t.printer q).state = (s.printer q).state ∧ (t.printer q).disablePending = (s.printer q).disablePending) ∧
              (s.queueFull → f.pending = true ∧ s.keepsBut t [.faults, .link]))))

/-! ### Jobs -/

/-- ISSUE TICKET taken while no port sends, on the printer named or on the AUTO choice (R53, R55, R56, R57, R58, R59); the port of a
FAULTED printer that waits to confirm chooses afresh, and sends its CLEAR, wherever in the queue the job joins (R37, R58). Then what the
request is refused with: the code of the first check that fails, in the order of R56 and R57; and when a printer is eligible (R47, R59).
That a job of a window without a shift number carries shift 0 is the model's choice (notes/assumptions/59.md). -/
def Obligations.TicketsAreIssued : Prop :=
  (∀ (s : State) (pos : Position) (k : Fin 8) (routing : Option (Fin 6)) (p : Fin 6) (copies value : Nat) (d : Tender)
    (slots : List (List Byte)), s.lineFree → s.othersQuiet p →
    let waits := (s.printer p).outstanding = none ∧ (s.printer p).state = .faulted ∧ s.path p = [] ∧
      (s.printer p).confirmPending = true ∧ (s.printer p).timeoutCount = 0
    s.portQuiet p ∨ waits → s.office.mode = .trading →
    (∀ w, pos = .window w → (s.window w).state = .open ∧ (s.window w).grade.isSome = true) →
    s.permitsStock pos k.val = true → (s.stockType k).definition.defined = true → (s.stockType k).definition.numbered = true →
    1 ≤ copies → copies ≤ 9 → value ≤ 999999 → slots.length ≤ 8 →
    (∀ x ∈ slots, x.length ≤ 32 ∧ ∀ c ∈ x, 0x20 ≤ c.toNat ∧ c.toNat ≤ 0x7E) → (s.layout k).invalid = none →
    s.outstanding pos < 6 → s.pool.length < 48 →
    (routing = some p ∧ s.permitsPrinter pos p = true ∧
        (s.printer p).state ∉ [.poweredDown, .starting, .offline, .disabled] ∧ (s.printer p).disablePending = false ∧
        (∃ side x, s.binPack? p side = some x ∧ x.stockType = k) ∧ s.qualifies p k = true ∧ (s.printer p).queue.length < 8 ∨
      routing = none ∧ s.eligible pos k p = true ∧ ∀ q, s.eligible pos k q = true →
        (s.printer p).queue.length < (s.printer q).queue.length ∨
          ((s.printer p).queue.length = (s.printer q).queue.length ∧ p ≤ q)) →
    let n := freeNumber (s.pool.map (·.tag)) s.nextTag
    ∃ t, exec (.issueTicket pos k.val (match routing with | some q => q.val + 1 | none => 0) copies value d.code slots) s = .next t ∧
      t.pool = s.pool ++ [({
        tag := n
        position := pos
        shift := s.shiftOf pos
        stockType := k
        routing := routing
        assigned := p
        copies := copies
        value := value
        tender := d
        slots := slots
        copyStates := List.replicate copies .undispatched
        serials := []
        spoilCount := 0
        blanksSpoiled := 0
        rerouteCount := 0
        cancelRequested := false
        stop := none
        state := .queued
        outcome := none
        reason := none
        endPending := false } : Job)] ∧
      t.nextTag = (if 65535 ≤ n then 1 else n + 1) ∧
      (s.portQuiet p → t.printer p = { s.printer p with queue := (s.printer p).queue ++ [n] }) ∧
      (waits → t.printer p = { s.printer p with
        queue := (s.printer p).queue ++ [n]
        nextCommand := (s.printer p).nextCommand + 1#8
        outstanding := some ((s.printer p).nextCommand, .clear)
        sentSince := min 256 ((s.printer p).sentSince + 1)
        sent := some { number := (s.printer p).nextCommand, kind := .clear, body := none } }) ∧
      othersKept s.printers t.printers p ∧
      t.outstanding pos = s.outstanding pos + 1 ∧ (∀ q, q ≠ pos → t.outstanding q = s.outstanding q) ∧
      (∀ w, t.window w = { s.window w with outstanding := t.outstanding (.window w) }) ∧
      t.ret.console = { s.ret.console with outstanding := t.outstanding .console } ∧
      s.replies t .accepted 0x01 (be 2 n ++ [BitVec.ofNat 8 (p.val + 1)]) ∧
      s.keepsBut t [.pool, .nextTag, .printers, .console, .windows, .link]) ∧
  (∀ (s : State) (pos : Position) (stockType routing copies value tender : Nat) (slots : List (List Byte)), s.lineFree →
    s.refuses (.issueTicket pos stockType routing copies value tender slots) 0x01 [
      (s.office.mode = .trading, .mode),
      (∀ w, pos = .window w → (s.window w).state = .open, .state),
      (∀ w, pos = .window w → (s.window w).grade.isSome = true, .grade),
      (∀ w, pos = .window w → (s.live.permissions[w]).stockSet.getLsbD stockType = true, .notPermitted),
      ((∃ k : Fin 8, k.val = stockType ∧ (s.stockType k).definition.defined = true ∧ (s.stockType k).definition.numbered = true) ∧
        routing ≤ 6 ∧ (1 ≤ copies ∧ copies ≤ 9) ∧ value ≤ 999999 ∧ tender < 4 ∧ slots.length ≤ 8 ∧
        ∀ x ∈ slots, x.length ≤ 32 ∧ ∀ c ∈ x, 0x20 ≤ c.toNat ∧ c.toNat ≤ 0x7E, .range)]) ∧
  (∀ (s : State) (pos : Position) (k : Fin 8) (routing : Option (Fin 6)) (copies value : Nat) (d : Tender) (slots : List (List Byte)),
    s.lineFree → s.office.mode = .trading → (∀ w, pos = .window w → (s.window w).state = .open ∧ (s.window w).grade.isSome = true) →
    s.permitsStock pos k.val = true → (s.stockType k).definition.defined = true → (s.stockType k).definition.numbered = true →
    1 ≤ copies → copies ≤ 9 → value ≤ 999999 → slots.length ≤ 8 →
    (∀ x ∈ slots, x.length ≤ 32 ∧ ∀ c ∈ x, 0x20 ≤ c.toNat ∧ c.toNat ≤ 0x7E) →
    s.refuses (.issueTicket pos k.val (match routing with | some q => q.val + 1 | none => 0) copies value d.code slots) 0x01
      ([((s.layout k).invalid = none, .layout), (s.outstanding pos < 6 ∧ s.pool.length < 48, .queueFull)] ++
        match routing with
        | some p => [
          (∀ w, pos = .window w → (s.live.permissions[w]).printerSet.getLsbD (p.val + 1) = true, .notPermitted),
          ((s.printer p).state ∉ [.poweredDown, .starting, .offline, .disabled] ∧ (s.printer p).disablePending = false, .state),
          (∃ side x, s.binPack? p side = some x ∧ x.stockType = k, .noStock),
          (s.qualifies p k = true, .range),
          ((s.printer p).queue.length < 8, .queueFull)]
        | none => [(∃ q, s.eligible pos k q = true, .noPrinter)])) ∧
  ∀ (s : State) (pos : Position) (k : Fin 8) (p : Fin 6),
    (s.qualifies p k = true ↔ ∃ i, (s.printer p).identity = some i ∧
      (∀ f ∈ (s.layout k).entries, f.column + (if f.size = .double then 2 * f.width else f.width) ≤ i.headWidth) ∧
      ((s.stockType k).definition.striped = true → i.stripe = true)) ∧
    (s.eligible pos k p = true ↔ s.permitsPrinter pos p = true ∧ (s.printer p).state ∈ [.ready, .busy] ∧
      (s.printer p).disablePending = false ∧ s.qualifies p k = true ∧
      (∃ side x, s.binPack? p side = some x ∧ x.stockType = k ∧ x.condition = .usable ∧ 0 < x.remaining) ∧
      (s.printer p).queue.length < 8)

/-- CANCEL JOB (R65, R70): a job that stops already is left alone; otherwise CANCELLED is set, and the job ends at once with no
copy in path. -/
def Obligations.CancelStopsTheJob : Prop :=
  ∀ (s : State) (pos : Position) (tag : Nat) (j : Job), s.lineFree → 1 ≤ tag → tag ≤ 65535 → s.job? tag = some j →
    (j.position ≠ pos → s.lacksSupervisor pos → s.onlyReplies (.cancelJob pos tag) .grade 0x02 []) ∧
    (j.position = pos ∨ s.supervises pos = true →
      (j.state = .ended → s.onlyReplies (.cancelJob pos tag) .state 0x02 []) ∧
      (j.state ≠ .ended → j.stop.isSome = true → s.onlyReplies (.cancelJob pos tag) .accepted 0x02 []) ∧
      (j.state ≠ .ended → j.stop = none → s.portsQuiet →
        (.inPath ∈ j.copyStates →
          ∃ t, exec (.cancelJob pos tag) s = .next t ∧
            t.pool = s.pool.map (fun k => if k.tag = tag then { k with cancelRequested := true, stop := some .cancelled } else k) ∧
            s.replies t .accepted 0x02 [] ∧ s.keepsBut t [.pool, .link]) ∧
        (.inPath ∉ j.copyStates → s.queueFull →
          ∃ t, exec (.cancelJob pos tag) s = .next t ∧
            t.job? tag = some { j with
              cancelRequested := true
              stop := some .cancelled
              state := .ended
              outcome := some .incomplete
              reason := some .cancelled
              endPending := true } ∧
            (∀ k, k ∈ s.pool → k.tag ≠ tag → k ∈ t.pool) ∧
            t.printer j.assigned = { s.printer j.assigned with
              queue := (s.printer j.assigned).queue.filter (fun n => decide (n ≠ tag)) } ∧
            othersKept s.printers t.printers j.assigned ∧
            s.replies t .ok 0x02 [] ∧ s.keepsBut t [.pool, .printers, .link])))

/-! ### The printer ports -/

/-- A PRINT goes to a free slot when every dispatch condition holds (R7, R29, R30, R37, R38, R60, R83): the blank is taken from the
fitting bin with the fewer left, bin A at a tie; its entry joins the path, and the job's next copy is in path. The ticket the PRINT
carries (R83 to R89): each field filled to its width from the job, its position's clerk, the business date and the blank; the check
code; a line for each row that is a field's top row, its segments by column and then in layout order; and the stripe record of a striped
type alone. -/
def Obligations.DispatchTakesABlank : Prop :=
  (∀ (s : State) (p : Fin 6) (j : Job) (i : Nat) (rest : List Nat) (x : Pack) (n : Nat) (side other : Bin), s.queueFull →
    let r := s.printer p
    r.outstanding = none → r.state = .ready ∨ r.state = .busy → r.lastAcceptance = some .taken →
    r.lastCondition = some .ready → (s.path p).length ≤ 1 → r.timeoutCount = 0 → r.disablePending = false →
    r.queue = j.tag :: rest → s.job? j.tag = some j → j.stop = none →
    j.copyStates.findIdx? (fun c => decide (c = .undispatched)) = some i →
    s.qualifies p j.stockType = true → (∀ d ∈ s.ret.doubtful, d.printer ≠ p) → side ≠ other →
    s.binPack? p side = some x → x.takeable j.stockType = true → x.next = some n →
    (∀ y, s.binPack? p other = some y → y.takeable j.stockType = true →
      x.remaining < y.remaining ∨ (x.remaining = y.remaining ∧ side = .a)) →
    ∃ t, exec (.pollInterval p) s = .next t ∧
      t.path p = s.path p ++ [{
        pack := x.id, serial := n, tag := j.tag, copy := i + 1, position := j.position, shift := j.shift, value := j.value,
        tender := j.tender, command := r.nextCommand }] ∧
      othersKept s.ret.inPath t.ret.inPath p ∧
      t.ret.packs = s.ret.packs.map (fun k => if k.id = x.id then k.takeOne else k) ∧
      t.printer p = { r with
        state := .busy
        nextCommand := r.nextCommand + 1#8
        outstanding := some (r.nextCommand, .print)
        sentSince := min 256 (r.sentSince + 1)
        sent := some { number := r.nextCommand, kind := .print, body := some (s.compose j (i + 1) n side) } } ∧
      othersKept s.printers t.printers p ∧
      t.pool = s.pool.map (fun k => if k.tag = j.tag then { k with
        copyStates := k.copyStates.set i .inPath
        state := if k.state = .queued then .printing else k.state } else k) ∧
      s.keepsBut t [.stockTypes, .packs, .inPath, .printers, .pool]) ∧
  ∀ (s : State) (j : Job) (copy serial : Nat) (side : Bin),
    let type := (s.stockType j.stockType).definition
    let fields := (s.layout j.stockType).entries
    let clerk := match j.position with
      | .console => 0
      | .window w => (s.window w).clerk.getD 0
    copy ≤ 9 → j.copies ≤ 9 → serial ≤ 999999999 → j.value ≤ 999999 → clerk ≤ 65535 →
    let decimal := fun n : Nat => (Nat.toDigits 10 n).map fun c => BitVec.ofNat 8 c.toNat
    let zeros := fun width n : Nat => List.replicate (width - (decimal n).length) 0x30#8 ++ decimal n
    let check := (7 * (serial % 1000000) + 3 * j.value + 11 * j.stockType.val + 13 * j.position.number) % 97
    let words := fun (width : Nat) (text : List Byte) => text.take width ++ List.replicate (width - text.length) 0x20#8
    let number := fun (width : Nat) (text : List Byte) =>
      if width < text.length then List.replicate width 0x2A#8 else List.replicate (width - text.length) 0x20#8 ++ text
    let filled := fun f : FieldEntry => match f.kind with
      | .text slot => words f.width (j.slots[slot - 1]?.getD [])
      | .date => words f.width (s.office.date.getD [])
      | .serial => number f.width (zeros type.digits serial)
      | .value => number f.width (decimal (j.value / 100) ++ [0x2E#8] ++ zeros 2 (j.value % 100))
      | .position => number f.width (zeros 2 j.position.number)
      | .clerk => number f.width (zeros 5 clerk)
      | .check => number f.width (zeros 2 check)
      | .copy => number f.width (decimal copy ++ [0x2F#8] ++ decimal j.copies)
    let segment := fun f : FieldEntry => ({ column := f.column, size := f.size, text := filled f } : Segment)
    let body := s.compose j copy serial side
    body.side = side ∧
    (body.lines.map (·.row)).Pairwise (· < ·) ∧
    (∀ row, row ≤ 15 → (row ∈ body.lines.map (·.row) ↔ ∃ f ∈ fields, f.row = row)) ∧
    (∀ l ∈ body.lines, l.segments.Pairwise (·.column ≤ ·.column) ∧ ∀ column,
      l.segments.filter (fun g => decide (g.column = column)) =
        (fields.filter fun f => decide (f.row = l.row ∧ f.column = column)).map segment) ∧
    body.stripe = if type.striped then some {
      stockType := j.stockType.val
      serial := serial
      value := j.value
      position := j.position.number
      checkCode := check
      texts := (fields.filter (·.stripe)).map filled } else none

/-- The other choices of the waiting interval (R37, R99), and the identification interval (R44, R46). A READY or BUSY printer is polled
when a dispatch condition fails: pending disable, a last reply other than TAKEN and READY, two blanks in path, a timeout since (R39), a
doubtful entry, or no copy at the head of the queue that it qualifies for and has a blank for (R7, R38). That an interval which ends in a
state that sends nothing changes nothing is the model's choice (notes/assumptions/27.md), and so is that a RESUME PRINTER's CLEAR waits
for the port's next choice (20.md). -/
def Obligations.IntervalsPollClearAndIdentify : Prop :=
  ∀ (s : State) (p : Fin 6),
    let x := s.printer p
    let sends := fun (c : Instr) (kind : CommandKind) (y : Printer) => ∃ t, exec c s = .next t ∧
      t.printer p = { y with
        nextCommand := x.nextCommand + 1#8
        outstanding := some (x.nextCommand, kind)
        sentSince := min 256 (x.sentSince + 1)
        sent := some { number := x.nextCommand, kind := kind, body := none } } ∧
      othersKept s.printers t.printers p ∧ s.keepsBut t [.printers]
    let confirms := s.path p = [] ∧ x.confirmPending = true ∧ x.timeoutCount = 0
    let blocked := x.disablePending = true ∨ x.lastAcceptance ≠ some .taken ∨ x.lastCondition ≠ some .ready ∨
      1 < (s.path p).length ∨ x.timeoutCount ≠ 0 ∨ (∃ d ∈ s.ret.doubtful, d.printer = p) ∨
      ∀ tag rest j, x.queue = tag :: rest → s.job? tag = some j →
        j.stop.isSome = true ∨ .undispatched ∉ j.copyStates ∨ s.qualifies p j.stockType = false ∨
          ∀ side k, s.binPack? p side = some k → ¬ (k.stockType = j.stockType ∧ k.condition = .usable ∧ 0 < k.remaining)
    (x.outstanding.isSome = true ∨ x.state ∈ [.poweredDown, .disabled, .starting, .offline] →
      exec (.pollInterval p) s = .next s) ∧
    (x.outstanding = none → x.state = .faulted → confirms → sends (.pollInterval p) .clear x) ∧
    (x.outstanding = none →
      (x.state = .faulted ∧ ¬ confirms) ∨ x.state = .heatHold ∨ (x.state ∈ [.ready, .busy] ∧ blocked) →
        sends (.pollInterval p) .poll x) ∧
    (x.outstanding = none → x.state = .starting →
      sends (.identInterval p) .ident { x with identTries := min 10 (x.identTries + 1) }) ∧
    (x.outstanding = none → x.state = .offline → sends (.identInterval p) .ident x) ∧
    (x.outstanding.isSome = true ∨ x.state ∉ [.starting, .offline] → exec (.identInterval p) s = .next s)

/-- The reply timers: a POLL after the first and the second expiry, OFFLINE with every blank in path doubtful after the third
(R15, R39, R40); an IDENT is sent again, and the tenth of a STARTING period raises LINK-LOST, and DOUBT in the same entry when the
printer has a doubtful entry (R44, R46, R90, R93, R105). A timer of the other kind changes nothing: the model's choice
(notes/assumptions/27.md). -/
def Obligations.TimeoutsLoseTheLink : Prop :=
  ∀ (s : State) (p : Fin 6) (n : Byte) (kind : CommandKind), (s.printer p).outstanding = some (n, kind) →
    let x := s.printer p
    (kind ≠ .ident → x.timeoutCount < 2 →
      ∃ t, exec (.replyTimeout p) s = .next t ∧
        t.printer p = { x with
          timeoutCount := x.timeoutCount + 1
          nextCommand := x.nextCommand + 1#8
          outstanding := some (x.nextCommand, .poll)
          sentSince := min 256 (x.sentSince + 1)
          sent := some { number := x.nextCommand, kind := .poll, body := none } } ∧
        othersKept s.printers t.printers p ∧ s.keepsBut t [.printers]) ∧
    (kind ≠ .ident → x.timeoutCount = 2 →
      ∃ t, exec (.replyTimeout p) s = .next t ∧ (t.printer p).state = .offline ∧ (t.printer p).outstanding = none ∧
        (t.printer p).timeoutCount = 0 ∧ (t.printer p).openFault.isSome = true ∧ t.path p = [] ∧
        t.ret.doubtful = s.ret.doubtful ++ (s.path p).map (doubtfulFrom p)) ∧
    (kind = .ident → ¬ (x.state = .starting ∧ 10 ≤ x.identTries) →
      ∃ t, exec (.identTimeout p) s = .next t ∧ t.printer p = { x with outstanding := none } ∧
        othersKept s.printers t.printers p ∧ s.keepsBut t [.printers]) ∧
    (kind = .ident → x.state = .starting → 10 ≤ x.identTries → x.openFault = none → s.ret.faults.length ≤ 64 →
      ∃ t f, exec (.identTimeout p) s = .next t ∧ (t.printer p).state = .offline ∧ (t.printer p).outstanding = none ∧
        (t.printer p).identTries = 0 ∧ (t.printer p).openFault = some s.freshFaultNumber ∧
        t.fault? s.freshFaultNumber = some f ∧ f.printer = p ∧ f.cls = .standing ∧ f.first.code = .linkLost ∧
        f.later.map (·.code) = (if ∃ d ∈ s.ret.doubtful, d.printer = p then [.doubt] else []) ∧
        (t.printer p).counters[8] = min 65535 (x.counters[8] + 1) ∧
        (t.printer p).counters[9] = (if ∃ d ∈ s.ret.doubtful, d.printer = p then min 65535 (x.counters[9] + 1)
          else x.counters[9])) ∧
    (kind = .ident → exec (.replyTimeout p) s = .next s) ∧ (kind ≠ .ident → exec (.identTimeout p) s = .next s)

/-- Replies the port discards change nothing (R31, R189): with nothing outstanding, for another command, of the wrong kind, with an
outcome of a command outside the window, cut off by a gap, or in a frame whose start byte is not 0x5B, of the wrong length, with a bad
CRC, with an outcome, cause, acceptance or condition outside its list, with an impossible pairing of outcome and cause, or with a stripe
capable byte above 1. -/
def Obligations.DiscardedRepliesChangeNothing : Prop :=
  ∀ (s : State) (p : Fin 6),
    (∀ bytes, exec (.printerReplyGap p bytes) s = .next s) ∧
    ((s.printer p).outstanding = none →
      (∀ r, exec (.printerReply p r) s = .next s) ∧ (∀ r i, exec (.identReply p r i) s = .next s) ∧
        ∀ bytes, exec (.printerReplyDiscarded p bytes) s = .next s) ∧
    ∀ n kind, (s.printer p).outstanding = some (n, kind) →
      (∀ bytes : List Byte,
        let m := if kind = .ident then 14 else 10
        let byte := fun i : Nat => (bytes[i]?.getD 0).toNat
        bytes.length ≠ m + 5 ∨ byte 0 ≠ 0x5B ∨ byte 2 ≠ m ∨
            be 2 (crc16 ((bytes.drop 1).take (m + 2))).toNat ≠ bytes.drop (m + 3) ∨
            (byte 4, byte 5) ∉ [(0, 0), (1, 1), (1, 2), (1, 3), (1, 4), (2, 0), (2, 5)] ∨
            1 < byte 6 ∨ 4 < byte 7 ∨ (kind = .ident ∧ 1 < byte 15) →
          exec (.printerReplyDiscarded p bytes) s = .next s) ∧
      ∀ r : PrinterReply,
        (r.answers ≠ n ∨ kind = .ident ∨ (s.printer p).reference = none ∨
            (∃ ref, (s.printer p).reference = some ref ∧ (s.printer p).sentSince < 256 ∧
              (n - ref).toNat ≤ (r.outcomeOf - ref).toNat) →
          exec (.printerReply p r) s = .next s) ∧
        ∀ i : Identity, r.answers ≠ n ∨ kind ≠ .ident ∨ i.headWidth < 32 ∨ 64 < i.headWidth ∨ i.bins = 0 ∨ 2 < i.bins →
          exec (.identReply p r i) s = .next s

/-- A reply that reports the oldest blank in path DONE while any later one is that of the PRINT answered, which stays (steady printing),
while the notice queue is full and no other port sends: the blank is off the path, the sale is credited with its recent-issues entry, for
the console as for a window, or discarded when the window is CLOSED or in another shift, and the job records the serial in any case
(R11, R31, R32, R33, R34, R38, R61, R125, R134). -/
def Obligations.DoneIssuesTheBlank : Prop :=
  ∀ (s : State) (p : Fin 6) (r : PrinterReply) (n ref : Byte) (kind : CommandKind) (e : InPathEntry) (later : List InPathEntry)
    (x : Pack) (j : Job), s.queueFull → s.othersQuiet p →
    (s.printer p).outstanding = some (n, kind) → kind ≠ .ident → r.answers = n → (s.printer p).reference = some ref →
    (r.outcomeOf - ref).toNat < (n - ref).toNat → s.path p = e :: later → e.command = r.outcomeOf → r.outcome = .done →
    (∀ f ∈ later, f.command = n ∧ r.acceptance = .taken ∧ ¬ (f.pack = e.pack ∧ f.serial = e.serial)) →
    s.pack? e.pack = some x → s.job? e.tag = some j →
    ∃ t, exec (.printerReply p r) s = .next t ∧
      s.creditsOrDiscards t e x.stockType ∧ s.positionsKeptButTallies t ∧
      (t.path p = later ∨ ∃ f, t.path p = later ++ [f] ∧ f.command = (s.printer p).nextCommand) ∧
      othersKept s.ret.inPath t.ret.inPath p ∧
      (∃ k, t.job? e.tag = some k ∧ k.serials = j.serials ++ [e.serial]) ∧
      (t.printer p).reference = some n ∧ (t.printer p).lastAcceptance = some r.acceptance ∧
      (t.printer p).lastCondition = some r.condition ∧ (t.printer p).timeoutCount = 0 ∧ (t.printer p).spoilCount = 0 ∧
      s.keepsBut t [.stockTypes, .packs, .inPath, .console, .windows, .faults, .nextFault, .printers, .pool]

/-- A reply to a POLL with nothing in path and the job pool empty, whose outcome-of names a command of the window, or any number when
256 commands or more have been sent since the reference command (R31, notes/assumptions/30.md), and its temperature (R34, R41, R42,
R43): the mean of the last four samples, and HEAT-HOLD between the hold and the resume setting; a failed sample forces the marker and
raises SENSOR-FAIL, and the next valid one fills the window. A CLEAR answered TAKEN confirms, and with a READY condition the codes that
needed it are met, the entry clears and the printer leaves FAULTED; answered REFUSED, it confirms nothing (R34, R36, R95, R96, R99). -/
def Obligations.SamplesHoldAHotPrinter : Prop :=
  (∀ (s : State) (p : Fin 6) (r : PrinterReply) (n ref : Byte) (a b c d : Nat), s.queueFull → s.pool = [] →
    s.othersQuiet p →
    let x := s.printer p
    x.outstanding = some (n, .poll) → r.answers = n → x.reference = some ref →
    256 ≤ x.sentSince ∨ (r.outcomeOf - ref).toNat < (n - ref).toNat → s.path p = [] → x.state = .ready ∨ x.state = .heatHold →
    x.openFault = none → x.disablePending = false → x.sensorFailed = false → x.refill = false →
    x.temperatures = [a, b, c, d] → r.condition = .ready → 1 ≤ r.temperature → r.temperature ≤ 1022 →
    let average := (b + c + d + r.temperature) / 4
    let item := s.live.printerItems[p]
    let state := if x.state = .ready then (if (item.hold + 10) * 8 ≤ average then .heatHold else .ready)
      else if average ≤ (item.resume + 10) * 8 then PrinterState.ready else .heatHold
    ∃ t, exec (.printerReply p r) s = .next t ∧
      t.printer p = { x with
        state := state
        statePending := x.statePending || decide (state ≠ x.state)
        outstanding := none
        reference := some n
        sentSince := 0
        lastAcceptance := some r.acceptance
        lastCondition := some .ready
        senseA := some r.senseA
        senseB := if (x.identity.map (·.bins)).getD 2 < 2 then x.senseB else some r.senseB
        timeoutCount := 0
        temperatures := [b, c, d, r.temperature]
        average := some average
        limits := some { hold := (item.hold + 10) * 8, resume := (item.resume + 10) * 8 } } ∧
      othersKept s.printers t.printers p ∧ s.keepsBut t [.printers]) ∧
  (∀ (s : State) (p : Fin 6) (r : PrinterReply) (n ref : Byte), s.queueFull → s.pool = [] → s.othersQuiet p →
    let x := s.printer p
    x.outstanding = some (n, .poll) → r.answers = n → x.reference = some ref →
    256 ≤ x.sentSince ∨ (r.outcomeOf - ref).toNat < (n - ref).toNat → s.path p = [] →
    (r.temperature = 0 ∨ r.temperature = 1023 → x.state = .ready ∨ x.state = .heatHold → x.openFault = none →
      r.condition = .ready → s.ret.faults.length ≤ 64 →
      ∃ t f, exec (.printerReply p r) s = .next t ∧ (t.printer p).average = some 1280 ∧ (t.printer p).sensorFailed = true ∧
        (t.printer p).temperatures = x.temperatures ∧ (t.printer p).state = .faulted ∧
        (t.printer p).openFault = some s.freshFaultNumber ∧ t.fault? s.freshFaultNumber = some f ∧ f.printer = p ∧
        f.cls = .standing ∧ f.first.code = .sensorFail ∧ f.first.met = false ∧ f.later = [] ∧ f.cleared = false ∧
        othersKept s.printers t.printers p ∧ s.keepsBut t [.printers, .faults, .nextFault]) ∧
    (1 ≤ r.temperature → r.temperature ≤ 1022 → x.sensorFailed = true →
      ∃ t, exec (.printerReply p r) s = .next t ∧ (t.printer p).sensorFailed = false ∧
        (t.printer p).temperatures = List.replicate 4 r.temperature ∧ (t.printer p).average = some r.temperature)) ∧
  ∀ (s : State) (p : Fin 6) (r : PrinterReply) (n ref : Byte) (m : Nat) (e : FaultEntry) (a b c d : Nat), s.queueFull →
    s.pool = [] → s.othersQuiet p →
    let x := s.printer p
    x.outstanding = some (n, .clear) → r.answers = n → x.reference = some ref →
    256 ≤ x.sentSince ∨ (r.outcomeOf - ref).toNat < (n - ref).toNat → s.path p = [] → x.state = .faulted →
    x.openFault = some m → s.fault? m = some e → x.disablePending = false → x.sensorFailed = false → x.refill = false →
    x.temperatures = [a, b, c, d] → r.condition = .ready → 1 ≤ r.temperature → r.temperature ≤ 1022 →
    (r.acceptance = .taken → (∀ q ∈ s.ret.doubtful, q.printer ≠ p) →
      (∀ k ∈ e.first :: e.later, k.code ∈ [.jam, .cutter, .repeatedSpoil, .coverOpen, .headHot]) →
      let average := (b + c + d + r.temperature) / 4
      ∃ t f, exec (.printerReply p r) s = .next t ∧ t.fault? m = some f ∧ f.cleared = true ∧ f.cause = some .met ∧
        f.clearedAt = s.office.clock ∧ f.pending = true ∧ (∀ k ∈ f.first :: f.later, k.met = true) ∧
        (∀ k ∈ f.first :: f.later, k.code ∈ [.jam, .cutter, .repeatedSpoil] → k.confirmed = true) ∧
        (t.printer p).openFault = none ∧ (t.printer p).confirmPending = false ∧ (t.printer p).spoilCount = 0 ∧
        (t.printer p).state =
          (if ((s.live.printerItems[p]).hold + 10) * 8 ≤ average then PrinterState.heatHold else .ready) ∧
        othersKept s.printers t.printers p ∧ s.keepsBut t [.printers, .faults]) ∧
    (r.acceptance = .refused → e.first.code ∈ [.jam, .cutter, .repeatedSpoil] → e.first.met = false →
      e.first.confirmed = false →
      ∃ t f, exec (.printerReply p r) s = .next t ∧ t.fault? m = some f ∧ f.first.confirmed = false ∧ f.first.met = false ∧
        f.cleared = e.cleared ∧ (t.printer p).openFault = some m ∧ (t.printer p).confirmPending = x.confirmPending ∧
        (t.printer p).spoilCount = x.spoilCount ∧ (t.printer p).state = .faulted)

/-- A reply to IDENT with the job pool empty (R34, R41, R45, R96): what the record takes, and the state the printer is placed in,
from STARTING without an open entry and from OFFLINE with its LINK-LOST entry, which clears. That a one-bin identity leaves bin B
without a sense, from OFFLINE too, is the model's reading (notes/assumptions/18.md). -/
def Obligations.IdentityPlacesThePrinter : Prop :=
  ∀ (s : State) (p : Fin 6) (r : PrinterReply) (i : Identity) (n : Byte), s.queueFull → s.pool = [] →
    s.othersQuiet p →
    let x := s.printer p
    x.outstanding = some (n, .ident) → r.answers = n → 32 ≤ i.headWidth → i.headWidth ≤ 64 → i.bins = 1 ∨ i.bins = 2 →
    1 ≤ r.temperature → r.temperature ≤ 1022 → s.path p = [] → (∀ d ∈ s.ret.doubtful, d.printer ≠ p) →
    x.confirmPending = false →
    let stranded := i.bins = 1 ∧ (s.binPack? p .b).isSome = true
    let placed : PrinterState := if x.disablePending = true ∨ stranded then .disabled
      else if ((s.live.printerItems[p]).hold + 10) * 8 ≤ r.temperature then .heatHold else .ready
    let taken := fun t : State => (t.printer p).identity = some i ∧ (t.printer p).reference = some n ∧
      (t.printer p).sentSince = 0 ∧ (t.printer p).outstanding = none ∧ (t.printer p).temperatures = List.replicate 4 r.temperature ∧
      (t.printer p).average = some r.temperature ∧ (t.printer p).lastAcceptance = some r.acceptance ∧
      (t.printer p).lastCondition = some r.condition ∧ (t.printer p).senseA = some r.senseA ∧
      (t.printer p).senseB = (if i.bins = 1 then none else some r.senseB) ∧ (t.printer p).timeoutCount = 0 ∧
      othersKept s.printers t.printers p
    (x.state = .starting → x.openFault = none →
      (r.condition ≠ .ready →
        ∃ t, exec (.identReply p r i) s = .next t ∧ taken t ∧ (t.printer p).state = .faulted ∧
          (t.printer p).openFault = some s.freshFaultNumber ∧ s.keepsBut t [.printers, .faults, .nextFault]) ∧
      (r.condition = .ready →
        ∃ t, exec (.identReply p r i) s = .next t ∧ taken t ∧ (t.printer p).state = placed ∧
          (t.printer p).disablePending = false ∧ s.keepsBut t [.printers])) ∧
    ∀ (m : Nat) (e : FaultEntry), x.state = .offline → x.openFault = some m → s.fault? m = some e →
      e.first.code = .linkLost → e.later = [] → x.spoilCount < 3 → r.condition = .ready →
      ∃ t f, exec (.identReply p r i) s = .next t ∧ taken t ∧ (t.printer p).state = placed ∧
        (t.printer p).openFault = none ∧ t.fault? m = some f ∧ f.cleared = true ∧ f.cause = some .met ∧
        f.clearedAt = s.office.clock ∧ f.pending = true ∧ s.keepsBut t [.printers, .faults]

/-- What becomes of the blanks in path at a reply to a PRINT or a POLL, while the notice queue is full, no other port sends and the log
has room (R8, R12 to R15, R32 to R34, R38, R61 to R65, R90, R93, R100, R101, R136). One blank, not reported DONE: SPOILED with its fault
entry, its spoil counted, the job's copy undispatched again, the job ended at its third spoil and the printer FAULTED at its own;
NOT-FED with BIN-EMPTY, the rest of the pack MISSING; returned to its pack when NOT-FED, refused or sent after the command the reply
reports, DOUBTFUL when it cannot be returned or its outcome rode on a lost reply, and still in path, its pack, job and tallies as they
were, when it is that of the PRINT answered, whatever the outcome reported, which names no entry. Two blanks: each by its own command,
whatever becomes of the other, two returns newest first, and both DOUBTFUL when the older of one pack is to be returned and the newer
stays. The order of raises, conversions and returns within a reply is the model's reading (notes/assumptions/16.md, 35.md). -/
def Obligations.OutcomesSettleTheBlankInPath : Prop :=
  (∀ (s : State) (p : Fin 6) (r : PrinterReply) (n ref : Byte) (kind : CommandKind) (e : InPathEntry) (x : Pack) (j : Job),
    s.queueFull → s.othersQuiet p → s.ret.faults.length ≤ 60 → (s.printer p).outstanding = some (n, kind) →
    kind = .print ∨ kind = .poll → r.answers = n → (s.printer p).reference = some ref →
    (r.outcomeOf - ref).toNat < (n - ref).toNat → s.path p = [e] → s.pack? e.pack = some x →
    s.job? e.tag = some j → j.copyStates[e.copy - 1]? = some .inPath →
    let fresh := s.freshFaultNumber
    let opened := (s.printer p).openFault
    let copies := fun c : CopyState => j.copyStates.set (e.copy - 1) c
    let exceptions := fun t : State => (t.pack? e.pack).map (·.exceptions)
    let run := fun (length : Nat) (d : Disposition) (pos : Option Position) (fault : Nat) =>
      ({ first := e.serial, run := length, disposition := d, position := pos, fault := some fault } : ExceptionEntry)
    let transient := fun (t : State) (c : FaultCode) (missing : Option Nat) => ∃ f ∈ t.ret.faults, f.number = fresh ∧
      f.printer = p ∧ f.cls = .transient ∧ f.first.code = c ∧ f.cleared = true ∧ f.cause = some .transient ∧
      f.tag = some e.tag ∧ f.serial = some e.serial ∧ f.pack = some e.pack ∧ f.position = some e.position ∧
      f.missingRun = missing
    let standing := fun (t : State) (c : FaultCode) => (t.printer p).state = .faulted ∧ t.path p = [] ∧
      ∃ f ∈ t.ret.faults, (t.printer p).openFault = some f.number ∧ f.printer = p ∧ f.cls = .standing ∧ f.first.code = c ∧
        f.first.met = false ∧ f.cleared = false ∧ f.tag = some e.tag ∧ f.serial = some e.serial ∧ f.pack = some e.pack ∧
        f.position = some e.position
    let framed := fun t : State => s.positionsKeptButTallies t ∧ othersKept s.ret.inPath t.ret.inPath p ∧
      (t.path p = [] ∨ ∃ f, t.path p = [f] ∧ f.command = (s.printer p).nextCommand) ∧
      s.keepsBut t [.stockTypes, .packs, .doubtful, .inPath, .console, .windows, .faults, .nextFault, .printers, .pool]
    let doubted := fun t : State => t.ret.doubtful = s.ret.doubtful ++ [doubtfulFrom p e] ∧ t.path p = [] ∧
      exceptions t = some (x.exceptions ++ [doubtRun e opened]) ∧
      (∃ k, t.job? e.tag = some k ∧ k.copyStates = copies .doubtful) ∧ s.talliesKept t ∧
      (t.printer p).openFault.isSome = true ∧ (opened = none → standing t .doubt) ∧ framed t
    (∀ cause, e.command = r.outcomeOf → r.outcome = .spoiled cause →
      ∃ t k, exec (.printerReply p r) s = .next t ∧ framed t ∧ t.ret.doubtful = s.ret.doubtful ∧
        exceptions t = some (x.addRun (run 1 .spoiled (some e.position)
          (if cause = .misfeed ∨ cause = .stripe then fresh else opened.getD fresh))).exceptions ∧
        s.spoilsOrDiscards t e x.stockType ∧
        t.job? e.tag = some k ∧ k.blanksSpoiled = j.blanksSpoiled + 1 ∧ k.spoilCount = min 3 (j.spoilCount + 1) ∧
        k.serials = j.serials ∧ (t.path p = [] → k.copyStates = copies .undispatched) ∧
        (j.state ≠ .ended → j.stop = none → 2 ≤ j.spoilCount → .inPath ∉ copies .undispatched →
          k.state = .ended ∧ k.outcome = some .incomplete ∧ k.reason = some .spoilLimit) ∧
        (cause = .misfeed → transient t .misfeed none) ∧ (cause = .stripe → transient t .stripe none) ∧
        (opened = none →
          (cause = .jam → standing t .jam) ∧ (cause = .cutter → standing t .cutter) ∧
          ((cause = .misfeed ∨ cause = .stripe) → (s.printer p).spoilCount = 2 →
            (t.printer p).spoilCount = 3 ∧ standing t .repeatedSpoil))) ∧
    (e.command = r.outcomeOf → r.outcome = .binEmpty → x.lastTaken = some e.serial → s.inPathOf e.pack = 1 →
      ∃ t k, exec (.printerReply p r) s = .next t ∧ framed t ∧ t.ret.doubtful = s.ret.doubtful ∧ s.talliesKept t ∧
        transient t .binEmpty (some (x.remaining + 1)) ∧
        t.pack? e.pack = some { x with
          remaining := 0
          next := none
          condition := .exhausted
          location := .store
          exceptions := (x.addRun (run (x.remaining + 1) .missing none fresh)).exceptions } ∧
        t.job? e.tag = some k ∧ (t.path p = [] → k.copyStates = copies .undispatched)) ∧
    ((e.command = r.outcomeOf ∧ r.outcome = .notFed) ∨ (e.command = n ∧ kind = .print ∧ r.acceptance = .refused) ∨
        (e.command ≠ n ∧ (n - e.command).toNat < (n - r.outcomeOf).toNat) →
      (x.lastTaken = some e.serial →
        ∃ t k, exec (.printerReply p r) s = .next t ∧ framed t ∧ t.ret.doubtful = s.ret.doubtful ∧ s.talliesKept t ∧
          exceptions t = some x.exceptions ∧ t.job? e.tag = some k ∧
          (t.path p = [] → t.pack? e.pack = some { x with remaining := x.remaining + 1, next := some e.serial } ∧
            k.copyStates = copies .undispatched) ∧
          (r.acceptance = .refused → t.path p = [])) ∧
      (x.lastTaken ≠ some e.serial → ∃ t, exec (.printerReply p r) s = .next t ∧ doubted t)) ∧
    ((n - r.outcomeOf).toNat < (n - e.command).toNat → ∃ t, exec (.printerReply p r) s = .next t ∧ doubted t) ∧
    (e.command = n → ¬ (kind = .print ∧ r.acceptance = .refused) →
      ∃ t k, exec (.printerReply p r) s = .next t ∧ s.positionsKeptButTallies t ∧ s.talliesKept t ∧
        othersKept s.ret.inPath t.ret.inPath p ∧
        (t.path p = [e] ∨ ∃ f, t.path p = [e, f] ∧ f.command = (s.printer p).nextCommand) ∧ exceptions t = some x.exceptions ∧
        t.job? e.tag = some k ∧ k.copyStates[e.copy - 1]? = some .inPath ∧ k.serials = j.serials ∧
        (t.path p = [e] → k = j ∧ t.ret.packs = s.ret.packs) ∧
        (opened = none → r.condition = .ready → 1 ≤ r.temperature → r.temperature ≤ 1022 →
          (t.printer p).openFault = none ∧ (t.printer p).counters = (s.printer p).counters ∧
            (t.printer p).spoilCount = (s.printer p).spoilCount ∧ t.ret.faults = s.ret.faults) ∧
        s.keepsBut t [.stockTypes, .packs, .inPath, .faults, .nextFault, .printers, .pool])) ∧
  ∀ (s : State) (p : Fin 6) (r : PrinterReply) (n ref : Byte) (kind : CommandKind) (a b : InPathEntry) (x y : Pack) (i j : Job),
    s.queueFull → s.othersQuiet p → s.ret.faults.length ≤ 60 → (s.printer p).outstanding = some (n, kind) →
    kind = .print ∨ kind = .poll → r.answers = n → (s.printer p).reference = some ref →
    (r.outcomeOf - ref).toNat < (n - ref).toNat → s.path p = [a, b] → ¬ (a.pack = b.pack ∧ a.serial = b.serial) →
    s.pack? a.pack = some x → s.pack? b.pack = some y → s.job? a.tag = some i → s.job? b.tag = some j →
    i.copyStates[a.copy - 1]? = some .inPath → j.copyStates[b.copy - 1]? = some .inPath →
    (a.tag = b.tag → a.copy - 1 ≠ b.copy - 1) →
    let fresh := s.freshFaultNumber
    let opened := (s.printer p).openFault
    let run := fun (length : Nat) (d : Disposition) (pos : Option Position) (fault : Nat) =>
      ({ first := a.serial, run := length, disposition := d, position := pos, fault := some fault } : ExceptionEntry)
    let age := fun e : InPathEntry => (n - e.command).toNat
    let reported := (n - r.outcomeOf).toNat
    let refused := kind = .print ∧ r.acceptance = .refused
    let lost := fun e => reported < age e
    let back := fun e =>
      (age e = reported ∧ r.outcome = .notFed) ∨ (0 < age e ∧ age e < reported) ∨ (age e = 0 ∧ refused)
    let stays := fun e => age e = 0 ∧ ¬ refused
    let inOnePack := a.pack = b.pack ∧ x.lastTaken = some b.serial ∧ (x.putBack b.serial).lastTaken = some a.serial
    let copy := fun (t : State) (e : InPathEntry) (c : CopyState) => ∃ k, t.job? e.tag = some k ∧ k.copyStates[e.copy - 1]? = some c
    let framed := fun (t : State) (rest : List InPathEntry) => s.positionsKeptButTallies t ∧
      othersKept s.ret.inPath t.ret.inPath p ∧
      (t.path p = rest ∨ ∃ f, t.path p = rest ++ [f] ∧ f.command = (s.printer p).nextCommand) ∧
      s.keepsBut t [.stockTypes, .packs, .doubtful, .inPath, .console, .windows, .faults, .nextFault, .printers, .pool]
    let returned := fun (t : State) (e : InPathEntry) (k : Pack) =>
      (t.pack? e.pack).map (fun z => (z.remaining, z.next)) = some (k.remaining + 1, some e.serial) ∧ copy t e .undispatched
    let doubted := fun (t : State) (es rest : List InPathEntry) =>
      t.ret.doubtful = s.ret.doubtful ++ es.map (doubtfulFrom p) ∧ t.path p = rest ∧ framed t rest ∧
      (∀ e ∈ es, copy t e .doubtful ∧ (t.pack? e.pack).map (·.exceptions) = (s.pack? e.pack).map fun k =>
        k.exceptions ++ (es.filter fun f => decide (f.pack = e.pack)).map (doubtRun · opened)) ∧
      (t.printer p).openFault.isSome = true ∧
      (opened = none → (t.printer p).state = .faulted ∧ ∃ f ∈ t.ret.faults, (t.printer p).openFault = some f.number ∧
        f.printer = p ∧ f.cls = .standing ∧ f.first.code = .doubt ∧ f.cleared = false ∧ f.tag = some a.tag ∧
        f.serial = some a.serial ∧ f.pack = some a.pack ∧ f.position = some a.position)
    (∀ cause, a.command = r.outcomeOf → r.outcome = .spoiled cause → stays b →
      ∃ t, exec (.printerReply p r) s = .next t ∧ framed t [b] ∧ t.ret.doubtful = s.ret.doubtful ∧ copy t b .inPath ∧
        (t.path p = [b] → copy t a .undispatched) ∧ s.spoilsOrDiscards t a x.stockType ∧
        (t.pack? a.pack).map (·.exceptions) = some (x.addRun (run 1 .spoiled (some a.position)
          (if cause = .misfeed ∨ cause = .stripe then fresh else opened.getD fresh))).exceptions) ∧
    (a.command = r.outcomeOf → age b = 0 → refused → y.lastTaken = some b.serial →
      (r.outcome = .done →
        ∃ t, exec (.printerReply p r) s = .next t ∧ framed t [] ∧ t.path p = [] ∧ t.ret.doubtful = s.ret.doubtful ∧
          copy t a .issued ∧ s.creditsOrDiscards t a x.stockType ∧ returned t b y) ∧
      (∀ cause, r.outcome = .spoiled cause →
        ∃ t, exec (.printerReply p r) s = .next t ∧ framed t [] ∧ t.path p = [] ∧ t.ret.doubtful = s.ret.doubtful ∧
          copy t a .undispatched ∧ s.spoilsOrDiscards t a x.stockType ∧ returned t b y)) ∧
    (back a → back b → inOnePack →
      ∃ t, exec (.printerReply p r) s = .next t ∧ framed t [] ∧ t.ret.doubtful = s.ret.doubtful ∧ s.talliesKept t ∧
        (t.pack? a.pack).map (·.exceptions) = some x.exceptions ∧
        (t.path p = [] → t.pack? a.pack = some { x with remaining := x.remaining + 2, next := some a.serial } ∧
          copy t a .undispatched ∧ copy t b .undispatched)) ∧
    (a.command = r.outcomeOf → r.outcome = .binEmpty → ¬ lost b → inOnePack → s.inPathOf a.pack = 2 →
      ∃ t, exec (.printerReply p r) s = .next t ∧ framed t [] ∧ t.ret.doubtful = s.ret.doubtful ∧ s.talliesKept t ∧
        (∃ f ∈ t.ret.faults, f.number = fresh ∧ f.cls = .transient ∧ f.first.code = .binEmpty ∧
          f.serial = some a.serial ∧ f.missingRun = some (x.remaining + 2)) ∧
        t.pack? a.pack = some { x with
          remaining := 0
          next := none
          condition := .exhausted
          location := .store
          exceptions := (x.addRun (run (x.remaining + 2) .missing none fresh)).exceptions } ∧
        (t.path p = [] → copy t a .undispatched ∧ copy t b .undispatched)) ∧
    (back a → stays b → a.pack = b.pack → x.lastTaken ≠ some a.serial →
      ∃ t, exec (.printerReply p r) s = .next t ∧ doubted t [a, b] [] ∧ s.talliesKept t) ∧
    (lost a → lost b → ∃ t, exec (.printerReply p r) s = .next t ∧ doubted t [a, b] [] ∧ s.talliesKept t) ∧
    (lost a → stays b → ∃ t, exec (.printerReply p r) s = .next t ∧ doubted t [a] [b] ∧ s.talliesKept t ∧ copy t b .inPath) ∧
    (lost a → back b → y.lastTaken = some b.serial →
      ∃ t, exec (.printerReply p r) s = .next t ∧ doubted t [a] [] ∧ s.talliesKept t ∧ returned t b y) ∧
    (lost a → b.command = r.outcomeOf → r.outcome = .done →
      ∃ t, exec (.printerReply p r) s = .next t ∧ doubted t [a] [] ∧ copy t b .issued ∧ s.creditsOrDiscards t b y.stockType)

/-! ### Invariants -/

/-- Every step keeps the notice queue's law and office control's (R166, R167, R181, R183). -/
def Obligations.NoticesAndOfficeStaySound : Prop :=
  (∀ s t : State, s.noticesSound → step s = .next t → t.noticesSound) ∧
    ∀ s t : State, s.officeSound → step s = .next t → t.officeSound

/-- Every step keeps the laws of the job pool and of the in-path lists; every step but a power-on that lost the retained memory
keeps the shift history's and the fault log's (R6, R53, R55, R91 to R93, R102, R104, R154). -/
def Obligations.PoolPathsAndHistoryStaySound : Prop :=
  (∀ s t : State, s.poolSound → step s = .next t → t.poolSound) ∧
  (∀ s t : State, s.pathsSound → step s = .next t → t.pathsSound) ∧
  ∀ s t : State, (∀ straps, s.pending.head? ≠ some (.powerOn straps false)) → step s = .next t →
    (s.historySound → t.historySound) ∧ (s.faultsSound → t.faultsSound)

/-- The state after reset, which the model chose (notes/assumptions/1.md), is sound in every sense of the invariants. -/
def Obligations.ResetIsSound : Prop :=
  State.reset.noticesSound ∧ State.reset.officeSound ∧ State.reset.poolSound ∧ State.reset.pathsSound ∧
    State.reset.historySound ∧ State.reset.faultsSound ∧ State.reset.stockSound

/-! ### The bytes of requests -/

/-- The bytes of every well-formed request read back as that request, every field at every value its bytes admit (chapter 11,
R188); the request code is one the part knows, and the body keeps within 240 bytes. -/
def Obligations.RequestBytesReadBack : Prop :=
  ∀ (i : Instr) (code : Nat) (pos : Position) (body : List Byte), i.wellFormed = true →
    requestBytes i = some (code, pos, body) →
      parseRequest code pos body = some i ∧ knownCode code = true ∧ body.length ≤ 240
end

