-- ==== Sys2Proof/Laws/Bytes.lean ====
section
/-! SUPPORT. The bytes of a number and the number of bytes (R188), and the CRC as one fold (R162). -/

namespace Sys2Proof

@[simp] theorem be_length (w n : Nat) : (be w n).length = w := by
  induction w generalizing n with
  | zero => rfl
  | succ w ih => simp [be, ih]

theorem ofBe_append (a : List Byte) (b : Byte) : ofBe (a ++ [b]) = ofBe a * 256 + b.toNat := by simp [ofBe]

/-- A number that fits its bytes reads back. -/
theorem ofBe_be (w n : Nat) (h : n < 256 ^ w) : ofBe (be w n) = n := by
  induction w generalizing n with
  | zero => simp only [pow_zero] at h; simp [be, ofBe]; omega
  | succ w ih =>
    have hw : n / 256 < 256 ^ w := by rw [Nat.div_lt_iff_lt_mul (by decide)]; rw [Nat.pow_succ] at h; exact h
    rw [be, ofBe_append, ih _ hw]
    simp only [BitVec.toNat_ofNat]
    omega

/-- The field that starts where the bytes before it end. -/
theorem field_append (pre post : List Byte) (w n : Nat) (h : n < 256 ^ w) :
    field (pre ++ (be w n ++ post)) pre.length w = n := by
  unfold field
  rw [List.drop_left, List.take_left' (by simp), ofBe_be w n h]

theorem crcFrom_cons (c : Nat) (b : Byte) (rest : List Byte) :
    crcFrom c (b :: rest) = crcFrom (crcByte (BitVec.ofNat 16 c) b).toNat rest := by
  rw [crcFrom]; split <;> simp_all

theorem crcFrom_eq_foldl (c : BitVec 16) (bs : List Byte) : BitVec.ofNat 16 (crcFrom c.toNat bs) = bs.foldl crcByte c := by
  induction bs generalizing c with
  | nil => simp [crcFrom]
  | cons b rest ih => rw [crcFrom_cons, BitVec.ofNat_toNat, BitVec.setWidth_eq, ih, List.foldl_cons]

/-- The CRC-16 takes the bytes in one by one from its initial value. -/
theorem crc16_eq_foldl (bs : List Byte) : crc16 bs = bs.foldl crcByte 0xFFFF#16 := crcFrom_eq_foldl 0xFFFF#16 bs

end Sys2Proof
end

