-- ==== Sys2Proof/Laws/Flash.lean ====
section
/-! SUPPORT. What a flash area reads as after a write (R177, R178): good with the set written, bad when erased, and the other areas as
they were. -/

namespace Sys2Proof.Machine

/-- An area written whole is good. -/
@[simp] theorem FlashArea.good_holding (m : SettingsImage) : (FlashArea.holding m).good = some m := by
  simp [FlashArea.good, FlashArea.holding]

/-- An area never written or erased is bad. -/
@[simp] theorem FlashArea.good_erased : FlashArea.erased.good = none := rfl

/-- What a write leaves reads as what was written. -/
@[simp] theorem FlashArea.good_written (m : Option SettingsImage) : (FlashArea.written m).good = m := by
  cases m <;> simp [FlashArea.written]

/-- A good area holds contents that its CRC matches, and a bad one does not (R177). -/
theorem FlashArea.good_eq_some (a : FlashArea) (m : SettingsImage) :
    a.good = some m ↔ a.contents = some m ∧ a.crc = m.crc := by
  simp [FlashArea.good, Option.filter_eq_some_iff]

/-- A user area reads as it was written. -/
theorem Flash.read_write (f : Flash) (a : Area) (m : Option SettingsImage) (h : a ≠ .factory) : (f.write a m).read a = m := by
  cases a <;> simp_all [Flash.write, Flash.read, Flash.user1, Flash.user2]

/-- A write leaves every other area as it was. -/
theorem Flash.read_write_other (f : Flash) (a b : Area) (m : Option SettingsImage) (h : b ≠ a) :
    (f.write a m).read b = f.read b := by
  cases a <;> cases b <;> simp_all [Flash.write, Flash.read, Flash.user1, Flash.user2, Flash.factory]

/-- No write changes the factory area (R177). -/
@[simp] theorem Flash.factory_write (f : Flash) (a : Area) (m : Option SettingsImage) : (f.write a m).factory = f.factory := by
  cases a <;> rfl

/-- What start-up finds in the flash of a new part: both user areas bad, the factory values good (R177, R186). -/
@[simp] theorem Flash.user1_new : Flash.new.user1 = none := rfl
@[simp] theorem Flash.user2_new : Flash.new.user2 = none := rfl
@[simp] theorem Flash.factory_new : Flash.new.factory = some factoryImage := FlashArea.good_holding _
@[simp] theorem Flash.firstGood_new : Flash.new.firstGood = (.factory, factoryImage) := by simp [Flash.firstGood]

end Sys2Proof.Machine
end

