-- ==== Sys2Proof/Laws/State.lean ====
section
/-! SUPPORT. One lemma per field per update of `State`, so that no proof unfolds a record update. -/

namespace Sys2Proof.Machine

@[simp] theorem State.setRet_ret (s : State) (x : Retained) : (s.setRet x).ret = x := rfl
@[simp] theorem State.setRet_printers (s : State) (x : Retained) : (s.setRet x).printers = s.printers := rfl
@[simp] theorem State.setRet_pool (s : State) (x : Retained) : (s.setRet x).pool = s.pool := rfl
@[simp] theorem State.setRet_nextTag (s : State) (x : Retained) : (s.setRet x).nextTag = s.nextTag := rfl
@[simp] theorem State.setRet_link (s : State) (x : Retained) : (s.setRet x).link = s.link := rfl
@[simp] theorem State.setRet_notices (s : State) (x : Retained) : (s.setRet x).notices = s.notices := rfl
@[simp] theorem State.setRet_live (s : State) (x : Retained) : (s.setRet x).live = s.live := rfl
@[simp] theorem State.setRet_store (s : State) (x : Retained) : (s.setRet x).store = s.store := rfl
@[simp] theorem State.setRet_flash (s : State) (x : Retained) : (s.setRet x).flash = s.flash := rfl
@[simp] theorem State.setRet_office (s : State) (x : Retained) : (s.setRet x).office = s.office := rfl
@[simp] theorem State.setRet_fitted (s : State) (x : Retained) : (s.setRet x).fitted = s.fitted := rfl
@[simp] theorem State.setRet_freeDraws (s : State) (x : Retained) : (s.setRet x).freeDraws = s.freeDraws := rfl
@[simp] theorem State.setRet_pending (s : State) (x : Retained) : (s.setRet x).pending = s.pending := rfl
@[simp] theorem State.setPrinters_ret (s : State) (x : Vector Printer 6) : (s.setPrinters x).ret = s.ret := rfl
@[simp] theorem State.setPrinters_printers (s : State) (x : Vector Printer 6) : (s.setPrinters x).printers = x := rfl
@[simp] theorem State.setPrinters_pool (s : State) (x : Vector Printer 6) : (s.setPrinters x).pool = s.pool := rfl
@[simp] theorem State.setPrinters_nextTag (s : State) (x : Vector Printer 6) : (s.setPrinters x).nextTag = s.nextTag := rfl
@[simp] theorem State.setPrinters_link (s : State) (x : Vector Printer 6) : (s.setPrinters x).link = s.link := rfl
@[simp] theorem State.setPrinters_notices (s : State) (x : Vector Printer 6) : (s.setPrinters x).notices = s.notices := rfl
@[simp] theorem State.setPrinters_live (s : State) (x : Vector Printer 6) : (s.setPrinters x).live = s.live := rfl
@[simp] theorem State.setPrinters_store (s : State) (x : Vector Printer 6) : (s.setPrinters x).store = s.store := rfl
@[simp] theorem State.setPrinters_flash (s : State) (x : Vector Printer 6) : (s.setPrinters x).flash = s.flash := rfl
@[simp] theorem State.setPrinters_office (s : State) (x : Vector Printer 6) : (s.setPrinters x).office = s.office := rfl
@[simp] theorem State.setPrinters_fitted (s : State) (x : Vector Printer 6) : (s.setPrinters x).fitted = s.fitted := rfl
@[simp] theorem State.setPrinters_freeDraws (s : State) (x : Vector Printer 6) : (s.setPrinters x).freeDraws = s.freeDraws := rfl
@[simp] theorem State.setPrinters_pending (s : State) (x : Vector Printer 6) : (s.setPrinters x).pending = s.pending := rfl
@[simp] theorem State.setPool_ret (s : State) (x : List Job) : (s.setPool x).ret = s.ret := rfl
@[simp] theorem State.setPool_printers (s : State) (x : List Job) : (s.setPool x).printers = s.printers := rfl
@[simp] theorem State.setPool_pool (s : State) (x : List Job) : (s.setPool x).pool = x := rfl
@[simp] theorem State.setPool_nextTag (s : State) (x : List Job) : (s.setPool x).nextTag = s.nextTag := rfl
@[simp] theorem State.setPool_link (s : State) (x : List Job) : (s.setPool x).link = s.link := rfl
@[simp] theorem State.setPool_notices (s : State) (x : List Job) : (s.setPool x).notices = s.notices := rfl
@[simp] theorem State.setPool_live (s : State) (x : List Job) : (s.setPool x).live = s.live := rfl
@[simp] theorem State.setPool_store (s : State) (x : List Job) : (s.setPool x).store = s.store := rfl
@[simp] theorem State.setPool_flash (s : State) (x : List Job) : (s.setPool x).flash = s.flash := rfl
@[simp] theorem State.setPool_office (s : State) (x : List Job) : (s.setPool x).office = s.office := rfl
@[simp] theorem State.setPool_fitted (s : State) (x : List Job) : (s.setPool x).fitted = s.fitted := rfl
@[simp] theorem State.setPool_freeDraws (s : State) (x : List Job) : (s.setPool x).freeDraws = s.freeDraws := rfl
@[simp] theorem State.setPool_pending (s : State) (x : List Job) : (s.setPool x).pending = s.pending := rfl
@[simp] theorem State.setNextTag_ret (s : State) (x : Nat) : (s.setNextTag x).ret = s.ret := rfl
@[simp] theorem State.setNextTag_printers (s : State) (x : Nat) : (s.setNextTag x).printers = s.printers := rfl
@[simp] theorem State.setNextTag_pool (s : State) (x : Nat) : (s.setNextTag x).pool = s.pool := rfl
@[simp] theorem State.setNextTag_nextTag (s : State) (x : Nat) : (s.setNextTag x).nextTag = x := rfl
@[simp] theorem State.setNextTag_link (s : State) (x : Nat) : (s.setNextTag x).link = s.link := rfl
@[simp] theorem State.setNextTag_notices (s : State) (x : Nat) : (s.setNextTag x).notices = s.notices := rfl
@[simp] theorem State.setNextTag_live (s : State) (x : Nat) : (s.setNextTag x).live = s.live := rfl
@[simp] theorem State.setNextTag_store (s : State) (x : Nat) : (s.setNextTag x).store = s.store := rfl
@[simp] theorem State.setNextTag_flash (s : State) (x : Nat) : (s.setNextTag x).flash = s.flash := rfl
@[simp] theorem State.setNextTag_office (s : State) (x : Nat) : (s.setNextTag x).office = s.office := rfl
@[simp] theorem State.setNextTag_fitted (s : State) (x : Nat) : (s.setNextTag x).fitted = s.fitted := rfl
@[simp] theorem State.setNextTag_freeDraws (s : State) (x : Nat) : (s.setNextTag x).freeDraws = s.freeDraws := rfl
@[simp] theorem State.setNextTag_pending (s : State) (x : Nat) : (s.setNextTag x).pending = s.pending := rfl
@[simp] theorem State.setLink_ret (s : State) (x : Link) : (s.setLink x).ret = s.ret := rfl
@[simp] theorem State.setLink_printers (s : State) (x : Link) : (s.setLink x).printers = s.printers := rfl
@[simp] theorem State.setLink_pool (s : State) (x : Link) : (s.setLink x).pool = s.pool := rfl
@[simp] theorem State.setLink_nextTag (s : State) (x : Link) : (s.setLink x).nextTag = s.nextTag := rfl
@[simp] theorem State.setLink_link (s : State) (x : Link) : (s.setLink x).link = x := rfl
@[simp] theorem State.setLink_notices (s : State) (x : Link) : (s.setLink x).notices = s.notices := rfl
@[simp] theorem State.setLink_live (s : State) (x : Link) : (s.setLink x).live = s.live := rfl
@[simp] theorem State.setLink_store (s : State) (x : Link) : (s.setLink x).store = s.store := rfl
@[simp] theorem State.setLink_flash (s : State) (x : Link) : (s.setLink x).flash = s.flash := rfl
@[simp] theorem State.setLink_office (s : State) (x : Link) : (s.setLink x).office = s.office := rfl
@[simp] theorem State.setLink_fitted (s : State) (x : Link) : (s.setLink x).fitted = s.fitted := rfl
@[simp] theorem State.setLink_freeDraws (s : State) (x : Link) : (s.setLink x).freeDraws = s.freeDraws := rfl
@[simp] theorem State.setLink_pending (s : State) (x : Link) : (s.setLink x).pending = s.pending := rfl
@[simp] theorem State.setNotices_ret (s : State) (x : NoticeQueue) : (s.setNotices x).ret = s.ret := rfl
@[simp] theorem State.setNotices_printers (s : State) (x : NoticeQueue) : (s.setNotices x).printers = s.printers := rfl
@[simp] theorem State.setNotices_pool (s : State) (x : NoticeQueue) : (s.setNotices x).pool = s.pool := rfl
@[simp] theorem State.setNotices_nextTag (s : State) (x : NoticeQueue) : (s.setNotices x).nextTag = s.nextTag := rfl
@[simp] theorem State.setNotices_link (s : State) (x : NoticeQueue) : (s.setNotices x).link = s.link := rfl
@[simp] theorem State.setNotices_notices (s : State) (x : NoticeQueue) : (s.setNotices x).notices = x := rfl
@[simp] theorem State.setNotices_live (s : State) (x : NoticeQueue) : (s.setNotices x).live = s.live := rfl
@[simp] theorem State.setNotices_store (s : State) (x : NoticeQueue) : (s.setNotices x).store = s.store := rfl
@[simp] theorem State.setNotices_flash (s : State) (x : NoticeQueue) : (s.setNotices x).flash = s.flash := rfl
@[simp] theorem State.setNotices_office (s : State) (x : NoticeQueue) : (s.setNotices x).office = s.office := rfl
@[simp] theorem State.setNotices_fitted (s : State) (x : NoticeQueue) : (s.setNotices x).fitted = s.fitted := rfl
@[simp] theorem State.setNotices_freeDraws (s : State) (x : NoticeQueue) : (s.setNotices x).freeDraws = s.freeDraws := rfl
@[simp] theorem State.setNotices_pending (s : State) (x : NoticeQueue) : (s.setNotices x).pending = s.pending := rfl
@[simp] theorem State.setLive_ret (s : State) (x : LiveSettings) : (s.setLive x).ret = s.ret := rfl
@[simp] theorem State.setLive_printers (s : State) (x : LiveSettings) : (s.setLive x).printers = s.printers := rfl
@[simp] theorem State.setLive_pool (s : State) (x : LiveSettings) : (s.setLive x).pool = s.pool := rfl
@[simp] theorem State.setLive_nextTag (s : State) (x : LiveSettings) : (s.setLive x).nextTag = s.nextTag := rfl
@[simp] theorem State.setLive_link (s : State) (x : LiveSettings) : (s.setLive x).link = s.link := rfl
@[simp] theorem State.setLive_notices (s : State) (x : LiveSettings) : (s.setLive x).notices = s.notices := rfl
@[simp] theorem State.setLive_live (s : State) (x : LiveSettings) : (s.setLive x).live = x := rfl
@[simp] theorem State.setLive_store (s : State) (x : LiveSettings) : (s.setLive x).store = s.store := rfl
@[simp] theorem State.setLive_flash (s : State) (x : LiveSettings) : (s.setLive x).flash = s.flash := rfl
@[simp] theorem State.setLive_office (s : State) (x : LiveSettings) : (s.setLive x).office = s.office := rfl
@[simp] theorem State.setLive_fitted (s : State) (x : LiveSettings) : (s.setLive x).fitted = s.fitted := rfl
@[simp] theorem State.setLive_freeDraws (s : State) (x : LiveSettings) : (s.setLive x).freeDraws = s.freeDraws := rfl
@[simp] theorem State.setLive_pending (s : State) (x : LiveSettings) : (s.setLive x).pending = s.pending := rfl
@[simp] theorem State.setStore_ret (s : State) (x : Store) : (s.setStore x).ret = s.ret := rfl
@[simp] theorem State.setStore_printers (s : State) (x : Store) : (s.setStore x).printers = s.printers := rfl
@[simp] theorem State.setStore_pool (s : State) (x : Store) : (s.setStore x).pool = s.pool := rfl
@[simp] theorem State.setStore_nextTag (s : State) (x : Store) : (s.setStore x).nextTag = s.nextTag := rfl
@[simp] theorem State.setStore_link (s : State) (x : Store) : (s.setStore x).link = s.link := rfl
@[simp] theorem State.setStore_notices (s : State) (x : Store) : (s.setStore x).notices = s.notices := rfl
@[simp] theorem State.setStore_live (s : State) (x : Store) : (s.setStore x).live = s.live := rfl
@[simp] theorem State.setStore_store (s : State) (x : Store) : (s.setStore x).store = x := rfl
@[simp] theorem State.setStore_flash (s : State) (x : Store) : (s.setStore x).flash = s.flash := rfl
@[simp] theorem State.setStore_office (s : State) (x : Store) : (s.setStore x).office = s.office := rfl
@[simp] theorem State.setStore_fitted (s : State) (x : Store) : (s.setStore x).fitted = s.fitted := rfl
@[simp] theorem State.setStore_freeDraws (s : State) (x : Store) : (s.setStore x).freeDraws = s.freeDraws := rfl
@[simp] theorem State.setStore_pending (s : State) (x : Store) : (s.setStore x).pending = s.pending := rfl
@[simp] theorem State.setFlash_ret (s : State) (x : Flash) : (s.setFlash x).ret = s.ret := rfl
@[simp] theorem State.setFlash_printers (s : State) (x : Flash) : (s.setFlash x).printers = s.printers := rfl
@[simp] theorem State.setFlash_pool (s : State) (x : Flash) : (s.setFlash x).pool = s.pool := rfl
@[simp] theorem State.setFlash_nextTag (s : State) (x : Flash) : (s.setFlash x).nextTag = s.nextTag := rfl
@[simp] theorem State.setFlash_link (s : State) (x : Flash) : (s.setFlash x).link = s.link := rfl
@[simp] theorem State.setFlash_notices (s : State) (x : Flash) : (s.setFlash x).notices = s.notices := rfl
@[simp] theorem State.setFlash_live (s : State) (x : Flash) : (s.setFlash x).live = s.live := rfl
@[simp] theorem State.setFlash_store (s : State) (x : Flash) : (s.setFlash x).store = s.store := rfl
@[simp] theorem State.setFlash_flash (s : State) (x : Flash) : (s.setFlash x).flash = x := rfl
@[simp] theorem State.setFlash_office (s : State) (x : Flash) : (s.setFlash x).office = s.office := rfl
@[simp] theorem State.setFlash_fitted (s : State) (x : Flash) : (s.setFlash x).fitted = s.fitted := rfl
@[simp] theorem State.setFlash_freeDraws (s : State) (x : Flash) : (s.setFlash x).freeDraws = s.freeDraws := rfl
@[simp] theorem State.setFlash_pending (s : State) (x : Flash) : (s.setFlash x).pending = s.pending := rfl
@[simp] theorem State.setOffice_ret (s : State) (x : Office) : (s.setOffice x).ret = s.ret := rfl
@[simp] theorem State.setOffice_printers (s : State) (x : Office) : (s.setOffice x).printers = s.printers := rfl
@[simp] theorem State.setOffice_pool (s : State) (x : Office) : (s.setOffice x).pool = s.pool := rfl
@[simp] theorem State.setOffice_nextTag (s : State) (x : Office) : (s.setOffice x).nextTag = s.nextTag := rfl
@[simp] theorem State.setOffice_link (s : State) (x : Office) : (s.setOffice x).link = s.link := rfl
@[simp] theorem State.setOffice_notices (s : State) (x : Office) : (s.setOffice x).notices = s.notices := rfl
@[simp] theorem State.setOffice_live (s : State) (x : Office) : (s.setOffice x).live = s.live := rfl
@[simp] theorem State.setOffice_store (s : State) (x : Office) : (s.setOffice x).store = s.store := rfl
@[simp] theorem State.setOffice_flash (s : State) (x : Office) : (s.setOffice x).flash = s.flash := rfl
@[simp] theorem State.setOffice_office (s : State) (x : Office) : (s.setOffice x).office = x := rfl
@[simp] theorem State.setOffice_fitted (s : State) (x : Office) : (s.setOffice x).fitted = s.fitted := rfl
@[simp] theorem State.setOffice_freeDraws (s : State) (x : Office) : (s.setOffice x).freeDraws = s.freeDraws := rfl
@[simp] theorem State.setOffice_pending (s : State) (x : Office) : (s.setOffice x).pending = s.pending := rfl
@[simp] theorem State.setFitted_ret (s : State) (x : Nat) : (s.setFitted x).ret = s.ret := rfl
@[simp] theorem State.setFitted_printers (s : State) (x : Nat) : (s.setFitted x).printers = s.printers := rfl
@[simp] theorem State.setFitted_pool (s : State) (x : Nat) : (s.setFitted x).pool = s.pool := rfl
@[simp] theorem State.setFitted_nextTag (s : State) (x : Nat) : (s.setFitted x).nextTag = s.nextTag := rfl
@[simp] theorem State.setFitted_link (s : State) (x : Nat) : (s.setFitted x).link = s.link := rfl
@[simp] theorem State.setFitted_notices (s : State) (x : Nat) : (s.setFitted x).notices = s.notices := rfl
@[simp] theorem State.setFitted_live (s : State) (x : Nat) : (s.setFitted x).live = s.live := rfl
@[simp] theorem State.setFitted_store (s : State) (x : Nat) : (s.setFitted x).store = s.store := rfl
@[simp] theorem State.setFitted_flash (s : State) (x : Nat) : (s.setFitted x).flash = s.flash := rfl
@[simp] theorem State.setFitted_office (s : State) (x : Nat) : (s.setFitted x).office = s.office := rfl
@[simp] theorem State.setFitted_fitted (s : State) (x : Nat) : (s.setFitted x).fitted = x := rfl
@[simp] theorem State.setFitted_freeDraws (s : State) (x : Nat) : (s.setFitted x).freeDraws = s.freeDraws := rfl
@[simp] theorem State.setFitted_pending (s : State) (x : Nat) : (s.setFitted x).pending = s.pending := rfl
@[simp] theorem State.setFreeDraws_ret (s : State) (x : Nat) : (s.setFreeDraws x).ret = s.ret := rfl
@[simp] theorem State.setFreeDraws_printers (s : State) (x : Nat) : (s.setFreeDraws x).printers = s.printers := rfl
@[simp] theorem State.setFreeDraws_pool (s : State) (x : Nat) : (s.setFreeDraws x).pool = s.pool := rfl
@[simp] theorem State.setFreeDraws_nextTag (s : State) (x : Nat) : (s.setFreeDraws x).nextTag = s.nextTag := rfl
@[simp] theorem State.setFreeDraws_link (s : State) (x : Nat) : (s.setFreeDraws x).link = s.link := rfl
@[simp] theorem State.setFreeDraws_notices (s : State) (x : Nat) : (s.setFreeDraws x).notices = s.notices := rfl
@[simp] theorem State.setFreeDraws_live (s : State) (x : Nat) : (s.setFreeDraws x).live = s.live := rfl
@[simp] theorem State.setFreeDraws_store (s : State) (x : Nat) : (s.setFreeDraws x).store = s.store := rfl
@[simp] theorem State.setFreeDraws_flash (s : State) (x : Nat) : (s.setFreeDraws x).flash = s.flash := rfl
@[simp] theorem State.setFreeDraws_office (s : State) (x : Nat) : (s.setFreeDraws x).office = s.office := rfl
@[simp] theorem State.setFreeDraws_fitted (s : State) (x : Nat) : (s.setFreeDraws x).fitted = s.fitted := rfl
@[simp] theorem State.setFreeDraws_freeDraws (s : State) (x : Nat) : (s.setFreeDraws x).freeDraws = x := rfl
@[simp] theorem State.setFreeDraws_pending (s : State) (x : Nat) : (s.setFreeDraws x).pending = s.pending := rfl
@[simp] theorem State.setPending_ret (s : State) (x : List Instr) : (s.setPending x).ret = s.ret := rfl
@[simp] theorem State.setPending_printers (s : State) (x : List Instr) : (s.setPending x).printers = s.printers := rfl
@[simp] theorem State.setPending_pool (s : State) (x : List Instr) : (s.setPending x).pool = s.pool := rfl
@[simp] theorem State.setPending_nextTag (s : State) (x : List Instr) : (s.setPending x).nextTag = s.nextTag := rfl
@[simp] theorem State.setPending_link (s : State) (x : List Instr) : (s.setPending x).link = s.link := rfl
@[simp] theorem State.setPending_notices (s : State) (x : List Instr) : (s.setPending x).notices = s.notices := rfl
@[simp] theorem State.setPending_live (s : State) (x : List Instr) : (s.setPending x).live = s.live := rfl
@[simp] theorem State.setPending_store (s : State) (x : List Instr) : (s.setPending x).store = s.store := rfl
@[simp] theorem State.setPending_flash (s : State) (x : List Instr) : (s.setPending x).flash = s.flash := rfl
@[simp] theorem State.setPending_office (s : State) (x : List Instr) : (s.setPending x).office = s.office := rfl
@[simp] theorem State.setPending_fitted (s : State) (x : List Instr) : (s.setPending x).fitted = s.fitted := rfl
@[simp] theorem State.setPending_freeDraws (s : State) (x : List Instr) : (s.setPending x).freeDraws = s.freeDraws := rfl
@[simp] theorem State.setPending_pending (s : State) (x : List Instr) : (s.setPending x).pending = x := rfl
@[simp] theorem State.setStockTypes_printers (s : State) (x : Vector StockType 8) : (s.setStockTypes x).printers = s.printers := rfl
@[simp] theorem State.setStockTypes_pool (s : State) (x : Vector StockType 8) : (s.setStockTypes x).pool = s.pool := rfl
@[simp] theorem State.setStockTypes_nextTag (s : State) (x : Vector StockType 8) : (s.setStockTypes x).nextTag = s.nextTag := rfl
@[simp] theorem State.setStockTypes_link (s : State) (x : Vector StockType 8) : (s.setStockTypes x).link = s.link := rfl
@[simp] theorem State.setStockTypes_notices (s : State) (x : Vector StockType 8) : (s.setStockTypes x).notices = s.notices := rfl
@[simp] theorem State.setStockTypes_live (s : State) (x : Vector StockType 8) : (s.setStockTypes x).live = s.live := rfl
@[simp] theorem State.setStockTypes_store (s : State) (x : Vector StockType 8) : (s.setStockTypes x).store = s.store := rfl
@[simp] theorem State.setStockTypes_flash (s : State) (x : Vector StockType 8) : (s.setStockTypes x).flash = s.flash := rfl
@[simp] theorem State.setStockTypes_office (s : State) (x : Vector StockType 8) : (s.setStockTypes x).office = s.office := rfl
@[simp] theorem State.setStockTypes_fitted (s : State) (x : Vector StockType 8) : (s.setStockTypes x).fitted = s.fitted := rfl
@[simp] theorem State.setStockTypes_freeDraws (s : State) (x : Vector StockType 8) : (s.setStockTypes x).freeDraws = s.freeDraws := rfl
@[simp] theorem State.setStockTypes_pending (s : State) (x : Vector StockType 8) : (s.setStockTypes x).pending = s.pending := rfl
@[simp] theorem State.setStockTypes_ret_stockTypes (s : State) (x : Vector StockType 8) : (s.setStockTypes x).ret.stockTypes = x := rfl
@[simp] theorem State.setStockTypes_ret_packs (s : State) (x : Vector StockType 8) : (s.setStockTypes x).ret.packs = s.ret.packs := rfl
@[simp] theorem State.setStockTypes_ret_doubtful (s : State) (x : Vector StockType 8) : (s.setStockTypes x).ret.doubtful = s.ret.doubtful := rfl
@[simp] theorem State.setStockTypes_ret_inPath (s : State) (x : Vector StockType 8) : (s.setStockTypes x).ret.inPath = s.ret.inPath := rfl
@[simp] theorem State.setStockTypes_ret_console (s : State) (x : Vector StockType 8) : (s.setStockTypes x).ret.console = s.ret.console := rfl
@[simp] theorem State.setStockTypes_ret_windows (s : State) (x : Vector StockType 8) : (s.setStockTypes x).ret.windows = s.ret.windows := rfl
@[simp] theorem State.setStockTypes_ret_nextShift (s : State) (x : Vector StockType 8) : (s.setStockTypes x).ret.nextShift = s.ret.nextShift := rfl
@[simp] theorem State.setStockTypes_ret_history (s : State) (x : Vector StockType 8) : (s.setStockTypes x).ret.history = s.ret.history := rfl
@[simp] theorem State.setStockTypes_ret_faults (s : State) (x : Vector StockType 8) : (s.setStockTypes x).ret.faults = s.ret.faults := rfl
@[simp] theorem State.setStockTypes_ret_nextFault (s : State) (x : Vector StockType 8) : (s.setStockTypes x).ret.nextFault = s.ret.nextFault := rfl
@[simp] theorem State.setStockTypes_ret_audit (s : State) (x : Vector StockType 8) : (s.setStockTypes x).ret.audit = s.ret.audit := rfl
@[simp] theorem State.setStockTypes_ret_checksumMatches (s : State) (x : Vector StockType 8) : (s.setStockTypes x).ret.checksumMatches = s.ret.checksumMatches := rfl
@[simp] theorem State.setPacks_printers (s : State) (x : List Pack) : (s.setPacks x).printers = s.printers := rfl
@[simp] theorem State.setPacks_pool (s : State) (x : List Pack) : (s.setPacks x).pool = s.pool := rfl
@[simp] theorem State.setPacks_nextTag (s : State) (x : List Pack) : (s.setPacks x).nextTag = s.nextTag := rfl
@[simp] theorem State.setPacks_link (s : State) (x : List Pack) : (s.setPacks x).link = s.link := rfl
@[simp] theorem State.setPacks_notices (s : State) (x : List Pack) : (s.setPacks x).notices = s.notices := rfl
@[simp] theorem State.setPacks_live (s : State) (x : List Pack) : (s.setPacks x).live = s.live := rfl
@[simp] theorem State.setPacks_store (s : State) (x : List Pack) : (s.setPacks x).store = s.store := rfl
@[simp] theorem State.setPacks_flash (s : State) (x : List Pack) : (s.setPacks x).flash = s.flash := rfl
@[simp] theorem State.setPacks_office (s : State) (x : List Pack) : (s.setPacks x).office = s.office := rfl
@[simp] theorem State.setPacks_fitted (s : State) (x : List Pack) : (s.setPacks x).fitted = s.fitted := rfl
@[simp] theorem State.setPacks_freeDraws (s : State) (x : List Pack) : (s.setPacks x).freeDraws = s.freeDraws := rfl
@[simp] theorem State.setPacks_pending (s : State) (x : List Pack) : (s.setPacks x).pending = s.pending := rfl
@[simp] theorem State.setPacks_ret_stockTypes (s : State) (x : List Pack) : (s.setPacks x).ret.stockTypes = s.ret.stockTypes := rfl
@[simp] theorem State.setPacks_ret_packs (s : State) (x : List Pack) : (s.setPacks x).ret.packs = x := rfl
@[simp] theorem State.setPacks_ret_doubtful (s : State) (x : List Pack) : (s.setPacks x).ret.doubtful = s.ret.doubtful := rfl
@[simp] theorem State.setPacks_ret_inPath (s : State) (x : List Pack) : (s.setPacks x).ret.inPath = s.ret.inPath := rfl
@[simp] theorem State.setPacks_ret_console (s : State) (x : List Pack) : (s.setPacks x).ret.console = s.ret.console := rfl
@[simp] theorem State.setPacks_ret_windows (s : State) (x : List Pack) : (s.setPacks x).ret.windows = s.ret.windows := rfl
@[simp] theorem State.setPacks_ret_nextShift (s : State) (x : List Pack) : (s.setPacks x).ret.nextShift = s.ret.nextShift := rfl
@[simp] theorem State.setPacks_ret_history (s : State) (x : List Pack) : (s.setPacks x).ret.history = s.ret.history := rfl
@[simp] theorem State.setPacks_ret_faults (s : State) (x : List Pack) : (s.setPacks x).ret.faults = s.ret.faults := rfl
@[simp] theorem State.setPacks_ret_nextFault (s : State) (x : List Pack) : (s.setPacks x).ret.nextFault = s.ret.nextFault := rfl
@[simp] theorem State.setPacks_ret_audit (s : State) (x : List Pack) : (s.setPacks x).ret.audit = s.ret.audit := rfl
@[simp] theorem State.setPacks_ret_checksumMatches (s : State) (x : List Pack) : (s.setPacks x).ret.checksumMatches = s.ret.checksumMatches := rfl
@[simp] theorem State.setDoubtful_printers (s : State) (x : List DoubtfulEntry) : (s.setDoubtful x).printers = s.printers := rfl
@[simp] theorem State.setDoubtful_pool (s : State) (x : List DoubtfulEntry) : (s.setDoubtful x).pool = s.pool := rfl
@[simp] theorem State.setDoubtful_nextTag (s : State) (x : List DoubtfulEntry) : (s.setDoubtful x).nextTag = s.nextTag := rfl
@[simp] theorem State.setDoubtful_link (s : State) (x : List DoubtfulEntry) : (s.setDoubtful x).link = s.link := rfl
@[simp] theorem State.setDoubtful_notices (s : State) (x : List DoubtfulEntry) : (s.setDoubtful x).notices = s.notices := rfl
@[simp] theorem State.setDoubtful_live (s : State) (x : List DoubtfulEntry) : (s.setDoubtful x).live = s.live := rfl
@[simp] theorem State.setDoubtful_store (s : State) (x : List DoubtfulEntry) : (s.setDoubtful x).store = s.store := rfl
@[simp] theorem State.setDoubtful_flash (s : State) (x : List DoubtfulEntry) : (s.setDoubtful x).flash = s.flash := rfl
@[simp] theorem State.setDoubtful_office (s : State) (x : List DoubtfulEntry) : (s.setDoubtful x).office = s.office := rfl
@[simp] theorem State.setDoubtful_fitted (s : State) (x : List DoubtfulEntry) : (s.setDoubtful x).fitted = s.fitted := rfl
@[simp] theorem State.setDoubtful_freeDraws (s : State) (x : List DoubtfulEntry) : (s.setDoubtful x).freeDraws = s.freeDraws := rfl
@[simp] theorem State.setDoubtful_pending (s : State) (x : List DoubtfulEntry) : (s.setDoubtful x).pending = s.pending := rfl
@[simp] theorem State.setDoubtful_ret_stockTypes (s : State) (x : List DoubtfulEntry) : (s.setDoubtful x).ret.stockTypes = s.ret.stockTypes := rfl
@[simp] theorem State.setDoubtful_ret_packs (s : State) (x : List DoubtfulEntry) : (s.setDoubtful x).ret.packs = s.ret.packs := rfl
@[simp] theorem State.setDoubtful_ret_doubtful (s : State) (x : List DoubtfulEntry) : (s.setDoubtful x).ret.doubtful = x := rfl
@[simp] theorem State.setDoubtful_ret_inPath (s : State) (x : List DoubtfulEntry) : (s.setDoubtful x).ret.inPath = s.ret.inPath := rfl
@[simp] theorem State.setDoubtful_ret_console (s : State) (x : List DoubtfulEntry) : (s.setDoubtful x).ret.console = s.ret.console := rfl
@[simp] theorem State.setDoubtful_ret_windows (s : State) (x : List DoubtfulEntry) : (s.setDoubtful x).ret.windows = s.ret.windows := rfl
@[simp] theorem State.setDoubtful_ret_nextShift (s : State) (x : List DoubtfulEntry) : (s.setDoubtful x).ret.nextShift = s.ret.nextShift := rfl
@[simp] theorem State.setDoubtful_ret_history (s : State) (x : List DoubtfulEntry) : (s.setDoubtful x).ret.history = s.ret.history := rfl
@[simp] theorem State.setDoubtful_ret_faults (s : State) (x : List DoubtfulEntry) : (s.setDoubtful x).ret.faults = s.ret.faults := rfl
@[simp] theorem State.setDoubtful_ret_nextFault (s : State) (x : List DoubtfulEntry) : (s.setDoubtful x).ret.nextFault = s.ret.nextFault := rfl
@[simp] theorem State.setDoubtful_ret_audit (s : State) (x : List DoubtfulEntry) : (s.setDoubtful x).ret.audit = s.ret.audit := rfl
@[simp] theorem State.setDoubtful_ret_checksumMatches (s : State) (x : List DoubtfulEntry) : (s.setDoubtful x).ret.checksumMatches = s.ret.checksumMatches := rfl
@[simp] theorem State.setInPath_printers (s : State) (x : Vector (List InPathEntry) 6) : (s.setInPath x).printers = s.printers := rfl
@[simp] theorem State.setInPath_pool (s : State) (x : Vector (List InPathEntry) 6) : (s.setInPath x).pool = s.pool := rfl
@[simp] theorem State.setInPath_nextTag (s : State) (x : Vector (List InPathEntry) 6) : (s.setInPath x).nextTag = s.nextTag := rfl
@[simp] theorem State.setInPath_link (s : State) (x : Vector (List InPathEntry) 6) : (s.setInPath x).link = s.link := rfl
@[simp] theorem State.setInPath_notices (s : State) (x : Vector (List InPathEntry) 6) : (s.setInPath x).notices = s.notices := rfl
@[simp] theorem State.setInPath_live (s : State) (x : Vector (List InPathEntry) 6) : (s.setInPath x).live = s.live := rfl
@[simp] theorem State.setInPath_store (s : State) (x : Vector (List InPathEntry) 6) : (s.setInPath x).store = s.store := rfl
@[simp] theorem State.setInPath_flash (s : State) (x : Vector (List InPathEntry) 6) : (s.setInPath x).flash = s.flash := rfl
@[simp] theorem State.setInPath_office (s : State) (x : Vector (List InPathEntry) 6) : (s.setInPath x).office = s.office := rfl
@[simp] theorem State.setInPath_fitted (s : State) (x : Vector (List InPathEntry) 6) : (s.setInPath x).fitted = s.fitted := rfl
@[simp] theorem State.setInPath_freeDraws (s : State) (x : Vector (List InPathEntry) 6) : (s.setInPath x).freeDraws = s.freeDraws := rfl
@[simp] theorem State.setInPath_pending (s : State) (x : Vector (List InPathEntry) 6) : (s.setInPath x).pending = s.pending := rfl
@[simp] theorem State.setInPath_ret_stockTypes (s : State) (x : Vector (List InPathEntry) 6) : (s.setInPath x).ret.stockTypes = s.ret.stockTypes := rfl
@[simp] theorem State.setInPath_ret_packs (s : State) (x : Vector (List InPathEntry) 6) : (s.setInPath x).ret.packs = s.ret.packs := rfl
@[simp] theorem State.setInPath_ret_doubtful (s : State) (x : Vector (List InPathEntry) 6) : (s.setInPath x).ret.doubtful = s.ret.doubtful := rfl
@[simp] theorem State.setInPath_ret_inPath (s : State) (x : Vector (List InPathEntry) 6) : (s.setInPath x).ret.inPath = x := rfl
@[simp] theorem State.setInPath_ret_console (s : State) (x : Vector (List InPathEntry) 6) : (s.setInPath x).ret.console = s.ret.console := rfl
@[simp] theorem State.setInPath_ret_windows (s : State) (x : Vector (List InPathEntry) 6) : (s.setInPath x).ret.windows = s.ret.windows := rfl
@[simp] theorem State.setInPath_ret_nextShift (s : State) (x : Vector (List InPathEntry) 6) : (s.setInPath x).ret.nextShift = s.ret.nextShift := rfl
@[simp] theorem State.setInPath_ret_history (s : State) (x : Vector (List InPathEntry) 6) : (s.setInPath x).ret.history = s.ret.history := rfl
@[simp] theorem State.setInPath_ret_faults (s : State) (x : Vector (List InPathEntry) 6) : (s.setInPath x).ret.faults = s.ret.faults := rfl
@[simp] theorem State.setInPath_ret_nextFault (s : State) (x : Vector (List InPathEntry) 6) : (s.setInPath x).ret.nextFault = s.ret.nextFault := rfl
@[simp] theorem State.setInPath_ret_audit (s : State) (x : Vector (List InPathEntry) 6) : (s.setInPath x).ret.audit = s.ret.audit := rfl
@[simp] theorem State.setInPath_ret_checksumMatches (s : State) (x : Vector (List InPathEntry) 6) : (s.setInPath x).ret.checksumMatches = s.ret.checksumMatches := rfl
@[simp] theorem State.setConsole_printers (s : State) (x : ConsoleRecord) : (s.setConsole x).printers = s.printers := rfl
@[simp] theorem State.setConsole_pool (s : State) (x : ConsoleRecord) : (s.setConsole x).pool = s.pool := rfl
@[simp] theorem State.setConsole_nextTag (s : State) (x : ConsoleRecord) : (s.setConsole x).nextTag = s.nextTag := rfl
@[simp] theorem State.setConsole_link (s : State) (x : ConsoleRecord) : (s.setConsole x).link = s.link := rfl
@[simp] theorem State.setConsole_notices (s : State) (x : ConsoleRecord) : (s.setConsole x).notices = s.notices := rfl
@[simp] theorem State.setConsole_live (s : State) (x : ConsoleRecord) : (s.setConsole x).live = s.live := rfl
@[simp] theorem State.setConsole_store (s : State) (x : ConsoleRecord) : (s.setConsole x).store = s.store := rfl
@[simp] theorem State.setConsole_flash (s : State) (x : ConsoleRecord) : (s.setConsole x).flash = s.flash := rfl
@[simp] theorem State.setConsole_office (s : State) (x : ConsoleRecord) : (s.setConsole x).office = s.office := rfl
@[simp] theorem State.setConsole_fitted (s : State) (x : ConsoleRecord) : (s.setConsole x).fitted = s.fitted := rfl
@[simp] theorem State.setConsole_freeDraws (s : State) (x : ConsoleRecord) : (s.setConsole x).freeDraws = s.freeDraws := rfl
@[simp] theorem State.setConsole_pending (s : State) (x : ConsoleRecord) : (s.setConsole x).pending = s.pending := rfl
@[simp] theorem State.setConsole_ret_stockTypes (s : State) (x : ConsoleRecord) : (s.setConsole x).ret.stockTypes = s.ret.stockTypes := rfl
@[simp] theorem State.setConsole_ret_packs (s : State) (x : ConsoleRecord) : (s.setConsole x).ret.packs = s.ret.packs := rfl
@[simp] theorem State.setConsole_ret_doubtful (s : State) (x : ConsoleRecord) : (s.setConsole x).ret.doubtful = s.ret.doubtful := rfl
@[simp] theorem State.setConsole_ret_inPath (s : State) (x : ConsoleRecord) : (s.setConsole x).ret.inPath = s.ret.inPath := rfl
@[simp] theorem State.setConsole_ret_console (s : State) (x : ConsoleRecord) : (s.setConsole x).ret.console = x := rfl
@[simp] theorem State.setConsole_ret_windows (s : State) (x : ConsoleRecord) : (s.setConsole x).ret.windows = s.ret.windows := rfl
@[simp] theorem State.setConsole_ret_nextShift (s : State) (x : ConsoleRecord) : (s.setConsole x).ret.nextShift = s.ret.nextShift := rfl
@[simp] theorem State.setConsole_ret_history (s : State) (x : ConsoleRecord) : (s.setConsole x).ret.history = s.ret.history := rfl
@[simp] theorem State.setConsole_ret_faults (s : State) (x : ConsoleRecord) : (s.setConsole x).ret.faults = s.ret.faults := rfl
@[simp] theorem State.setConsole_ret_nextFault (s : State) (x : ConsoleRecord) : (s.setConsole x).ret.nextFault = s.ret.nextFault := rfl
@[simp] theorem State.setConsole_ret_audit (s : State) (x : ConsoleRecord) : (s.setConsole x).ret.audit = s.ret.audit := rfl
@[simp] theorem State.setConsole_ret_checksumMatches (s : State) (x : ConsoleRecord) : (s.setConsole x).ret.checksumMatches = s.ret.checksumMatches := rfl
@[simp] theorem State.setWindows_printers (s : State) (x : Vector WindowRecord 15) : (s.setWindows x).printers = s.printers := rfl
@[simp] theorem State.setWindows_pool (s : State) (x : Vector WindowRecord 15) : (s.setWindows x).pool = s.pool := rfl
@[simp] theorem State.setWindows_nextTag (s : State) (x : Vector WindowRecord 15) : (s.setWindows x).nextTag = s.nextTag := rfl
@[simp] theorem State.setWindows_link (s : State) (x : Vector WindowRecord 15) : (s.setWindows x).link = s.link := rfl
@[simp] theorem State.setWindows_notices (s : State) (x : Vector WindowRecord 15) : (s.setWindows x).notices = s.notices := rfl
@[simp] theorem State.setWindows_live (s : State) (x : Vector WindowRecord 15) : (s.setWindows x).live = s.live := rfl
@[simp] theorem State.setWindows_store (s : State) (x : Vector WindowRecord 15) : (s.setWindows x).store = s.store := rfl
@[simp] theorem State.setWindows_flash (s : State) (x : Vector WindowRecord 15) : (s.setWindows x).flash = s.flash := rfl
@[simp] theorem State.setWindows_office (s : State) (x : Vector WindowRecord 15) : (s.setWindows x).office = s.office := rfl
@[simp] theorem State.setWindows_fitted (s : State) (x : Vector WindowRecord 15) : (s.setWindows x).fitted = s.fitted := rfl
@[simp] theorem State.setWindows_freeDraws (s : State) (x : Vector WindowRecord 15) : (s.setWindows x).freeDraws = s.freeDraws := rfl
@[simp] theorem State.setWindows_pending (s : State) (x : Vector WindowRecord 15) : (s.setWindows x).pending = s.pending := rfl
@[simp] theorem State.setWindows_ret_stockTypes (s : State) (x : Vector WindowRecord 15) : (s.setWindows x).ret.stockTypes = s.ret.stockTypes := rfl
@[simp] theorem State.setWindows_ret_packs (s : State) (x : Vector WindowRecord 15) : (s.setWindows x).ret.packs = s.ret.packs := rfl
@[simp] theorem State.setWindows_ret_doubtful (s : State) (x : Vector WindowRecord 15) : (s.setWindows x).ret.doubtful = s.ret.doubtful := rfl
@[simp] theorem State.setWindows_ret_inPath (s : State) (x : Vector WindowRecord 15) : (s.setWindows x).ret.inPath = s.ret.inPath := rfl
@[simp] theorem State.setWindows_ret_console (s : State) (x : Vector WindowRecord 15) : (s.setWindows x).ret.console = s.ret.console := rfl
@[simp] theorem State.setWindows_ret_windows (s : State) (x : Vector WindowRecord 15) : (s.setWindows x).ret.windows = x := rfl
@[simp] theorem State.setWindows_ret_nextShift (s : State) (x : Vector WindowRecord 15) : (s.setWindows x).ret.nextShift = s.ret.nextShift := rfl
@[simp] theorem State.setWindows_ret_history (s : State) (x : Vector WindowRecord 15) : (s.setWindows x).ret.history = s.ret.history := rfl
@[simp] theorem State.setWindows_ret_faults (s : State) (x : Vector WindowRecord 15) : (s.setWindows x).ret.faults = s.ret.faults := rfl
@[simp] theorem State.setWindows_ret_nextFault (s : State) (x : Vector WindowRecord 15) : (s.setWindows x).ret.nextFault = s.ret.nextFault := rfl
@[simp] theorem State.setWindows_ret_audit (s : State) (x : Vector WindowRecord 15) : (s.setWindows x).ret.audit = s.ret.audit := rfl
@[simp] theorem State.setWindows_ret_checksumMatches (s : State) (x : Vector WindowRecord 15) : (s.setWindows x).ret.checksumMatches = s.ret.checksumMatches := rfl
@[simp] theorem State.setNextShift_printers (s : State) (x : Nat) : (s.setNextShift x).printers = s.printers := rfl
@[simp] theorem State.setNextShift_pool (s : State) (x : Nat) : (s.setNextShift x).pool = s.pool := rfl
@[simp] theorem State.setNextShift_nextTag (s : State) (x : Nat) : (s.setNextShift x).nextTag = s.nextTag := rfl
@[simp] theorem State.setNextShift_link (s : State) (x : Nat) : (s.setNextShift x).link = s.link := rfl
@[simp] theorem State.setNextShift_notices (s : State) (x : Nat) : (s.setNextShift x).notices = s.notices := rfl
@[simp] theorem State.setNextShift_live (s : State) (x : Nat) : (s.setNextShift x).live = s.live := rfl
@[simp] theorem State.setNextShift_store (s : State) (x : Nat) : (s.setNextShift x).store = s.store := rfl
@[simp] theorem State.setNextShift_flash (s : State) (x : Nat) : (s.setNextShift x).flash = s.flash := rfl
@[simp] theorem State.setNextShift_office (s : State) (x : Nat) : (s.setNextShift x).office = s.office := rfl
@[simp] theorem State.setNextShift_fitted (s : State) (x : Nat) : (s.setNextShift x).fitted = s.fitted := rfl
@[simp] theorem State.setNextShift_freeDraws (s : State) (x : Nat) : (s.setNextShift x).freeDraws = s.freeDraws := rfl
@[simp] theorem State.setNextShift_pending (s : State) (x : Nat) : (s.setNextShift x).pending = s.pending := rfl
@[simp] theorem State.setNextShift_ret_stockTypes (s : State) (x : Nat) : (s.setNextShift x).ret.stockTypes = s.ret.stockTypes := rfl
@[simp] theorem State.setNextShift_ret_packs (s : State) (x : Nat) : (s.setNextShift x).ret.packs = s.ret.packs := rfl
@[simp] theorem State.setNextShift_ret_doubtful (s : State) (x : Nat) : (s.setNextShift x).ret.doubtful = s.ret.doubtful := rfl
@[simp] theorem State.setNextShift_ret_inPath (s : State) (x : Nat) : (s.setNextShift x).ret.inPath = s.ret.inPath := rfl
@[simp] theorem State.setNextShift_ret_console (s : State) (x : Nat) : (s.setNextShift x).ret.console = s.ret.console := rfl
@[simp] theorem State.setNextShift_ret_windows (s : State) (x : Nat) : (s.setNextShift x).ret.windows = s.ret.windows := rfl
@[simp] theorem State.setNextShift_ret_nextShift (s : State) (x : Nat) : (s.setNextShift x).ret.nextShift = x := rfl
@[simp] theorem State.setNextShift_ret_history (s : State) (x : Nat) : (s.setNextShift x).ret.history = s.ret.history := rfl
@[simp] theorem State.setNextShift_ret_faults (s : State) (x : Nat) : (s.setNextShift x).ret.faults = s.ret.faults := rfl
@[simp] theorem State.setNextShift_ret_nextFault (s : State) (x : Nat) : (s.setNextShift x).ret.nextFault = s.ret.nextFault := rfl
@[simp] theorem State.setNextShift_ret_audit (s : State) (x : Nat) : (s.setNextShift x).ret.audit = s.ret.audit := rfl
@[simp] theorem State.setNextShift_ret_checksumMatches (s : State) (x : Nat) : (s.setNextShift x).ret.checksumMatches = s.ret.checksumMatches := rfl
@[simp] theorem State.setHistory_printers (s : State) (x : List ShiftRecord) : (s.setHistory x).printers = s.printers := rfl
@[simp] theorem State.setHistory_pool (s : State) (x : List ShiftRecord) : (s.setHistory x).pool = s.pool := rfl
@[simp] theorem State.setHistory_nextTag (s : State) (x : List ShiftRecord) : (s.setHistory x).nextTag = s.nextTag := rfl
@[simp] theorem State.setHistory_link (s : State) (x : List ShiftRecord) : (s.setHistory x).link = s.link := rfl
@[simp] theorem State.setHistory_notices (s : State) (x : List ShiftRecord) : (s.setHistory x).notices = s.notices := rfl
@[simp] theorem State.setHistory_live (s : State) (x : List ShiftRecord) : (s.setHistory x).live = s.live := rfl
@[simp] theorem State.setHistory_store (s : State) (x : List ShiftRecord) : (s.setHistory x).store = s.store := rfl
@[simp] theorem State.setHistory_flash (s : State) (x : List ShiftRecord) : (s.setHistory x).flash = s.flash := rfl
@[simp] theorem State.setHistory_office (s : State) (x : List ShiftRecord) : (s.setHistory x).office = s.office := rfl
@[simp] theorem State.setHistory_fitted (s : State) (x : List ShiftRecord) : (s.setHistory x).fitted = s.fitted := rfl
@[simp] theorem State.setHistory_freeDraws (s : State) (x : List ShiftRecord) : (s.setHistory x).freeDraws = s.freeDraws := rfl
@[simp] theorem State.setHistory_pending (s : State) (x : List ShiftRecord) : (s.setHistory x).pending = s.pending := rfl
@[simp] theorem State.setHistory_ret_stockTypes (s : State) (x : List ShiftRecord) : (s.setHistory x).ret.stockTypes = s.ret.stockTypes := rfl
@[simp] theorem State.setHistory_ret_packs (s : State) (x : List ShiftRecord) : (s.setHistory x).ret.packs = s.ret.packs := rfl
@[simp] theorem State.setHistory_ret_doubtful (s : State) (x : List ShiftRecord) : (s.setHistory x).ret.doubtful = s.ret.doubtful := rfl
@[simp] theorem State.setHistory_ret_inPath (s : State) (x : List ShiftRecord) : (s.setHistory x).ret.inPath = s.ret.inPath := rfl
@[simp] theorem State.setHistory_ret_console (s : State) (x : List ShiftRecord) : (s.setHistory x).ret.console = s.ret.console := rfl
@[simp] theorem State.setHistory_ret_windows (s : State) (x : List ShiftRecord) : (s.setHistory x).ret.windows = s.ret.windows := rfl
@[simp] theorem State.setHistory_ret_nextShift (s : State) (x : List ShiftRecord) : (s.setHistory x).ret.nextShift = s.ret.nextShift := rfl
@[simp] theorem State.setHistory_ret_history (s : State) (x : List ShiftRecord) : (s.setHistory x).ret.history = x := rfl
@[simp] theorem State.setHistory_ret_faults (s : State) (x : List ShiftRecord) : (s.setHistory x).ret.faults = s.ret.faults := rfl
@[simp] theorem State.setHistory_ret_nextFault (s : State) (x : List ShiftRecord) : (s.setHistory x).ret.nextFault = s.ret.nextFault := rfl
@[simp] theorem State.setHistory_ret_audit (s : State) (x : List ShiftRecord) : (s.setHistory x).ret.audit = s.ret.audit := rfl
@[simp] theorem State.setHistory_ret_checksumMatches (s : State) (x : List ShiftRecord) : (s.setHistory x).ret.checksumMatches = s.ret.checksumMatches := rfl
@[simp] theorem State.setFaults_printers (s : State) (x : List FaultEntry) : (s.setFaults x).printers = s.printers := rfl
@[simp] theorem State.setFaults_pool (s : State) (x : List FaultEntry) : (s.setFaults x).pool = s.pool := rfl
@[simp] theorem State.setFaults_nextTag (s : State) (x : List FaultEntry) : (s.setFaults x).nextTag = s.nextTag := rfl
@[simp] theorem State.setFaults_link (s : State) (x : List FaultEntry) : (s.setFaults x).link = s.link := rfl
@[simp] theorem State.setFaults_notices (s : State) (x : List FaultEntry) : (s.setFaults x).notices = s.notices := rfl
@[simp] theorem State.setFaults_live (s : State) (x : List FaultEntry) : (s.setFaults x).live = s.live := rfl
@[simp] theorem State.setFaults_store (s : State) (x : List FaultEntry) : (s.setFaults x).store = s.store := rfl
@[simp] theorem State.setFaults_flash (s : State) (x : List FaultEntry) : (s.setFaults x).flash = s.flash := rfl
@[simp] theorem State.setFaults_office (s : State) (x : List FaultEntry) : (s.setFaults x).office = s.office := rfl
@[simp] theorem State.setFaults_fitted (s : State) (x : List FaultEntry) : (s.setFaults x).fitted = s.fitted := rfl
@[simp] theorem State.setFaults_freeDraws (s : State) (x : List FaultEntry) : (s.setFaults x).freeDraws = s.freeDraws := rfl
@[simp] theorem State.setFaults_pending (s : State) (x : List FaultEntry) : (s.setFaults x).pending = s.pending := rfl
@[simp] theorem State.setFaults_ret_stockTypes (s : State) (x : List FaultEntry) : (s.setFaults x).ret.stockTypes = s.ret.stockTypes := rfl
@[simp] theorem State.setFaults_ret_packs (s : State) (x : List FaultEntry) : (s.setFaults x).ret.packs = s.ret.packs := rfl
@[simp] theorem State.setFaults_ret_doubtful (s : State) (x : List FaultEntry) : (s.setFaults x).ret.doubtful = s.ret.doubtful := rfl
@[simp] theorem State.setFaults_ret_inPath (s : State) (x : List FaultEntry) : (s.setFaults x).ret.inPath = s.ret.inPath := rfl
@[simp] theorem State.setFaults_ret_console (s : State) (x : List FaultEntry) : (s.setFaults x).ret.console = s.ret.console := rfl
@[simp] theorem State.setFaults_ret_windows (s : State) (x : List FaultEntry) : (s.setFaults x).ret.windows = s.ret.windows := rfl
@[simp] theorem State.setFaults_ret_nextShift (s : State) (x : List FaultEntry) : (s.setFaults x).ret.nextShift = s.ret.nextShift := rfl
@[simp] theorem State.setFaults_ret_history (s : State) (x : List FaultEntry) : (s.setFaults x).ret.history = s.ret.history := rfl
@[simp] theorem State.setFaults_ret_faults (s : State) (x : List FaultEntry) : (s.setFaults x).ret.faults = x := rfl
@[simp] theorem State.setFaults_ret_nextFault (s : State) (x : List FaultEntry) : (s.setFaults x).ret.nextFault = s.ret.nextFault := rfl
@[simp] theorem State.setFaults_ret_audit (s : State) (x : List FaultEntry) : (s.setFaults x).ret.audit = s.ret.audit := rfl
@[simp] theorem State.setFaults_ret_checksumMatches (s : State) (x : List FaultEntry) : (s.setFaults x).ret.checksumMatches = s.ret.checksumMatches := rfl
@[simp] theorem State.setNextFault_printers (s : State) (x : Nat) : (s.setNextFault x).printers = s.printers := rfl
@[simp] theorem State.setNextFault_pool (s : State) (x : Nat) : (s.setNextFault x).pool = s.pool := rfl
@[simp] theorem State.setNextFault_nextTag (s : State) (x : Nat) : (s.setNextFault x).nextTag = s.nextTag := rfl
@[simp] theorem State.setNextFault_link (s : State) (x : Nat) : (s.setNextFault x).link = s.link := rfl
@[simp] theorem State.setNextFault_notices (s : State) (x : Nat) : (s.setNextFault x).notices = s.notices := rfl
@[simp] theorem State.setNextFault_live (s : State) (x : Nat) : (s.setNextFault x).live = s.live := rfl
@[simp] theorem State.setNextFault_store (s : State) (x : Nat) : (s.setNextFault x).store = s.store := rfl
@[simp] theorem State.setNextFault_flash (s : State) (x : Nat) : (s.setNextFault x).flash = s.flash := rfl
@[simp] theorem State.setNextFault_office (s : State) (x : Nat) : (s.setNextFault x).office = s.office := rfl
@[simp] theorem State.setNextFault_fitted (s : State) (x : Nat) : (s.setNextFault x).fitted = s.fitted := rfl
@[simp] theorem State.setNextFault_freeDraws (s : State) (x : Nat) : (s.setNextFault x).freeDraws = s.freeDraws := rfl
@[simp] theorem State.setNextFault_pending (s : State) (x : Nat) : (s.setNextFault x).pending = s.pending := rfl
@[simp] theorem State.setNextFault_ret_stockTypes (s : State) (x : Nat) : (s.setNextFault x).ret.stockTypes = s.ret.stockTypes := rfl
@[simp] theorem State.setNextFault_ret_packs (s : State) (x : Nat) : (s.setNextFault x).ret.packs = s.ret.packs := rfl
@[simp] theorem State.setNextFault_ret_doubtful (s : State) (x : Nat) : (s.setNextFault x).ret.doubtful = s.ret.doubtful := rfl
@[simp] theorem State.setNextFault_ret_inPath (s : State) (x : Nat) : (s.setNextFault x).ret.inPath = s.ret.inPath := rfl
@[simp] theorem State.setNextFault_ret_console (s : State) (x : Nat) : (s.setNextFault x).ret.console = s.ret.console := rfl
@[simp] theorem State.setNextFault_ret_windows (s : State) (x : Nat) : (s.setNextFault x).ret.windows = s.ret.windows := rfl
@[simp] theorem State.setNextFault_ret_nextShift (s : State) (x : Nat) : (s.setNextFault x).ret.nextShift = s.ret.nextShift := rfl
@[simp] theorem State.setNextFault_ret_history (s : State) (x : Nat) : (s.setNextFault x).ret.history = s.ret.history := rfl
@[simp] theorem State.setNextFault_ret_faults (s : State) (x : Nat) : (s.setNextFault x).ret.faults = s.ret.faults := rfl
@[simp] theorem State.setNextFault_ret_nextFault (s : State) (x : Nat) : (s.setNextFault x).ret.nextFault = x := rfl
@[simp] theorem State.setNextFault_ret_audit (s : State) (x : Nat) : (s.setNextFault x).ret.audit = s.ret.audit := rfl
@[simp] theorem State.setNextFault_ret_checksumMatches (s : State) (x : Nat) : (s.setNextFault x).ret.checksumMatches = s.ret.checksumMatches := rfl
@[simp] theorem State.setAudit_printers (s : State) (x : AuditStatus) : (s.setAudit x).printers = s.printers := rfl
@[simp] theorem State.setAudit_pool (s : State) (x : AuditStatus) : (s.setAudit x).pool = s.pool := rfl
@[simp] theorem State.setAudit_nextTag (s : State) (x : AuditStatus) : (s.setAudit x).nextTag = s.nextTag := rfl
@[simp] theorem State.setAudit_link (s : State) (x : AuditStatus) : (s.setAudit x).link = s.link := rfl
@[simp] theorem State.setAudit_notices (s : State) (x : AuditStatus) : (s.setAudit x).notices = s.notices := rfl
@[simp] theorem State.setAudit_live (s : State) (x : AuditStatus) : (s.setAudit x).live = s.live := rfl
@[simp] theorem State.setAudit_store (s : State) (x : AuditStatus) : (s.setAudit x).store = s.store := rfl
@[simp] theorem State.setAudit_flash (s : State) (x : AuditStatus) : (s.setAudit x).flash = s.flash := rfl
@[simp] theorem State.setAudit_office (s : State) (x : AuditStatus) : (s.setAudit x).office = s.office := rfl
@[simp] theorem State.setAudit_fitted (s : State) (x : AuditStatus) : (s.setAudit x).fitted = s.fitted := rfl
@[simp] theorem State.setAudit_freeDraws (s : State) (x : AuditStatus) : (s.setAudit x).freeDraws = s.freeDraws := rfl
@[simp] theorem State.setAudit_pending (s : State) (x : AuditStatus) : (s.setAudit x).pending = s.pending := rfl
@[simp] theorem State.setAudit_ret_stockTypes (s : State) (x : AuditStatus) : (s.setAudit x).ret.stockTypes = s.ret.stockTypes := rfl
@[simp] theorem State.setAudit_ret_packs (s : State) (x : AuditStatus) : (s.setAudit x).ret.packs = s.ret.packs := rfl
@[simp] theorem State.setAudit_ret_doubtful (s : State) (x : AuditStatus) : (s.setAudit x).ret.doubtful = s.ret.doubtful := rfl
@[simp] theorem State.setAudit_ret_inPath (s : State) (x : AuditStatus) : (s.setAudit x).ret.inPath = s.ret.inPath := rfl
@[simp] theorem State.setAudit_ret_console (s : State) (x : AuditStatus) : (s.setAudit x).ret.console = s.ret.console := rfl
@[simp] theorem State.setAudit_ret_windows (s : State) (x : AuditStatus) : (s.setAudit x).ret.windows = s.ret.windows := rfl
@[simp] theorem State.setAudit_ret_nextShift (s : State) (x : AuditStatus) : (s.setAudit x).ret.nextShift = s.ret.nextShift := rfl
@[simp] theorem State.setAudit_ret_history (s : State) (x : AuditStatus) : (s.setAudit x).ret.history = s.ret.history := rfl
@[simp] theorem State.setAudit_ret_faults (s : State) (x : AuditStatus) : (s.setAudit x).ret.faults = s.ret.faults := rfl
@[simp] theorem State.setAudit_ret_nextFault (s : State) (x : AuditStatus) : (s.setAudit x).ret.nextFault = s.ret.nextFault := rfl
@[simp] theorem State.setAudit_ret_audit (s : State) (x : AuditStatus) : (s.setAudit x).ret.audit = x := rfl
@[simp] theorem State.setAudit_ret_checksumMatches (s : State) (x : AuditStatus) : (s.setAudit x).ret.checksumMatches = s.ret.checksumMatches := rfl
@[simp] theorem State.setChecksum_printers (s : State) (x : Bool) : (s.setChecksum x).printers = s.printers := rfl
@[simp] theorem State.setChecksum_pool (s : State) (x : Bool) : (s.setChecksum x).pool = s.pool := rfl
@[simp] theorem State.setChecksum_nextTag (s : State) (x : Bool) : (s.setChecksum x).nextTag = s.nextTag := rfl
@[simp] theorem State.setChecksum_link (s : State) (x : Bool) : (s.setChecksum x).link = s.link := rfl
@[simp] theorem State.setChecksum_notices (s : State) (x : Bool) : (s.setChecksum x).notices = s.notices := rfl
@[simp] theorem State.setChecksum_live (s : State) (x : Bool) : (s.setChecksum x).live = s.live := rfl
@[simp] theorem State.setChecksum_store (s : State) (x : Bool) : (s.setChecksum x).store = s.store := rfl
@[simp] theorem State.setChecksum_flash (s : State) (x : Bool) : (s.setChecksum x).flash = s.flash := rfl
@[simp] theorem State.setChecksum_office (s : State) (x : Bool) : (s.setChecksum x).office = s.office := rfl
@[simp] theorem State.setChecksum_fitted (s : State) (x : Bool) : (s.setChecksum x).fitted = s.fitted := rfl
@[simp] theorem State.setChecksum_freeDraws (s : State) (x : Bool) : (s.setChecksum x).freeDraws = s.freeDraws := rfl
@[simp] theorem State.setChecksum_pending (s : State) (x : Bool) : (s.setChecksum x).pending = s.pending := rfl
@[simp] theorem State.setChecksum_ret_stockTypes (s : State) (x : Bool) : (s.setChecksum x).ret.stockTypes = s.ret.stockTypes := rfl
@[simp] theorem State.setChecksum_ret_packs (s : State) (x : Bool) : (s.setChecksum x).ret.packs = s.ret.packs := rfl
@[simp] theorem State.setChecksum_ret_doubtful (s : State) (x : Bool) : (s.setChecksum x).ret.doubtful = s.ret.doubtful := rfl
@[simp] theorem State.setChecksum_ret_inPath (s : State) (x : Bool) : (s.setChecksum x).ret.inPath = s.ret.inPath := rfl
@[simp] theorem State.setChecksum_ret_console (s : State) (x : Bool) : (s.setChecksum x).ret.console = s.ret.console := rfl
@[simp] theorem State.setChecksum_ret_windows (s : State) (x : Bool) : (s.setChecksum x).ret.windows = s.ret.windows := rfl
@[simp] theorem State.setChecksum_ret_nextShift (s : State) (x : Bool) : (s.setChecksum x).ret.nextShift = s.ret.nextShift := rfl
@[simp] theorem State.setChecksum_ret_history (s : State) (x : Bool) : (s.setChecksum x).ret.history = s.ret.history := rfl
@[simp] theorem State.setChecksum_ret_faults (s : State) (x : Bool) : (s.setChecksum x).ret.faults = s.ret.faults := rfl
@[simp] theorem State.setChecksum_ret_nextFault (s : State) (x : Bool) : (s.setChecksum x).ret.nextFault = s.ret.nextFault := rfl
@[simp] theorem State.setChecksum_ret_audit (s : State) (x : Bool) : (s.setChecksum x).ret.audit = s.ret.audit := rfl
@[simp] theorem State.setChecksum_ret_checksumMatches (s : State) (x : Bool) : (s.setChecksum x).ret.checksumMatches = x := rfl

end Sys2Proof.Machine
end

