-- ==== Sys2Proof/Laws/Ops.lean ====
section
/-! SUPPORT. What the named reads give after the named updates, and what judging, answering, numbering, the arbiter and the overlap
test of packs do, said once. -/

namespace Sys2Proof

theorem updAt_same {α : Type} {n : Nat} (v : Vector α n) (i : Fin n) (f : α → α) : (updAt v i f)[i] = f v[i] := by
  simp [updAt]

theorem updAt_other {α : Type} {n : Nat} (v : Vector α n) (i j : Fin n) (f : α → α) (h : j ≠ i) :
    (updAt v i f)[j] = v[j] := by
  simp only [updAt, Fin.getElem_fin]
  rw [Vector.getElem_set_ne]
  exact fun e => h (Fin.ext e.symm)

namespace Machine

/-! ### Reads after updates -/

@[simp] theorem State.modPrinter_same (s : State) (p : Fin 6) (f : Printer → Printer) :
    (s.modPrinter p f).printer p = f (s.printer p) := updAt_same _ _ _

theorem State.modPrinter_other (s : State) (p q : Fin 6) (f : Printer → Printer) (h : q ≠ p) :
    (s.modPrinter p f).printer q = s.printer q := updAt_other _ _ _ _ h

@[simp] theorem State.modWindow_same (s : State) (w : Fin 15) (f : WindowRecord → WindowRecord) :
    (s.modWindow w f).window w = f (s.window w) := updAt_same _ _ _

theorem State.modWindow_other (s : State) (w v : Fin 15) (f : WindowRecord → WindowRecord) (h : v ≠ w) :
    (s.modWindow w f).window v = s.window v := updAt_other _ _ _ _ h

@[simp] theorem State.modStockType_same (s : State) (k : Fin 8) (f : StockType → StockType) :
    (s.modStockType k f).stockType k = f (s.stockType k) := updAt_same _ _ _

theorem State.modStockType_other (s : State) (k l : Fin 8) (f : StockType → StockType) (h : l ≠ k) :
    (s.modStockType k f).stockType l = s.stockType l := updAt_other _ _ _ _ h

/-- A search by a number that the update of one record keeps. -/
theorem find?_map_of_key {α : Type} (key : α → Nat) (n m : Nat) (f : α → α) (hf : ∀ x, key (f x) = key x) (l : List α) :
    (l.map fun x => if key x = n then f x else x).find? (fun x => decide (key x = m)) =
      (l.find? fun x => decide (key x = m)).map fun x => if key x = n then f x else x := by
  induction l with
  | nil => rfl
  | cons a l ih =>
    have ha : key (if key a = n then f a else a) = key a := by split <;> simp [hf]
    simp only [List.map_cons, List.find?_cons, ha]
    by_cases h : key a = m <;> simp [h, ih]

/-- The pack read by an id after one pack is changed by a function that keeps ids. -/
theorem State.pack?_modPack (s : State) (n m : Nat) (f : Pack → Pack) (hf : ∀ k, (f k).id = k.id) :
    (s.modPack n f).pack? m = (s.pack? m).map fun k => if k.id = n then f k else k :=
  find?_map_of_key Pack.id n m f hf s.ret.packs

/-- The job read by a tag after one job is changed by a function that keeps tags. -/
theorem State.job?_modJob (s : State) (n m : Nat) (f : Job → Job) (hf : ∀ j, (f j).tag = j.tag) :
    (s.modJob n f).job? m = (s.job? m).map fun j => if j.tag = n then f j else j :=
  find?_map_of_key Job.tag n m f hf s.pool

/-- The fault entry read by a number after one entry is changed by a function that keeps numbers. -/
theorem State.fault?_modFault (s : State) (n m : Nat) (f : FaultEntry → FaultEntry) (hf : ∀ e, (f e).number = e.number) :
    (s.modFault n f).fault? m = (s.fault? m).map fun e => if e.number = n then f e else e :=
  find?_map_of_key FaultEntry.number n m f hf s.ret.faults

/-! ### Judging and answering -/

theorem State.judged_passed (s taken : State) (request : Nat) (checks : List (Bool × ReplyCode)) (h : judge checks = none) :
    s.judged request checks taken = taken := by simp [State.judged, h]

theorem State.judged_failed (s taken : State) (request : Nat) (checks : List (Bool × ReplyCode)) (code : ReplyCode)
    (h : judge checks = some code) : s.judged request checks taken = s.answer code request [] := by simp [State.judged, h]

/-- A request whose frame begins while the line is free is taken. -/
theorem State.taken_free (s t : State) (i : Instr) (h : s.lineFree) : s.taken i t = .next t := by simp [State.taken, h]

/-- The line is free exactly when the receiver is HUNTING and no reply is leaving (R161). -/
theorem State.lineFree_iff (s : State) : s.lineFree = true ↔ s.link.receiver = .hunting ∧ s.link.leaving = false := by
  simp [State.lineFree]

/-- The frame of a request that comes at another time is bytes of the line (R161). -/
theorem State.taken_busy (s t : State) (i : Instr) (h : s.lineFree = false) :
    s.taken i t = .next (s.receiveLine ((i.frame s.link.unit).map .whole)) := by simp [State.taken, h]

@[simp] theorem judge_nil : judge [] = none := rfl
@[simp] theorem judge_pass (code : ReplyCode) (rest : List (Bool × ReplyCode)) : judge ((true, code) :: rest) = judge rest := rfl
@[simp] theorem judge_fail (code : ReplyCode) (rest : List (Bool × ReplyCode)) : judge ((false, code) :: rest) = some code := rfl

/-- Every check passes exactly when judging names no code. -/
theorem judge_eq_none (checks : List (Bool × ReplyCode)) : judge checks = none ↔ ∀ c ∈ checks, c.1 = true := by
  induction checks with
  | nil => simp
  | cons c rest ih => rcases c with ⟨b, code⟩; cases b <;> simp [ih]

theorem State.answer_link (s : State) (code : ReplyCode) (request : Nat) (body : List Byte) :
    (s.answer code request body).link =
      { s.link with reply := some { code := code, echo := BitVec.ofNat 8 request, body := body }, leaving := true } := rfl

/-! ### Positions -/

theorem windowOf_val (w : Fin 15) : windowOf (w.val + 1) = some w := by
  have h : w.val < 15 := w.isLt
  simp [windowOf, h]

theorem windowOf_eq_none (n : Nat) (h : n = 0 ∨ 15 < n) : windowOf n = none := by
  unfold windowOf; split <;> first | rfl | omega

theorem printerOf_val (p : Fin 6) : printerOf (p.val + 1) = some p := by
  have h : p.val < 6 := p.isLt
  simp [printerOf, h]

theorem printerOf_eq_none (n : Nat) (h : n = 0 ∨ 6 < n) : printerOf n = none := by
  unfold printerOf; split <;> first | rfl | omega

theorem stockOf_val (k : Fin 8) : stockOf k.val = some k := by simp [stockOf]

theorem Grade.rank_injective (g h : Grade) (e : g.rank = h.rank) : g = h := by cases g <;> cases h <;> first | rfl | cases e

/-- A position supervises exactly when it is the console or a window in use by a SUPERVISOR (R112). -/
theorem State.supervises_iff (s : State) (pos : Position) : s.supervises pos = true ↔
    pos = .console ∨ ∃ w, pos = .window w ∧ (s.window w).state ≠ .closed ∧ (s.window w).grade = some .supervisor := by
  cases pos with
  | console => simp [State.supervises, State.holds, State.gradeOf]
  | window w =>
    simp only [State.supervises, State.holds, State.gradeOf, reduceCtorEq, false_or, Position.window.injEq, exists_eq_left']
    by_cases hc : (s.window w).state = .closed
    · simp [hc]
    · rcases hg : (s.window w).grade with _ | g
      · simp [hc]
      · cases g <;> simp [hc, Grade.rank]

/-! ### Numbers -/

theorem bump_in_range (n : Nat) : 1 ≤ bump n ∧ bump n ≤ 65535 := by unfold bump; split <;> omega

theorem firstFree_in_range (k : Nat) (used : List Nat) (n : Nat) (h : 1 ≤ n ∧ n ≤ 65535) :
    1 ≤ firstFree k used n ∧ firstFree k used n ≤ 65535 := by
  induction k generalizing n with
  | zero => exact h
  | succ k ih =>
    simp only [firstFree]
    split
    · exact ih _ (bump_in_range n)
    · exact h

/-! ### The arbiter -/

/-- A full queue stops the arbiter. -/
theorem State.arbitrate_full (s : State) (h : 32 ≤ s.notices.queue.length) : s.arbitrate = s := by
  have h' : ¬ s.notices.queue.length < noticeLimit := by simp only [noticeLimit]; omega
  unfold State.arbitrate
  split
  · rw [show noticeLimit = 31 + 1 from rfl, fillPlaces, if_neg h']
  · rfl

/-- With no record waiting the arbiter does nothing. -/
theorem State.arbitrate_idle (s : State) (h : s.anyWaiting = false) : s.arbitrate = s := by
  have hw : s.firstWaiting = none := by simpa [State.anyWaiting] using h
  unfold State.arbitrate
  split
  · rw [show noticeLimit = 31 + 1 from rfl, fillPlaces, hw]; split <;> rfl
  · rfl

/-- Two packs collide exactly when they are of one type and a serial lies in both ranges (R18, R25). -/
theorem Pack.collides_iff (k j : Pack) : k.collides j = true ↔
    k.stockType = j.stockType ∧ ∃ n : Int, k.range.1 ≤ n ∧ n ≤ k.range.2 ∧ j.range.1 ≤ n ∧ n ≤ j.range.2 := by
  simp only [Pack.collides, decide_eq_true_eq]
  refine and_congr_right fun _ => ⟨fun h => ⟨max k.range.1 j.range.1, ?_⟩, fun ⟨n, h⟩ => ?_⟩ <;> omega

end Machine
end Sys2Proof
end

