-- ==== Sys2Proof/Laws/Frame.lean ====
section
/-! SUPPORT. Frames: which parts of the state each shared operation can change, and what it does not do when the notice queue is full
or no port sends. -/

namespace Sys2Proof.Machine

/-! ### Frames compose -/

theorem State.keepsBut_refl (s : State) (l : List Part) : s.keepsBut s l := fun a _ => by cases a <;> rfl

theorem Part.same_trans {s t u : State} {a : Part} (h : a.same s t) (k : a.same t u) : a.same s u := by
  cases a <;> exact Eq.trans k h

theorem State.keepsBut.trans {s t u : State} {l : List Part} (h : s.keepsBut t l) (k : t.keepsBut u l) : s.keepsBut u l :=
  fun a ha => Part.same_trans (h a ha) (k a ha)

theorem State.keepsBut.mono {s t : State} {l m : List Part} (h : s.keepsBut t l) (sub : l ⊆ m) : s.keepsBut t m :=
  fun a ha => h a (fun hl => ha (sub hl))

/-- A fold keeps what each of its steps keeps. -/
theorem keepsBut_foldl {α : Type} (f : State → α → State) (l : List Part)
    (h : ∀ (s : State) (x : α), s.keepsBut (f s x) l) (xs : List α) (s : State) : s.keepsBut (xs.foldl f s) l := by
  induction xs generalizing s with
  | nil => exact s.keepsBut_refl l
  | cons x xs ih => exact (h s x).trans (ih (f s x))

/-! ### One record changed -/

theorem State.modPrinter_keeps (s : State) (p : Fin 6) (f : Printer → Printer) : s.keepsBut (s.modPrinter p f) [.printers] :=
  fun a ha => by cases a <;> first | rfl | exact absurd (by decide) ha

theorem State.modWindow_keeps (s : State) (w : Fin 15) (f : WindowRecord → WindowRecord) :
    s.keepsBut (s.modWindow w f) [.windows] :=
  fun a ha => by cases a <;> first | rfl | exact absurd (by decide) ha

theorem State.modStockType_keeps (s : State) (k : Fin 8) (f : StockType → StockType) :
    s.keepsBut (s.modStockType k f) [.stockTypes] :=
  fun a ha => by cases a <;> first | rfl | exact absurd (by decide) ha

theorem State.modPack_keeps (s : State) (n : Nat) (f : Pack → Pack) : s.keepsBut (s.modPack n f) [.packs] :=
  fun a ha => by cases a <;> first | rfl | exact absurd (by decide) ha

theorem State.modJob_keeps (s : State) (n : Nat) (f : Job → Job) : s.keepsBut (s.modJob n f) [.pool] :=
  fun a ha => by cases a <;> first | rfl | exact absurd (by decide) ha

theorem State.modFault_keeps (s : State) (n : Nat) (f : FaultEntry → FaultEntry) : s.keepsBut (s.modFault n f) [.faults] :=
  fun a ha => by cases a <;> first | rfl | exact absurd (by decide) ha

theorem State.modRecord_keeps (s : State) (n : Nat) (f : ShiftRecord → ShiftRecord) :
    s.keepsBut (s.modRecord n f) [.history] :=
  fun a ha => by cases a <;> first | rfl | exact absurd (by decide) ha

theorem State.modOutstanding_keeps (s : State) (pos : Position) (f : Nat → Nat) :
    s.keepsBut (s.modOutstanding pos f) [.console, .windows] :=
  fun a ha => by cases pos <;> cases a <;> first | rfl | exact absurd (by decide) ha

theorem State.modTallies_keeps (s : State) (pos : Position) (f : Tallies → Tallies) :
    s.keepsBut (s.modTallies pos f) [.console, .windows] :=
  fun a ha => by cases pos <;> cases a <;> first | rfl | exact absurd (by decide) ha

theorem State.modRecent_keeps (s : State) (pos : Position) (f : List RecentIssue → List RecentIssue) :
    s.keepsBut (s.modRecent pos f) [.console, .windows] :=
  fun a ha => by cases pos <;> cases a <;> first | rfl | exact absurd (by decide) ha

theorem State.setPool_keeps (s : State) (x : List Job) : s.keepsBut (s.setPool x) [.pool] :=
  fun a ha => by cases a <;> first | rfl | exact absurd (by decide) ha

theorem State.setInPath_keeps (s : State) (x : Vector (List InPathEntry) 6) : s.keepsBut (s.setInPath x) [.inPath] :=
  fun a ha => by cases a <;> first | rfl | exact absurd (by decide) ha

theorem State.setDoubtful_keeps (s : State) (x : List DoubtfulEntry) : s.keepsBut (s.setDoubtful x) [.doubtful] :=
  fun a ha => by cases a <;> first | rfl | exact absurd (by decide) ha

theorem State.setNotices_keeps (s : State) (x : NoticeQueue) : s.keepsBut (s.setNotices x) [.notices] :=
  fun a ha => by cases a <;> first | rfl | exact absurd (by decide) ha

theorem State.setStore_keeps (s : State) (x : Store) : s.keepsBut (s.setStore x) [.store] :=
  fun a ha => by cases a <;> first | rfl | exact absurd (by decide) ha

theorem State.setFaults_keeps (s : State) (x : List FaultEntry) : s.keepsBut (s.setFaults x) [.faults] :=
  fun a ha => by cases a <;> first | rfl | exact absurd (by decide) ha

theorem State.setNextFault_keeps (s : State) (x : Nat) : s.keepsBut (s.setNextFault x) [.nextFault] :=
  fun a ha => by cases a <;> first | rfl | exact absurd (by decide) ha

/-- Answering changes the link alone. -/
theorem State.answer_keeps (s : State) (code : ReplyCode) (request : Nat) (body : List Byte) :
    s.keepsBut (s.answer code request body) [.link] :=
  fun a ha => by cases a <;> first | rfl | exact absurd (by decide) ha

/-! ### The arbiter (R168 to R171) -/

/-- What placing notices can change. -/
def placed : List Part := [.stockTypes, .console, .windows, .history, .faults, .printers, .pool, .notices, .store]

theorem State.pushNotice_keeps (s : State) (n : Notice) : s.keepsBut (s.pushNotice n) placed :=
  (s.setNotices_keeps _).mono (by decide)

theorem State.releaseJob_keeps (s : State) (j : Job) : s.keepsBut (s.releaseJob j) placed := by
  have h : s.keepsBut ((s.setPool (s.pool.filter fun k => decide (k.tag ≠ j.tag))).modOutstanding j.position (· - 1)) placed :=
    ((s.setPool_keeps _).mono (by decide)).trans ((State.modOutstanding_keeps _ _ _).mono (by decide))
  unfold State.releaseJob
  simp only
  split
  · exact h
  · split
    · exact h.trans ((State.modWindow_keeps _ _ _).mono (by decide))
    · exact h

theorem State.settlePlaced_keeps (s : State) (x : Waiting) : s.keepsBut (s.settlePlaced x) placed := by
  cases x with
  | job j => exact s.releaseJob_keeps j
  | fault e => exact (s.modFault_keeps _ _).mono (by decide)
  | countReady w => exact (s.modWindow_keeps _ _).mono (by decide)
  | shiftEnd r => exact (s.modRecord_keeps _ _).mono (by decide)
  | printer p => exact (s.modPrinter_keeps _ _).mono (by decide)
  | stockType k => exact (s.modStockType_keeps _ _).mono (by decide)
  | store r => exact (s.setStore_keeps _).mono (by decide)

theorem fillPlaces_keeps (fuel : Nat) (s : State) : s.keepsBut (fillPlaces fuel s) placed := by
  induction fuel generalizing s with
  | zero => exact s.keepsBut_refl _
  | succ fuel ih =>
    simp only [fillPlaces]
    split
    · split
      · exact s.keepsBut_refl _
      · exact ((s.pushNotice_keeps _).trans (State.settlePlaced_keeps _ _)).trans (ih _)
    · exact s.keepsBut_refl _

theorem State.arbitrate_keeps (s : State) : s.keepsBut s.arbitrate placed := by
  unfold State.arbitrate
  split
  · exact fillPlaces_keeps _ _
  · exact s.keepsBut_refl _

theorem State.lowStockCheck_keeps (s : State) (k : Fin 8) : s.keepsBut (s.lowStockCheck k) placed := by
  unfold State.lowStockCheck
  simp only
  split
  · split
    · split
      · exact s.keepsBut_refl _
      · exact ((s.modStockType_keeps _ _).mono (by decide)).trans (State.arbitrate_keeps _)
    · exact (s.modStockType_keeps _ _).mono (by decide)
  · exact s.keepsBut_refl _

theorem State.lowStockAll_keeps (s : State) : s.keepsBut s.lowStockAll placed :=
  keepsBut_foldl _ _ (fun s k => s.lowStockCheck_keeps k) _ s

/-! ### Jobs (R65 to R69) -/

theorem State.leaveQueue_keeps (s : State) (p : Fin 6) (tag : Nat) : s.keepsBut (s.leaveQueue p tag) [.printers] :=
  s.modPrinter_keeps _ _

theorem State.joinQueue_keeps (s : State) (p : Fin 6) (tag : Nat) : s.keepsBut (s.joinQueue p tag) [.printers] :=
  s.modPrinter_keeps _ _

theorem State.endJob_keeps (s : State) (j : Job) : s.keepsBut (s.endJob j) placed :=
  (((s.leaveQueue_keeps _ _).mono (by decide)).trans ((State.setPool_keeps _ _).mono (by decide))).trans
    (State.arbitrate_keeps _)

theorem State.endTest_keeps (s : State) (tag : Nat) : s.keepsBut (s.endTest tag) placed := by
  unfold State.endTest
  split
  · exact s.keepsBut_refl _
  · split
    · exact s.endJob_keeps _
    · exact s.keepsBut_refl _

theorem State.moveJob_keeps (s : State) (j : Job) (p : Fin 6) : s.keepsBut (s.moveJob j p) placed :=
  (((s.leaveQueue_keeps _ _).mono (by decide)).trans ((State.joinQueue_keeps _ _ _).mono (by decide))).trans
    ((State.modJob_keeps _ _ _).mono (by decide))

theorem State.rerouteJob_keeps (s : State) (tag : Nat) : s.keepsBut (s.rerouteJob tag) placed := by
  unfold State.rerouteJob
  split
  · exact s.keepsBut_refl _
  · split
    · exact s.keepsBut_refl _
    · split
      · exact ((s.modJob_keeps _ _).mono (by decide)).trans (State.endTest_keeps _ _)
      · split
        · exact s.moveJob_keeps _ _
        · exact s.endTest_keeps _

theorem State.reroutePass_keeps (s : State) (p : Fin 6) : s.keepsBut (s.reroutePass p) placed := by
  unfold State.reroutePass
  split
  · exact keepsBut_foldl _ _ State.rerouteJob_keeps _ s
  · exact s.keepsBut_refl _

theorem State.passAll_keeps (s : State) : s.keepsBut s.passAll placed := keepsBut_foldl _ _ State.reroutePass_keeps _ s

theorem State.losePrinter_keeps (s : State) (p : Fin 6) : s.keepsBut (s.losePrinter p) placed := by
  refine keepsBut_foldl _ _ (fun s tag => ?_) _ s
  split
  · exact s.keepsBut_refl _
  · split
    · exact ((s.modJob_keeps _ _).mono (by decide)).trans (State.endTest_keeps _ _)
    · exact s.keepsBut_refl _

theorem State.reportCopy_keeps (s : State) (p : Fin 6) (tag : Nat) (f : Job → Job) :
    s.keepsBut (s.reportCopy p tag f) placed := by
  unfold State.reportCopy
  split
  · exact s.keepsBut_refl _
  · have h : s.keepsBut ((s.modJob tag f).endTest tag) placed :=
      ((s.modJob_keeps _ _).mono (by decide)).trans (State.endTest_keeps _ _)
    simp only
    split
    · exact h
    · exact h.trans (State.reroutePass_keeps _ _)

/-! ### Printer states and the fault log (R29, R93 to R96) -/

theorem State.setPrinterState_keeps (s : State) (p : Fin 6) (st : PrinterState) :
    s.keepsBut (s.setPrinterState p st) placed := by
  have lose : ∀ t : State, t.keepsBut (if st.losesJobs then t.losePrinter p else t) placed := by
    intro t
    split
    · exact t.losePrinter_keeps p
    · exact t.keepsBut_refl _
  have pass : ∀ t : State, t.keepsBut (if st = .ready then t.passAll else t.reroutePass p) placed := by
    intro t
    split
    · exact t.passAll_keeps
    · exact t.reroutePass_keeps p
  unfold State.setPrinterState
  simp only
  split
  · exact s.keepsBut_refl _
  · split
    · exact (s.modPrinter_keeps _ _).mono (by decide)
    · exact ((((s.modPrinter_keeps _ _).mono (by decide)).trans (State.arbitrate_keeps _)).trans (lose _)).trans (pass _)

theorem State.syncBusy_keeps (s : State) (p : Fin 6) : s.keepsBut (s.syncBusy p) placed := by
  unfold State.syncBusy
  split
  · exact s.setPrinterState_keeps _ _
  · split
    · exact s.setPrinterState_keeps _ _
    · exact s.keepsBut_refl _

theorem State.completeDisable_keeps (s : State) (p : Fin 6) : s.keepsBut (s.completeDisable p) placed :=
  ((s.modPrinter_keeps _ _).mono (by decide)).trans (State.setPrinterState_keeps _ _ _)

theorem State.leaveFaulted_keeps (s : State) (p : Fin 6) : s.keepsBut (s.leaveFaulted p) placed := by
  unfold State.leaveFaulted
  split
  · exact s.completeDisable_keeps _
  · split
    · exact s.setPrinterState_keeps _ _
    · split <;> exact s.setPrinterState_keeps _ _

/-- What the fault log's operations can change. -/
def logged : List Part := .nextFault :: placed

theorem State.logEntry_keeps (s : State) (e : FaultEntry) : s.keepsBut (s.logEntry e) logged :=
  (((s.setFaults_keeps _).mono (by decide)).trans ((State.setNextFault_keeps _ _).mono (by decide))).trans
    ((State.modPrinter_keeps _ _ _).mono (by decide))

theorem State.logTransient_keeps (s : State) (p : Fin 6) (c : FaultCode) (o : Occasion) :
    s.keepsBut (s.logTransient p c o) logged := (s.logEntry_keeps _).trans ((State.arbitrate_keeps _).mono (by decide))

theorem State.logNote_keeps (s : State) (p : Fin 6) (pos : Position) (note : Nat) (withdraw : Bool) :
    s.keepsBut (s.logNote p pos note withdraw) logged := (s.logEntry_keeps _).trans ((State.arbitrate_keeps _).mono (by decide))

theorem State.raise_keeps (s : State) (p : Fin 6) (c : FaultCode) (o : Option Occasion) : s.keepsBut (s.raise p c o) logged := by
  unfold State.raise
  split
  · exact (((s.logEntry_keeps _).trans ((State.modPrinter_keeps _ _ _).mono (by decide))).trans
      ((State.arbitrate_keeps _).mono (by decide))).trans ((State.setPrinterState_keeps _ _ _).mono (by decide))
  · simp only
    split
    · exact ((State.modPrinter_keeps _ _ _).mono (by decide)).trans ((State.modFault_keeps _ _ _).mono (by decide))
    · exact (State.modFault_keeps _ _ _).mono (by decide)

theorem State.markCodes_keeps (s : State) (p : Fin 6) (f : CodeMarks → CodeMarks) : s.keepsBut (s.markCodes p f) placed := by
  unfold State.markCodes
  split
  · exact s.keepsBut_refl _
  · exact (s.modFault_keeps _ _).mono (by decide)

theorem State.entryCleared_keeps (s : State) (p : Fin 6) (e : FaultEntry) : s.keepsBut (s.entryCleared p e) placed := by
  have place : ∀ t : State, t.keepsBut (if (t.printer p).state = .faulted then t.leaveFaulted p else t) placed := by
    intro t
    split
    · exact t.leaveFaulted_keeps p
    · exact t.keepsBut_refl _
  exact ((s.modPrinter_keeps p _).mono (by decide)).trans (place _)

theorem State.clearingTest_keeps (s : State) (p : Fin 6) (answered : Bool) : s.keepsBut (s.clearingTest p answered) placed := by
  unfold State.clearingTest
  split
  · exact s.keepsBut_refl _
  · split
    · exact (((s.modFault_keeps _ _).mono (by decide)).trans (State.arbitrate_keeps _)).trans (State.entryCleared_keeps _ _ _)
    · exact s.keepsBut_refl _

/-! ### The stock register (R6 to R16) -/

/-- What the register and the ports can change between them. -/
def handled : List Part := .packs :: .doubtful :: .inPath :: logged

theorem State.modPath_keeps (s : State) (p : Fin 6) (f : List InPathEntry → List InPathEntry) :
    s.keepsBut (s.modPath p f) handled :=
  ((s.setInPath_keeps _).mono (by decide)).trans ((State.syncBusy_keeps _ _).mono (by decide))

theorem State.dropEntry_keeps (s : State) (p : Fin 6) (e : InPathEntry) : s.keepsBut (s.dropEntry p e) handled :=
  s.modPath_keeps _ _

theorem State.addException_keeps (s : State) (id : Nat) (e : ExceptionEntry) : s.keepsBut (s.addException id e) handled := by
  unfold State.addException
  split
  · exact s.keepsBut_refl _
  · simp only
    split
    · exact (s.modPack_keeps _ _).mono (by decide)
    · exact ((s.modPack_keeps _ _).mono (by decide)).trans ((State.lowStockCheck_keeps _ _).mono (by decide))

theorem State.exhaustTest_keeps (s : State) (id : Nat) : s.keepsBut (s.exhaustTest id) handled :=
  (s.modPack_keeps _ _).mono (by decide)

theorem State.makeDoubtful_keeps (s : State) (p : Fin 6) (e : InPathEntry) : s.keepsBut (s.makeDoubtful p e) handled :=
  ((((s.dropEntry_keeps _ _).trans (State.addException_keeps _ _ _)).trans
    ((State.setDoubtful_keeps _ _).mono (by decide))).trans ((State.reportCopy_keeps _ _ _ _).mono (by decide))).trans
    (State.exhaustTest_keeps _ _)

theorem State.lowStockOf_keeps (s : State) (id : Nat) : s.keepsBut (s.lowStockOf id) handled := by
  unfold State.lowStockOf
  split
  · exact s.keepsBut_refl _
  · exact (s.lowStockCheck_keeps _).mono (by decide)

theorem State.returnBlank_keeps (s : State) (p : Fin 6) (e : InPathEntry) : s.keepsBut (s.returnBlank p e) handled := by
  unfold State.returnBlank
  split
  · split
    · exact (((s.dropEntry_keeps _ _).trans ((State.modPack_keeps _ _ _).mono (by decide))).trans
        (State.lowStockOf_keeps _ _)).trans ((State.reportCopy_keeps _ _ _ _).mono (by decide))
    · exact keepsBut_foldl _ _ (fun s x => s.makeDoubtful_keeps p x) _ s
  · exact s.keepsBut_refl _

theorem State.returnAll_keeps (s : State) (p : Fin 6) (es : List InPathEntry) : s.keepsBut (s.returnAll p es) handled :=
  keepsBut_foldl _ _ (fun s e => s.returnBlank_keeps p e) _ s

theorem State.credit_keeps (s : State) (pos : Position) (shift : Nat) (k : Fin 8) (serial pack value : Nat) (d : Tender) :
    s.keepsBut (s.credit pos shift k serial pack value d) [.console, .windows] := by
  unfold State.credit
  split
  · exact (s.modTallies_keeps _ _).trans (State.modRecent_keeps _ _ _)
  · exact s.keepsBut_refl _

theorem State.countSpoil_keeps (s : State) (pos : Position) (shift : Nat) (k : Fin 8) :
    s.keepsBut (s.countSpoil pos shift k) [.console, .windows] := by
  unfold State.countSpoil
  split
  · exact s.modTallies_keeps _ _
  · exact s.keepsBut_refl _

theorem State.issueBlank_keeps (s : State) (p : Fin 6) (e : InPathEntry) : s.keepsBut (s.issueBlank p e) handled := by
  unfold State.issueBlank
  simp only
  refine (((s.dropEntry_keeps p e).trans ?_).trans ((State.reportCopy_keeps _ _ _ _).mono (by decide))).trans
    (State.exhaustTest_keeps _ _)
  split
  · exact State.keepsBut_refl _ _
  · exact (State.credit_keeps _ _ _ _ _ _ _ _).mono (by decide)

theorem State.spoilBlank_keeps (s : State) (p : Fin 6) (e : InPathEntry) (fault : Nat) :
    s.keepsBut (s.spoilBlank p e fault) handled := by
  unfold State.spoilBlank
  simp only
  refine State.keepsBut.trans ?_ (State.exhaustTest_keeps _ _)
  refine State.keepsBut.trans ?_ ((State.reportCopy_keeps _ _ _ _).mono (by decide))
  have h : ∀ x, s.keepsBut ((s.dropEntry p e).addException e.pack x) handled := fun x =>
    (s.dropEntry_keeps p e).trans (State.addException_keeps _ _ _)
  split
  · exact h _
  · exact (h _).trans ((State.countSpoil_keeps _ _ _ _).mono (by decide))

theorem State.runOut_keeps (s : State) (id : Nat) (d : Disposition) (fault : Option Nat) :
    s.keepsBut (s.runOut id d fault) handled := by
  unfold State.runOut
  split
  · exact s.keepsBut_refl _
  · have h : ∀ t : State, s.keepsBut t handled → ∀ k : Pack,
        s.keepsBut (((t.modPack id Pack.emptied).exhaustTest id).lowStockCheck k.stockType) handled := fun t ht k =>
      ((ht.trans ((State.modPack_keeps _ _ _).mono (by decide))).trans (State.exhaustTest_keeps _ _)).trans
        ((State.lowStockCheck_keeps _ _).mono (by decide))
    simp only
    split
    · exact h _ (s.keepsBut_refl _) _
    · exact h _ (s.addException_keeps _ _) _

theorem State.binEmptied_keeps (s : State) (p : Fin 6) (e : InPathEntry) (fault : Nat) :
    s.keepsBut (s.binEmptied p e fault) handled :=
  ((s.returnAll_keeps _ _).trans ((State.modFault_keeps _ _ _).mono (by decide))).trans (State.runOut_keeps _ _ _ _)

/-- A take, when it gives a blank, changes only what the register and the ports handle. -/
theorem State.take_keeps (s : State) (p : Fin 6) (k : Fin 8) (e : InPathEntry) (t : State) (e' : InPathEntry) (side : Bin)
    (h : s.take p k e = some (t, e', side)) : s.keepsBut t handled := by
  unfold State.take at h
  split at h
  · cases h
  · split at h
    · cases h
    · cases h
      exact (((s.modPack_keeps _ _).mono (by decide)).trans (State.modPath_keeps _ _ _)).trans
        ((State.lowStockCheck_keeps _ _).mono (by decide))

/-! ### The ports (R30, R37, R38) -/

theorem State.send_keeps (s : State) (p : Fin 6) (kind : CommandKind) (body : Option PrintBody) :
    s.keepsBut (s.send p kind body) [.printers] := s.modPrinter_keeps _ _

theorem State.dispatch_keeps (s : State) (p : Fin 6) (t : State) (h : s.dispatch p = some t) : s.keepsBut t handled := by
  unfold State.dispatch at h
  split at h
  · split at h
    · cases h
    · split at h
      · split at h
        · cases h
        · rename_i htake
          cases h
          exact ((s.take_keeps _ _ _ _ _ _ htake).trans ((State.send_keeps _ _ _ _).mono (by decide))).trans
            ((State.modJob_keeps _ _ _).mono (by decide))
      · cases h
  · cases h

theorem State.pollOrWait_keeps (s : State) (p : Fin 6) (trigger : Trigger) : s.keepsBut (s.pollOrWait p trigger) handled := by
  unfold State.pollOrWait State.poll
  split
  · exact (s.send_keeps _ _ _).mono (by decide)
  · exact s.keepsBut_refl _

theorem State.choose_keeps (s : State) (trigger : Trigger) (p : Fin 6) : s.keepsBut (s.choose trigger p) handled := by
  unfold State.choose
  simp only
  split
  · exact s.keepsBut_refl _
  · split
    · exact s.keepsBut_refl _
    · exact s.keepsBut_refl _
    · exact s.keepsBut_refl _
    · exact s.keepsBut_refl _
    · split
      · exact (s.send_keeps _ _ _).mono (by decide)
      · exact s.pollOrWait_keeps _ _
    · exact s.pollOrWait_keeps _ _
    · split
      · rename_i h; exact s.dispatch_keeps _ _ h
      · exact s.pollOrWait_keeps _ _
    · split
      · rename_i h; exact s.dispatch_keeps _ _ h
      · exact s.pollOrWait_keeps _ _

theorem State.wake_keeps (s before : State) (p : Fin 6) : s.keepsBut (s.wake before p) handled := by
  unfold State.wake
  split
  · exact s.keepsBut_refl _
  · exact s.choose_keeps _ _

theorem State.wakeAll_keeps (s before : State) : s.keepsBut (s.wakeAll before) handled :=
  keepsBut_foldl _ _ (fun s p => s.wake_keeps before p) _ s

/-- A port that awaits a reply sends nothing. -/
theorem State.choose_waits (s : State) (trigger : Trigger) (p : Fin 6) (h : (s.printer p).outstanding.isSome = true) :
    s.choose trigger p = s := by simp [State.choose, h]

/-- A port that is quiet sends nothing (R37). -/
theorem State.choose_quiet (s : State) (trigger : Trigger) (p : Fin 6) (h : s.portQuiet p) : s.choose trigger p = s := by
  rcases h with h | h
  · exact s.choose_waits trigger p h
  · by_cases ho : (s.printer p).outstanding.isSome = true
    · exact s.choose_waits trigger p ho
    · simp only [List.mem_cons, List.not_mem_nil, or_false] at h
      rcases h with h | h | h | h <;> simp [State.choose, ho, h]

/-- What a port's dispatch conditions read stands in the printers, the paths, the packs, the doubtful list, the pool, the layouts and the
stock types (R38). -/
theorem State.dispatchView_congr (s t : State) (p : Fin 6) (printers : t.printers = s.printers)
    (inPath : t.ret.inPath = s.ret.inPath) (packs : t.ret.packs = s.ret.packs) (doubtful : t.ret.doubtful = s.ret.doubtful)
    (pool : t.pool = s.pool) (layouts : t.live.layouts = s.live.layouts) (stockTypes : t.ret.stockTypes = s.ret.stockTypes) :
    t.dispatchView p = s.dispatchView p := by
  have head : t.headCopy p = s.headCopy p := by simp only [State.headCopy, State.job?, State.printer, printers, pool]
  have fits : ∀ k, t.qualifies p k = s.qualifies p k := fun k => by
    unfold State.qualifies State.printer State.layout State.stockType; rw [printers, layouts, stockTypes]
  simp only [State.dispatchView, head, fits, State.printer, State.path, State.binPack?, State.hasDoubt, printers, inPath, packs,
    doubtful]

/-- A reply handed to the transmitter is no dispatch condition. -/
@[simp] theorem State.dispatchView_answer (s : State) (code : ReplyCode) (request : Nat) (body : List Byte) (p : Fin 6) :
    (s.answer code request body).dispatchView p = s.dispatchView p := rfl

/-- Nothing is sent while each port is quiet or has its dispatch conditions as they were (R37). -/
theorem State.wakeAll_same (s before : State)
    (h : ∀ p, s.portQuiet p ∨ s.dispatchView p = before.dispatchView p) : s.wakeAll before = s := by
  have one : ∀ p, s.wake before p = s := fun p => by
    unfold State.wake
    rcases h p with h | h
    · rw [s.choose_quiet _ _ h]; split <;> rfl
    · rw [if_pos h]
  have key : ∀ l : List (Fin 6), l.foldl (fun s p => s.wake before p) s = s := by
    intro l
    induction l with
    | nil => rfl
    | cons p l ih => rw [List.foldl_cons, one]; exact ih
  exact key allPrinters

/-- No port sends anything while every port is quiet. -/
theorem State.wakeAll_waits (s before : State) (h : s.portsQuiet) : s.wakeAll before = s :=
  s.wakeAll_same before fun p => .inl (h p)

/-! ### Replies and timers (R32, R39, R45) -/

theorem State.raiseOutcome_keeps (s : State) (p : Fin 6) (o : PrintOutcome) (e : InPathEntry) :
    s.keepsBut (s.raiseOutcome p o e).1 handled := by
  have count : ∀ t : State, t.keepsBut (t.countConsecutive p e) handled := by
    intro t
    unfold State.countConsecutive
    simp only
    split
    · exact ((t.modPrinter_keeps _ _).mono (by decide)).trans ((State.raise_keeps _ _ _ _).mono (by decide))
    · exact (t.modPrinter_keeps _ _).mono (by decide)
  cases o with
  | done => exact (s.modPrinter_keeps _ _).mono (by decide)
  | notFed => exact s.keepsBut_refl _
  | binEmpty => exact (s.logTransient_keeps _ _ _).mono (by decide)
  | spoiled cause =>
    refine State.keepsBut.trans (t := (s.raiseSpoil p cause e).1) ?_ (count _)
    cases cause with
    | misfeed => exact (s.logTransient_keeps _ _ _).mono (by decide)
    | stripe => exact (s.logTransient_keeps _ _ _).mono (by decide)
    | jam => exact (s.raise_keeps _ _ _).mono (by decide)
    | cutter => exact (s.raise_keeps _ _ _).mono (by decide)

theorem State.applyOutcome_keeps (s : State) (p : Fin 6) (o : PrintOutcome) (fault : Nat) (e : InPathEntry) :
    s.keepsBut (s.applyOutcome p o fault e) handled := by
  cases o with
  | done => exact s.issueBlank_keeps _ _
  | spoiled _ => exact s.spoilBlank_keeps _ _ _
  | notFed => exact s.keepsBut_refl _
  | binEmpty => exact s.binEmptied_keeps _ _ _

theorem State.raiseDoubtSince_keeps (s : State) (p : Fin 6) (before : Nat) : s.keepsBut (s.raiseDoubtSince p before) handled := by
  unfold State.raiseDoubtSince
  split
  · exact s.keepsBut_refl _
  · exact (s.raise_keeps _ _ _).mono (by decide)

theorem State.applySettlement_keeps (s : State) (p : Fin 6) (o : PrintOutcome) (w : Settlement) :
    s.keepsBut (s.applySettlement p o w) handled := by
  have lost : ∀ t : State, t.keepsBut (w.lost.foldl (fun s e => s.makeDoubtful p e) t) handled :=
    keepsBut_foldl _ _ (fun s e => s.makeDoubtful_keeps p e) _
  unfold State.applySettlement
  simp only
  refine State.keepsBut.trans ?_ (State.raiseDoubtSince_keeps _ _ _)
  refine State.keepsBut.trans ?_ (State.returnAll_keeps _ _ _)
  cases w.outcome with
  | none => exact lost _
  | some e => exact ((s.raiseOutcome_keeps p o e).trans (lost _)).trans (State.applyOutcome_keeps _ _ _ _ _)

theorem State.takeSample_keeps (s : State) (p : Fin 6) (n : Nat) : s.keepsBut (s.takeSample p n) handled := by
  unfold State.takeSample
  split
  · exact ((s.modPrinter_keeps _ _).mono (by decide)).trans ((State.raise_keeps _ _ _ _).mono (by decide))
  · split
    · simp only
      split
      · exact ((s.modPrinter_keeps _ _).mono (by decide)).trans ((State.markCodes_keeps _ _ _).mono (by decide))
      · exact (s.modPrinter_keeps _ _).mono (by decide)
    · exact s.keepsBut_refl _

theorem State.compareHeat_keeps (s : State) (p : Fin 6) : s.keepsBut (s.compareHeat p) handled := by
  unfold State.compareHeat
  split
  all_goals first
    | exact s.keepsBut_refl _
    | (split <;> first | exact s.keepsBut_refl _ | exact (s.setPrinterState_keeps _ _).mono (by decide))

theorem State.takeAcceptance_keeps (s : State) (p : Fin 6) (n : Byte) (kind : CommandKind) (r : PrinterReply) :
    s.keepsBut (s.takeAcceptance p n kind r) handled := by
  unfold State.takeAcceptance State.confirmed
  simp only
  split
  · exact ((s.modPrinter_keeps _ _).mono (by decide)).trans
      (((State.modPrinter_keeps _ _ _).mono (by decide)).trans ((State.markCodes_keeps _ _ _).mono (by decide)))
  · exact (s.modPrinter_keeps _ _).mono (by decide)

theorem State.takeCondition_keeps (s : State) (p : Fin 6) (c : Condition) : s.keepsBut (s.takeCondition p c) handled := by
  unfold State.takeCondition
  split
  · exact (s.raise_keeps _ _ _).mono (by decide)
  · exact (s.markCodes_keeps _ _).mono (by decide)

theorem State.finishDisable_keeps (s : State) (p : Fin 6) : s.keepsBut (s.finishDisable p) handled := by
  unfold State.finishDisable
  simp only
  split
  · exact (s.completeDisable_keeps _).mono (by decide)
  · exact s.keepsBut_refl _

/-- A reply to a PRINT, a POLL or a CLEAR changes only what the register and the ports handle. -/
theorem State.receiveReply_keeps (s : State) (p : Fin 6) (r : PrinterReply) : s.keepsBut (s.receiveReply p r) handled := by
  unfold State.receiveReply
  split
  · exact s.keepsBut_refl _
  · split
    · unfold State.acceptReply
      simp only
      exact (((((((((s.modPrinter_keeps _ _).mono (by decide)).trans (State.applySettlement_keeps _ _ _ _)).trans
        (State.takeAcceptance_keeps _ _ _ _ _)).trans (State.takeSample_keeps _ _ _)).trans
        (State.compareHeat_keeps _ _)).trans (State.takeCondition_keeps _ _ _)).trans
        ((State.clearingTest_keeps _ _ _).mono (by decide))).trans (State.finishDisable_keeps _ _)).trans
        (State.choose_keeps _ _ _) |>.trans (State.wakeAll_keeps _ _)
    · exact s.keepsBut_refl _

theorem State.placeIdentified_keeps (s : State) (p : Fin 6) : s.keepsBut (s.placeIdentified p) handled := by
  have h : ∀ st, s.keepsBut (s.setPrinterState p st) handled := fun st => (s.setPrinterState_keeps _ _).mono (by decide)
  unfold State.placeIdentified
  split
  · exact h _
  · split
    · exact (s.completeDisable_keeps _).mono (by decide)
    · split
      · exact h _
      · split <;> exact h _

theorem State.linkAnswered_keeps (s : State) (p : Fin 6) (c : Condition) : s.keepsBut (s.linkAnswered p c) handled := by
  unfold State.linkAnswered
  simp only
  refine State.keepsBut.trans ?_ ((State.clearingTest_keeps _ _ _).mono (by decide))
  split
  · exact (((s.markCodes_keeps _ _).mono (by decide)).trans ((State.modPrinter_keeps _ _ _).mono (by decide))).trans
      ((State.markCodes_keeps _ _ _).mono (by decide))
  · exact (s.markCodes_keeps _ _).mono (by decide)

theorem State.raiseAtIdentity_keeps (s : State) (p : Fin 6) (c : Condition) : s.keepsBut (s.raiseAtIdentity p c) handled := by
  have h : ∀ t : State, t.keepsBut (match conditionCode c with | some code => t.raise p code none | none => t) handled := by
    intro t
    split
    · exact (t.raise_keeps _ _ _).mono (by decide)
    · exact t.keepsBut_refl _
  unfold State.raiseAtIdentity
  simp only
  refine State.keepsBut.trans ?_ (h _)
  split
  · exact ((s.modPrinter_keeps _ _).mono (by decide)).trans ((State.raise_keeps _ _ _ _).mono (by decide))
  · exact (s.modPrinter_keeps _ _).mono (by decide)

/-- A reply to an IDENT changes only what the register and the ports handle. -/
theorem State.receiveIdentity_keeps (s : State) (p : Fin 6) (r : PrinterReply) (i : Identity) :
    s.keepsBut (s.receiveIdentity p r i) handled := by
  unfold State.receiveIdentity
  split
  · exact s.keepsBut_refl _
  · split
    · unfold State.acceptIdentity
      simp only
      exact ((((((s.modPrinter_keeps _ _).mono (by decide)).trans (State.takeSample_keeps _ _ _)).trans
        (State.linkAnswered_keeps _ _ _)).trans (State.raiseAtIdentity_keeps _ _ _)).trans
        (State.placeIdentified_keeps _ _)).trans (State.choose_keeps _ _ _) |>.trans (State.wakeAll_keeps _ _)
    · exact s.keepsBut_refl _

theorem State.loseLink_keeps (s : State) (p : Fin 6) : s.keepsBut (s.loseLink p) handled := by
  unfold State.loseLink
  simp only
  exact ((((keepsBut_foldl _ _ (fun s e => s.makeDoubtful_keeps p e) _ _).trans
    ((State.raise_keeps _ _ _ _).mono (by decide))).trans (State.raiseDoubtSince_keeps _ _ _)).trans
    ((State.setPrinterState_keeps _ _ _).mono (by decide))).trans ((State.modPrinter_keeps _ _ _).mono (by decide))
    |>.trans (State.wakeAll_keeps _ _)

/-- A reply timeout changes only what the register and the ports handle. -/
theorem State.expireReply_keeps (s : State) (p : Fin 6) : s.keepsBut (s.expireReply p) handled := by
  unfold State.expireReply
  split
  · exact s.keepsBut_refl _
  · split
    · exact s.keepsBut_refl _
    · have h : ∀ f, s.keepsBut (s.modPrinter p f) handled := fun f => (s.modPrinter_keeps _ _).mono (by decide)
      simp only
      split
      · exact (h _).trans ((State.send_keeps _ _ _ _).mono (by decide))
      · exact State.keepsBut.trans (h _) (State.loseLink_keeps _ _)

theorem State.giveUpIdentifying_keeps (s : State) (p : Fin 6) : s.keepsBut (s.giveUpIdentifying p) handled := by
  unfold State.giveUpIdentifying
  simp only
  refine State.keepsBut.trans (State.keepsBut.trans ?_ ((State.modPrinter_keeps _ _ _).mono (by decide)))
    (State.wakeAll_keeps _ _)
  have h : s.keepsBut (s.raise p .linkLost none) handled := (s.raise_keeps _ _ _).mono (by decide)
  split
  · exact h.trans ((State.raise_keeps _ _ _ _).mono (by decide))
  · exact h

/-- An IDENT timeout changes only what the register and the ports handle. -/
theorem State.expireIdent_keeps (s : State) (p : Fin 6) : s.keepsBut (s.expireIdent p) handled := by
  unfold State.expireIdent
  split
  · exact s.keepsBut_refl _
  · split
    · have h : ∀ f, s.keepsBut (s.modPrinter p f) handled := fun f => (s.modPrinter_keeps _ _).mono (by decide)
      simp only
      split
      · exact (h _).trans (State.giveUpIdentifying_keeps _ _)
      · exact h _
    · exact s.keepsBut_refl _

end Sys2Proof.Machine
end

