-- ==== Sys2Proof/Laws/FullQueue.lean ====
section
/-! SUPPORT. Frames while the notice queue is full: the arbiter places nothing, so that jobs, printer states and the fault log reach
fewer parts. -/

namespace Sys2Proof.Machine

/-- A full queue stays full where the notices are kept. -/
theorem State.queueFull.carry {s t : State} {l : List Part} (h : s.queueFull) (k : s.keepsBut t l) (hn : Part.notices ∉ l) :
    t.queueFull := by
  unfold State.queueFull at h ⊢
  rw [show t.notices = s.notices from k .notices hn]
  exact h

/-- A fold keeps what each of its steps keeps while the queue is full. -/
theorem keepsBut_foldl_full {α : Type} (f : State → α → State) (l : List Part) (hn : Part.notices ∉ l)
    (h : ∀ (s : State) (x : α), s.queueFull → State.keepsBut s (f s x) l) (xs : List α) (s : State) (hs : s.queueFull) :
    s.keepsBut (xs.foldl f s) l := by
  induction xs generalizing s with
  | nil => exact s.keepsBut_refl l
  | cons x xs ih => exact (h s x hs).trans (ih (f s x) (hs.carry (h s x hs) hn))

/-- What jobs and printer states can change then. -/
def moved : List Part := [.printers, .pool]

/-- The arbiter's frame is empty then, after anything that keeps the notices. -/
theorem State.arbitrate_after {s t : State} {l : List Part} (hs : s.queueFull) (k : s.keepsBut t l) (hn : Part.notices ∉ l) :
    s.keepsBut t.arbitrate l := by rw [State.arbitrate_full t (hs.carry k hn)]; exact k

theorem State.lowStockCheck_full (s : State) (k : Fin 8) (hs : s.queueFull) : s.keepsBut (s.lowStockCheck k) [.stockTypes] := by
  unfold State.lowStockCheck
  simp only
  split
  · split
    · split
      · exact s.keepsBut_refl _
      · exact State.arbitrate_after hs (s.modStockType_keeps _ _) (by decide)
    · exact s.modStockType_keeps _ _
  · exact s.keepsBut_refl _

theorem State.endJob_full (s : State) (j : Job) (hs : s.queueFull) : s.keepsBut (s.endJob j) moved :=
  State.arbitrate_after hs (((s.leaveQueue_keeps _ _).mono (by decide)).trans ((State.setPool_keeps _ _).mono (by decide)))
    (by decide)

theorem State.endTest_full (s : State) (tag : Nat) (hs : s.queueFull) : s.keepsBut (s.endTest tag) moved := by
  unfold State.endTest
  split
  · exact s.keepsBut_refl _
  · split
    · exact s.endJob_full _ hs
    · exact s.keepsBut_refl _

/-- The end test after one job is changed. -/
theorem State.endTest_after (s : State) (tag : Nat) (f : Job → Job) (hs : s.queueFull) :
    s.keepsBut ((s.modJob tag f).endTest tag) moved :=
  have k := s.modJob_keeps tag f
  (k.mono (by decide)).trans (State.endTest_full _ _ (hs.carry k (by decide)))

theorem State.rerouteJob_full (s : State) (tag : Nat) (hs : s.queueFull) : s.keepsBut (s.rerouteJob tag) moved := by
  unfold State.rerouteJob
  split
  · exact s.keepsBut_refl _
  · split
    · exact s.keepsBut_refl _
    · split
      · exact s.endTest_after _ _ hs
      · split
        · exact (((s.leaveQueue_keeps _ _).mono (by decide)).trans ((State.joinQueue_keeps _ _ _).mono (by decide))).trans
            ((State.modJob_keeps _ _ _).mono (by decide))
        · exact s.endTest_full _ hs

theorem State.reroutePass_full (s : State) (p : Fin 6) (hs : s.queueFull) : s.keepsBut (s.reroutePass p) moved := by
  unfold State.reroutePass
  split
  · exact keepsBut_foldl_full _ _ (by decide) State.rerouteJob_full _ s hs
  · exact s.keepsBut_refl _

theorem State.passAll_full (s : State) (hs : s.queueFull) : s.keepsBut s.passAll moved :=
  keepsBut_foldl_full _ _ (by decide) State.reroutePass_full _ s hs

theorem State.losePrinter_full (s : State) (p : Fin 6) (hs : s.queueFull) : s.keepsBut (s.losePrinter p) moved := by
  refine keepsBut_foldl_full _ _ (by decide) (fun s tag hs => ?_) _ s hs
  split
  · exact s.keepsBut_refl _
  · split
    · exact s.endTest_after _ _ hs
    · exact s.keepsBut_refl _

theorem State.reportCopy_full (s : State) (p : Fin 6) (tag : Nat) (f : Job → Job) (hs : s.queueFull) :
    s.keepsBut (s.reportCopy p tag f) moved := by
  unfold State.reportCopy
  split
  · exact s.keepsBut_refl _
  · have h := s.endTest_after tag f hs
    simp only
    split
    · exact h
    · exact h.trans (State.reroutePass_full _ _ (hs.carry h (by decide)))

theorem State.setPrinterState_full (s : State) (p : Fin 6) (st : PrinterState) (hs : s.queueFull) :
    s.keepsBut (s.setPrinterState p st) moved := by
  have lose : ∀ t : State, t.queueFull → t.keepsBut (if st.losesJobs then t.losePrinter p else t) moved := by
    intro t ht
    split
    · exact t.losePrinter_full p ht
    · exact t.keepsBut_refl _
  have pass : ∀ t : State, t.queueFull → t.keepsBut (if st = .ready then t.passAll else t.reroutePass p) moved := by
    intro t ht
    split
    · exact t.passAll_full ht
    · exact t.reroutePass_full p ht
  have mark : ∀ f, s.keepsBut (s.modPrinter p f).arbitrate moved := fun f =>
    State.arbitrate_after hs ((s.modPrinter_keeps p f).mono (by decide)) (by decide)
  have both : ∀ f, s.keepsBut (if st.losesJobs then (s.modPrinter p f).arbitrate.losePrinter p else (s.modPrinter p f).arbitrate)
      moved := fun f => (mark f).trans (lose _ (hs.carry (mark f) (by decide)))
  unfold State.setPrinterState
  simp only
  split
  · exact s.keepsBut_refl _
  · split
    · exact (s.modPrinter_keeps _ _).mono (by decide)
    · exact (both _).trans (pass _ (hs.carry (both _) (by decide)))

theorem State.syncBusy_full (s : State) (p : Fin 6) (hs : s.queueFull) : s.keepsBut (s.syncBusy p) moved := by
  unfold State.syncBusy
  split
  · exact s.setPrinterState_full _ _ hs
  · split
    · exact s.setPrinterState_full _ _ hs
    · exact s.keepsBut_refl _

theorem State.completeDisable_full (s : State) (p : Fin 6) (hs : s.queueFull) : s.keepsBut (s.completeDisable p) moved :=
  have k := s.modPrinter_keeps p fun x => { x with disablePending := false }
  (k.mono (by decide)).trans (State.setPrinterState_full _ _ _ (hs.carry k (by decide)))

theorem State.leaveFaulted_full (s : State) (p : Fin 6) (hs : s.queueFull) : s.keepsBut (s.leaveFaulted p) moved := by
  unfold State.leaveFaulted
  split
  · exact s.completeDisable_full _ hs
  · split
    · exact s.setPrinterState_full _ _ hs
    · split <;> exact s.setPrinterState_full _ _ hs

theorem State.logEntry_full (s : State) (e : FaultEntry) : s.keepsBut (s.logEntry e) [.faults, .nextFault, .printers] :=
  (((s.setFaults_keeps _).mono (by decide)).trans ((State.setNextFault_keeps _ _).mono (by decide))).trans
    ((State.modPrinter_keeps _ _ _).mono (by decide))

theorem State.raise_full (s : State) (p : Fin 6) (c : FaultCode) (o : Option Occasion) (hs : s.queueFull) :
    s.keepsBut (s.raise p c o) [.faults, .nextFault, .printers, .pool] := by
  unfold State.raise
  split
  · have h : ∀ e f, s.keepsBut ((s.logEntry e).modPrinter p f) [.faults, .nextFault, .printers, .pool] := fun e f =>
      ((s.logEntry_full e).mono (by decide)).trans ((State.modPrinter_keeps _ _ _).mono (by decide))
    have a : ∀ e f, s.keepsBut ((s.logEntry e).modPrinter p f).arbitrate [.faults, .nextFault, .printers, .pool] := fun e f =>
      State.arbitrate_after hs (h e f) (by decide)
    exact (a _ _).trans ((State.setPrinterState_full _ _ _ (hs.carry (a _ _) (by decide))).mono (by decide))
  · simp only
    split
    · exact ((State.modPrinter_keeps _ _ _).mono (by decide)).trans ((State.modFault_keeps _ _ _).mono (by decide))
    · exact (State.modFault_keeps _ _ _).mono (by decide)

theorem State.clearingTest_full (s : State) (p : Fin 6) (answered : Bool) (hs : s.queueFull) :
    s.keepsBut (s.clearingTest p answered) [.faults, .printers, .pool] := by
  have place : ∀ t : State, t.queueFull →
      t.keepsBut (if (t.printer p).state = .faulted then t.leaveFaulted p else t) [.faults, .printers, .pool] := by
    intro t ht
    split
    · exact (t.leaveFaulted_full p ht).mono (by decide)
    · exact t.keepsBut_refl _
  unfold State.clearingTest
  split
  · exact s.keepsBut_refl _
  · split
    · have a : ∀ n f, s.keepsBut (s.modFault n f).arbitrate [.faults, .printers, .pool] := fun n f =>
        State.arbitrate_after hs ((s.modFault_keeps n f).mono (by decide)) (by decide)
      have b : ∀ n f g, s.keepsBut ((s.modFault n f).arbitrate.modPrinter p g) [.faults, .printers, .pool] := fun n f g =>
        (a n f).trans ((State.modPrinter_keeps _ _ _).mono (by decide))
      exact (b _ _ _).trans (place _ (hs.carry (b _ _ _) (by decide)))
    · exact s.keepsBut_refl _

end Sys2Proof.Machine
end

