-- ==== Sys2Proof/Laws/Link.lean ====
section
/-! SUPPORT. What a stretch of the line does to the receiver (R159): only the bytes without a framing error count. -/

namespace Sys2Proof.Machine

@[simp] theorem State.hear_whole (s : State) (b : Byte) : s.hear (.whole b) = s.receiveByte b := rfl
@[simp] theorem State.hear_framingError (s : State) : s.hear .framingError = s := rfl
@[simp] theorem State.receiveLine_nil (s : State) : s.receiveLine [] = s := rfl
@[simp] theorem State.receiveLine_cons (s : State) (x : LineByte) (line : List LineByte) :
    s.receiveLine (x :: line) = (s.hear x).receiveLine line := rfl

/-- A stretch of the line does what its bytes without a framing error do. -/
theorem State.receiveLine_eq (s : State) (line : List LineByte) :
    s.receiveLine line = (wholeBytes line).foldl State.receiveByte s := by
  induction line generalizing s with
  | nil => rfl
  | cons x line ih => cases x <;> simp [wholeBytes, ih]

/-- A byte that completes no frame moves the receiver and nothing else (R161). -/
theorem State.receiveByte_within (s : State) (b : Byte) (h : s.link.receiver.completes b = none) :
    s.receiveByte b = s.setLink { s.link with receiver := s.link.receiver.take s.link.unit s.link.leaving b } := by
  simp [State.receiveByte, h]

/-- A byte received changes nothing but the link. -/
theorem State.receiveByte_parts (s : State) (b : Byte) :
    ∃ l, s.receiveByte b = s.setLink l := by
  unfold State.receiveByte State.checkFrame State.judged
  simp only
  split
  · exact ⟨_, rfl⟩
  · split <;> exact ⟨_, rfl⟩

end Sys2Proof.Machine
end

