-- ==== Sys2Proof/Laws/Requests.lean ====
section
/-! SUPPORT. What a refusal is: a judged request refuses by its checks in their order, and the tests of LOAD PACK in the words of the
statements. -/

namespace Sys2Proof.Machine

/-- A command whose whole effect is an answer only replies. -/
theorem State.onlyReplies_of_answer (s : State) (c : Instr) (code : ReplyCode) (request : Nat) (body : List Byte)
    (h : exec c s = .next (s.answer code request body)) : s.onlyReplies c code request body :=
  ⟨_, h, by simp [State.replies, State.answer_link], State.answer_keeps s code request body⟩

/-- Checks made one list after another. -/
theorem State.refuses_append (s : State) (c : Instr) (request : Nat) (a b : List (Prop × ReplyCode)) :
    s.refuses c request (a ++ b) ↔ s.refuses c request a ∧ ((∀ x ∈ a, x.1) → s.refuses c request b) := by
  induction a with
  | nil => simp [State.refuses]
  | cons x rest ih =>
    simp only [List.cons_append, State.refuses, ih, List.forall_mem_cons]
    tauto

/-- A judged request refuses by its checks, in their order (R163). -/
theorem State.refuses_of_judged (s taken : State) (c : Instr) (request : Nat) (checks : List (Bool × ReplyCode))
    (h : exec c s = .next (s.judged request checks taken)) :
    s.refuses c request (checks.map fun x => (x.1 = true, x.2)) := by
  induction checks with
  | nil => trivial
  | cons x rest ih =>
    obtain ⟨passes, code⟩ := x
    cases passes
    · refine ⟨fun _ => s.onlyReplies_of_answer c code request [] ?_, nofun⟩
      rw [h, State.judged_failed _ _ _ _ code (judge_fail code rest)]
    · exact ⟨fun hb => absurd rfl hb, fun _ => ih (by rw [h]; simp [State.judged])⟩

/-- The serials of a pack are those of its range (R4). -/
theorem Pack.holdsSerial_iff (k : Pack) (n : Int) : k.holdsSerial n ↔ k.range.1 ≤ n ∧ n ≤ k.range.2 := by
  unfold Pack.holdsSerial Pack.range; cases k.direction <;> simp only <;> omega

/-- Two packs collide exactly when they are of one type and a serial lies in both (R18, R19, R25). -/
theorem Pack.collides_iff_shared (k j : Pack) :
    k.collides j = true ↔ k.stockType = j.stockType ∧ ∃ n : Int, k.holdsSerial n ∧ j.holdsSerial n := by
  simp only [Pack.collides_iff, Pack.holdsSerial_iff, and_assoc]

/-- The bin conditions of LOAD PACK (R19, check 8). -/
theorem State.admits_iff (s : State) (l : Location) : s.admits l = true ↔ s.placeFree l := by
  cases l with
  | store => simp [State.admits, State.placeFree]
  | bin p side => cases side <;> simp [State.admits, State.placeFree, State.binPack?, and_assoc, Option.any_eq_true]

end Sys2Proof.Machine
end

