-- ==== Sys2Proof/Tests/Slice0.lean ====
section
/-! SUPPORT. The model's own tests: the well-formedness smoke, the worked examples of the spec, the state after reset, and a witness
for the hypotheses of every statement that has some. -/

-- Each test is checked by evaluation in the kernel: one after the other, not all at once.
set_option Elab.async false


open Sys2Proof Sys2Proof.Machine

namespace Sys2Proof.Tests

/-- The state a command leaves. -/
def after (c : Instr) (s : State) : State :=
  match exec c s with
  | .next t => t
  | .fault _ => s
  | .refused _ => s

/-! ### Well-formed commands: each check refuses a term -/

theorem test_one_byte_field : (Instr.movePack .console 5 256).wellFormed = false := by decide
theorem test_two_byte_field : (Instr.cancelJob .console 65536).wellFormed = false := by decide
theorem test_three_byte_field : (Instr.setTime .console 16777216).wellFormed = false := by decide
theorem test_four_byte_field : (Instr.voidTicket .console 4294967296 0 1).wellFormed = false := by decide
theorem test_layout_field : (Instr.writeSettingLayout .console 0
    [{ kind := 1, slot := 0, row := 0, column := 300, width := 8, size := 0, stripe := 0 }]).wellFormed = false := by decide
theorem test_layout_length : (Instr.writeSettingLayout .console 0
    (List.replicate 34 { kind := 1, slot := 0, row := 0, column := 0, width := 8, size := 0, stripe := 0 })).wellFormed =
      false := by decide
theorem test_texts_length : (Instr.issueTicket .console 0 0 1 100 0 (List.replicate 8 (List.replicate 32 0x41#8))).wellFormed =
    false := by decide +kernel
theorem test_face_bytes : (Instr.writeSettingDenominations .console 0 (Vector.replicate 12 16777216)).wellFormed = false := by
  decide
theorem test_count_bytes : (Instr.declare .console 1 (Vector.replicate 12 65536) 0 0 0).wellFormed = false := by decide
theorem test_date_length : (Instr.openOffice .console (List.replicate 240 0x41#8)).wellFormed = false := by decide +kernel
theorem test_frame_length : (Instr.frameCheckFailed (List.replicate 248 (.whole 0#8))).wellFormed = false ∧
    (Instr.frameDiscarded (List.replicate 248 (.whole 0#8))).wellFormed = false ∧
    (Instr.gapTimeout (List.replicate 247 (.whole 0#8))).wellFormed = false ∧
    (Instr.gapTimeout (.framingError :: List.replicate 246 (.whole 0#8))).wellFormed = true := by decide +kernel
theorem test_reply_length : (Instr.printerReplyDiscarded 0 (List.replicate 261 0#8)).wellFormed = false ∧
    (Instr.printerReplyGap 0 (List.replicate 260 0#8)).wellFormed = false := by decide +kernel
theorem test_selector_rows : (Instr.fetchNotice .console 1).wellFormed = false ∧
    (Instr.resolveDoubtfulIssued .console 1 1 1).wellFormed = false ∧ (Instr.powerPrinterOn .console 1 0).wellFormed = false ∧
    (Instr.readSetting .console 3 0).wellFormed = false ∧ (Instr.writeSettingOffice .console 3 0 0 0 0 0).wellFormed = false := by
  decide

/-! ### Worked examples of the spec -/

/-- The reply bins of the examples. -/
def sensed : BinSense := { present := true, low := false }

/-- A printer's reply. -/
def reply (answers outcomeOf : Byte) (outcome : PrintOutcome) (temperature : Nat) : PrinterReply :=
  { answers := answers, outcomeOf := outcomeOf, outcome := outcome, acceptance := .taken, condition := .ready,
    temperature := temperature, senseA := sensed, senseB := sensed }

theorem test_temperature_above : (reply 0 0 .notFed 1024).temperature = 1024 ∧
    (Instr.printerReply 0 (reply 0 0 .notFed 1024)).wellFormed = false ∧
    (Instr.identReply 0 (reply 0 0 .notFed 1024) { typeCode := 1, headWidth := 64, stripe := true, bins := 2 }).wellFormed =
      false := by decide

/-- R43's example (chapter 2): the averages 630, 645 and 600, and the marker. -/
def sampling (temperatures : List Nat) (failed : Bool) : Printer :=
  { clearedPrinter with temperatures := temperatures, average := some 620, sensorFailed := failed }

theorem test_average_630 : ((sampling [620, 620, 620, 620] false).takeSample 660).average = some 630 := by decide
theorem test_average_645 : ((sampling [620, 620, 620, 660] false).takeSample 680).average = some 645 := by decide
theorem test_average_after_sensor : ((sampling [620, 620, 660, 680] true).takeSample 600).average = some 600 := by decide

/-- The settings in degrees as counts (R41, R43). -/
theorem test_degrees : degreesToCount 70 = 640 ∧ degreesToCount 60 = 560 := by decide

/-- The check code of chapter 4's example. -/
theorem test_check_code : checkCode 40117 2418 2 5 = 70 := by decide

/-- The texts of chapter 4's example: VALUE, SERIAL and CLERK. -/
theorem test_field_texts : fitNumber 8 (valueText 2418) = [0x20#8, 0x20#8, 0x20#8, 0x32#8, 0x34#8, 0x2E#8, 0x31#8, 0x38#8] ∧
    fitNumber 6 (zeroPadded 6 40117) = [0x30#8, 0x34#8, 0x30#8, 0x31#8, 0x31#8, 0x37#8] ∧
    fitNumber 5 (zeroPadded 5 417) = [0x30#8, 0x30#8, 0x34#8, 0x31#8, 0x37#8] := by decide

/-- The rounding table of chapter 7. -/
theorem test_rounding : roundSale 10 1235 = 1230 ∧ roundSale 10 2418 = 2420 ∧ roundSale 10 999 = 1000 ∧
    roundSale 10 4050 = 4050 ∧ roundRefund 10 415 = 420 := by decide

/-- Chapter 7, saturation in either order: the credit first leaves the total at its limit. -/
def nearLimit : TenderTally :=
  { sales := 999990000, salesCount := 20, refunds := 0, refundCount := 0, saturated := false }

theorem test_credit_first : ((nearLimit.addSale 15000).reverseSale 12000).sales = 999999999 ∧
    (nearLimit.addSale 15000).saturated = true := by decide
theorem test_void_first : ((nearLimit.reverseSale 12000).addSale 15000).sales = 999993000 ∧
    ((nearLimit.reverseSale 12000).addSale 15000).saturated = false := by decide

/-- The classes of chapter 8's table at their boundaries, t = 50 and s = 2000. -/
theorem test_classes : classify false 0 50 2000 = .exact ∧ classify false 50 50 2000 = .within ∧
    classify false (-51) 50 2000 = .short ∧ classify false 2000 50 2000 = .over ∧ classify false 2001 50 2000 = .outOfLimit ∧
    classify true 0 50 2000 = .indeterminate := by decide

/-- The combined check at its first two reasons (R80). -/
theorem test_combined_check : combinedCheck { defined := true, numbered := false, striped := false, digits := 6 } [] =
      some .notNumbered ∧
    combinedCheck { defined := true, numbered := true, striped := false, digits := 6 } [] = some .serialMissing := by decide

/-- CRC-16 of the polynomial of R162 over "123456789", as the published check value of this CRC has it. -/
theorem test_crc : crc16 [0x31#8, 0x32#8, 0x33#8, 0x34#8, 0x35#8, 0x36#8, 0x37#8, 0x38#8, 0x39#8] = 0x29B1#16 := by
  decide +kernel

/-- A byte with a framing error counts for nothing (R159): a frame with a wrong CRC is answered BAD-CHECK with one among its bytes. -/
theorem test_framing_error : (after (.frameCheckFailed [.whole 0xA5#8, .framingError, .whole 0xB0#8, .whole 0#8, .whole 0x4E#8,
    .framingError, .whole 0#8, .whole 0#8, .whole 0#8]) State.reset).link.reply.map (·.code) = some .badCheck := by decide +kernel

/-- A request that comes while a reply is leaving is discarded (R161). -/
theorem test_request_while_a_reply_leaves :
    (after (.identify .console) (after (.setTime .console 0) State.reset)).link = (after (.setTime .console 0) State.reset).link := by
  decide +kernel

/-- A request that comes inside a frame for another unit, of which 240 bytes are still to come, is eight bytes of that frame (R161). -/
theorem test_request_inside_another_frame :
    (after (.identify .console) (after (.frameDiscarded [.whole 0xA5#8, .whole 0xB1#8, .whole 0xF0#8]) State.reset)).link =
      { State.reset.link with receiver := .skipping 237 } := by decide +kernel

/-- An area is good exactly when its CRC matches its contents (R177). -/
theorem test_bad_area : ({ contents := some factoryImage, crc := factoryImage.crc + 1#16 } : FlashArea).good = none ∧
    (FlashArea.holding factoryImage).good = some factoryImage ∧ FlashArea.erased.good = none :=
  ⟨by simp [FlashArea.good], FlashArea.good_holding _, rfl⟩

/-- Request bytes written out from chapter 11: SET TIME 1, VOID TICKET 40,117 of type 2, RESOLVE DOUBTFUL with ruling SPOILED. -/
theorem test_request_bytes : parseRequest 0x4A .console [0#8, 0#8, 1#8] = some (.setTime .console 1) ∧
    parseRequest 0x04 (.window 4) [0#8, 0#8, 0x9C#8, 0xB5#8, 2#8, 0#8] = some (.voidTicket (.window 4) 40117 2 0) ∧
    parseRequest 0x16 .console [1#8, 0x36#8, 0#8, 0#8, 0#8, 5#8, 1#8] = some (.resolveDoubtfulSpoiled .console 310 5) := by
  decide

/-! ### The states the witnesses stand in -/

/-- A ticket of window 1's shift, credited in cash. -/
def ticket : RecentIssue :=
  { serial := 100, pack := 1, stockType := 0, value := 502, tender := .cash, credited := 500, residue := -2 }

/-- The figures of a declaration that was held. -/
def figures : DeclaredFigures :=
  closedWindow.declare factoryImage.office (Vector.replicate 12 0) factoryImage.faces 999999 0 0

/-- A window of a shift. -/
def windowIn (state : WindowState) (shift outstanding declarations : Nat) (declared : Option DeclaredFigures) : WindowRecord :=
  { closedWindow with
    state := state
    clerk := some (6 + shift)
    grade := some .clerk
    shift := some shift
    recent := [ticket]
    outstanding := outstanding
    declarations := declarations
    declared := declared
    reserved := decide (3 ≤ shift) }

/-- A pack of stock type 0 in bin A of printer 1, and one taken out in STORE. -/
def binned : Pack :=
  { id := 1, stockType := 0, first := 100, count := 50, direction := .ascending, next := some 103, remaining := 47,
    location := .bin 0 .a, condition := .usable, exceptions := [] }
def spent : Pack :=
  { id := 2, stockType := 1, first := 7, count := 1, direction := .descending, next := none, remaining := 0,
    location := .store, condition := .exhausted, exceptions := [] }

/-- A job of the console on printer 1 with one copy. -/
def job (tag : Nat) (copies : List CopyState) (state : JobState) : Job :=
  { tag := tag, position := .console, shift := 0, stockType := 0, routing := some 0, assigned := 0, copies := copies.length,
    value := 500, tender := .cash, slots := [], copyStates := copies, serials := [], spoilCount := 0, blanksSpoiled := 0,
    rerouteCount := 0, cancelRequested := false, stop := none, state := state, outcome := none, reason := none,
    endPending := false }

/-- An attended note on printer 2, and a standing entry of printer 3. -/
def note : FaultEntry :=
  { blankEntry 1 .attended .clerkNote with number := 4, position := some .console, note := some 15, withdraw := some false }
def lost : FaultEntry := { blankEntry 2 .standing .linkLost with number := 9 }

/-- A shop in TRADING: windows 1 to 5 OPEN, SUSPENDED, CLOSING, COUNTING and HELD, every port awaiting the reply to its IDENT, a full
notice queue. -/
def shop : State :=
  { State.reset with
    ret := { State.reset.ret with
      audit := .ok
      packs := [binned, spent]
      windows := ((((State.reset.ret.windows.set 0 (windowIn .open 1 0 0 none)).set 1 (windowIn .suspended 2 0 0 none)).set 2
        (windowIn .closing 3 1 0 none)).set 3 (windowIn .counting 4 0 0 none)).set 4 (windowIn .held 5 0 2 (some figures))
      faults := [note, lost]
      nextFault := 10 }
    live := { State.reset.live with
      layouts := State.reset.live.layouts.set 0 {
        entries := [{ kind := .serial, row := 0, column := 0, width := 8, size := .normal, stripe := false }]
        invalid := none } }
    notices := {
      queue := List.replicate 32 (.start .powerOn .ok .factory), lastFetched := none, attention := true, started := true }
    office := { State.reset.office with mode := .trading, date := some (List.replicate 8 0x31#8), clock := some 86399 } }

/-- The shop in SETUP. -/
def setup : State := shop.setOffice { shop.office with mode := .setup }

/-- The shop with printer 1 changed. -/
def at1 (f : Printer → Printer) : State := shop.modPrinter 0 f

/-- Printer 1 as identified and READY, its last POLL answered. -/
def readyPrinter (x : Printer) : Printer :=
  { x with
    state := .ready
    identity := some { typeCode := 1, headWidth := 64, stripe := true, bins := 2 }
    outstanding := none
    reference := some 0
    lastAcceptance := some .taken
    lastCondition := some .ready
    temperatures := [480, 480, 480, 480]
    average := some 480
    limits := some { hold := 640, resume := 560 } }

/-- Printer 1 awaits the reply to POLL 1. -/
def polled (x : Printer) : Printer := { readyPrinter x with nextCommand := 2, outstanding := some (1, .poll) }

/-- Printer 1 FAULTED after three spoils. -/
def spoiledOut (x : Printer) : Printer := { readyPrinter x with state := .faulted, spoilCount := 3 }

/-- A blank of window 1 in path of printer 1, sent as command 0. -/
def inPath : InPathEntry :=
  { pack := 1, serial := 102, tag := 5, copy := 1, position := .window 0, shift := 1, value := 500, tender := .cash,
    command := 0 }

/-- A doubtful blank of a window's shift. -/
def doubtOf (w : Fin 15) (shift : Nat) : DoubtfulEntry :=
  { pack := 1, serial := 101, printer := 3, position := .window w, shift := shift, value := 500, tender := .cash, tag := 3 }

/-! ### Witnesses: the hypotheses of each statement met together -/

theorem witness_StepRunsTheFrontCommand : (shop.setPending [.clockTick, .loadComplete]).pending = [.clockTick, .loadComplete] ∧
    shop.pending = [] := by decide +kernel

/-- The shop with window 1 alone in use, a blank of its pack in each place: recent, doubtful and in path. -/
def stocked : State :=
  (((shop.setWindows ((Vector.replicate 15 closedWindow).set 0 (windowIn .open 1 0 0 none))).setInPath
    (shop.ret.inPath.set 0 [inPath])).setDoubtful [doubtOf 0 1]).setPacks
      [{ binned with exceptions := [{ first := 101, run := 1, disposition := .doubtful, position := some (.window 0), fault := some 9 }] },
        spent]

theorem witness_StockRegisterStaysSound : stocked.stockSound ∧ stocked.failedPacks = [] ∧
    (stocked.setPending [.clockTick]).pending.head? = some .clockTick := by
  unfold State.stockSound State.tableLaw State.doubtLaw State.packLaw; decide +kernel

theorem witness_CommandsKeepTheQueue : exec .clockTick shop = .next (after .clockTick shop) := rfl

theorem witness_ResetsStartAfresh : (Instr.resetPin { unit := 3, rate := 3, fitted := 7 }, ResetCause.pin, true) ∈
    [(Instr.powerOn { unit := 3, rate := 3, fitted := 7 } true, .powerOn, true),
      (.powerOn { unit := 3, rate := 3, fitted := 7 } false, .powerOn, false),
      (.resetPin { unit := 3, rate := 3, fitted := 7 }, .pin, true),
      (.restartReset { unit := 3, rate := 3, fitted := 7 }, .restart, true)] := by decide

theorem witness_StartUpSettlesTheRecords : Instr.restartReset { unit := 0, rate := 0, fitted := 1 } ∈
    [.powerOn { unit := 0, rate := 0, fitted := 1 } true, .resetPin { unit := 0, rate := 0, fitted := 1 },
      .restartReset { unit := 0, rate := 0, fitted := 1 }] := by decide

theorem witness_RequestsAreAnswered : shop.lineFree = true ∧
    requestBytes (.setTime .console 86399) = some (0x4A, .console, [1#8, 81#8, 127#8]) := by decide +kernel

theorem witness_RefusalsChangeNothing : shop.lineFree = true ∧
    ((after (.setTime .console 86400) shop).link.reply.map (·.code) = some .range) ∧
    requestBytes (.setTime .console 86400) = some (0x4A, .console, [1#8, 81#8, 128#8]) := by decide +kernel

theorem witness_GradeIsJudgedFirst : shop.lineFree = true ∧ supervisorFirst (.setTime (.window 5) 0) = some (0x4A, .window 5) ∧
    (shop.window 5).state = .closed ∧ (shop.window 0).grade ≠ some .supervisor := by decide +kernel

theorem witness_ReadsAnswerAndChangeNothing : shop.lineFree = true ∧
    (shop.setPool [job 65535 [.issued] .ended]).job? 65535 = some (job 65535 [.issued] .ended) ∧ shop.pack? 1 = some binned ∧
      shop.fault? 9 = some lost ∧ (shop.settingBody 5 6).isSome = true ∧ shop.settingBody 0 0 ≠ none ∧
      ((shop.setHistory [(windowIn .held 5 0 2 none).record 4 figures .variance none]).record? 5).isSome = true := by
  decide +kernel

theorem witness_FaultCountsReply : shop.lineFree = true ∧
    (0 = 0 ∨ 6 < 0) ∧ (7 = 0 ∨ 6 < 7) ∧ 6 = (5 : Fin 6).val + 1 := by decide

theorem witness_OfficeDayAndClock : shop.lineFree = true ∧
    shop.supervises .console = true ∧ setup.office.mode = .setup ∧ setup.ret.audit = .ok ∧
    setup.store.running = none ∧ shop.office.clock = some 86399 ∧ State.reset.office.clock = none ∧
    (∀ c ∈ List.replicate 8 0x7E#8, 0x20 ≤ c.toNat ∧ c.toNat ≤ 0x7E) ∧ shop.office.mode = .trading ∧
    (∀ w, ((shop.setWindows (Vector.replicate 15 closedWindow)).window w).state = .closed) ∧ shop.pool = [] := by
  decide +kernel

theorem witness_ClearAuditEmptiesTheRecords : shop.lineFree = true ∧ setup.office.mode = .setup ∧
    (∀ w, ((setup.setWindows (Vector.replicate 15 closedWindow)).window w).state = .closed) ∧ setup.pool = [] ∧
    State.reset.ret.audit = .fault ∧ State.reset.office.mode = .setup := by decide +kernel

theorem witness_PlainSettingWrites : shop.lineFree = true ∧ setup.supervises .console = true ∧ setup.store.loading = false ∧
    setup.office.mode = .setup ∧ 50 ∈ [1, 2, 5, 10, 20, 50] ∧ (∀ n ∈ (Vector.replicate 12 100000).toList, n ≤ 100000) ∧
    126 < 128 ∧ 126 % 2 = 0 := by decide +kernel

theorem witness_StockTypeWrite : shop.lineFree = true ∧ (∃ x ∈ shop.ret.packs, x.stockType = 0) ∧
    (shop.stockType 0).definition ≠ { defined := true, numbered := true, striped := true, digits := 9 } ∧
    (shop.stockType 0).definition = { defined := true, numbered := true, striped := true, digits := 8 } ∧
    (∀ x ∈ shop.ret.packs, x.stockType ≠ 7) ∧ 32 ≤ shop.notices.queue.length ∧ shop.pool = [] := by decide +kernel

theorem witness_LayoutsAreCheckedAndStored : shop.lineFree = true ∧ (fieldsOf [
      { kind := 1, slot := 0, row := 15, column := 56, width := 8, size := 0, stripe := 1 }]).isSome = true ∧
    (∃ j ∈ (shop.setPool [job 1 [.undispatched] .queued]).pool, j.stockType = 0 ∧ j.state ≠ .ended) ∧
    (∀ j ∈ (shop.setPool [job 1 [.issued] .ended]).pool, j.stockType = 0 → j.state = .ended) := by decide +kernel

theorem witness_StoreRequestsStart : shop.lineFree = true ∧ setup.supervises .console = true ∧ setup.store.running = none ∧
    setup.store.donePending = false ∧ userAreaOf 2 = some .user2 ∧ areaOf 3 = some .factory := by decide +kernel

theorem witness_StoreOperationsEnd :
    (shop.startStore (.save .user1 factoryImage)).store.running = some (.save .user1 factoryImage) ∧
      (shop.startStore (.restore .user2)).store.running = some (.restore .user2) ∧
      (shop.startStore (.load .user1)).store.running = some (.load .user1) ∧ shop.flash.read .user1 = none ∧
      (shop.startStore (.load .factory)).store.running = some (.load .factory) ∧
      shop.flash.read .factory = some factoryImage ∧ shop.flash.factory = some factoryImage ∧ shop.store.running = none ∧
      shop.pool = [] :=
  ⟨by decide +kernel, by decide +kernel, by decide +kernel, rfl, by decide +kernel, Flash.factory_new, Flash.factory_new, rfl, rfl⟩

theorem witness_LinkRequestsFollowTheirReply : shop.lineFree = true ∧
    shop.supervises .console = true ∧ shop.link.rateNext = none ∧
    shop.link.restartNext = false ∧ (shop.setLink { shop.link with rateNext := some 3 }).link.rateNext = some 3 := by
  decide +kernel

theorem witness_FramesAreChecked : shop.link.receiver = .hunting ∧ shop.lineFree = true ∧
    (List.replicate 240 0#8).length ≤ 240 := by decide +kernel

theorem witness_UnansweredFrames : (shop.setLink { shop.link with leaving := true }).link.leaving = true ∧
    requestBytes (.setTime .console 86399) ≠ none ∧ (Instr.setTime .console 86399).wellFormed = true ∧
    (shop.setLink { shop.link with leaving := true }).link.receiver = .hunting ∧
    ((Instr.setTime .console 86399).frame shop.link.unit).length < 12 ∧
    wholeBytes [.framingError, .whole 0xA5#8] = [0xA5#8] ∧ (1 : Fin 4) ≠ shop.link.unit ∧ (List.replicate 4 0#8).length = (0#8).toNat + 4 ∧
    240 < (241#8).toNat ∧ 6 < (List.replicate 4 0#8).length + 3 := by decide +kernel

theorem witness_FetchTakesTheOldest : shop.lineFree = true ∧
    shop.notices.queue = .start .powerOn .ok .factory :: List.replicate 31
      (.start .powerOn .ok .factory) ∧ shop.notices.queue.length = 32 ∧ shop.notices.started = true ∧
    shop.firstWaiting = some (.fault note) ∧ (shop.setNotices emptyQueue).notices.queue = [] ∧
    State.reset.anyWaiting = false := by decide +kernel

theorem witness_ArbiterFillsTheQueueInOrder : (shop.setNotices { shop.notices with queue := [] }).firstWaiting = some (.fault note) ∧
    (shop.setNotices { shop.notices with queue := [] }).notices.queue.length < 32 ∧
    shop.notices.started = true ∧ 32 ≤ shop.notices.queue.length ∧
    shop.firstWaiting = some (.fault note) ∧ State.reset.anyWaiting = false := by decide +kernel

/-- A CLOSING window's last job has ended, and one place is free. -/
def ending : State :=
  (shop.setNotices { shop.notices with queue := shop.notices.queue.tail }).setPool
    [{ (job 5 [.issued] .ended) with position := .window 2, endPending := true }]

theorem witness_JobEndPlacement : ending.notices.started = true ∧ ending.notices.queue.length = 31 ∧
    ending.pool.find? (·.endPending) = some { (job 5 [.issued] .ended) with position := .window 2, endPending := true } ∧
    (ending.window 2).state = .closing ∧ (ending.window 2).outstanding = 1 := by decide +kernel

theorem witness_OpenShiftFillsTheRecord : shop.lineFree = true ∧ actsOn .console 15 14 ∧ shop.office.mode = .trading ∧
    (shop.live.permissions[(14 : Fin 15)]).enabled = true ∧ (shop.window 14).state = .closed := by
  unfold actsOn; decide +kernel

/-- Windows 1 to 5 hold numbers 1 to 5 and a doubtful entry 6, so that the next shift is 7 (R115). -/
theorem test_shift_numbers_in_use :
    ((after (.openShift .console 15 7 0 0) (shop.setDoubtful [doubtOf 0 6])).window 14).shift = some 7 ∧
    (after (.openShift .console 15 7 0 0) (shop.setDoubtful [doubtOf 0 6])).ret.nextShift = 8 := by decide +kernel

theorem witness_FreshNumbersAreFree : ([65535, 1] : List Nat).length < 65535 ∧ 1 ≤ 65535 := by decide

theorem witness_ResumePositionRule : shop.lineFree = true ∧
    actsOn .console 2 1 ∧ actsOn (.window 1) 0 1 ∧ (shop.window 1).state = .suspended ∧
    (shop.window 0).state ≠ .suspended ∧ (shop.window 1).clerk = some 8 := by unfold actsOn; decide +kernel

theorem witness_SuspendReopenLiftAndRefund : shop.lineFree = true ∧ actsOn (.window 0) 0 0 ∧ (shop.window 0).state = .open ∧
    (shop.window 1).state ≠ .open ∧
    shop.supervises .console = true ∧ actsOn .console 3 2 ∧ (shop.window 2).state ∈ [WindowState.closing, .counting] ∧
    actsOn .console 1 0 ∧ shop.holds .console .clerk = true ∧
    (shop.window 0).state ∈ [WindowState.open, .suspended] ∧ shop.holds (.window 0) .clerk = true ∧
    (shop.window 0).state = .open := by unfold actsOn; decide +kernel

/-- The history at its bound, its records collected or not. -/
def fullHistory (collected : Bool) : State :=
  shop.setHistory (List.replicate 29 ({ ((windowIn .held 5 0 2 none).record 4 figures .variance none) with
    collected := collected } : ShiftRecord))

theorem witness_CloseShiftRule : shop.lineFree = true ∧
    actsOn .console 1 0 ∧ (shop.window 0).state ∈ [WindowState.open, .suspended] ∧
    (shop.window 3).state ∉ [WindowState.open, .suspended] ∧ ¬ shop.awaitsRuling 0 ∧
    (shop.setDoubtful [doubtOf 0 1]).awaitsRuling 0 ∧ shop.ret.history.length + shop.reservedSlots < 32 ∧
    32 ≤ (fullHistory false).ret.history.length + (fullHistory false).reservedSlots ∧
    (∀ r ∈ (fullHistory false).ret.history, r.collected = false) ∧ (∃ r ∈ (fullHistory true).ret.history, r.collected = true) ∧
    32 ≤ shop.notices.queue.length := by unfold actsOn State.awaitsRuling; decide +kernel

theorem witness_VoidTicketReversesTheCredit : shop.lineFree = true ∧
    actsOn (.window 0) 0 0 ∧ shop.holds (.window 0) .clerk = true ∧
    (shop.window 0).recent.find? (fun e => decide (e.serial = 100 ∧ e.stockType = 0)) = some ticket ∧
    shop.pack? ticket.pack = some binned ∧ binned.exceptions.length < 21 ∧ 32 ≤ shop.notices.queue.length ∧
    (∀ y ∈ shop.ret.packs, y.id = ticket.pack → (y.addRun (ticket.voidRun 0)).condition = y.condition) ∧ shop.portsQuiet := by
  unfold actsOn State.portsQuiet State.portQuiet; decide +kernel

/-- What a window with expected cash 1000 and card 0 declares: cash in coins of 1, and a card total. -/
def declared (cash card : Nat) : DeclaredFigures :=
  ({ closedWindow with float := 1000 } : WindowRecord).declare factoryImage.office
    ((Vector.replicate 12 0).set 11 cash) factoryImage.faces card 0 0

/-- Every row of R147's table and of R148's is met at its boundary. -/
theorem witness_TenderClassesAndShiftStatus : (declared 1000 0).tender.cash.variance = 0 ∧ (declared 1050 0).tender.cash.variance.natAbs = 50 ∧
    (declared 949 0).tender.cash.variance = -51 ∧ (declared 3000 0).tender.cash.variance.natAbs = 2000 ∧
    (declared 3001 0).tender.cash.variance.natAbs = 2001 ∧ (declared 1000 1).tender.card.variance = 1 ∧
    ((zeroTallies.credit .card 1000000000 0 0).tender.get .card).saturated = true ∧
    (declared 3001 0).tender.cash.cls = .outOfLimit ∧ (declared 949 0).tender.cash.cls = .short ∧
    (declared 1050 0).tender.toList.map (·.cls) = [.within, .exact, .exact, .exact] := by decide +kernel

theorem witness_DeclareRule : shop.lineFree = true ∧ actsOn .console 4 3 ∧ actsOn (.window 4) 0 4 ∧ actsOn .console 5 4 ∧
    ¬ (∃ i : Fin 12, 65535 < (Vector.replicate 12 65535)[i] ∨
      (shop.live.faces[i] = 0 ∧ 0 < (Vector.replicate 12 65535)[i])) ∧ (shop.window 3).state = .counting ∧ (shop.window 4).state = .held ∧
    (shop.window 4).declarations < 3 ∧ (shop.window 0).state ∉ [WindowState.counting, .held] ∧
    3 ≤ (windowIn .held 5 0 3 none).declarations ∧ ¬ shop.awaitsRuling 3 ∧ (shop.setDoubtful [doubtOf 3 4]).awaitsRuling 3 ∧
    ((shop.window 3).declare shop.live.office (Vector.replicate 12 65535) shop.live.faces 0 0 0).status = .held ∧
    ((shop.window 3).declare shop.live.office (Vector.replicate 12 0) shop.live.faces 0 0 0).status = .cleared := by
  unfold actsOn State.awaitsRuling; decide +kernel

theorem witness_SignOffAndCollectShift : shop.lineFree = true ∧
    (shop.window 4).state = .held ∧ (shop.window 4).declared = some figures ∧
    (shop.window 0).state ≠ .held ∧ shop.supervises .console = true ∧
    (∃ r ∈ (fullHistory false).ret.history, r.shift = 5) ∧ (∀ r ∈ (fullHistory false).ret.history, r.shift ≠ 65535) := by
  decide +kernel

theorem witness_CashRounding : (50 : Nat) ∈ [1, 2, 5, 10, 20, 50] ∧ 999999 = 19999 * 50 + 49 ∧ 49 < 50 ∧ 25 = 0 * 50 + 25 ∧
    2 * 25 = 50 := by decide

theorem witness_VoidUndoesTheCredit : (∀ d : Tender, (zeroTallies.tender.get d).salesCount < 65535) ∧
    (∀ k : Fin 8, zeroTallies.stock[k].issued < 65535) ∧ (zeroTallies.tender.get ticket.tender).saturated = false ∧
    (zeroTallies.tender.get ticket.tender).sales + ticket.credited ≤ 999999999 ∧
    (zeroTallies.residue + ticket.residue).natAbs ≤ 999999999 ∧ zeroTallies.residue.natAbs ≤ 999999999 := by
  refine ⟨fun d => by cases d <;> decide, ?_⟩
  decide

theorem witness_PackRunsTakesAndReturns : binned.next = some 103 ∧ 1 ≤ binned.remaining ∧ binned.remaining ≤ binned.count ∧
    103 = binned.serialAt (binned.count - binned.remaining) := by decide

/-- Printer 1 FAULTED after three spoils, its confirmation pending and its slot free. -/
def toConfirm : State := at1 fun x => { spoiledOut x with confirmPending := true }

/-- The pack taken out of its bin makes the port choose, and it sends its CLEAR (R37). -/
theorem test_a_change_sends_the_clear :
    ((after (.movePack .console 1 0) toConfirm).printer 0).outstanding.map (·.2) = some .clear ∧
    ((after (.setTime .console 0) toConfirm).printer 0).outstanding = none := by decide +kernel

theorem witness_LoadAndMovePack : shop.lineFree = true ∧ shop.portsQuiet ∧ shop.ret.audit = .ok ∧ locationOf 0 = some .store ∧
    (shop.stockType 1).definition.defined = true ∧ (shop.stockType 1).definition.numbered = true ∧
    ({ spent with id := 65535, first := 99999999, count := 2000, next := some 99999999, remaining := 2000 } : Pack).fits 8 =
      true ∧ shop.ret.packs.length < 64 ∧ shop.admits .store = true ∧
    shop.pack? 1 = some binned ∧ binned.condition ≠ .exhausted ∧ shop.inPathOf 1 = 0 ∧ Location.store ≠ binned.location ∧
    toConfirm.othersQuiet 0 ∧ toConfirm.pack? 1 = some binned ∧ binned.location = .bin 0 .a ∧
    (∀ y ∈ toConfirm.ret.packs, y.location = .bin 0 .a → y.id = 1) ∧ (toConfirm.printer 0).outstanding = none ∧
    (toConfirm.printer 0).state = .faulted ∧ toConfirm.path 0 = [] ∧ (toConfirm.printer 0).timeoutCount = 0 := by
  unfold State.portsQuiet State.othersQuiet State.portQuiet; decide +kernel

/-- The code of the reply a command is given. -/
def codeOf (c : Instr) (s : State) : Option ReplyCode := (after c s).link.reply.map (·.code)

/-- LOAD PACK and MOVE PACK refused by each check in turn (R19, R20). -/
theorem test_load_and_move_refusals :
    codeOf (.loadPack .console 0 9 0 0 2 13) (shop.setAudit .fault) = some .mode ∧
    codeOf (.loadPack .console 9 0 100 1 0 13) shop = some .range ∧
    codeOf (.loadPack .console 1 7 100 1 0 1) shop = some .range ∧
    codeOf (.loadPack .console 1 0 0 2 1 1) shop = some .range ∧
    codeOf (.loadPack .console 1 0 149 1 0 1) shop = some .conflict ∧
    codeOf (.loadPack .console 9 0 149 1 0 1) (shop.setPacks (List.replicate 64 binned)) = some .conflict ∧
    codeOf (.loadPack .console 9 0 150 1 0 1) (shop.setPacks (List.replicate 64 binned)) = some .tableFull ∧
    codeOf (.loadPack .console 9 0 150 1 0 1) shop = some .state ∧ codeOf (.loadPack .console 9 0 150 1 0 0) shop = some .ok ∧
    codeOf (.movePack .console 0 13) shop = some .range ∧ codeOf (.movePack .console 9 13) shop = some .notFound ∧
    codeOf (.movePack .console 1 13) shop = some .range ∧ codeOf (.movePack .console 1 1) shop = some .state ∧
    codeOf (.movePack .console 2 0) shop = some .state ∧ codeOf (.movePack .console 1 0) shop = some .ok := by decide +kernel

theorem witness_WriteOffAndRetire : shop.lineFree = true ∧ shop.portsQuiet ∧
    shop.pack? 1 = some binned ∧ binned.condition ≠ .exhausted ∧ shop.inPathOf 1 = 0 ∧
    shop.pack? 2 = some spent ∧ spent.condition = .exhausted ∧ (∀ e ∈ spent.exceptions, e.disposition ≠ .doubtful) ∧
    (∀ e ∈ shop.ret.console.recent, e.pack ≠ 2) ∧ (∀ w, ∀ e ∈ (shop.window w).recent, e.pack ≠ 2) := by
  unfold State.portsQuiet State.portQuiet; decide +kernel

/-- Printer 4 FAULTED with its DOUBT open. -/
def doubt : FaultEntry := { blankEntry 3 .standing .doubt with number := 9 }
def doubting : State :=
  { shop.modPrinter 3 (fun x => { x with state := .faulted, openFault := some 9 }) with
    ret := { shop.ret with faults := [doubt], doubtful := [doubtOf 0 1] } }

theorem witness_ResolveDoubtfulRule : shop.lineFree = true ∧ (shop.setDoubtful [doubtOf 0 1]).portsQuiet ∧ shop.queueFull ∧
    (shop.setDoubtful [doubtOf 0 1]).ret.doubtful.find? (fun d => decide (d.pack = 1 ∧ d.serial = 101)) = some (doubtOf 0 1) ∧
    shop.pack? 1 = some binned ∧ (shop.window 0).state ∈ [WindowState.open, .suspended] ∧ (shop.window 0).shift = some 1 ∧
    (shop.window 0).shift ≠ some (doubtOf 0 7).shift ∧ (∀ e ∈ [doubtOf 0 1].erase (doubtOf 0 1), e.printer ≠ 3) ∧
    (shop.printer 3).openFault = none ∧ (doubting.printer 3).openFault = some 9 ∧ doubting.fault? 9 = some doubt ∧
    (∀ d ∈ shop.ret.doubtful, ¬ (d.pack = 1 ∧ d.serial = 101)) := by
  unfold State.portsQuiet State.portQuiet State.queueFull; decide +kernel

theorem witness_StockCheckRule : shop.lineFree = true ∧ shop.failedPacks = [] ∧ shop.ret.checksumMatches = true ∧
    ((shop.setPacks [{ binned with remaining := 46 }]).failedPacks ≠ []) ∧
    ({ binned with remaining := 46 } : Pack) ∈ (shop.setPacks [{ binned with remaining := 46 }]).ret.packs ∧
    (shop.setPacks [{ binned with remaining := 46 }]).packSound { binned with remaining := 46 } = false ∧
    shop.packSound binned = true ∧ (∀ e ∈ (stocked.ret.packs.flatMap (·.exceptions)), 1 ≤ e.run) := by decide +kernel

/-- Packs that share one serial both fail, under two ids and under one; so do two equal records (R25). -/
theorem test_overlapping_packs_both_fail :
    (shop.setPacks [binned, { binned with id := 3, first := 149, next := some 152 }, spent]).failedPacks = [1, 3] ∧
    (shop.setPacks [binned, { binned with first := 149, next := some 152 }, spent]).failedPacks = [1, 1] ∧
    (shop.setPacks [binned, { binned with first := 150, next := some 153 }, spent]).failedPacks = [] ∧
    (shop.setPacks [binned, binned]).failedPacks = [1, 1] := by decide +kernel

/-- A hold setting lowered since the last sample does not place a printer that leaves FAULTED (R41, R174). -/
theorem test_hold_of_the_last_sample :
    let s := after (.writeSettingPrinter .console 1 1 40 30) (at1 spoiledOut)
    ((s.leaveFaulted 0).printer 0).state = .ready ∧ s.heatLimits 0 = { hold := 400, resume := 320 } := by decide +kernel

theorem witness_PowerAndResumePrinter : shop.lineFree = true ∧
    (5 : Fin 6).val + 1 ≤ shop.fitted ∧ (shop.live.printerItems[(5 : Fin 6)]).enabled = true ∧
    ((shop.modPrinter 5 fun x => { x with state := .poweredDown }).printer 5).state = .poweredDown ∧
    (shop.printer 0).state ≠ .poweredDown ∧ (shop.printer 0).queue = [] ∧ shop.path 0 = [] ∧
    shop.permitsPrinter (.window 0) 0 = true ∧ ((at1 spoiledOut).printer 0).state = .faulted ∧
    ((at1 spoiledOut).printer 0).spoilCount = 3 := by decide +kernel

/-- Printer 1 READY with an AUTO job at the head of its queue; printer 5 awaits a reply with stock type 1 in its bin. -/
def rerouting (count : Nat) : State :=
  let other : Pack := { spent with id := 3, first := 900, count := 5, next := some 900, remaining := 5, location := .bin 4 .a,
                                   condition := .usable }
  (((at1 fun x => { readyPrinter x with queue := [5] }).setPacks [binned, other]).modPrinter 4 polled).setPool
    [{ job 5 [.issued, .undispatched] .printing with routing := none, rerouteCount := count }]

theorem witness_DisableAndEnable : shop.lineFree = true ∧ shop.queueFull ∧ shop.othersQuiet 0 ∧
    ((at1 polled).printer 0).state = .ready ∧ ((at1 polled).printer 0).outstanding.isSome = true ∧
    ((at1 polled).printer 0).disablePending = false ∧ (shop.printer 0).state = .starting ∧
    ((at1 fun x => { polled x with disablePending := true }).printer 0).disablePending = true ∧
    ((at1 fun x => { readyPrinter x with state := .disabled }).printer 0).state = .disabled ∧
    (shop.printer 0).openFault = none ∧ (at1 readyPrinter).strandedBinB 0 = false ∧
    (rerouting 3).othersQuiet 0 ∧ ((rerouting 3).printer 0).state = .ready ∧ ((rerouting 3).printer 0).queue = [5] ∧
    ((rerouting 3).job? 5).map (·.rerouteCount) = some 3 ∧ ((rerouting 2).job? 5).map (·.routing) = some none ∧
    (∀ q, q ≠ 0 → (rerouting 2).eligible .console 0 q = false) ∧ ((rerouting 0).eligible .console 1 4 = true) ∧
    (∀ r, r ≠ 0 → (rerouting 0).eligible .console 1 r = true → r = 4) ∧
    ((after (.disablePrinter .console 1) (rerouting 3)).job? 5).map (·.reason) = some (some .routeLimit) ∧
    ((after (.disablePrinter .console 1) { (rerouting 2) with
      pool := [{ job 5 [.issued, .undispatched] .printing with routing := none, stockType := 1 }] }).printer 4).queue = [5] := by
  unfold State.queueFull State.othersQuiet State.portQuiet; decide +kernel

theorem witness_ReportFaultMakesAnEntry : shop.lineFree = true ∧
    shop.portsQuiet ∧ shop.queueFull ∧ (0 : Fin 6).val + 1 ≤ shop.fitted ∧
    shop.ret.faults.length < 64 ∧
    (shop.ret.faults.filter fun e => decide (e.cls = .attended ∧ e.cleared = false)).length < 24 ∧
    (at1 polled).portsQuiet ∧ ((at1 polled).printer 0).state = .ready ∧ (shop.printer 0).state = .starting := by
  unfold State.portsQuiet State.portQuiet State.queueFull; decide +kernel

theorem witness_CloseFaultRule : shop.lineFree = true ∧
    shop.fault? 4 = some note ∧ note.cls = .attended ∧ note.cleared = false ∧
    shop.fault? 9 = some lost ∧ lost.cls ≠ .attended ∧ (∀ e ∈ shop.ret.faults, e.number ≠ 65535) ∧ shop.queueFull ∧
    shop.supervises .console = true := by unfold State.queueFull; decide +kernel

/-- Printer 1 with its POLL outstanding; AUTO may choose it. -/
def selling : State := at1 polled

/-- A job that joins behind another at a FAULTED printer makes its port choose, and it sends its CLEAR (R58). -/
theorem test_a_job_that_joins_sends_the_clear :
    let s := toConfirm.modPrinter 0 fun x => { x with queue := [9] }
    let t := after (.issueTicket .console 0 1 1 500 0 []) s
    (t.printer 0).queue = [9, 1] ∧ (t.printer 0).outstanding.map (·.2) = some .clear := by decide +kernel

/-- ISSUE TICKET refused by each check in turn (R56, R57). -/
theorem test_issue_refusals :
    let ask := fun (pos : Position) (k routing : Nat) => Instr.issueTicket pos k routing 1 500 0 []
    let to1 := ask .console 0 1
    codeOf (ask (.window 1) 9 1) setup = some .mode ∧ codeOf (ask (.window 1) 9 1) selling = some .state ∧
    codeOf (ask (.window 0) 9 1) (selling.modWindow 0 fun r => { r with grade := none }) = some .grade ∧
    codeOf (ask (.window 0) 8 9) selling = some .notPermitted ∧ codeOf (ask .console 8 1) selling = some .range ∧
    codeOf (ask .console 0 7) (selling.setPool (List.replicate 48 (job 1 [] .ended))) = some .range ∧
    codeOf (ask .console 0 0) (selling.setPool (List.replicate 48 (job 1 [] .ended))) = some .queueFull ∧
    codeOf (ask .console 1 1) selling = some .layout ∧
    codeOf (ask (.window 0) 0 1) (selling.setLive { selling.live with
      permissions := updAt selling.live.permissions 0 fun x => { x with printerSet := 0 } }) = some .notPermitted ∧
    codeOf to1 (selling.modPrinter 0 fun x => { x with disablePending := true }) = some .state ∧
    codeOf to1 (selling.setPacks []) = some .noStock ∧
    codeOf to1 (selling.modPrinter 0 fun x => { x with identity := none }) = some .range ∧
    codeOf to1 (selling.modPrinter 0 fun x => { x with queue := List.replicate 8 1 }) = some .queueFull ∧
    codeOf (ask .console 0 0) (selling.modPrinter 0 fun x => { x with queue := List.replicate 8 1 }) = some .noPrinter ∧
    codeOf to1 selling = some .accepted := by decide +kernel

theorem witness_TicketsAreIssued : shop.lineFree = true ∧
    selling.othersQuiet 0 ∧ selling.portQuiet 0 ∧ toConfirm.othersQuiet 0 ∧ (toConfirm.printer 0).outstanding = none ∧
    (toConfirm.printer 0).state = .faulted ∧ toConfirm.path 0 = [] ∧ (toConfirm.printer 0).confirmPending = true ∧
    (toConfirm.printer 0).timeoutCount = 0 ∧ (toConfirm.printer 0).disablePending = false ∧
    toConfirm.binPack? 0 .a = some binned ∧ toConfirm.qualifies 0 0 = true ∧ selling.office.mode = .trading ∧ (selling.window 0).state = .open ∧
    (selling.window 0).grade.isSome = true ∧ selling.permitsStock (.window 0) 0 = true ∧
    (selling.stockType 0).definition.defined = true ∧ (selling.stockType 0).definition.numbered = true ∧
    (selling.layout 0).invalid = none ∧ selling.outstanding (.window 0) < 6 ∧ selling.pool.length < 48 ∧
    selling.permitsPrinter (.window 0) 0 = true ∧ (selling.printer 0).disablePending = false ∧
    selling.binPack? 0 .a = some binned ∧ selling.qualifies 0 0 = true ∧ (selling.printer 0).queue.length < 8 ∧
    (∀ q, selling.eligible (.window 0) 0 q = true ↔ q = 0) := by unfold State.othersQuiet State.portQuiet; decide +kernel

theorem witness_CancelStopsTheJob : shop.lineFree = true ∧ (shop.setPool [job 65535 [.inPath] .printing]).job? 65535 =
      some (job 65535 [.inPath] .printing) ∧ (job 65535 [.inPath] .printing).stop = none ∧
    (shop.setPool [job 65535 [.inPath] .printing]).portsQuiet ∧
    (shop.setPool [job 1 [.undispatched] .queued]).job? 1 = some (job 1 [.undispatched] .queued) ∧ shop.queueFull := by
  unfold State.portsQuiet State.portQuiet State.queueFull; decide +kernel

/-- Printer 1 READY with a job at the head of its queue. -/
def dispatching : State := (at1 fun x => { readyPrinter x with queue := [5] }).setPool [job 5 [.issued, .undispatched] .printing]

theorem witness_DispatchTakesABlank : dispatching.queueFull ∧ (dispatching.printer 0).outstanding = none ∧
    (dispatching.printer 0).state = .ready ∧ (dispatching.printer 0).lastAcceptance = some .taken ∧
    (dispatching.printer 0).lastCondition = some .ready ∧ dispatching.path 0 = [] ∧ (dispatching.printer 0).timeoutCount = 0 ∧
    (dispatching.printer 0).disablePending = false ∧ (dispatching.printer 0).queue = [5] ∧
    dispatching.job? 5 = some (job 5 [.issued, .undispatched] .printing) ∧
    (job 5 [.issued, .undispatched] .printing).copyStates.findIdx? (fun c => decide (c = .undispatched)) = some 1 ∧
    dispatching.qualifies 0 0 = true ∧ dispatching.ret.doubtful = [] ∧ dispatching.binPack? 0 .a = some binned ∧
    binned.takeable 0 = true ∧ binned.next = some 103 ∧ dispatching.binPack? 0 .b = none ∧
    (job 5 [.issued, .undispatched] .printing).copies ≤ 9 ∧ (job 5 [.issued, .undispatched] .printing).value ≤ 999999 := by
  unfold State.queueFull; decide +kernel

/-- A field of chapter 4's worked example. -/
def fieldAt (kind : FieldKind) (row column width : Nat) (size : FieldSize) (stripe : Bool) : FieldEntry :=
  { kind := kind, row := row, column := column, width := width, size := size, stripe := stripe }

/-- The fields of chapter 4's worked example, CHECK written before SERIAL. -/
def example4 : Ticket :=
  { job := { job 5 [.inPath, .undispatched] .printing with
      position := .window 4, stockType := 2, value := 2418, slots := ["CENTRAL".toUTF8.toList.map fun c => BitVec.ofNat 8 c.toNat] }
    copy := 1
    serial := 40117
    digits := 6
    striped := true
    clerk := some 417
    date := none
    layout := [fieldAt (.text 1) 0 0 9 .normal true, fieldAt .value 5 0 8 .double false, fieldAt .check 8 8 2 .normal false,
      fieldAt .serial 8 0 6 .normal false, fieldAt .clerk 8 16 4 .normal true, fieldAt .copy 8 34 3 .normal false,
      fieldAt (.text 3) 10 0 3 .normal true] }

/-- Its lines, its segments by column, a CLERK field too narrow, and the stripe record of striped stock alone (R88, R89). -/
theorem test_example4 : example4.lines.map (·.row) = [0, 5, 8, 10] ∧
    (example4.lines[2]?.map fun l => l.segments.map fun g => (g.column, String.ofList (g.text.map fun c => Char.ofNat c.toNat))) =
      some [(0, "040117"), (8, "70"), (16, "****"), (34, "1/2")] ∧
    (example4.stripe.map fun r => (r.checkCode, r.texts.map fun x => String.ofList (x.map fun c => Char.ofNat c.toNat))) =
      some (70, ["CENTRAL  ", "****", "   "]) ∧
    ({ example4 with striped := false } : Ticket).stripe = none := by decide +kernel

/-- The interval's command: a PRINT when every dispatch condition holds, and a POLL when one fails (R37, R38). -/
theorem test_a_blocked_port_polls :
    let sends := fun s : State => ((after (.pollInterval 0) s).printer 0).outstanding.map (·.2)
    sends dispatching = some .print ∧
    (∀ s ∈ [dispatching.modPrinter 0 fun x => { x with disablePending := true },
        dispatching.modPrinter 0 fun x => { x with lastAcceptance := some .refused },
        dispatching.modPrinter 0 fun x => { x with lastCondition := none },
        dispatching.modPrinter 0 fun x => { x with timeoutCount := 1 },
        dispatching.modPrinter 0 fun x => { x with identity := none },
        dispatching.setInPath (dispatching.ret.inPath.set 0 [inPath, { inPath with serial := 101 }]),
        dispatching.setDoubtful [{ doubtOf 0 1 with printer := 0 }],
        dispatching.setPool [job 5 [.issued] .printing], dispatching.setPool [],
        dispatching.modJob 5 (·.stopWith .cancelled), dispatching.setPacks [],
        dispatching.modPack 1 fun k => { k with condition := .suspended }], sends s = some .poll) := by decide +kernel

theorem witness_IntervalsPollClearAndIdentify : (shop.printer 0).outstanding.isSome = true ∧
    ((at1 fun x => { spoiledOut x with confirmPending := true }).printer 0).state = .faulted ∧
    ((at1 fun x => { spoiledOut x with confirmPending := true }).printer 0).outstanding = none ∧
    (shop.path 0) = [] ∧ ((at1 readyPrinter).printer 0).queue = [] ∧ ((at1 readyPrinter).printer 0).outstanding = none ∧
    ((at1 fun x => { x with outstanding := none }).printer 0).state = .starting := by decide +kernel

theorem witness_TimeoutsLoseTheLink : ((at1 polled).printer 0).outstanding = some (1, .poll) ∧
    ((at1 polled).printer 0).timeoutCount < 2 ∧ ((at1 fun x => { polled x with timeoutCount := 2 }).printer 0).timeoutCount = 2 ∧
    (shop.printer 0).outstanding = some (0, .ident) ∧ ¬ 10 ≤ (shop.printer 0).identTries ∧
    ((at1 fun x => { x with identTries := 10 }).printer 0).identTries = 10 ∧ (shop.printer 0).openFault = none ∧
    shop.ret.faults.length ≤ 64 ∧ (∃ d ∈ (shop.setDoubtful [{ doubtOf 0 1 with printer := 0 }]).ret.doubtful, d.printer = 0) ∧
    ¬ (∃ d ∈ shop.ret.doubtful, d.printer = 0) := by decide +kernel

theorem witness_DiscardedRepliesChangeNothing : ((at1 polled).printer 0).outstanding = some (1, .poll) ∧
    (reply 2 0 .done 480).answers ≠ 1 ∧ (1 - 0 : Byte).toNat ≤ ((reply 1 1 .done 480).outcomeOf - 0).toNat ∧
    ((at1 polled).printer 0).sentSince < 256 ∧
    ((at1 readyPrinter).printer 0).outstanding = none ∧ (shop.printer 0).outstanding = some (0, .ident) := by decide +kernel

/-- A DISABLE drops the POLL and keeps the reference command, so that the POLL of the ENABLE has a window one longer (R30, R31). -/
theorem test_dropped_commands_stay_in_the_window :
    let s := after (.disablePrinter .console 1) (at1 fun x => { polled x with sentSince := 1 })
    let t := after (.enablePrinter .console 1) { s with link := { s.link with leaving := false } }
    (t.printer 0).reference = some 0 ∧ (t.printer 0).outstanding = some (2, .poll) ∧ (t.printer 0).sentSince = 2 ∧
    ((after (.printerReply 0 (reply 2 1 .done 480)) t).printer 0).reference = some 2 := by decide +kernel

/-- After 256 of them every number names a command of the window, that of the reference and the answered command too; after 255 the
answered number names none. -/
theorem test_window_of_256 :
    let s := fun (n : Byte) (k : Nat) => at1 fun x => { polled x with outstanding := some (n, .poll), sentSince := k }
    ((after (.printerReply 0 (reply 0 0 .done 480)) (s 0 256)).printer 0).outstanding = none ∧
    ((after (.printerReply 0 (reply 0 77 .done 480)) (s 0 256)).printer 0).outstanding = none ∧
    after (.printerReply 0 (reply 255 255 .done 480)) (s 255 255) = s 255 255 ∧
    ((after (.printerReply 0 (reply 255 254 .done 480)) (s 255 255)).printer 0).outstanding = none := by decide +kernel

/-- A reply frame to command 1 with a good CRC. -/
def replyFrame (start length : Byte) (body : List Byte) : List Byte :=
  start :: ([1#8, length] ++ body ++ be 2 (crc16 ([1#8, length] ++ body)).toNat)

/-- A frame is read when each field is in its list, and discarded for each of the ways R189 names. -/
theorem test_reply_frames :
    let body := fun (outcome cause acceptance condition : Byte) =>
      [0#8, outcome, cause, acceptance, condition, 1#8, 0xE0#8, 5#8, 0#8, 0#8]
    let ident := fun stripe : Byte => body 2 0 0 0 ++ [1#8, 64#8, stripe, 2#8]
    (parsePrinterFrame false (replyFrame 0x5B 10 (body 1 4 1 4))).isSome ∧
    (parsePrinterFrame true (replyFrame 0x5B 14 (ident 1))).isSome ∧
    [replyFrame 0x5A 10 (body 1 4 1 4), replyFrame 0x5B 11 (body 1 4 1 4), replyFrame 0x5B 10 (body 3 0 0 0),
      replyFrame 0x5B 10 (body 1 5 0 0), replyFrame 0x5B 10 (body 0 1 0 0), replyFrame 0x5B 10 (body 2 3 0 0),
      replyFrame 0x5B 10 (body 2 0 2 0), replyFrame 0x5B 10 (body 2 0 0 5)].all (fun f => (parsePrinterFrame false f).isNone) ∧
    (parsePrinterFrame true (replyFrame 0x5B 14 (ident 2))).isNone := by decide +kernel

/-- Printer 1 BUSY with one blank in path, POLL 1 outstanding. -/
def printing : State :=
  ((at1 fun x => { polled x with state := .busy, queue := [5] }).setInPath (shop.ret.inPath.set 0 [inPath])).setPool
    [{ job 5 [.inPath] .printing with position := .window 0, shift := 1 }]

theorem witness_DoneIssuesTheBlank : printing.queueFull ∧ printing.othersQuiet 0 ∧
    (printing.printer 0).outstanding = some (1, .poll) ∧ (printing.printer 0).reference = some 0 ∧
    ((reply 1 0 .done 480).outcomeOf - 0).toNat < (1 - 0 : Byte).toNat ∧ printing.path 0 = [inPath] ∧
    inPath.command = (reply 1 0 .done 480).outcomeOf ∧ printing.pack? 1 = some binned ∧ (printing.window 0).state ≠ .closed ∧
    (printing.window 0).shift = some inPath.shift ∧ (printing.job? 5).isSome = true ∧
    (printing.window 0).shift ≠ some 7 ∧ (printing.window 8).state = .closed ∧
    (reply 1 0 .done 480).acceptance = .taken := by
  unfold State.queueFull State.othersQuiet State.portQuiet; decide +kernel

/-- A console's blank is credited to the console, and one of a shift that is no longer the window's is credited to nobody. -/
theorem test_done_for_the_console_and_discarded :
    let of := fun (pos : Position) (shift : Nat) =>
      after (.printerReply 0 (reply 1 0 .done 480))
        (printing.setInPath (shop.ret.inPath.set 0 [{ inPath with position := pos, shift := shift }]))
    (of .console 0).ret.console.recent.map (·.serial) = [102] ∧
    (of (.window 0) 7).ret.windows = printing.ret.windows ∧ (of (.window 8) 1).ret.windows = printing.ret.windows ∧
    ((of (.window 0) 7).job? 5).map (·.serials) = some [102] := by decide +kernel

/-- Printer 1 FAULTED with its JAM open, CLEAR 1 outstanding. -/
def jammed : FaultEntry := { blankEntry 0 .standing .jam with number := 9 }
def confirming : State :=
  { at1 (fun x => { polled x with state := .faulted, openFault := some 9, outstanding := some (1, .clear) }) with
    ret := { shop.ret with faults := [jammed] } }

theorem witness_SamplesHoldAHotPrinter : (at1 polled).queueFull ∧ (at1 polled).pool = [] ∧
    ((at1 polled).printer 0).outstanding = some (1, .poll) ∧ ((at1 polled).printer 0).reference = some 0 ∧
    (at1 polled).path 0 = [] ∧ ((at1 polled).printer 0).state = .ready ∧ ((at1 polled).printer 0).openFault = none ∧
    ((at1 polled).printer 0).disablePending = false ∧ ((at1 polled).printer 0).sensorFailed = false ∧
    ((at1 polled).printer 0).refill = false ∧ ((at1 polled).printer 0).temperatures = [480, 480, 480, 480] ∧
    (at1 polled).othersQuiet 0 ∧ shop.ret.faults.length ≤ 64 ∧ (reply 1 0 .notFed 1023).temperature = 1023 ∧
    ((at1 fun x => { polled x with sensorFailed := true }).printer 0).sensorFailed = true ∧
    256 ≤ ((at1 fun x => { polled x with sentSince := 256 }).printer 0).sentSince ∧
    (confirming.printer 0).outstanding = some (1, .clear) ∧ (confirming.printer 0).state = .faulted ∧
    (confirming.printer 0).openFault = some 9 ∧ confirming.fault? 9 = some jammed ∧ jammed.first.code = .jam ∧
    jammed.first.met = false ∧ jammed.first.confirmed = false ∧ jammed.later = [] ∧ confirming.ret.doubtful = [] ∧
    confirming.othersQuiet 0 ∧ confirming.path 0 = [] ∧ (confirming.printer 0).temperatures = [480, 480, 480, 480] := by
  unfold State.queueFull State.othersQuiet State.portQuiet; decide +kernel

/-- Printer 3 OFFLINE with its LINK-LOST entry open. -/
def offline : State := shop.modPrinter 2 fun x => { x with state := .offline, openFault := some 9 }

theorem witness_IdentityPlacesThePrinter : shop.queueFull ∧ shop.pool = [] ∧
    (shop.printer 0).outstanding = some (0, .ident) ∧ shop.path 0 = [] ∧ shop.ret.doubtful = [] ∧
    (shop.printer 0).confirmPending = false ∧ (shop.printer 0).state = .starting ∧ (shop.printer 0).openFault = none ∧
    (offline.printer 2).state = .offline ∧ (offline.printer 2).openFault = some 9 ∧ offline.fault? 9 = some lost ∧
    (offline.printer 2).outstanding = some (0, .ident) ∧ lost.first.code = .linkLost ∧ lost.later = [] ∧
    (offline.printer 2).spoilCount < 3 ∧ shop.othersQuiet 0 ∧ offline.othersQuiet 2 := by
  unfold State.queueFull State.othersQuiet State.portQuiet; decide +kernel

/-- Printer 1 BUSY with one blank in path that went out as `command`; PRINT or POLL 2 is outstanding. -/
def settling (command : Byte) (serial : Nat) (kind : CommandKind) : State :=
  (printing.modPrinter 0 fun x => { x with outstanding := some (2, kind), nextCommand := 3 }).setInPath
    (shop.ret.inPath.set 0 [{ inPath with command := command, serial := serial }])

theorem witness_OutcomesSettleTheBlankInPath : (settling 1 102 .poll).queueFull ∧ (settling 1 102 .poll).othersQuiet 0 ∧
    (settling 1 102 .poll).ret.faults.length ≤ 60 ∧ ((settling 1 102 .print).printer 0).outstanding = some (2, .print) ∧
    ((settling 1 102 .poll).printer 0).reference = some 0 ∧
    (∀ c : Byte, c = 0 ∨ c = 1 → (c - 0).toNat < (2 - 0 : Byte).toNat) ∧
    (settling 1 102 .poll).path 0 = [{ inPath with command := 1 }] ∧ (settling 1 102 .poll).pack? 1 = some binned ∧
    ((settling 1 102 .poll).job? 5).map (·.copyStates[inPath.copy - 1]?) = some (some .inPath) ∧
    ((settling 1 102 .poll).window 0).state = .open ∧ ((settling 1 102 .poll).window 0).shift = some inPath.shift ∧
    binned.lastTaken = some 102 ∧ binned.lastTaken ≠ some 101 ∧ (settling 1 102 .poll).inPathOf 1 = 1 ∧
    ((settling 1 102 .poll).printer 0).openFault = none ∧ (2 : Byte) ≠ 1 ∧ (2 - 1 : Byte).toNat < (2 - 0 : Byte).toNat ∧
    ((settling 2 102 .print).path 0).map (·.command) = [2] ∧ (reply 2 0 .done 480).acceptance = .taken := by
  unfold State.queueFull State.othersQuiet State.portQuiet; decide +kernel

/-- Each way of settling it: SPOILED, NOT-FED and sent again at once, refused, sent after the command reported, and its outcome on a lost reply. -/
theorem test_settlements :
    ((after (.printerReply 0 (reply 2 1 (.spoiled .misfeed) 480)) (settling 1 102 .poll)).pack? 1).map (·.exceptions.length) = some 1 ∧
    ((after (.printerReply 0 (reply 2 1 .notFed 480)) (settling 1 102 .poll)).path 0).map (fun e => (e.serial, e.command)) =
      [(102, 3)] ∧
    (after (.printerReply 0 { reply 2 0 .done 480 with acceptance := .refused }) (settling 2 102 .print)).path 0 = [] ∧
    (after (.printerReply 0 (reply 2 0 .done 480)) (settling 1 101 .poll)).ret.doubtful.length = 1 ∧
    (after (.printerReply 0 (reply 2 1 .done 480)) (settling 0 102 .poll)).ret.doubtful.length = 1 := by decide +kernel

/-- The blank of the PRINT answered stays under a spoil that names no entry, and nothing is counted. -/
theorem test_the_blank_answered_stays :
    let s := settling 2 102 .print
    let t := after (.printerReply 0 (reply 2 1 (.spoiled .jam) 480)) s
    t.path 0 = s.path 0 ∧ t.ret.packs = s.ret.packs ∧ t.pool = s.pool ∧ t.ret.faults = s.ret.faults ∧
    (t.printer 0).counters = (s.printer 0).counters := by decide +kernel

/-- Printer 1 BUSY with the blanks 101 and 102 of one job in path, sent as two commands; PRINT or POLL 3 is outstanding. -/
def steady (older newer : Byte) (kind : CommandKind) : State :=
  ((printing.modPrinter 0 fun x => { x with outstanding := some (3, kind), nextCommand := 4 }).setInPath
    (shop.ret.inPath.set 0 [{ inPath with serial := 101, command := older }, { inPath with copy := 2, command := newer }])).setPool
    [{ job 5 [.inPath, .inPath] .printing with position := .window 0, shift := 1 }]

/-- The hypotheses of the statement on two blanks, the commands of each clause among them. -/
theorem witness_OutcomesSettleTwoBlanks : (steady 2 3 .print).queueFull ∧ (steady 2 3 .print).othersQuiet 0 ∧
    (steady 2 3 .print).ret.faults.length ≤ 60 ∧ ((steady 2 3 .print).printer 0).outstanding = some (3, .print) ∧
    ((steady 2 3 .poll).printer 0).reference = some 0 ∧ (∀ c : Byte, c < 3 → (c - 0).toNat < (3 - 0 : Byte).toNat) ∧
    ((steady 2 3 .print).path 0).map (fun e => (e.pack, e.serial, e.tag, e.copy, e.command)) = [(1, 101, 5, 1, 2), (1, 102, 5, 2, 3)] ∧
    (steady 2 3 .print).pack? 1 = some binned ∧ ((steady 2 3 .print).job? 5).map (·.copyStates) = some [.inPath, .inPath] ∧
    binned.lastTaken = some 102 ∧ (binned.putBack 102).lastTaken = some 101 ∧ binned.lastTaken ≠ some 101 ∧
    (steady 2 3 .print).inPathOf 1 = 2 ∧ ((steady 2 3 .print).printer 0).openFault = none ∧
    (3 - 3 : Byte).toNat = 0 ∧ 0 < (3 - 2 : Byte).toNat ∧ (3 - 2 : Byte).toNat < (3 - 1 : Byte).toNat ∧
    (3 - 1 : Byte).toNat < (3 - 0 : Byte).toNat := by
  unfold State.queueFull State.othersQuiet State.portQuiet; decide +kernel

/-- Each way two blanks are settled in one reply: the older done and the newer kept, refused, both back, the bin empty, the older not
fed under the newer, and the older lost beside one done and one kept. -/
theorem test_two_settlements :
    let serials := fun t : State => ((t.path 0).map (·.serial), t.ret.doubtful.map (·.serial), (t.pack? 1).map (·.remaining))
    let refused := fun o : PrintOutcome => { reply 3 2 o 480 with acceptance := .refused }
    serials (after (.printerReply 0 (reply 3 2 .done 480)) (steady 2 3 .print)) = ([102], [], some 47) ∧
    serials (after (.printerReply 0 (refused .done)) (steady 2 3 .print)) = ([], [], some 48) ∧
    serials (after (.printerReply 0 (refused .notFed)) (steady 2 3 .print)) = ([], [], some 49) ∧
    serials (after (.printerReply 0 (reply 3 2 .binEmpty 480)) (steady 2 3 .print)) = ([], [], some 0) ∧
    serials (after (.printerReply 0 (reply 3 2 .notFed 480)) (steady 2 3 .print)) = ([], [101, 102], some 47) ∧
    serials (after (.printerReply 0 (reply 3 2 .done 480)) (steady 1 2 .poll)) = ([], [101], some 47) ∧
    serials (after (.printerReply 0 (reply 3 2 .done 480)) (steady 1 3 .print)) = ([102], [101], some 47) := by decide +kernel

theorem witness_NoticesAndOfficeStaySound : State.reset.noticesSound ∧ State.reset.officeSound ∧
    step (State.reset.setPending [.clockTick]) = .next (after .clockTick State.reset) := by
  refine ⟨by unfold State.noticesSound; decide +kernel, ⟨?_, ?_, ?_⟩, rfl⟩
  · intro h; exact absurd h (by decide +kernel)
  · intro d h; exact absurd h (by rw [show State.reset.office.date = none from rfl]; exact fun h => by cases h)
  · intro n h; exact absurd h (by rw [show State.reset.office.clock = none from rfl]; exact fun h => by cases h)

theorem witness_PoolPathsAndHistoryStaySound : State.reset.poolSound ∧ State.reset.pathsSound ∧ State.reset.historySound ∧
    offline.faultsSound ∧
    (State.reset.setPending [.clockTick]).pending.head? = some .clockTick := by
  unfold State.poolSound State.pathsSound State.historySound State.faultsSound FaultEntry.law; decide +kernel

theorem witness_RequestBytesReadBack : (Instr.voidTicket (.window 14) 4294967295 255 255).wellFormed = true ∧
    requestBytes (.voidTicket (.window 14) 4294967295 255 255) =
      some (0x04, .window 14, [255#8, 255#8, 255#8, 255#8, 255#8, 255#8]) := by decide

end Sys2Proof.Tests
end

