-- ==== Sys2Proof/Proofs/Effects.lean ====
section
/-! SUPPORT. What a command can do, said once: the effect of each command that is taken, with the conditions its rule put before it,
apart from the link. Every invariant is read off this list. -/

namespace Sys2Proof.Machine

/-- The effects commands have on the parts other than the link, each under the conditions its checks leave. `same` is the effect of
every reading, every refusal, every frame that brings no request and every event whose precondition fails. -/
inductive Effect (c : Instr) (s : State) : State → Prop
  | same : Effect c s s
  | issue (pos : Position) (k : Fin 8) (routing : Option (Fin 6)) (p : Fin 6) (copies value : Nat) (d : Tender)
      (slots : List (List Byte)) (room : s.outstanding pos < outstandingLimit ∧ s.pool.length < poolLimit) :
      Effect c s ((s.acceptJob pos k routing p copies value d slots).wakeAll s)
  | cancel (tag : Nat) (j : Job) (found : s.job? tag = some j) :
      Effect c s (((s.modJob j.tag fun k => { k with cancelRequested := true, stop := some .cancelled }).endTest j.tag).wakeAll s)
  | void (w : Fin 15) (serial : Nat) (k : Fin 8) (e : RecentIssue) (found : s.recentEntry w serial k = some e)
      (room : s.canVoid w e = true) : Effect c s (s.voidEntry w e)
  | tally (pos : Position) (f : Tallies → Tallies) : Effect c s (s.modTallies pos f)
  | fetch (n : Notice) (rest : List Notice) (queue : s.notices.queue = n :: rest) : Effect c s (s.fetchOldest n rest)
  | load (packId stockType first count direction destination : Nat) (k : Pack)
      (fields : packOf packId stockType first count direction destination = some k)
      (checks : ∀ x ∈ s.loadChecks k, x.1 = true) : Effect c s (s.createPack k)
  | move (packId : Nat) (k : Pack) (l : Location) (found : s.pack? packId = some k) (inUse : k.condition ≠ .exhausted)
      (idle : s.inPathOf k.id = 0) (free : s.admits l = true) : Effect c s (s.relocate k l)
  | writeOff (packId : Nat) : Effect c s ((s.runOut packId .writtenOff none).wakeAll s)
  | retire (packId : Nat) (k : Pack) (found : s.pack? packId = some k) (done : s.retirable k = true) :
      Effect c s (s.removePack packId)
  | ruleIssued (packId serial : Nat) (d : DoubtfulEntry) (found : s.doubtful? packId serial = some d) :
      Effect c s ((s.resolveIssued d).wakeAll s)
  | ruleSpoiled (packId serial : Nat) (d : DoubtfulEntry) (found : s.doubtful? packId serial = some d) :
      Effect c s ((s.resolveSpoiled d).wakeAll s)
  | failAudit : Effect c s s.failAudit
  | powerOn (p : Fin 6) (off : (s.printer p).state = .poweredDown) : Effect c s (s.startIdentification p)
  | powerOff (p : Fin 6) (on : (s.printer p).state ≠ .poweredDown) : Effect c s (s.powerOff p)
  | disable (p : Fin 6) : Effect c s ((s.withdraw p).wakeAll s)
  | keepEnabled (p : Fin 6) : Effect c s ((s.modPrinter p fun x => { x with disablePending := false }).wakeAll s)
  | enable (p : Fin 6) (disabled : (s.printer p).state = .disabled) : Effect c s (s.reenable p)
  | confirm (p : Fin 6) : Effect c s (s.modPrinter p fun x => { x with confirmPending := true })
  | report (pos : Position) (p : Fin 6) (note : Nat) (withdraw : Bool)
      (room : s.ret.faults.countP FaultEntry.attends < attendedLimit) :
      Effect c s (((s.logNote p pos note withdraw).withdrawFor p withdraw).wakeAll s)
  | close (number : Nat) (e : FaultEntry) (found : s.fault? number = some e) (attended : e.attends = true) :
      Effect c s (s.closeNote number)
  | openShift (w : Fin 15) (clerk : Nat) (grade : Grade) (float : Nat) (closed : (s.window w).state = .closed) :
      Effect c s (s.beginShift w clerk grade float)
  | suspend (w : Fin 15) (isOpen : (s.window w).state = .open) : Effect c s (s.setWindowState w .suspended)
  | resume (w : Fin 15) (suspended : (s.window w).state = .suspended) : Effect c s (s.setWindowState w .open)
  | closeShift (w : Fin 15) (history : List ShiftRecord) (inUse : (s.window w).state = .open ∨ (s.window w).state = .suspended)
      (room : s.historyWithRoom = some history) : Effect c s (s.closeWindow w history)
  | reopen (w : Fin 15) (closing : (s.window w).state = .closing ∨ (s.window w).state = .counting) :
      Effect c s (s.modWindow w WindowRecord.reopen)
  | declare (w : Fin 15) (f : DeclaredFigures) (counted : (s.window w).state = .counting ∨ (s.window w).state = .held) :
      Effect c s (s.takeDeclaration w f)
  | signOff (w : Fin 15) (f : DeclaredFigures) (supervisor : Nat) (held : (s.window w).state = .held) :
      Effect c s (s.finalise w f .signedOff (some supervisor))
  | collect (number : Nat) : Effect c s (s.modRecord number fun r => { r with collected := true })
  | settings (x : LiveSettings) (layouts : x.layouts = s.live.layouts) : Effect c s (s.setLive x)
  | stockType (k : Fin 8) (d : StockDefinition) (threshold : Nat) : Effect c s ((s.writeStockType k d threshold).wakeAll s)
  | layout (k : Fin 8) (entries : List FieldEntry) : Effect c s (s.storeLayout k entries)
  | store (op : StoreOperation) (f : Flash) : Effect c s ((s.startStore op).setFlash f)
  | openOffice (date : List Byte) (inRange : dateInRange date = true) (audited : s.ret.audit = .ok) :
      Effect c s (s.openOffice date)
  | closeOffice : Effect c s s.enterSetup
  | clock (n : Option Nat) (inDay : n = s.office.clock.map nextSecond ∨ ∃ m, n = some m ∧ m ≤ lastSecond) :
      Effect c s (s.setOffice { s.office with clock := n })
  | clearAudit (setup : s.office.mode = .setup) (empty : s.pool = []) : Effect c s s.clearAudit
  | start (cause : ResetCause) (straps : Straps) : Effect c s (s.startUp cause straps)
  | lost (straps : Straps) (event : c = .powerOn straps false) : Effect c s (s.loseRetained.startUp .powerOn straps)
  | reply (p : Fin 6) (r : PrinterReply) : Effect c s (s.receiveReply p r)
  | identity (p : Fin 6) (r : PrinterReply) (i : Identity) : Effect c s (s.receiveIdentity p r i)
  | replyTimer (p : Fin 6) : Effect c s (s.expireReply p)
  | identTimer (p : Fin 6) : Effect c s (s.expireIdent p)
  | waiting (p : Fin 6) : Effect c s (s.choose .interval p)
  | identDue (p : Fin 6) : Effect c s (s.identDue p)
  | written (kind : StoreKind) (a : Area) (m : SettingsImage) (good : Bool) : Effect c s (s.writeDone kind a m good)
  | unrestored (a : Area) : Effect c s (s.storeDone { kind := .restore, area := a, good := false, officeCode := none })
  | loaded (a : Area) : Effect c s ((s.loadDone a).wakeAll s)

/-- A command leaves one of its effects, and whatever it does to the link. -/
def Leaves (c : Instr) (s t : State) : Prop := ∃ u l, Effect c s u ∧ t = u.setLink l

section
variable {c : Instr} {s : State}

theorem Effect.leaves {u : State} (h : Effect c s u) : Leaves c s u := ⟨u, u.link, h, rfl⟩

theorem leaves_setLink (l : Link) : Leaves c s (s.setLink l) := ⟨s, l, .same, rfl⟩

theorem leaves_same : Leaves c s s := Effect.same.leaves

theorem leaves_refused (code : ReplyCode) (request : Nat) (body : List Byte) : Leaves c s (s.answer code request body) :=
  leaves_setLink _

/-- An effect and then its reply. -/
theorem Leaves.answer {t : State} (h : Leaves c s t) (code : ReplyCode) (request : Nat) (body : List Byte) :
    Leaves c s (t.answer code request body) := by
  obtain ⟨u, l, he, rfl⟩ := h
  exact ⟨u, _, he, rfl⟩

/-- A request that is judged is refused, or passes every check. -/
theorem leaves_judged {request : Nat} {checks : List (Bool × ReplyCode)} {t : State}
    (h : (∀ x ∈ checks, x.1 = true) → Leaves c s t) : Leaves c s (s.judged request checks t) := by
  unfold State.judged
  split
  · exact leaves_refused _ _ _
  · exact h ((judge_eq_none checks).mp ‹_›)

/-- Bytes of the line change the link alone. -/
theorem State.receiveLine_parts (s : State) (line : List LineByte) : ∃ l, s.receiveLine line = s.setLink l := by
  rw [State.receiveLine_eq]
  induction wholeBytes line generalizing s with
  | nil => exact ⟨s.link, rfl⟩
  | cons b rest ih =>
    obtain ⟨l, hl⟩ := s.receiveByte_parts b
    obtain ⟨m, hm⟩ := ih (s.receiveByte b)
    exact ⟨m, by rw [List.foldl_cons, hm, hl]; rfl⟩

/-- A request whose frame does not reach the checks changes the link alone. -/
theorem leaves_taken {i : Instr} {t u : State} (h : s.taken i t = .next u) (ht : Leaves c s t) : Leaves c s u := by
  unfold State.taken at h
  obtain ⟨l, hl⟩ := s.receiveLine_parts ((i.frame s.link.unit).map .whole)
  split at h
  · cases h; exact ht
  · cases h; rw [hl]; exact leaves_setLink l

end

end Sys2Proof.Machine
end

