-- ==== Sys2Proof/Proofs/Commands.lean ====
section
/-! SUPPORT. That each command leaves one of the effects, and what that gives for a law every effect keeps. -/

namespace Sys2Proof.Machine

/-- A request whose meaning is a reply alone. -/
theorem leaves_reading {c i : Instr} {s t : State} {code : ReplyCode} {request : Nat} {body : List Byte}
    (h : s.taken i (s.answer code request body) = .next t) : Leaves c s t := leaves_taken h (leaves_refused _ _ _)

section
variable {s t : State}

theorem leaves_issueTicket {pos : Position} {stockType routing copies value tender : Nat} {slots : List (List Byte)}
    (h : execIssueTicket pos stockType routing copies value tender slots s = .next t) :
    Leaves (.issueTicket pos stockType routing copies value tender slots) s t := by
  refine leaves_taken h (leaves_judged fun _ => ?_)
  split
  · refine leaves_judged fun room => ?_
    split
    · exact leaves_refused _ _ _
    · refine (Effect.issue _ _ _ _ _ _ _ _ ?_).leaves.answer _ _ _
      simpa [State.roomChecks] using room (_, _) (List.mem_cons_of_mem _ List.mem_cons_self)
  · exact leaves_refused _ _ _

theorem leaves_cancelJob {pos : Position} {tag : Nat} (h : execCancelJob pos tag s = .next t) :
    Leaves (.cancelJob pos tag) s t := by
  refine leaves_taken h (leaves_judged fun _ => ?_)
  split
  · exact leaves_refused _ _ _
  · refine leaves_judged fun _ => ?_
    unfold State.cancel
    split
    · exact leaves_refused _ _ _
    · exact (Effect.cancel tag _ ‹_›).leaves.answer _ _ _

theorem leaves_voidTicket {pos : Position} {serial stockType target : Nat}
    (h : execVoidTicket pos serial stockType target s = .next t) : Leaves (.voidTicket pos serial stockType target) s t := by
  refine leaves_taken h ?_
  split
  · refine leaves_judged fun _ => leaves_judged fun _ => ?_
    split
    · exact leaves_refused _ _ _
    · refine leaves_judged fun room => ?_
      exact (Effect.void _ _ _ _ ‹_› (room (_, _) List.mem_cons_self)).leaves.answer _ _ _
  · exact leaves_refused _ _ _

theorem leaves_refund {pos : Position} {value tender : Nat} (h : execRefund pos value tender s = .next t) :
    Leaves (.refund pos value tender) s t := by
  refine leaves_taken h (leaves_judged fun _ => ?_)
  split
  · exact leaves_refused _ _ _
  · exact (Effect.tally _ _).leaves.answer _ _ _

theorem leaves_fetchNotice {pos : Position} {repeatField : Nat} (h : execFetchNotice pos repeatField s = .next t) :
    Leaves (.fetchNotice pos repeatField) s t := by
  refine leaves_taken h ?_
  split
  · exact leaves_refused _ _ _
  · unfold State.fetch
    split
    · exact leaves_refused _ _ _
    · exact (Effect.fetch _ _ ‹_›).leaves.answer _ _ _
  · exact leaves_refused _ _ _

theorem leaves_loadPack {pos : Position} {packId stockType first count direction destination : Nat}
    (h : execLoadPack pos packId stockType first count direction destination s = .next t) :
    Leaves (.loadPack pos packId stockType first count direction destination) s t := by
  refine leaves_taken h (leaves_judged fun _ => ?_)
  split
  · exact leaves_refused _ _ _
  · exact leaves_judged fun checks => (Effect.load _ _ _ _ _ _ _ ‹_› checks).leaves.answer _ _ _

theorem leaves_movePack {pos : Position} {packId destination : Nat} (h : execMovePack pos packId destination s = .next t) :
    Leaves (.movePack pos packId destination) s t := by
  refine leaves_taken h (leaves_judged fun _ => ?_)
  split
  · exact leaves_refused _ _ _
  · unfold State.move
    split
    · exact leaves_refused _ _ _
    · refine leaves_judged fun checks => ?_
      have passed := checks (_, _) List.mem_cons_self
      simp only [Bool.and_eq_true, decide_eq_true_eq] at passed
      obtain ⟨⟨inUse, idle, -⟩, free⟩ := passed
      exact (Effect.move packId _ _ ‹_› inUse idle free).leaves.answer _ _ _

theorem leaves_writeOffPack {pos : Position} {packId : Nat} (h : execWriteOffPack pos packId s = .next t) :
    Leaves (.writeOffPack pos packId) s t := by
  refine leaves_taken h (leaves_judged fun _ => ?_)
  split
  · exact leaves_refused _ _ _
  · exact leaves_judged fun _ => (Effect.writeOff _).leaves.answer _ _ _

theorem leaves_retirePack {pos : Position} {packId : Nat} (h : execRetirePack pos packId s = .next t) :
    Leaves (.retirePack pos packId) s t := by
  refine leaves_taken h (leaves_judged fun _ => ?_)
  split
  · exact leaves_refused _ _ _
  · exact leaves_judged fun checks =>
      (Effect.retire _ _ ‹_› (checks (_, _) List.mem_cons_self)).leaves.answer _ _ _

theorem leaves_resolveDoubtfulIssued {pos : Position} {packId serial ruling : Nat}
    (h : execResolveDoubtfulIssued pos packId serial ruling s = .next t) :
    Leaves (.resolveDoubtfulIssued pos packId serial ruling) s t := by
  refine leaves_taken h (leaves_judged fun _ => ?_)
  split
  · exact leaves_refused _ _ _
  · exact leaves_judged fun _ => (Effect.ruleIssued _ _ _ ‹_›).leaves.answer _ _ _

theorem leaves_resolveDoubtfulSpoiled {pos : Position} {packId serial : Nat}
    (h : execResolveDoubtfulSpoiled pos packId serial s = .next t) : Leaves (.resolveDoubtfulSpoiled pos packId serial) s t := by
  refine leaves_taken h (leaves_judged fun _ => ?_)
  split
  · exact leaves_refused _ _ _
  · exact (Effect.ruleSpoiled _ _ _ ‹_›).leaves.answer _ _ _

theorem leaves_stockCheck {pos : Position} (h : execStockCheck pos s = .next t) : Leaves (.stockCheck pos) s t := by
  refine leaves_taken h (leaves_judged fun _ => Leaves.answer ?_ _ _ _)
  split
  · exact leaves_same
  · exact Effect.failAudit.leaves

theorem leaves_powerPrinterOn {pos : Position} {printer onField : Nat} (h : execPowerPrinterOn pos printer onField s = .next t) :
    Leaves (.powerPrinterOn pos printer onField) s t := by
  refine leaves_taken h (leaves_judged fun _ => ?_)
  split
  · exact leaves_refused _ _ _
  · refine leaves_judged fun checks => (Effect.powerOn _ ?_).leaves.answer _ _ _
    simpa using checks (_, _) (List.mem_cons_of_mem _ (List.mem_cons_of_mem _ List.mem_cons_self))

theorem leaves_powerPrinterOff {pos : Position} {printer : Nat} (h : execPowerPrinterOff pos printer s = .next t) :
    Leaves (.powerPrinterOff pos printer) s t := by
  refine leaves_taken h (leaves_judged fun _ => ?_)
  split
  · exact leaves_refused _ _ _
  · refine leaves_judged fun checks => (Effect.powerOff _ ?_).leaves.answer _ _ _
    simpa using checks (_, _) List.mem_cons_self

theorem leaves_disablePrinter {pos : Position} {printer : Nat} (h : execDisablePrinter pos printer s = .next t) :
    Leaves (.disablePrinter pos printer) s t := by
  refine leaves_taken h (leaves_judged fun _ => ?_)
  split
  · exact leaves_refused _ _ _
  · exact leaves_judged fun _ => (Effect.disable _).leaves.answer _ _ _

theorem leaves_enablePrinter {pos : Position} {printer : Nat} (h : execEnablePrinter pos printer s = .next t) :
    Leaves (.enablePrinter pos printer) s t := by
  refine leaves_taken h (leaves_judged fun _ => ?_)
  split
  · exact leaves_refused _ _ _
  · split
    · exact (Effect.keepEnabled _).leaves.answer _ _ _
    · refine leaves_judged fun checks => (Effect.enable _ ?_).leaves.answer _ _ _
      simpa using checks (_, _) List.mem_cons_self

theorem leaves_resumePrinter {pos : Position} {printer : Nat} (h : execResumePrinter pos printer s = .next t) :
    Leaves (.resumePrinter pos printer) s t := by
  refine leaves_taken h ?_
  split
  · exact leaves_refused _ _ _
  · exact leaves_judged fun _ => (Effect.confirm _).leaves.answer _ _ _

theorem leaves_reportFault {pos : Position} {printer note withdraw : Nat} (h : execReportFault pos printer note withdraw s = .next t) :
    Leaves (.reportFault pos printer note withdraw) s t := by
  refine leaves_taken h ?_
  split
  · refine leaves_judged fun checks => (Effect.report pos _ note _ ?_).leaves.answer _ _ _
    simpa using checks (_, _) (List.mem_cons_of_mem _ List.mem_cons_self)
  · exact leaves_refused _ _ _

theorem leaves_closeFault {pos : Position} {number : Nat} (h : execCloseFault pos number s = .next t) :
    Leaves (.closeFault pos number) s t := by
  refine leaves_taken h (leaves_judged fun _ => ?_)
  split
  · exact leaves_refused _ _ _
  · exact leaves_judged fun checks =>
      (Effect.close _ _ ‹_› (checks (_, _) List.mem_cons_self)).leaves.answer _ _ _

theorem leaves_openShift {pos : Position} {target clerk grade float : Nat} (h : execOpenShift pos target clerk grade float s = .next t) :
    Leaves (.openShift pos target clerk grade float) s t := by
  refine leaves_taken h ?_
  split
  · exact leaves_refused _ _ _
  · refine leaves_judged fun _ => ?_
    split
    · exact leaves_refused _ _ _
    · refine leaves_judged fun checks => (Effect.openShift _ clerk _ float ?_).leaves.answer _ _ _
      simpa [State.windowIn] using checks (_, _) (List.mem_cons_of_mem _ (List.mem_cons_of_mem _ List.mem_cons_self))

theorem leaves_suspendPosition {pos : Position} {target : Nat} (h : execSuspendPosition pos target s = .next t) :
    Leaves (.suspendPosition pos target) s t := by
  refine leaves_taken h ?_
  split
  · exact leaves_refused _ _ _
  · refine leaves_judged fun checks => (Effect.suspend _ ?_).leaves.answer _ _ _
    simpa [State.windowIn] using checks (_, _) List.mem_cons_self

theorem leaves_resumePosition {pos : Position} {target clerk : Nat} (h : execResumePosition pos target clerk s = .next t) :
    Leaves (.resumePosition pos target clerk) s t := by
  refine leaves_taken h ?_
  split
  · exact leaves_refused _ _ _
  · refine leaves_judged fun checks => (Effect.resume _ ?_).leaves.answer _ _ _
    simpa [State.windowIn] using checks (_, _) (List.mem_cons_of_mem _ List.mem_cons_self)

theorem leaves_cashLift {pos : Position} {target amount : Nat} (h : execCashLift pos target amount s = .next t) :
    Leaves (.cashLift pos target amount) s t := by
  refine leaves_taken h ?_
  split
  · exact leaves_refused _ _ _
  · exact leaves_judged fun _ => (Effect.tally _ _).leaves.answer _ _ _

theorem leaves_closeShift {pos : Position} {target : Nat} (h : execCloseShift pos target s = .next t) :
    Leaves (.closeShift pos target) s t := by
  refine leaves_taken h ?_
  split
  · exact leaves_refused _ _ _
  · refine leaves_judged fun checks => ?_
    split
    · exact leaves_refused _ _ _
    · refine (Effect.closeShift _ _ ?_ ‹_›).leaves.answer _ _ _
      simpa [State.windowIn] using checks (_, _) List.mem_cons_self

theorem leaves_reopenShift {pos : Position} {target : Nat} (h : execReopenShift pos target s = .next t) :
    Leaves (.reopenShift pos target) s t := by
  refine leaves_taken h ?_
  split
  · exact leaves_refused _ _ _
  · refine leaves_judged fun checks => (Effect.reopen _ ?_).leaves.answer _ _ _
    simpa [State.windowIn] using checks (_, _) (List.mem_cons_of_mem _ List.mem_cons_self)

/-- A declaration that is not refused finds its window COUNTING or HELD (R143). -/
theorem State.declareRefusal_eq_none (s : State) (w : Fin 15) (h : s.declareRefusal w = none) :
    (s.window w).state = .counting ∨ (s.window w).state = .held := by
  unfold State.declareRefusal at h
  simp only at h
  split at h
  · exact ‹_ ∨ _ ∧ _›.imp_right And.left
  · split at h <;> cases h

theorem leaves_declare {pos : Position} {target : Nat} {counts : Vector Nat 12} {card voucher warrant : Nat}
    (h : execDeclare pos target counts card voucher warrant s = .next t) :
    Leaves (.declare pos target counts card voucher warrant) s t := by
  refine leaves_taken h ?_
  split
  · exact leaves_refused _ _ _
  · refine leaves_judged fun _ => ?_
    split
    · exact leaves_refused _ _ _
    · exact (Effect.declare _ _ (s.declareRefusal_eq_none _ ‹_›)).leaves.answer _ _ _

theorem leaves_signOffShift {pos : Position} {target supervisor : Nat} (h : execSignOffShift pos target supervisor s = .next t) :
    Leaves (.signOffShift pos target supervisor) s t := by
  refine leaves_taken h (leaves_judged fun _ => ?_)
  split
  · exact leaves_refused _ _ _
  · split
    · refine (Effect.signOff _ _ supervisor ?_).leaves.answer _ _ _
      simpa [State.windowIn] using ‹s.windowIn _ [.held] = true›
    · exact leaves_refused _ _ _

theorem leaves_collectShift {pos : Position} {number : Nat} (h : execCollectShift pos number s = .next t) :
    Leaves (.collectShift pos number) s t :=
  leaves_taken h (leaves_judged fun _ => (Effect.collect _).leaves.answer _ _ _)

theorem leaves_readJob {pos : Position} {tag part : Nat} (h : execReadJob pos tag part s = .next t) :
    Leaves (.readJob pos tag part) s t := by
  refine leaves_taken h (leaves_judged fun _ => ?_)
  split <;> exact leaves_refused _ _ _

theorem leaves_readPack {pos : Position} {packId index : Nat} (h : execReadPack pos packId index s = .next t) :
    Leaves (.readPack pos packId index) s t := by
  refine leaves_taken h (leaves_judged fun _ => ?_)
  split <;> exact leaves_refused _ _ _

theorem leaves_listPacks {pos : Position} {selection stockType location start : Nat}
    (h : execListPacks pos selection stockType location start s = .next t) :
    Leaves (.listPacks pos selection stockType location start) s t := by
  refine leaves_taken h ?_
  split
  · exact leaves_judged fun _ => leaves_refused _ _ _
  · split <;> exact leaves_refused _ _ _

theorem leaves_readPrinter {pos : Position} {printer : Nat} (h : execReadPrinter pos printer s = .next t) :
    Leaves (.readPrinter pos printer) s t := by
  refine leaves_taken h ?_
  split <;> exact leaves_refused _ _ _

theorem leaves_faultCounts {pos : Position} {printer : Nat} (h : execFaultCounts pos printer s = .next t) :
    Leaves (.faultCounts pos printer) s t := by
  refine leaves_taken h ?_
  split <;> exact leaves_refused _ _ _

theorem leaves_readPosition {pos : Position} {target part index : Nat} (h : execReadPosition pos target part index s = .next t) :
    Leaves (.readPosition pos target part index) s t := by
  refine leaves_taken h ?_
  split
  · exact leaves_refused _ _ _
  · exact leaves_judged fun _ => leaves_refused _ _ _

theorem leaves_readShift {pos : Position} {number : Nat} (h : execReadShift pos number s = .next t) :
    Leaves (.readShift pos number) s t := by
  refine leaves_taken h ?_
  split
  · exact leaves_refused _ _ _
  · refine leaves_judged fun _ => ?_
    split <;> exact leaves_refused _ _ _

theorem leaves_readSetting {pos : Position} {item index : Nat} (h : execReadSetting pos item index s = .next t) :
    Leaves (.readSetting pos item index) s t := by
  refine leaves_taken h ?_
  split <;> exact leaves_refused _ _ _

theorem leaves_readSettingLayout {pos : Position} {index : Nat} (h : execReadSettingLayout pos index s = .next t) :
    Leaves (.readSettingLayout pos index) s t := by
  refine leaves_taken h ?_
  split <;> exact leaves_refused _ _ _

theorem leaves_writeSettingStockType {pos : Position} {index defined numbered striped digits threshold : Nat}
    (h : execWriteSettingStockType pos index defined numbered striped digits threshold s = .next t) :
    Leaves (.writeSettingStockType pos index defined numbered striped digits threshold) s t := by
  refine leaves_taken h (leaves_judged fun _ => ?_)
  split
  · exact leaves_judged fun _ => (Effect.stockType _ _ _).leaves.answer _ _ _
  · exact leaves_refused _ _ _

theorem leaves_writeSettingLayout {pos : Position} {index : Nat} {fields : List RawField}
    (h : execWriteSettingLayout pos index fields s = .next t) : Leaves (.writeSettingLayout pos index fields) s t := by
  refine leaves_taken h (leaves_judged fun _ => ?_)
  split
  · exact leaves_judged fun _ => (Effect.layout _ _).leaves.answer _ _ _
  · exact leaves_refused _ _ _

theorem leaves_writeSettingPosition {pos : Position} {index printerSet stockSet enabled : Nat}
    (h : execWriteSettingPosition pos index printerSet stockSet enabled s = .next t) :
    Leaves (.writeSettingPosition pos index printerSet stockSet enabled) s t := by
  refine leaves_taken h (leaves_judged fun _ => ?_)
  split
  · exact (Effect.settings _ (by rfl)).leaves.answer _ _ _
  · exact leaves_refused _ _ _

theorem leaves_writeSettingPrinter {pos : Position} {index enabled hold resume : Nat}
    (h : execWriteSettingPrinter pos index enabled hold resume s = .next t) :
    Leaves (.writeSettingPrinter pos index enabled hold resume) s t := by
  refine leaves_taken h (leaves_judged fun _ => ?_)
  split
  · exact (Effect.settings _ (by rfl)).leaves.answer _ _ _
  · exact leaves_refused _ _ _

theorem leaves_saveSettings {pos : Position} {area : Nat} (h : execSaveSettings pos area s = .next t) :
    Leaves (.saveSettings pos area) s t := by
  refine leaves_taken h ?_
  split
  · exact leaves_refused _ _ _
  · exact leaves_judged fun _ => (Effect.store _ _).leaves.answer _ _ _

theorem leaves_loadSettings {pos : Position} {area : Nat} (h : execLoadSettings pos area s = .next t) :
    Leaves (.loadSettings pos area) s t := by
  refine leaves_taken h ?_
  split
  · exact leaves_refused _ _ _
  · exact leaves_judged fun _ => (Effect.store (.load _) s.flash).leaves.answer _ _ _

theorem leaves_restoreFactory {pos : Position} {area : Nat} (h : execRestoreFactory pos area s = .next t) :
    Leaves (.restoreFactory pos area) s t := by
  refine leaves_taken h ?_
  split
  · exact leaves_refused _ _ _
  · exact leaves_judged fun _ => (Effect.store _ _).leaves.answer _ _ _

theorem leaves_openOffice {pos : Position} {date : List Byte} (h : execOpenOffice pos date s = .next t) :
    Leaves (.openOffice pos date) s t := by
  refine leaves_taken h (leaves_judged fun checks => (Effect.openOffice date ?_ ?_).leaves.answer _ _ _)
  · simpa using checks (_, _) (List.mem_cons_of_mem _ List.mem_cons_self)
  · have passed := checks (_, _) (List.mem_cons_of_mem _ (List.mem_cons_of_mem _ List.mem_cons_self))
    simp only [decide_eq_true_eq] at passed
    exact passed.2

theorem leaves_closeOffice {pos : Position} (h : execCloseOffice pos s = .next t) : Leaves (.closeOffice pos) s t :=
  leaves_taken h (leaves_judged fun _ => Effect.closeOffice.leaves.answer _ _ _)

theorem leaves_setTime {pos : Position} {seconds : Nat} (h : execSetTime pos seconds s = .next t) :
    Leaves (.setTime pos seconds) s t := by
  refine leaves_taken h (leaves_judged fun checks => (Effect.clock _ (.inr ⟨seconds, rfl, ?_⟩)).leaves.answer _ _ _)
  simpa using checks (_, _) (List.mem_cons_of_mem _ List.mem_cons_self)

theorem leaves_clearAudit {pos : Position} (h : execClearAudit pos s = .next t) : Leaves (.clearAudit pos) s t := by
  refine leaves_taken h (leaves_judged fun checks => (Effect.clearAudit ?_ ?_).leaves.answer _ _ _)
  · simpa using checks (_, _) (List.mem_cons_of_mem _ List.mem_cons_self)
  · simpa using checks (_, _) (List.mem_cons_of_mem _ (List.mem_cons_of_mem _ (List.mem_cons_of_mem _ List.mem_cons_self)))

theorem leaves_setLinkRate {pos : Position} {rate : Nat} (h : execSetLinkRate pos rate s = .next t) :
    Leaves (.setLinkRate pos rate) s t := by
  refine leaves_taken h (leaves_judged fun _ => ?_)
  split
  · exact (leaves_setLink _).answer _ _ _
  · exact leaves_refused _ _ _

theorem leaves_linkRateChange (h : execLinkRateChange s = .next t) : Leaves .linkRateChange s t := by
  unfold execLinkRateChange at h
  cases h
  split
  · exact leaves_same
  · exact leaves_setLink _

theorem leaves_replyLastByteLeft (h : execReplyLastByteLeft s = .next t) : Leaves .replyLastByteLeft s t := by
  unfold execReplyLastByteLeft at h
  cases h
  split
  · exact leaves_setLink _
  · exact leaves_same

theorem leaves_receiveLine {c : Instr} (line : List LineByte)
    (h : (.next (s.receiveLine line) : Host.Outcome State Fault Refusal) = .next t) : Leaves c s t := by
  cases h
  obtain ⟨l, hl⟩ := s.receiveLine_parts line
  rw [hl]
  exact leaves_setLink l

theorem leaves_powerOn {straps : Straps} {held : Bool} (h : execPowerOn straps held s = .next t) :
    Leaves (.powerOn straps held) s t := by
  rw [← Host.Outcome.next.inj h]
  cases held
  · exact (Effect.lost straps rfl).leaves
  · exact (Effect.start _ _).leaves

theorem leaves_saveComplete {good : Bool} (h : execSaveComplete good s = .next t) : Leaves (.saveComplete good) s t := by
  unfold execSaveComplete at h
  cases h
  split
  · exact (Effect.written _ _ _ _).leaves
  all_goals exact leaves_same

theorem leaves_loadComplete (h : execLoadComplete s = .next t) : Leaves .loadComplete s t := by
  unfold execLoadComplete at h
  cases h
  split
  · exact (Effect.loaded _).leaves
  all_goals exact leaves_same

theorem leaves_restoreComplete {good : Bool} (h : execRestoreComplete good s = .next t) :
    Leaves (.restoreComplete good) s t := by
  unfold execRestoreComplete at h
  cases h
  split
  · unfold State.restoreDone
    split
    · exact (Effect.unrestored _).leaves
    · exact (Effect.written _ _ _ _).leaves
  all_goals exact leaves_same

theorem leaves_printerReplyDiscarded {p : Fin 6} {bytes : List Byte} (h : execPrinterReplyDiscarded p bytes s = .next t) :
    Leaves (.printerReplyDiscarded p bytes) s t := by
  cases h
  unfold State.receiveFrame
  split
  · exact leaves_same
  · split
    · exact leaves_same
    · exact (Effect.reply _ _).leaves
    · exact (Effect.identity _ _ _).leaves

/-- Every command that completes leaves one of its effects. -/
theorem leaves_of_exec {c : Instr} (h : exec c s = .next t) : Leaves c s t := by
  cases c with
  | issueTicket => exact leaves_issueTicket h
  | cancelJob => exact leaves_cancelJob h
  | readJob => exact leaves_readJob h
  | voidTicket => exact leaves_voidTicket h
  | refund => exact leaves_refund h
  | fetchNotice => exact leaves_fetchNotice h
  | fetchNoticeRepeat => exact leaves_reading h
  | loadPack => exact leaves_loadPack h
  | movePack => exact leaves_movePack h
  | writeOffPack => exact leaves_writeOffPack h
  | retirePack => exact leaves_retirePack h
  | readPack => exact leaves_readPack h
  | listPacks => exact leaves_listPacks h
  | resolveDoubtfulIssued => exact leaves_resolveDoubtfulIssued h
  | resolveDoubtfulSpoiled => exact leaves_resolveDoubtfulSpoiled h
  | stockCheck => exact leaves_stockCheck h
  | powerPrinterOn => exact leaves_powerPrinterOn h
  | powerPrinterOff => exact leaves_powerPrinterOff h
  | disablePrinter => exact leaves_disablePrinter h
  | enablePrinter => exact leaves_enablePrinter h
  | readPrinter => exact leaves_readPrinter h
  | resumePrinter => exact leaves_resumePrinter h
  | reportFault => exact leaves_reportFault h
  | closeFault => exact leaves_closeFault h
  | readFaults => exact leaves_taken h (leaves_judged fun _ => leaves_refused _ _ _)
  | faultCounts => exact leaves_faultCounts h
  | openShift => exact leaves_openShift h
  | suspendPosition => exact leaves_suspendPosition h
  | resumePosition => exact leaves_resumePosition h
  | cashLift => exact leaves_cashLift h
  | closeShift => exact leaves_closeShift h
  | reopenShift => exact leaves_reopenShift h
  | readPosition => exact leaves_readPosition h
  | declare => exact leaves_declare h
  | signOffShift => exact leaves_signOffShift h
  | readShift => exact leaves_readShift h
  | collectShift => exact leaves_collectShift h
  | readSetting => exact leaves_readSetting h
  | readSettingLayout => exact leaves_readSettingLayout h
  | writeSettingOffice => exact leaves_taken h (leaves_judged fun _ => (Effect.settings _ (by rfl)).leaves.answer _ _ _)
  | writeSettingDenominations => exact leaves_taken h (leaves_judged fun _ => (Effect.settings _ (by rfl)).leaves.answer _ _ _)
  | writeSettingStockType => exact leaves_writeSettingStockType h
  | writeSettingLayout => exact leaves_writeSettingLayout h
  | writeSettingPosition => exact leaves_writeSettingPosition h
  | writeSettingPrinter => exact leaves_writeSettingPrinter h
  | saveSettings => exact leaves_saveSettings h
  | loadSettings => exact leaves_loadSettings h
  | restoreFactory => exact leaves_restoreFactory h
  | openOffice => exact leaves_openOffice h
  | closeOffice => exact leaves_closeOffice h
  | setTime => exact leaves_setTime h
  | clearAudit => exact leaves_clearAudit h
  | setLinkRate => exact leaves_setLinkRate h
  | restart => exact leaves_taken h (leaves_judged fun _ => (leaves_setLink _).answer _ _ _)
  | identify => exact leaves_reading h
  | frameCheckFailed line => exact leaves_receiveLine line h
  | frameDiscarded line => exact leaves_receiveLine line h
  | gapTimeout line =>
    cases h
    obtain ⟨l, hl⟩ := s.receiveLine_parts line
    rw [hl]
    exact ⟨s, _, .same, rfl⟩
  | linkRateChange => exact leaves_linkRateChange h
  | powerOn => exact leaves_powerOn h
  | resetPin => rw [← Host.Outcome.next.inj h]; exact (Effect.start _ _).leaves
  | restartReset => rw [← Host.Outcome.next.inj h]; exact (Effect.start _ _).leaves
  | printerReply => cases h; exact (Effect.reply _ _).leaves
  | identReply => cases h; exact (Effect.identity _ _ _).leaves
  | printerReplyDiscarded => exact leaves_printerReplyDiscarded h
  | printerReplyGap => cases h; exact leaves_same
  | replyTimeout => cases h; exact (Effect.replyTimer _).leaves
  | identTimeout => cases h; exact (Effect.identTimer _).leaves
  | pollInterval => cases h; exact (Effect.waiting _).leaves
  | identInterval => cases h; exact (Effect.identDue _).leaves
  | clockTick => cases h; exact (Effect.clock _ (.inl rfl)).leaves
  | saveComplete => exact leaves_saveComplete h
  | loadComplete => exact leaves_loadComplete h
  | restoreComplete => exact leaves_restoreComplete h
  | replyLastByteLeft => exact leaves_replyLastByteLeft h

/-- A law that reads neither the link nor the queue of commands is kept by every step, when it is kept by every effect of the
command at the front. -/
theorem step_keeps {P : State → Prop} (link : ∀ (s : State) l, P s → P (s.setLink l))
    (queue : ∀ (s : State) q, P s → P (s.setPending q))
    (effects : ∀ (c : Instr) (s' u : State), s.pending.head? = some c → Effect c s' u → P s' → P u)
    (h : step s = .next t) (hs : P s) : P t := by
  unfold step at h
  split at h
  · cases h; exact hs
  · obtain ⟨u, l, he, rfl⟩ := leaves_of_exec h
    exact link u l (effects _ _ u (by simp [*]) he (queue s _ hs))

end
end Sys2Proof.Machine
end

