-- ==== Sys2Proof/Proofs/Serves.lean ====
section
/-! SUPPORT. What the arbiter, the scheduler and the low-stock check can do to the records they reach: the relation `Serves`, which
composes, and that each of their operations keeps within it. -/

namespace Sys2Proof.Machine

/-- A printer's record apart from its queue and whether its notice still waits. -/
def Printer.settled (x : Printer) : Printer := { x with queue := [], statePending := false }

/-- A stock type's record apart from its low-stock flags. -/
def StockType.settled (x : StockType) : StockType := { x with lowNotified := false, lowPending := false }

/-- A window's record as the arbiter can leave it: its outstanding count, its COUNT-READY flag, and CLOSING gone to COUNTING
(R66, R121, R171). -/
def WindowRecord.follows (r r' : WindowRecord) : Prop :=
  r' = { r with state := r'.state, outstanding := r'.outstanding, countReady := r'.countReady } ∧
    (r'.state = r.state ∨ r.state = .closing ∧ r'.state = .counting)

/-- What the arbiter, the scheduler and the low-stock check can do: notices join the queue, jobs end and leave the pool, tags move
between queues, pending flags and outstanding counts change, and a CLOSING window goes to COUNTING. -/
structure Serves (s t : State) : Prop where
  parts : s.keepsBut t placed
  tags : (t.pool.map (·.tag)).Subperm (s.pool.map (·.tag))
  windows : ∀ w, (s.window w).follows (t.window w)
  console : t.ret.console = { s.ret.console with outstanding := t.ret.console.outstanding }
  history : t.ret.history.map (·.settled) = s.ret.history.map (·.settled)
  faults : t.ret.faults.map (·.settled) = s.ret.faults.map (·.settled)
  printers : ∀ p, (t.printer p).settled = (s.printer p).settled
  stockTypes : ∀ k, (t.stockType k).settled = (s.stockType k).settled
  store : t.store = { s.store with donePending := t.store.donePending }
  queue : s.notices.queue <+: t.notices.queue
  attention : s.notices.attention = true → t.notices.attention = true
  notices : t.notices = { s.notices with queue := t.notices.queue, attention := t.notices.attention }

theorem WindowRecord.follows_refl (r : WindowRecord) : r.follows r := ⟨rfl, .inl rfl⟩

theorem WindowRecord.follows.trans {a b c : WindowRecord} (h : a.follows b) (k : b.follows c) : a.follows c := by
  obtain ⟨hb, hs⟩ := h
  obtain ⟨kc, ks⟩ := k
  refine ⟨by rw [kc, hb], ?_⟩
  rcases ks with ks | ⟨kb, kc⟩
  · rw [ks]; exact hs
  · rcases hs with hs | ⟨ha, hb⟩
    · exact .inr ⟨hs ▸ kb, kc⟩
    · rw [hb] at kb; cases kb

theorem Serves.refl (s : State) : Serves s s where
  parts := s.keepsBut_refl _
  tags := List.Subperm.refl _
  windows w := (s.window w).follows_refl
  console := rfl
  history := rfl
  faults := rfl
  printers _ := rfl
  stockTypes _ := rfl
  store := rfl
  queue := List.prefix_rfl
  attention := id
  notices := rfl

theorem Serves.trans {s t u : State} (h : Serves s t) (k : Serves t u) : Serves s u where
  parts := h.parts.trans k.parts
  tags := k.tags.trans h.tags
  windows w := (h.windows w).trans (k.windows w)
  console := by rw [k.console, h.console]
  history := k.history.trans h.history
  faults := k.faults.trans h.faults
  printers p := (k.printers p).trans (h.printers p)
  stockTypes i := (k.stockTypes i).trans (h.stockTypes i)
  store := by rw [k.store, h.store]
  queue := h.queue.trans k.queue
  attention := k.attention ∘ h.attention
  notices := by rw [k.notices, h.notices]

theorem serves_foldl {α : Type} (f : State → α → State) (h : ∀ s x, Serves s (f s x)) (xs : List α) (s : State) :
    Serves s (xs.foldl f s) := by
  induction xs generalizing s with
  | nil => exact .refl s
  | cons x xs ih => exact (h s x).trans (ih (f s x))

/-! ### One record changed -/

/-- Every place of a table after one place is changed by a function that keeps a view of it. -/
theorem updAt_view {α β : Type} {n : Nat} (v : Vector α n) (i j : Fin n) (f : α → α) (view : α → β)
    (h : view (f v[i]) = view v[i]) : view (updAt v i f)[j] = view v[j] := by
  by_cases hj : j = i
  · rw [hj, updAt_same, h]
  · rw [updAt_other v i j f hj]

theorem State.printer_modPrinter (s : State) (p q : Fin 6) (f : Printer → Printer) :
    (s.modPrinter p f).printer q = if q = p then f (s.printer q) else s.printer q := by
  split
  · subst q; exact s.modPrinter_same p f
  · exact s.modPrinter_other p q f ‹_›

theorem State.window_modWindow (s : State) (w v : Fin 15) (f : WindowRecord → WindowRecord) :
    (s.modWindow w f).window v = if v = w then f (s.window v) else s.window v := by
  split
  · subst v; exact s.modWindow_same w f
  · exact s.modWindow_other w v f ‹_›

theorem State.stockType_modStockType (s : State) (k l : Fin 8) (f : StockType → StockType) :
    (s.modStockType k f).stockType l = if l = k then f (s.stockType l) else s.stockType l := by
  split
  · subst l; exact s.modStockType_same k f
  · exact s.modStockType_other k l f ‹_›

/-- A list of records after those with a number are changed by a function that keeps a view of them. -/
theorem map_view_of_key {α β : Type} (key : α → Nat) (n : Nat) (f : α → α) (view : α → β) (h : ∀ x, view (f x) = view x)
    (l : List α) : (l.map fun x => if key x = n then f x else x).map view = l.map view := by
  rw [List.map_map]
  exact List.map_congr_left fun x _ => by simp only [Function.comp]; split <;> simp [h]

theorem serves_modPrinter (s : State) (p : Fin 6) (f : Printer → Printer) (h : ∀ x, (f x).settled = x.settled) :
    Serves s (s.modPrinter p f) :=
  { Serves.refl s with
    parts := (s.modPrinter_keeps p f).mono (by decide)
    printers := fun q => updAt_view s.printers p q f Printer.settled (h _) }

theorem serves_modStockType (s : State) (k : Fin 8) (f : StockType → StockType) (h : ∀ x, (f x).settled = x.settled) :
    Serves s (s.modStockType k f) :=
  { Serves.refl s with
    parts := (s.modStockType_keeps k f).mono (by decide)
    stockTypes := fun l => updAt_view s.ret.stockTypes k l f StockType.settled (h _) }

theorem serves_modWindow (s : State) (w : Fin 15) (f : WindowRecord → WindowRecord) (h : (s.window w).follows (f (s.window w))) :
    Serves s (s.modWindow w f) :=
  { Serves.refl s with
    parts := (s.modWindow_keeps w f).mono (by decide)
    windows := fun v => by
      rw [State.window_modWindow]
      split
      · subst v; exact h
      · exact WindowRecord.follows_refl _ }

theorem serves_modFault (s : State) (n : Nat) (f : FaultEntry → FaultEntry) (h : ∀ e, (f e).settled = e.settled) :
    Serves s (s.modFault n f) :=
  { Serves.refl s with
    parts := (s.modFault_keeps n f).mono (by decide)
    faults := map_view_of_key _ _ _ _ h _ }

theorem serves_modRecord (s : State) (n : Nat) (f : ShiftRecord → ShiftRecord) (h : ∀ r, (f r).settled = r.settled) :
    Serves s (s.modRecord n f) :=
  { Serves.refl s with
    parts := (s.modRecord_keeps n f).mono (by decide)
    history := map_view_of_key _ _ _ _ h _ }

theorem serves_setPool (s : State) (l : List Job) (h : (l.map (·.tag)).Subperm (s.pool.map (·.tag))) : Serves s (s.setPool l) :=
  { Serves.refl s with parts := (s.setPool_keeps l).mono (by decide), tags := h }

theorem serves_modJob (s : State) (n : Nat) (f : Job → Job) (h : ∀ j, (f j).tag = j.tag) : Serves s (s.modJob n f) :=
  serves_setPool s _ (by rw [map_view_of_key Job.tag n f Job.tag h])

theorem serves_modOutstanding (s : State) (pos : Position) (f : Nat → Nat) : Serves s (s.modOutstanding pos f) := by
  cases pos with
  | console => exact { Serves.refl s with parts := (s.modOutstanding_keeps .console f).mono (by decide), console := rfl }
  | window w => exact serves_modWindow s w _ ⟨rfl, .inl rfl⟩

/-! ### The arbiter (R168 to R171) -/

theorem serves_pushNotice (s : State) (n : Notice) : Serves s (s.pushNotice n) :=
  { Serves.refl s with
    parts := s.pushNotice_keeps n
    queue := List.prefix_append _ _
    attention := fun _ => rfl
    notices := rfl }

theorem serves_releaseJob (s : State) (j : Job) : Serves s (s.releaseJob j) := by
  have gone : Serves s (s.setPool (s.pool.filter fun k => decide (k.tag ≠ j.tag))) :=
    serves_setPool s _ (List.filter_sublist.map _).subperm
  have released := gone.trans (serves_modOutstanding _ j.position (· - 1))
  unfold State.releaseJob
  simp only
  split
  · exact released
  · split
    · exact released.trans (serves_modWindow _ _ _ ⟨rfl, .inr ⟨‹_ ∧ _›.1, rfl⟩⟩)
    · exact released

theorem serves_settlePlaced (s : State) (x : Waiting) : Serves s (s.settlePlaced x) := by
  cases x with
  | job j => exact serves_releaseJob s j
  | fault e => exact serves_modFault s _ _ fun _ => rfl
  | countReady w => exact serves_modWindow s w _ ⟨rfl, .inl rfl⟩
  | shiftEnd r => exact serves_modRecord s _ _ fun _ => rfl
  | printer p => exact serves_modPrinter s p _ fun _ => rfl
  | stockType k => exact serves_modStockType s k _ fun _ => rfl
  | store r => exact { Serves.refl s with parts := (s.setStore_keeps _).mono (by decide), store := rfl }

theorem serves_fillPlaces (fuel : Nat) (s : State) : Serves s (fillPlaces fuel s) := by
  induction fuel generalizing s with
  | zero => exact .refl s
  | succ fuel ih =>
    simp only [fillPlaces]
    split
    · split
      · exact .refl s
      · exact ((serves_pushNotice s _).trans (serves_settlePlaced _ _)).trans (ih _)
    · exact .refl s

theorem serves_arbitrate (s : State) : Serves s s.arbitrate := by
  unfold State.arbitrate
  split
  · exact serves_fillPlaces _ s
  · exact .refl s

theorem serves_lowStockCheck (s : State) (k : Fin 8) : Serves s (s.lowStockCheck k) := by
  unfold State.lowStockCheck
  simp only
  split
  · split
    · split
      · exact .refl s
      · refine (serves_modStockType s k _ fun _ => ?_).trans (serves_arbitrate _)
        rfl
    · exact serves_modStockType s k _ fun _ => rfl
  · exact .refl s

theorem serves_lowStockAll (s : State) : Serves s s.lowStockAll := serves_foldl _ serves_lowStockCheck _ s

theorem serves_lowStockOf (s : State) (id : Nat) : Serves s (s.lowStockOf id) := by
  unfold State.lowStockOf
  split
  · exact .refl s
  · exact serves_lowStockCheck s _

/-! ### Jobs (R65 to R69) -/

theorem serves_leaveQueue (s : State) (p : Fin 6) (tag : Nat) : Serves s (s.leaveQueue p tag) :=
  serves_modPrinter s p _ fun _ => rfl

theorem serves_joinQueue (s : State) (p : Fin 6) (tag : Nat) : Serves s (s.joinQueue p tag) :=
  serves_modPrinter s p _ fun _ => rfl

/-- A job found by its tag stands in the pool under that tag. -/
theorem State.job?_some {s : State} {tag : Nat} {j : Job} (h : s.job? tag = some j) : j ∈ s.pool ∧ j.tag = tag :=
  ⟨List.mem_of_find?_eq_some h, by simpa using List.find?_some h⟩

/-- A record moved to the tail keeps the tags, or drops the copies of its own. -/
theorem tags_to_tail (pool : List Job) (j : Job) (h : j ∈ pool) :
    (((pool.filter fun k => decide (k.tag ≠ j.tag)) ++ [j.end]).map (·.tag)).Subperm (pool.map (·.tag)) := by
  rw [List.map_append, List.map_singleton]
  refine (List.perm_append_singleton _ _).subperm.trans (List.cons_subperm_of_not_mem_of_mem ?_ ?_ ?_)
  · simp [Job.end]
  · exact List.mem_map.mpr ⟨j, h, rfl⟩
  · exact (List.filter_sublist.map _).subperm

theorem serves_endJob (s : State) (j : Job) (h : j ∈ s.pool) : Serves s (s.endJob j) :=
  ((serves_leaveQueue s _ _).trans (serves_setPool _ _ (tags_to_tail s.pool j h))).trans (serves_arbitrate _)

theorem serves_endTest (s : State) (tag : Nat) : Serves s (s.endTest tag) := by
  unfold State.endTest
  split
  · exact .refl s
  · split
    · exact serves_endJob s _ (State.job?_some ‹_›).1
    · exact .refl s

theorem serves_moveJob (s : State) (j : Job) (p : Fin 6) : Serves s (s.moveJob j p) :=
  ((serves_leaveQueue s _ _).trans (serves_joinQueue _ _ _)).trans (serves_modJob _ _ _ fun _ => rfl)

theorem serves_rerouteJob (s : State) (tag : Nat) : Serves s (s.rerouteJob tag) := by
  unfold State.rerouteJob
  split
  · exact .refl s
  · split
    · exact .refl s
    · split
      · refine (serves_modJob s _ _ fun _ => ?_).trans (serves_endTest _ _)
        rfl
      · split
        · exact serves_moveJob s _ _
        · exact serves_endTest s _

theorem serves_reroutePass (s : State) (p : Fin 6) : Serves s (s.reroutePass p) := by
  unfold State.reroutePass
  split
  · exact serves_foldl _ serves_rerouteJob _ s
  · exact .refl s

theorem serves_passAll (s : State) : Serves s s.passAll := serves_foldl _ serves_reroutePass _ s

theorem serves_losePrinter (s : State) (p : Fin 6) : Serves s (s.losePrinter p) := by
  refine serves_foldl _ (fun s tag => ?_) _ s
  split
  · exact .refl s
  · split
    · refine (serves_modJob s _ _ fun _ => ?_).trans (serves_endTest _ _)
      rfl
    · exact .refl s

theorem serves_reportCopy (s : State) (p : Fin 6) (tag : Nat) (f : Job → Job) (h : ∀ j, (f j).tag = j.tag) :
    Serves s (s.reportCopy p tag f) := by
  unfold State.reportCopy
  split
  · exact .refl s
  · have ended : Serves s ((s.modJob tag f).endTest tag) := (serves_modJob s _ _ h).trans (serves_endTest _ _)
    simp only
    split
    · exact ended
    · exact ended.trans (serves_reroutePass _ _)

/-! ### Printer states (R29) -/

/-- Only what becomes of the record as it stands counts. -/
theorem State.modPrinter_congr (s : State) (p : Fin 6) {f g : Printer → Printer} (h : f (s.printer p) = g (s.printer p)) :
    s.modPrinter p f = s.modPrinter p g :=
  congrArg (fun x => s.setPrinters (s.printers.set p x)) h

@[simp] theorem State.modPrinter_id (s : State) (p : Fin 6) : s.modPrinter p (fun x => x) = s :=
  congrArg s.setPrinters (Vector.set_getElem_self _)

/-- Two changes of one record that agree apart from queue and waiting notice. -/
theorem serves_modPrinter_modPrinter (s : State) (p : Fin 6) (f g : Printer → Printer)
    (h : (g (s.printer p)).settled = (f (s.printer p)).settled) : Serves (s.modPrinter p f) (s.modPrinter p g) :=
  { Serves.refl s with
    parts := fun a ha => by cases a <;> first | rfl | exact absurd (by decide) ha
    windows := fun w => (s.window w).follows_refl
    printers := fun q => by
      rw [State.printer_modPrinter, State.printer_modPrinter]
      split
      · subst q; exact h
      · rfl
    stockTypes := fun _ => rfl }

/-- A printer entering a state: the state and the outstanding command of its record, and then what the arbiter and the scheduler can
do. -/
theorem serves_setPrinterState (s : State) (p : Fin 6) (st : PrinterState) :
    ∃ o, (o = (s.printer p).outstanding ∨ o = none) ∧
      Serves (s.modPrinter p fun x => { x with state := st, outstanding := o }) (s.setPrinterState p st) := by
  unfold State.setPrinterState
  simp only
  split
  · refine ⟨_, .inl rfl, ?_⟩
    subst st
    rw [s.modPrinter_congr p (g := fun x => x) rfl, s.modPrinter_id]
    exact .refl s
  · split
    · exact ⟨_, .inl rfl, serves_modPrinter_modPrinter s p _ _ rfl⟩
    · have reach : ∀ t : State, Serves t (if st = .ready then (if st.losesJobs then t.losePrinter p else t).passAll
          else (if st.losesJobs then t.losePrinter p else t).reroutePass p) := fun t => by
        have lost : Serves t (if st.losesJobs then t.losePrinter p else t) := by
          split
          · exact serves_losePrinter t p
          · exact .refl t
        split
        · exact lost.trans (serves_passAll _)
        · exact lost.trans (serves_reroutePass _ _)
      refine ⟨if st.dropsCommand then none else (s.printer p).outstanding, ?_,
        ((serves_modPrinter_modPrinter s p _ _ ?_).trans (serves_arbitrate _)).trans (reach _)⟩
      · split
        · exact .inr rfl
        · exact .inl rfl
      · rfl

end Sys2Proof.Machine
end

