-- ==== Sys2Proof/Proofs/Logs.lean ====
section
/-! SUPPORT. What the fault log and the printer states can do beside the arbiter and the scheduler: the relation `Logs`, which says
nothing of the printers' records, the fault entries and the next fault number. -/

namespace Sys2Proof.Machine

/-- What raising and clearing faults, marking codes, changing printers' records and entering printer states leave as `Serves` does. -/
structure Logs (s t : State) : Prop where
  parts : s.keepsBut t logged
  tags : (t.pool.map (·.tag)).Subperm (s.pool.map (·.tag))
  windows : ∀ w, (s.window w).follows (t.window w)
  console : t.ret.console = { s.ret.console with outstanding := t.ret.console.outstanding }
  history : t.ret.history.map (·.settled) = s.ret.history.map (·.settled)

theorem Serves.logs {s t : State} (h : Serves s t) : Logs s t :=
  ⟨h.parts.mono (by decide), h.tags, h.windows, h.console, h.history⟩

theorem Logs.refl (s : State) : Logs s s := (Serves.refl s).logs

theorem Logs.trans {s t u : State} (h : Logs s t) (k : Logs t u) : Logs s u where
  parts := h.parts.trans k.parts
  tags := k.tags.trans h.tags
  windows w := (h.windows w).trans (k.windows w)
  console := by rw [k.console, h.console]
  history := k.history.trans h.history

theorem logs_foldl {α : Type} (f : State → α → State) (h : ∀ s x, Logs s (f s x)) (xs : List α) (s : State) :
    Logs s (xs.foldl f s) := by
  induction xs generalizing s with
  | nil => exact .refl s
  | cons x xs ih => exact (h s x).trans (ih (f s x))

/-- A change of printers, fault entries and the next fault number alone. -/
theorem logs_of_keeps {s t : State} (h : s.keepsBut t [.printers, .faults, .nextFault]) : Logs s t where
  parts := h.mono (by decide)
  tags := by rw [show t.pool = s.pool from h .pool (by decide)]
  windows w := by
    rw [show t.window w = s.window w from congrArg (·[w]) (h .windows (by decide))]
    exact WindowRecord.follows_refl _
  console := by rw [show t.ret.console = s.ret.console from h .console (by decide)]
  history := by rw [show t.ret.history = s.ret.history from h .history (by decide)]

theorem logs_modPrinter (s : State) (p : Fin 6) (f : Printer → Printer) : Logs s (s.modPrinter p f) :=
  logs_of_keeps ((s.modPrinter_keeps p f).mono (by decide))

theorem logs_modFault (s : State) (n : Nat) (f : FaultEntry → FaultEntry) : Logs s (s.modFault n f) :=
  logs_of_keeps ((s.modFault_keeps n f).mono (by decide))

theorem logs_arbitrate (s : State) : Logs s s.arbitrate := (serves_arbitrate s).logs

/-! ### Printer states -/

theorem logs_setPrinterState (s : State) (p : Fin 6) (st : PrinterState) : Logs s (s.setPrinterState p st) := by
  obtain ⟨o, -, h⟩ := serves_setPrinterState s p st
  exact (logs_modPrinter s p _).trans h.logs

theorem logs_syncBusy (s : State) (p : Fin 6) : Logs s (s.syncBusy p) := by
  unfold State.syncBusy
  split
  · exact logs_setPrinterState s _ _
  · split
    · exact logs_setPrinterState s _ _
    · exact .refl s

theorem logs_completeDisable (s : State) (p : Fin 6) : Logs s (s.completeDisable p) :=
  (logs_modPrinter s p _).trans (logs_setPrinterState _ _ _)

theorem logs_leaveFaulted (s : State) (p : Fin 6) : Logs s (s.leaveFaulted p) := by
  unfold State.leaveFaulted
  split
  · exact logs_completeDisable s p
  · split
    · exact logs_setPrinterState s _ _
    · split <;> exact logs_setPrinterState s _ _

theorem logs_withdraw (s : State) (p : Fin 6) : Logs s (s.withdraw p) := by
  unfold State.withdraw
  simp only
  split
  · exact logs_setPrinterState s _ _
  · exact logs_modPrinter s _ _

theorem logs_finishDisable (s : State) (p : Fin 6) : Logs s (s.finishDisable p) := by
  unfold State.finishDisable
  simp only
  split
  · exact logs_completeDisable s p
  · exact .refl s

theorem logs_compareHeat (s : State) (p : Fin 6) : Logs s (s.compareHeat p) := by
  unfold State.compareHeat
  have heat : Logs s (if (s.printer p).tooHot then s.setPrinterState p .heatHold else s) := by
    split
    · exact logs_setPrinterState s _ _
    · exact .refl s
  have cool : Logs s (if (s.printer p).cooled then s.setPrinterState p (if s.path p = [] then .ready else .busy) else s) := by
    split
    · exact logs_setPrinterState s _ _
    · exact .refl s
  split
  · exact heat
  · exact heat
  · exact cool
  all_goals exact .refl s

/-! ### The fault log -/

theorem logs_countFault (s : State) (p : Fin 6) (c : FaultCode) : Logs s (s.countFault p c) := logs_modPrinter s p _

theorem logs_logEntry (s : State) (e : FaultEntry) : Logs s (s.logEntry e) :=
  logs_of_keeps ((s.logEntry_full e).mono (by decide))

theorem logs_logTransient (s : State) (p : Fin 6) (c : FaultCode) (o : Occasion) : Logs s (s.logTransient p c o) :=
  (logs_logEntry s _).trans (logs_arbitrate _)

theorem logs_logNote (s : State) (p : Fin 6) (pos : Position) (note : Nat) (withdraw : Bool) :
    Logs s (s.logNote p pos note withdraw) := (logs_logEntry s _).trans (logs_arbitrate _)

theorem logs_raise (s : State) (p : Fin 6) (c : FaultCode) (o : Option Occasion) : Logs s (s.raise p c o) := by
  unfold State.raise
  split
  · exact (((logs_logEntry s _).trans (logs_modPrinter _ _ _)).trans (logs_arbitrate _)).trans (logs_setPrinterState _ _ _)
  · simp only
    split
    · exact (logs_countFault s _ _).trans (logs_modFault _ _ _)
    · exact logs_modFault s _ _

theorem logs_markCodes (s : State) (p : Fin 6) (f : CodeMarks → CodeMarks) : Logs s (s.markCodes p f) := by
  unfold State.markCodes
  split
  · exact .refl s
  · exact logs_modFault s _ _

theorem logs_entryCleared (s : State) (p : Fin 6) (e : FaultEntry) : Logs s (s.entryCleared p e) := by
  have place : ∀ t : State, Logs t (if (t.printer p).state = .faulted then t.leaveFaulted p else t) := by
    intro t
    split
    · exact logs_leaveFaulted t p
    · exact .refl t
  exact (logs_modPrinter s p _).trans (place _)

theorem logs_clearingTest (s : State) (p : Fin 6) (answered : Bool) : Logs s (s.clearingTest p answered) := by
  unfold State.clearingTest
  split
  · exact .refl s
  · split
    · exact ((logs_modFault s _ _).trans (logs_arbitrate _)).trans (logs_entryCleared _ _ _)
    · exact .refl s

theorem logs_withdrawFor (s : State) (p : Fin 6) (withdraw : Bool) : Logs s (s.withdrawFor p withdraw) := by
  unfold State.withdrawFor
  split
  · exact logs_withdraw s p
  · exact .refl s

theorem logs_closeNote (s : State) (number : Nat) : Logs s (s.closeNote number) :=
  (logs_modFault s _ _).trans (logs_arbitrate _)

theorem logs_clearAtPowerOff (s : State) (p : Fin 6) : Logs s (s.clearAtPowerOff p) := by
  unfold State.clearAtPowerOff
  split
  · exact .refl s
  · exact ((logs_modFault s _ _).trans (logs_modPrinter _ _ _)).trans (logs_arbitrate _)

theorem logs_powerOff (s : State) (p : Fin 6) : Logs s (s.powerOff p) :=
  ((logs_setPrinterState s _ _).trans (logs_modPrinter _ _ _)).trans (logs_clearAtPowerOff _ _)

/-! ### Replies (R31 to R35) -/

theorem logs_countConsecutive (s : State) (p : Fin 6) (e : InPathEntry) : Logs s (s.countConsecutive p e) := by
  unfold State.countConsecutive
  simp only
  split
  · exact (logs_modPrinter s p _).trans (logs_raise _ _ _ _)
  · exact logs_modPrinter s p _

theorem logs_raiseSpoil (s : State) (p : Fin 6) (cause : SpoilCause) (e : InPathEntry) :
    Logs s (s.raiseSpoil p cause e).1 := by
  cases cause with
  | misfeed => exact logs_logTransient s _ _ _
  | stripe => exact logs_logTransient s _ _ _
  | jam => exact logs_raise s _ _ _
  | cutter => exact logs_raise s _ _ _

theorem logs_raiseOutcome (s : State) (p : Fin 6) (o : PrintOutcome) (e : InPathEntry) : Logs s (s.raiseOutcome p o e).1 := by
  cases o with
  | done => exact logs_modPrinter s p _
  | notFed => exact .refl s
  | binEmpty => exact logs_logTransient s _ _ _
  | spoiled cause => exact (logs_raiseSpoil s p cause e).trans (logs_countConsecutive _ _ _)

theorem logs_raiseDoubtSince (s : State) (p : Fin 6) (before : Nat) : Logs s (s.raiseDoubtSince p before) := by
  unfold State.raiseDoubtSince
  split
  · exact .refl s
  · exact logs_raise s _ _ _

theorem logs_takeSample (s : State) (p : Fin 6) (n : Nat) : Logs s (s.takeSample p n) := by
  unfold State.takeSample
  split
  · exact (logs_modPrinter s p _).trans (logs_raise _ _ _ _)
  · split
    · simp only
      split
      · exact (logs_modPrinter s p _).trans (logs_markCodes _ _ _)
      · exact logs_modPrinter s p _
    · exact .refl s

theorem logs_takeAcceptance (s : State) (p : Fin 6) (n : Byte) (kind : CommandKind) (r : PrinterReply) :
    Logs s (s.takeAcceptance p n kind r) := by
  unfold State.takeAcceptance State.confirmed
  simp only
  split
  · exact ((logs_modPrinter s p _).trans (logs_modPrinter _ p _)).trans (logs_markCodes _ _ _)
  · exact logs_modPrinter s p _

theorem logs_takeCondition (s : State) (p : Fin 6) (c : Condition) : Logs s (s.takeCondition p c) := by
  unfold State.takeCondition
  split
  · exact logs_raise s _ _ _
  · exact logs_markCodes s _ _

/-! ### Identification (R44 to R46) -/

theorem logs_send (s : State) (p : Fin 6) (kind : CommandKind) (body : Option PrintBody) : Logs s (s.send p kind body) :=
  logs_modPrinter s p _

theorem logs_sendIdent (s : State) (p : Fin 6) : Logs s (s.sendIdent p) :=
  (logs_modPrinter s p _).trans (logs_send _ _ _ _)

theorem logs_startIdentification (s : State) (p : Fin 6) : Logs s (s.startIdentification p) :=
  ((logs_modPrinter s p _).trans (logs_setPrinterState _ _ _)).trans (logs_sendIdent _ _)

theorem logs_linkAnswered (s : State) (p : Fin 6) (c : Condition) : Logs s (s.linkAnswered p c) := by
  unfold State.linkAnswered
  simp only
  refine Logs.trans ?_ (logs_clearingTest _ _ _)
  split
  · exact ((logs_markCodes s _ _).trans (logs_modPrinter _ p _)).trans (logs_markCodes _ _ _)
  · exact logs_markCodes s _ _

theorem logs_raiseAtIdentity (s : State) (p : Fin 6) (c : Condition) : Logs s (s.raiseAtIdentity p c) := by
  have last : ∀ t : State, Logs t (match conditionCode c with | some code => t.raise p code none | none => t) := by
    intro t
    split
    · exact logs_raise t _ _ _
    · exact .refl t
  unfold State.raiseAtIdentity
  simp only
  refine Logs.trans ?_ (last _)
  split
  · exact (logs_modPrinter s p _).trans (logs_raise _ _ _ _)
  · exact logs_modPrinter s p _

theorem logs_placeIdentified (s : State) (p : Fin 6) : Logs s (s.placeIdentified p) := by
  unfold State.placeIdentified
  split
  · exact logs_setPrinterState s _ _
  · split
    · exact logs_completeDisable s p
    · split
      · exact logs_setPrinterState s _ _
      · split <;> exact logs_setPrinterState s _ _

theorem logs_settleDoubt (s : State) (d : DoubtfulEntry) : Logs s (s.settleDoubt d) := by
  unfold State.settleDoubt
  split
  · exact .refl s
  · exact (logs_markCodes s _ _).trans (logs_clearingTest _ _ _)

theorem logs_identDue (s : State) (p : Fin 6) : Logs s (s.identDue p) := by
  unfold State.identDue
  simp only
  split
  · exact logs_sendIdent s p
  · exact .refl s

end Sys2Proof.Machine
end

