-- ==== Sys2Proof/Proofs/Handles.lean ====
section
/-! SUPPORT. What the register and the ports can do to the pool, the paths, the windows and the history: the relation `Handles`, kept by
every effect but the eleven of `Special`. -/

namespace Sys2Proof.Machine

/-- A window's record as the register and the ports can leave it: as the arbiter can, its tallies and recent issues aside. -/
def WindowRecord.trails (r r' : WindowRecord) : Prop := r.follows { r' with tallies := r.tallies, recent := r.recent }

/-- What issuing, spoiling, returning and taking blanks leave as it was: tags only leave the pool, no path grows beyond two blanks,
windows change as `trails` says, and the history keeps its length. -/
structure Handles (s t : State) : Prop where
  tags : (t.pool.map (·.tag)).Subperm (s.pool.map (·.tag))
  nextTag : t.nextTag = s.nextTag
  paths : ∀ p, (t.path p).length ≤ max 2 (s.path p).length
  windows : ∀ w, (s.window w).trails (t.window w)
  history : t.ret.history.length = s.ret.history.length

theorem WindowRecord.follows.trails {r r' : WindowRecord} (h : r.follows r') : r.trails r' := by
  obtain ⟨e, hs⟩ := h
  exact ⟨by rw [e], hs⟩

theorem WindowRecord.trails.trans {a b c : WindowRecord} (h : a.trails b) (k : b.trails c) : a.trails c := by
  obtain ⟨hb, hs⟩ := h
  obtain ⟨kc, ks⟩ := k
  refine ⟨?_, ?_⟩
  · cases a; cases b; cases c
    simp only [WindowRecord.mk.injEq] at hb kc ⊢
    simp_all
  · rcases ks with ks | ⟨kb, kc⟩
    · exact ks ▸ hs
    · rcases hs with hs | ⟨ha, hb⟩
      · exact .inr ⟨hs ▸ kb, kc⟩
      · exact .inr ⟨ha, kc⟩

theorem Logs.handles {s t : State} (h : Logs s t) : Handles s t where
  tags := h.tags
  nextTag := h.parts .nextTag (by decide)
  paths p := by
    rw [show t.path p = s.path p from congrArg (·[p]) (h.parts .inPath (by decide))]
    exact Nat.le_max_right _ _
  windows w := (h.windows w).trails
  history := by simpa using congrArg List.length h.history

theorem Serves.handles {s t : State} (h : Serves s t) : Handles s t := h.logs.handles

theorem Handles.refl (s : State) : Handles s s := (Logs.refl s).handles

theorem Handles.trans {s t u : State} (h : Handles s t) (k : Handles t u) : Handles s u where
  tags := k.tags.trans h.tags
  nextTag := k.nextTag.trans h.nextTag
  paths p := by have := h.paths p; have := k.paths p; omega
  windows w := (h.windows w).trans (k.windows w)
  history := k.history.trans h.history

theorem handles_foldl {α : Type} (f : State → α → State) (h : ∀ s x, Handles s (f s x)) (xs : List α) (s : State) :
    Handles s (xs.foldl f s) := by
  induction xs generalizing s with
  | nil => exact .refl s
  | cons x xs ih => exact (h s x).trans (ih (f s x))

/-- A change of other parts alone. -/
theorem handles_of_keeps {s t : State} {l : List Part} (h : s.keepsBut t l)
    (apart : ∀ a ∈ [Part.pool, .nextTag, .inPath, .windows, .history], a ∉ l) : Handles s t where
  tags := by rw [show t.pool = s.pool from h .pool (apart _ (by decide))]
  nextTag := h .nextTag (apart _ (by decide))
  paths p := by
    rw [show t.path p = s.path p from congrArg (·[p]) (h .inPath (apart _ (by decide)))]
    exact Nat.le_max_right _ _
  windows w := by
    rw [show t.window w = s.window w from congrArg (·[w]) (h .windows (apart _ (by decide)))]
    exact (WindowRecord.follows_refl _).trails
  history := by rw [show t.ret.history = s.ret.history from h .history (apart _ (by decide))]

theorem handles_modPack (s : State) (id : Nat) (f : Pack → Pack) : Handles s (s.modPack id f) :=
  handles_of_keeps (s.modPack_keeps id f) (by decide)

theorem handles_setDoubtful (s : State) (l : List DoubtfulEntry) : Handles s (s.setDoubtful l) :=
  handles_of_keeps (s.setDoubtful_keeps l) (by decide)

theorem handles_setPacks (s : State) (l : List Pack) : Handles s (s.setPacks l) := { Handles.refl s with }

theorem handles_setConsole (s : State) (c : ConsoleRecord) : Handles s (s.setConsole c) := { Handles.refl s with }

theorem handles_setLive (s : State) (x : LiveSettings) : Handles s (s.setLive x) := { Handles.refl s with }

theorem handles_setStockTypes (s : State) (x : Vector StockType 8) : Handles s (s.setStockTypes x) := { Handles.refl s with }

theorem handles_setStore (s : State) (x : Store) : Handles s (s.setStore x) := { Handles.refl s with }

theorem handles_setFlash (s : State) (x : Flash) : Handles s (s.setFlash x) := { Handles.refl s with }

theorem handles_setOffice (s : State) (x : Office) : Handles s (s.setOffice x) := { Handles.refl s with }

theorem handles_setNotices (s : State) (x : NoticeQueue) : Handles s (s.setNotices x) := { Handles.refl s with }

theorem handles_setAudit (s : State) (x : AuditStatus) : Handles s (s.setAudit x) := { Handles.refl s with }

theorem handles_setPrinters (s : State) (x : Vector Printer 6) : Handles s (s.setPrinters x) := { Handles.refl s with }

theorem handles_modWindow (s : State) (w : Fin 15) (f : WindowRecord → WindowRecord) (h : (s.window w).trails (f (s.window w))) :
    Handles s (s.modWindow w f) :=
  { Handles.refl s with
    windows := fun v => by
      rw [State.window_modWindow]
      split
      · subst v; exact h
      · exact (WindowRecord.follows_refl _).trails }

theorem handles_modTallies (s : State) (pos : Position) (f : Tallies → Tallies) : Handles s (s.modTallies pos f) := by
  cases pos with
  | console => exact handles_setConsole s _
  | window w => exact handles_modWindow s w _ (WindowRecord.follows_refl _)

theorem handles_modRecent (s : State) (pos : Position) (f : List RecentIssue → List RecentIssue) :
    Handles s (s.modRecent pos f) := by
  cases pos with
  | console => exact handles_setConsole s _
  | window w => exact handles_modWindow s w _ (WindowRecord.follows_refl _)

/-! ### The stock register -/

theorem State.path_setInPath_updAt (s : State) (p q : Fin 6) (f : List InPathEntry → List InPathEntry) :
    (s.setInPath (updAt s.ret.inPath p f)).path q = if q = p then f (s.path q) else s.path q := by
  split
  · subst q; exact updAt_same s.ret.inPath p f
  · exact updAt_other s.ret.inPath p q f ‹_›

theorem handles_modPath (s : State) (p : Fin 6) (f : List InPathEntry → List InPathEntry)
    (h : (f (s.path p)).length ≤ max 2 (s.path p).length) : Handles s (s.modPath p f) := by
  refine Handles.trans (t := s.setInPath (updAt s.ret.inPath p f)) { Handles.refl s with paths := fun q => ?_ }
    (logs_syncBusy _ _).handles
  rw [State.path_setInPath_updAt]
  split
  · subst q; exact h
  · exact Nat.le_max_right _ _

theorem handles_dropEntry (s : State) (p : Fin 6) (e : InPathEntry) : Handles s (s.dropEntry p e) :=
  handles_modPath s p _ ((List.length_filter_le _ _).trans (Nat.le_max_right _ _))

theorem handles_addException (s : State) (id : Nat) (e : ExceptionEntry) : Handles s (s.addException id e) := by
  unfold State.addException
  split
  · exact .refl s
  · simp only
    split
    · exact handles_modPack s _ _
    · exact (handles_modPack s _ _).trans (serves_lowStockCheck _ _).handles

theorem handles_exhaustTest (s : State) (id : Nat) : Handles s (s.exhaustTest id) := handles_modPack s _ _

theorem handles_makeDoubtful (s : State) (p : Fin 6) (e : InPathEntry) : Handles s (s.makeDoubtful p e) :=
  ((((handles_dropEntry s p e).trans (handles_addException _ _ _)).trans (handles_setDoubtful _ _)).trans
    (serves_reportCopy _ _ _ (Job.doubted e.copy) fun _ => rfl).handles).trans (handles_exhaustTest _ _)

theorem handles_returnBlank (s : State) (p : Fin 6) (e : InPathEntry) : Handles s (s.returnBlank p e) := by
  unfold State.returnBlank
  split
  · split
    · exact (((handles_dropEntry s p e).trans (handles_modPack _ _ _)).trans (serves_lowStockOf _ _).handles).trans
        (serves_reportCopy _ _ _ (Job.returned e.copy) fun _ => rfl).handles
    · exact handles_foldl _ (fun s x => handles_makeDoubtful s p x) _ s
  · exact .refl s

theorem handles_returnAll (s : State) (p : Fin 6) (es : List InPathEntry) : Handles s (s.returnAll p es) :=
  handles_foldl _ (fun s e => handles_returnBlank s p e) _ s

theorem handles_credit (s : State) (pos : Position) (shift : Nat) (k : Fin 8) (serial pack value : Nat) (d : Tender) :
    Handles s (s.credit pos shift k serial pack value d) := by
  unfold State.credit
  split
  · exact (handles_modTallies s _ _).trans (handles_modRecent _ _ _)
  · exact .refl s

theorem handles_countSpoil (s : State) (pos : Position) (shift : Nat) (k : Fin 8) : Handles s (s.countSpoil pos shift k) := by
  unfold State.countSpoil
  split
  · exact handles_modTallies s _ _
  · exact .refl s

theorem handles_issueBlank (s : State) (p : Fin 6) (e : InPathEntry) : Handles s (s.issueBlank p e) := by
  unfold State.issueBlank
  simp only
  refine (((handles_dropEntry s p e).trans ?_).trans (serves_reportCopy _ _ _ (Job.issued e.copy e.serial) fun _ => rfl).handles).trans
    (handles_exhaustTest _ _)
  split
  · exact .refl _
  · exact handles_credit _ _ _ _ _ _ _ _

theorem handles_spoilBlank (s : State) (p : Fin 6) (e : InPathEntry) (fault : Nat) : Handles s (s.spoilBlank p e fault) := by
  have added : ∀ x, Handles s ((s.dropEntry p e).addException e.pack x) := fun x =>
    (handles_dropEntry s p e).trans (handles_addException _ _ _)
  unfold State.spoilBlank
  simp only
  refine (Handles.trans ?_ (serves_reportCopy _ _ _ (Job.spoiled e.copy) fun _ => rfl).handles).trans (handles_exhaustTest _ _)
  split
  · exact added _
  · exact (added _).trans (handles_countSpoil _ _ _ _)

theorem handles_runOut (s : State) (id : Nat) (d : Disposition) (fault : Option Nat) : Handles s (s.runOut id d fault) := by
  unfold State.runOut
  split
  · exact .refl s
  · refine (Handles.trans ?_ (handles_modPack _ _ _)).trans (handles_exhaustTest _ _) |>.trans (serves_lowStockCheck _ _).handles
    split
    · exact .refl s
    · exact handles_addException s _ _

theorem handles_binEmptied (s : State) (p : Fin 6) (e : InPathEntry) (fault : Nat) : Handles s (s.binEmptied p e fault) :=
  ((handles_returnAll s _ _).trans (logs_modFault _ _ _).handles).trans (handles_runOut _ _ _ _)

theorem handles_take (s t : State) (p : Fin 6) (k : Fin 8) (e e' : InPathEntry) (side : Bin)
    (h : s.take p k e = some (t, e', side)) : Handles s t := by
  unfold State.take at h
  split at h
  · cases h
  · rename_i room
    simp only [pathLimit, not_or, not_le] at room
    split at h
    · cases h
    · cases h
      refine ((handles_modPack s _ _).trans (handles_modPath _ p _ ?_)).trans (serves_lowStockCheck _ _).handles
      have length : ((s.path p).length < 2) := room.1
      rw [List.length_append, List.length_singleton]
      exact (Nat.succ_le_of_lt length).trans (Nat.le_max_left _ _)

/-! ### The ports -/

theorem handles_dispatch (s t : State) (p : Fin 6) (h : s.dispatch p = some t) : Handles s t := by
  unfold State.dispatch at h
  split at h
  · split at h
    · cases h
    · split at h
      · split at h
        · cases h
        · cases h
          exact ((handles_take _ _ _ _ _ _ _ ‹_›).trans (logs_send _ _ _ _).handles).trans
            (serves_modJob _ _ (Job.dispatched _) fun _ => rfl).handles
      · cases h
  · cases h

theorem handles_pollOrWait (s : State) (p : Fin 6) (trigger : Trigger) : Handles s (s.pollOrWait p trigger) := by
  unfold State.pollOrWait
  split
  · exact (logs_send s _ _ _).handles
  · exact .refl s

theorem handles_choose (s : State) (trigger : Trigger) (p : Fin 6) : Handles s (s.choose trigger p) := by
  have printing : Handles s (match s.dispatch p with | some s' => s' | none => s.pollOrWait p trigger) := by
    split
    · exact handles_dispatch _ _ _ ‹_›
    · exact handles_pollOrWait s _ _
  unfold State.choose
  simp only
  split
  · exact .refl s
  · split
    · exact .refl s
    · exact .refl s
    · exact .refl s
    · exact .refl s
    · split
      · exact (logs_send s _ _ _).handles
      · exact handles_pollOrWait s _ _
    · exact handles_pollOrWait s _ _
    · exact printing
    · exact printing

theorem handles_wakeAll (s before : State) : Handles s (s.wakeAll before) := by
  refine handles_foldl _ (fun s p => ?_) _ s
  unfold State.wake
  split
  · exact .refl s
  · exact handles_choose s _ _

theorem handles_applySettlement (s : State) (p : Fin 6) (o : PrintOutcome) (w : Settlement) :
    Handles s (s.applySettlement p o w) := by
  have lost : ∀ t : State, Handles t (w.lost.foldl (fun s e => s.makeDoubtful p e) t) :=
    handles_foldl _ (fun s e => handles_makeDoubtful s p e) _
  have outcome : ∀ (t : State) (fault : Nat) (e : InPathEntry), Handles t (t.applyOutcome p o fault e) := by
    intro t fault e
    cases o with
    | done => exact handles_issueBlank t _ _
    | spoiled _ => exact handles_spoilBlank t _ _ _
    | notFed => exact .refl t
    | binEmpty => exact handles_binEmptied t _ _ _
  unfold State.applySettlement
  simp only
  refine (Handles.trans ?_ (handles_returnAll _ _ _)).trans (logs_raiseDoubtSince _ _ _).handles
  cases w.outcome with
  | none => exact lost _
  | some e => exact ((logs_raiseOutcome s p o e).handles.trans (lost _)).trans (outcome _ _ _)

theorem handles_receiveReply (s : State) (p : Fin 6) (r : PrinterReply) : Handles s (s.receiveReply p r) := by
  unfold State.receiveReply
  split
  · exact .refl s
  · split
    · unfold State.acceptReply
      simp only
      exact ((((((((((logs_modPrinter s p _).handles.trans (handles_applySettlement _ _ _ _)).trans
        (logs_takeAcceptance _ _ _ _ _).handles).trans (logs_takeSample _ _ _).handles).trans
        (logs_compareHeat _ _).handles).trans (logs_takeCondition _ _ _).handles).trans
        (logs_clearingTest _ _ _).handles).trans (logs_finishDisable _ _).handles).trans
        (handles_choose _ _ _)).trans (handles_wakeAll _ _))
    · exact .refl s

theorem handles_receiveIdentity (s : State) (p : Fin 6) (r : PrinterReply) (i : Identity) :
    Handles s (s.receiveIdentity p r i) := by
  unfold State.receiveIdentity
  split
  · exact .refl s
  · split
    · unfold State.acceptIdentity
      simp only
      exact (((((logs_modPrinter s p _).trans (logs_takeSample _ _ _)).trans (logs_linkAnswered _ _ _)).trans
        (logs_raiseAtIdentity _ _ _)).trans (logs_placeIdentified _ _)).handles.trans
        ((handles_choose _ _ _).trans (handles_wakeAll _ _))
    · exact .refl s

theorem handles_loseLink (s : State) (p : Fin 6) : Handles s (s.loseLink p) := by
  unfold State.loseLink
  simp only
  exact ((handles_foldl _ (fun s e => handles_makeDoubtful s p e) _ _).trans
    ((((logs_raise _ _ _ _).trans (logs_raiseDoubtSince _ _ _)).trans (logs_setPrinterState _ _ _)).trans
      (logs_modPrinter _ _ _)).handles).trans (handles_wakeAll _ _)

theorem handles_expireReply (s : State) (p : Fin 6) : Handles s (s.expireReply p) := by
  unfold State.expireReply
  split
  · exact .refl s
  · split
    · exact .refl s
    · simp only
      split
      · exact ((logs_modPrinter s p _).trans (logs_send _ _ _ _)).handles
      · exact (logs_modPrinter s p _).handles.trans (handles_loseLink _ _)

theorem handles_giveUpIdentifying (s : State) (p : Fin 6) : Handles s (s.giveUpIdentifying p) := by
  unfold State.giveUpIdentifying
  simp only
  refine (Logs.handles (Logs.trans ?_ (logs_modPrinter _ _ _))).trans (handles_wakeAll _ _)
  split
  · exact (logs_raise _ _ _ _).trans (logs_raise _ _ _ _)
  · exact logs_raise _ _ _ _

theorem handles_expireIdent (s : State) (p : Fin 6) : Handles s (s.expireIdent p) := by
  unfold State.expireIdent
  split
  · exact .refl s
  · split
    · simp only
      split
      · exact (logs_modPrinter s p _).handles.trans (handles_giveUpIdentifying _ _)
      · exact (logs_modPrinter s p _).handles
    · exact .refl s

/-! ### Requests -/

theorem handles_packPlaced (s before : State) (l : Location) : Handles s (s.packPlaced before l) := by
  cases l with
  | store => exact handles_wakeAll s _
  | bin p side => exact (serves_passAll s).handles.trans (handles_wakeAll _ _)

theorem handles_createPack (s : State) (k : Pack) : Handles s (s.createPack k) :=
  ((handles_setPacks s _).trans (serves_lowStockCheck _ _).handles).trans (handles_packPlaced _ _ _)

theorem handles_voidEntry (s : State) (w : Fin 15) (e : RecentIssue) : Handles s (s.voidEntry w e) :=
  (((handles_addException s _ _).trans (handles_modTallies _ _ _)).trans (handles_modRecent _ _ _)).trans (handles_wakeAll _ _)

theorem handles_resolveIssued (s : State) (d : DoubtfulEntry) : Handles s (s.resolveIssued d) := by
  unfold State.resolveIssued
  simp only
  refine Handles.trans ?_ (logs_settleDoubt _ _).handles
  split
  · exact (handles_modPack s _ _).trans (handles_setDoubtful _ _)
  · exact ((handles_modPack s _ _).trans (handles_setDoubtful _ _)).trans (handles_credit _ _ _ _ _ _ _ _)

theorem handles_resolveSpoiled (s : State) (d : DoubtfulEntry) : Handles s (s.resolveSpoiled d) := by
  unfold State.resolveSpoiled
  simp only
  refine Handles.trans ?_ (logs_settleDoubt _ _).handles
  split
  · exact (handles_modPack s _ _).trans (handles_setDoubtful _ _)
  · exact ((handles_modPack s _ _).trans (handles_setDoubtful _ _)).trans (handles_countSpoil _ _ _ _)

theorem handles_reenable (s : State) (p : Fin 6) : Handles s (s.reenable p) := by
  unfold State.reenable
  simp only
  refine (Logs.handles (Logs.trans ?_ (logs_send _ _ _ _))).trans (handles_wakeAll _ _)
  split
  · exact ((logs_modPrinter s p _).trans (logs_setPrinterState _ _ _)).trans (logs_raise _ _ _ _)
  · exact (logs_modPrinter s p _).trans (logs_setPrinterState _ _ _)

theorem handles_enterSetup (s : State) : Handles s s.enterSetup := by
  unfold State.enterSetup
  split
  · exact (handles_setOffice s _).trans (handles_setConsole _ _)
  · exact .refl s

theorem handles_writeStockType (s : State) (k : Fin 8) (d : StockDefinition) (threshold : Nat) :
    Handles s (s.writeStockType k d threshold) := by
  have changed : ∀ f, Handles s (s.modStockType k f) := fun f => handles_of_keeps (s.modStockType_keeps k f) (by decide)
  unfold State.writeStockType
  split
  · exact (changed _).trans (serves_lowStockCheck _ _).handles
  · exact ((changed _).trans (handles_setLive _ _)).trans (serves_lowStockCheck _ _).handles

theorem handles_storeDone (s : State) (r : StoreResult) : Handles s (s.storeDone r) :=
  (handles_setStore s _).trans (serves_arbitrate _).handles

theorem handles_writeDone (s : State) (kind : StoreKind) (a : Area) (m : SettingsImage) (good : Bool) :
    Handles s (s.writeDone kind a m good) := by
  unfold State.writeDone
  refine Handles.trans ?_ (handles_storeDone _ _)
  split
  · exact handles_setFlash s _
  · exact .refl s

theorem handles_loadLayouts (s : State) (offered : Vector (List FieldEntry) 8) : Handles s (s.loadLayouts offered) := by
  refine handles_foldl _ (fun s k => ?_) _ s
  split <;> exact handles_setLive s _

theorem handles_takeImage (s : State) (m : SettingsImage) : Handles s (s.takeImage m) :=
  ((handles_setLive s _).trans (handles_setStockTypes _ _)).trans (handles_loadLayouts _ _)

theorem handles_loadDone (s : State) (a : Area) : Handles s (s.loadDone a) := by
  unfold State.loadDone
  split
  · exact handles_storeDone s _
  · refine Handles.trans ?_ (handles_storeDone _ _)
    exact ((handles_takeImage s _).trans (serves_lowStockAll _).handles).trans (handles_setStore _ _)

theorem handles_modRecord (s : State) (n : Nat) (f : ShiftRecord → ShiftRecord) : Handles s (s.modRecord n f) :=
  { Handles.refl s with history := List.length_map _ }

/-! ### The effects that open, close and empty -/

/-- The eleven effects that add a job, move a window through its shift, or start the part's records afresh. -/
inductive Special (c : Instr) (s : State) : State → Prop
  | issue (pos : Position) (k : Fin 8) (routing : Option (Fin 6)) (p : Fin 6) (copies value : Nat) (d : Tender)
      (slots : List (List Byte)) (room : s.outstanding pos < outstandingLimit ∧ s.pool.length < poolLimit) :
      Special c s ((s.acceptJob pos k routing p copies value d slots).wakeAll s)
  | openShift (w : Fin 15) (clerk : Nat) (grade : Grade) (float : Nat) (closed : (s.window w).state = .closed) :
      Special c s (s.beginShift w clerk grade float)
  | suspend (w : Fin 15) (isOpen : (s.window w).state = .open) : Special c s (s.setWindowState w .suspended)
  | resume (w : Fin 15) (suspended : (s.window w).state = .suspended) : Special c s (s.setWindowState w .open)
  | closeShift (w : Fin 15) (history : List ShiftRecord) (inUse : (s.window w).state = .open ∨ (s.window w).state = .suspended)
      (room : s.historyWithRoom = some history) : Special c s (s.closeWindow w history)
  | reopen (w : Fin 15) (closing : (s.window w).state = .closing ∨ (s.window w).state = .counting) :
      Special c s (s.modWindow w WindowRecord.reopen)
  | declare (w : Fin 15) (f : DeclaredFigures) (counted : (s.window w).state = .counting ∨ (s.window w).state = .held) :
      Special c s (s.takeDeclaration w f)
  | signOff (w : Fin 15) (f : DeclaredFigures) (supervisor : Nat) (held : (s.window w).state = .held) :
      Special c s (s.finalise w f .signedOff (some supervisor))
  | clearAudit (empty : s.pool = []) : Special c s s.clearAudit
  | start (cause : ResetCause) (straps : Straps) : Special c s (s.startUp cause straps)
  | lost (straps : Straps) (event : c = .powerOn straps false) : Special c s (s.loseRetained.startUp .powerOn straps)

/-- Every effect keeps within `Handles`, or is one of the eleven. -/
theorem Effect.handles_or_special {c : Instr} {s u : State} (h : Effect c s u) : Handles s u ∨ Special c s u := by
  cases h with
  | same => exact .inl (.refl s)
  | issue _ _ _ _ _ _ _ _ room => exact .inr (.issue _ _ _ _ _ _ _ _ room)
  | cancel =>
    exact .inl (((serves_modJob s _ _ (by exact fun _ => rfl)).trans (serves_endTest _ _)).handles.trans (handles_wakeAll _ _))
  | void => exact .inl (handles_voidEntry s _ _)
  | tally => exact .inl (handles_modTallies s _ _)
  | fetch n rest => exact .inl ((handles_setNotices s _).trans (serves_arbitrate _).handles)
  | load => exact .inl (handles_createPack s _)
  | move => exact .inl ((handles_modPack s _ _).trans (handles_packPlaced _ _ _))
  | writeOff => exact .inl ((handles_runOut s _ _ _).trans (handles_wakeAll _ _))
  | retire => exact .inl (handles_setPacks s _)
  | ruleIssued => exact .inl ((handles_resolveIssued s _).trans (handles_wakeAll _ _))
  | ruleSpoiled => exact .inl ((handles_resolveSpoiled s _).trans (handles_wakeAll _ _))
  | failAudit => exact .inl ((handles_setAudit s _).trans (handles_enterSetup _))
  | powerOn => exact .inl (logs_startIdentification s _).handles
  | powerOff => exact .inl (logs_powerOff s _).handles
  | disable => exact .inl ((logs_withdraw s _).handles.trans (handles_wakeAll _ _))
  | keepEnabled => exact .inl ((logs_modPrinter s _ _).handles.trans (handles_wakeAll _ _))
  | enable => exact .inl (handles_reenable s _)
  | confirm => exact .inl (logs_modPrinter s _ _).handles
  | report => exact .inl (((logs_logNote s _ _ _ _).trans (logs_withdrawFor _ _ _)).handles.trans (handles_wakeAll _ _))
  | close => exact .inl (logs_closeNote s _).handles
  | openShift w clerk grade float closed => exact .inr (.openShift w clerk grade float closed)
  | suspend w isOpen => exact .inr (.suspend w isOpen)
  | resume w suspended => exact .inr (.resume w suspended)
  | closeShift w history inUse room => exact .inr (.closeShift w history inUse room)
  | reopen w closing => exact .inr (.reopen w closing)
  | declare w f counted => exact .inr (.declare w f counted)
  | signOff w f supervisor held => exact .inr (.signOff w f supervisor held)
  | collect => exact .inl (handles_modRecord s _ _)
  | settings => exact .inl (handles_setLive s _)
  | stockType => exact .inl ((handles_writeStockType s _ _ _).trans (handles_wakeAll _ _))
  | layout => exact .inl (handles_setLive s _)
  | store => exact .inl ((handles_setStore s _).trans (handles_setFlash _ _))
  | openOffice => exact .inl ((handles_setPrinters s _).trans (handles_setOffice _ _))
  | closeOffice => exact .inl (handles_enterSetup s)
  | clock => exact .inl (handles_setOffice s _)
  | clearAudit _ empty => exact .inr (.clearAudit empty)
  | start cause straps => exact .inr (.start cause straps)
  | lost straps event => exact .inr (.lost straps event)
  | reply => exact .inl (handles_receiveReply s _ _)
  | identity => exact .inl (handles_receiveIdentity s _ _ _)
  | replyTimer => exact .inl (handles_expireReply s _)
  | identTimer => exact .inl (handles_expireIdent s _)
  | waiting => exact .inl (handles_choose s _ _)
  | identDue => exact .inl (logs_identDue s _).handles
  | written => exact .inl (handles_writeDone s _ _ _ _)
  | unrestored => exact .inl (handles_storeDone s _)
  | loaded => exact .inl ((handles_loadDone s _).trans (handles_wakeAll _ _))

end Sys2Proof.Machine
end

