-- ==== Sys2Proof/Proofs/StockView.lean ====
section
/-! SUPPORT. The stock register seen alone: packs, doubtful list, paths and recent issues, and what each operation does to them, free
of the arbiter, the scheduler and the fault log. -/

namespace Sys2Proof.Machine

/-- The parts of the state that the laws of the stock register read. -/
structure Stock where
  packs    : List Pack
  doubtful : List DoubtfulEntry
  inPath   : Vector (List InPathEntry) 6
  recent   : Position → List RecentIssue

/-- The stock register of a state. -/
def State.stock (s : State) : Stock :=
  { packs := s.ret.packs, doubtful := s.ret.doubtful, inPath := s.ret.inPath, recent := s.recent }

/-- The pack with an id changed. -/
def Stock.modPack (x : Stock) (id : Nat) (f : Pack → Pack) : Stock :=
  { x with packs := x.packs.map fun k => if k.id = id then f k else k }

/-- One path changed. -/
def Stock.modPath (x : Stock) (p : Fin 6) (f : List InPathEntry → List InPathEntry) : Stock :=
  { x with inPath := updAt x.inPath p f }

/-- A path without the entries of a blank. -/
def withoutBlank (pack serial : Nat) (l : List InPathEntry) : List InPathEntry :=
  l.filter fun x => decide ¬(x.pack = pack ∧ x.serial = serial)

/-- A blank taken off a path. -/
def Stock.drop (x : Stock) (p : Fin 6) (e : InPathEntry) : Stock := x.modPath p (withoutBlank e.pack e.serial)

/-- How many entries of all paths name a pack (R3). -/
def Stock.inPathOf (x : Stock) (id : Nat) : Nat :=
  (allPrinters.map fun p => (x.inPath[p]).countP fun e => decide (e.pack = id)).sum

/-- The EXHAUSTED test of a pack (R5). -/
def Stock.exhaustTest (x : Stock) (id : Nat) : Stock :=
  x.modPack id fun k => if k.remaining = 0 ∧ x.inPathOf id = 0 then k.exhaust else k

/-- One entry more in a position's recent issues (R125). -/
def Stock.record (x : Stock) (pos : Position) (e : RecentIssue) : Stock :=
  { x with recent := fun q => if q = pos then addRecent (x.recent q) e else x.recent q }

/-- A blank in path that becomes DOUBTFUL under a fault number (R15). -/
def Stock.makeDoubtful (x : Stock) (p : Fin 6) (e : InPathEntry) (fault : Option Nat) : Stock :=
  { ((x.drop p e).modPack e.pack (·.addRun (doubtRun e fault))) with
    doubtful := x.doubtful ++ [doubtfulFrom p e] }.exhaustTest e.pack

/-- The most recently taken blank of a pack returned to it (R8). -/
def Stock.putBack (x : Stock) (p : Fin 6) (e : InPathEntry) : Stock :=
  (x.drop p e).modPack e.pack (·.putBack e.serial)

/-- What is left of a pack moved into a run, if anything is (R14, R21). -/
def Stock.runOut (x : Stock) (id : Nat) (run : Option ExceptionEntry) : Stock :=
  ((run.elim x fun e => x.modPack id (·.addRun e)).modPack id Pack.emptied).exhaustTest id

/-! ### What leaves the register as it was -/

theorem Logs.stock {s t : State} (h : Logs s t) : t.stock = s.stock := by
  have recent : t.recent = s.recent := by
    funext pos
    cases pos with
    | console => simpa [State.recent] using congrArg ConsoleRecord.recent h.console
    | window w => simpa [State.recent] using congrArg WindowRecord.recent (h.windows w).1
  unfold State.stock
  rw [recent, show t.ret.packs = s.ret.packs from h.parts .packs (by decide),
    show t.ret.doubtful = s.ret.doubtful from h.parts .doubtful (by decide),
    show t.ret.inPath = s.ret.inPath from h.parts .inPath (by decide)]

theorem Serves.stock {s t : State} (h : Serves s t) : t.stock = s.stock := h.logs.stock

@[simp] theorem stock_modPrinter (s : State) (p : Fin 6) (f : Printer → Printer) : (s.modPrinter p f).stock = s.stock := rfl

@[simp] theorem stock_lowStockCheck (s : State) (k : Fin 8) : (s.lowStockCheck k).stock = s.stock :=
  (serves_lowStockCheck s k).stock

@[simp] theorem stock_lowStockOf (s : State) (id : Nat) : (s.lowStockOf id).stock = s.stock := (serves_lowStockOf s id).stock

@[simp] theorem stock_modTallies (s : State) (pos : Position) (f : Tallies → Tallies) : (s.modTallies pos f).stock = s.stock := by
  have recent : (s.modTallies pos f).recent = s.recent := by
    funext q
    cases pos with
    | console => cases q <;> rfl
    | window w =>
      cases q with
      | console => rfl
      | window v => exact updAt_view s.ret.windows w v _ WindowRecord.recent rfl
  cases pos <;> exact congrArg (Stock.mk s.ret.packs s.ret.doubtful s.ret.inPath) recent

@[simp] theorem stock_countSpoil (s : State) (pos : Position) (shift : Nat) (k : Fin 8) :
    (s.countSpoil pos shift k).stock = s.stock := by
  unfold State.countSpoil
  split
  · exact stock_modTallies s _ _
  · rfl

/-! ### What each operation does -/

@[simp] theorem stock_modPack (s : State) (id : Nat) (f : Pack → Pack) : (s.modPack id f).stock = s.stock.modPack id f := rfl

@[simp] theorem stock_setDoubtful (s : State) (l : List DoubtfulEntry) :
    (s.setDoubtful l).stock = { s.stock with doubtful := l } := rfl

@[simp] theorem stock_exhaustTest (s : State) (id : Nat) : (s.exhaustTest id).stock = s.stock.exhaustTest id := rfl

@[simp] theorem stock_modPath (s : State) (p : Fin 6) (f : List InPathEntry → List InPathEntry) :
    (s.modPath p f).stock = s.stock.modPath p f := (logs_syncBusy _ p).stock

@[simp] theorem stock_dropEntry (s : State) (p : Fin 6) (e : InPathEntry) : (s.dropEntry p e).stock = s.stock.drop p e :=
  stock_modPath s p _

/-- A change of the pack with an id none has changes nothing. -/
theorem Stock.modPack_of_none (x : Stock) (id : Nat) (f : Pack → Pack) (h : ∀ k ∈ x.packs, k.id ≠ id) : x.modPack id f = x := by
  unfold Stock.modPack
  rw [List.map_congr_left (g := fun k => k) (fun k hk => if_neg (h k hk)), List.map_id']

theorem State.pack?_none {s : State} {id : Nat} (h : s.pack? id = none) : ∀ k ∈ s.ret.packs, k.id ≠ id := by
  simpa [State.pack?] using h

/-- A pack found by its id stands in the table under that id. -/
theorem State.pack?_some {s : State} {id : Nat} {k : Pack} (h : s.pack? id = some k) : k ∈ s.ret.packs ∧ k.id = id :=
  ⟨List.mem_of_find?_eq_some h, by simpa using List.find?_some h⟩

@[simp] theorem stock_addException (s : State) (id : Nat) (e : ExceptionEntry) :
    (s.addException id e).stock = s.stock.modPack id (·.addRun e) := by
  unfold State.addException
  split
  · exact (s.stock.modPack_of_none id _ (State.pack?_none ‹_›)).symm
  · simp only
    split
    · rfl
    · exact stock_lowStockCheck _ _

theorem stock_reportCopy (s : State) (p : Fin 6) (tag : Nat) (f : Job → Job) (h : ∀ j, (f j).tag = j.tag) :
    (s.reportCopy p tag f).stock = s.stock := (serves_reportCopy s p tag f h).stock

theorem stock_makeDoubtful (s : State) (p : Fin 6) (e : InPathEntry) :
    (s.makeDoubtful p e).stock = s.stock.makeDoubtful p e (s.printer p).openFault := by
  have added : ((s.dropEntry p e).addException e.pack (doubtRun e (s.printer p).openFault)).stock =
      (s.stock.drop p e).modPack e.pack (·.addRun (doubtRun e (s.printer p).openFault)) := by
    rw [stock_addException, stock_dropEntry]
  unfold State.makeDoubtful
  simp only
  rw [stock_exhaustTest, stock_reportCopy _ _ _ (Job.doubted e.copy) fun _ => rfl, stock_setDoubtful]
  change ({ ((s.dropEntry p e).addException e.pack (doubtRun e (s.printer p).openFault)).stock with
    doubtful := ((s.dropEntry p e).addException e.pack (doubtRun e (s.printer p).openFault)).stock.doubtful ++
      [doubtfulFrom p e] } : Stock).exhaustTest e.pack = _
  rw [added]
  rfl

theorem stock_modRecent (s : State) (pos : Position) (f : List RecentIssue → List RecentIssue) :
    (s.modRecent pos f).stock = { s.stock with recent := fun q => if q = pos then f (s.recent q) else s.recent q } := by
  have recent : (s.modRecent pos f).recent = fun q => if q = pos then f (s.recent q) else s.recent q := by
    funext q
    cases pos with
    | console => cases q <;> rfl
    | window w =>
      cases q with
      | console => rfl
      | window v =>
        simp only [State.recent, State.modRecent, State.window_modWindow, Position.window.injEq]
        split <;> rfl
  cases pos <;> exact congrArg (Stock.mk s.ret.packs s.ret.doubtful s.ret.inPath) recent

/-- A sale that is credited leaves a recent issue of its blank at its position, and one that is discarded leaves nothing. -/
theorem stock_credit (s : State) (pos : Position) (shift : Nat) (k : Fin 8) (serial pack value : Nat) (d : Tender) :
    (s.credit pos shift k serial pack value d).stock = s.stock ∨
      ∃ e : RecentIssue, e.serial = serial ∧ e.pack = pack ∧
        (s.credit pos shift k serial pack value d).stock = s.stock.record pos e := by
  unfold State.credit
  split
  · refine .inr ⟨{
      serial := serial
      pack := pack
      stockType := k
      value := value
      tender := d
      credited := (s.saleOf d value).1
      residue := (s.saleOf d value).2 }, rfl, rfl, ?_⟩
    simp only
    rw [stock_modRecent]
    have kept := stock_modTallies s pos (·.credit d (s.saleOf d value).1 (s.saleOf d value).2 k)
    rw [kept, show (s.modTallies pos _).recent = s.recent from congrArg Stock.recent kept]
    rfl
  · exact .inl rfl

theorem stock_issueBlank (s : State) (p : Fin 6) (e : InPathEntry) :
    (s.issueBlank p e).stock = (s.stock.drop p e).exhaustTest e.pack ∨
      ∃ r : RecentIssue, r.serial = e.serial ∧ r.pack = e.pack ∧
        (s.issueBlank p e).stock = ((s.stock.drop p e).record e.position r).exhaustTest e.pack := by
  unfold State.issueBlank
  simp only
  rw [stock_exhaustTest, stock_reportCopy _ _ _ (Job.issued e.copy e.serial) fun _ => rfl]
  split
  · rw [stock_dropEntry]
    exact .inl rfl
  · rename_i k _
    rcases stock_credit (s.dropEntry p e) e.position e.shift k e.serial e.pack e.value e.tender with h | ⟨r, hs, hp, h⟩
    · rw [h, stock_dropEntry]
      exact .inl rfl
    · rw [h, stock_dropEntry]
      exact .inr ⟨r, hs, hp, rfl⟩

theorem stock_spoilBlank (s : State) (p : Fin 6) (e : InPathEntry) (fault : Nat) :
    (s.spoilBlank p e fault).stock = ((s.stock.drop p e).modPack e.pack (·.addRun {
      first := e.serial
      run := 1
      disposition := .spoiled
      position := some e.position
      fault := some fault })).exhaustTest e.pack := by
  unfold State.spoilBlank
  simp only
  rw [stock_exhaustTest, stock_reportCopy _ _ _ (Job.spoiled e.copy) fun _ => rfl]
  split
  · rw [stock_addException, stock_dropEntry]
  · rw [stock_countSpoil, stock_addException, stock_dropEntry]

theorem stock_runOut (s : State) (id : Nat) (d : Disposition) (fault : Option Nat) :
    (s.runOut id d fault).stock = (s.pack? id).elim s.stock fun k => s.stock.runOut id (k.restRun d fault) := by
  unfold State.runOut
  cases s.pack? id with
  | none => rfl
  | some k =>
    simp only
    rw [stock_lowStockCheck, stock_exhaustTest, stock_modPack]
    cases hr : k.restRun d fault with
    | none => simp only [Option.elim_some, Stock.runOut, Option.elim_none, hr]
    | some e => simp only [Option.elim_some, Stock.runOut, hr, stock_addException]

/-- A take puts the next serial of the pack it finds in path (R7). -/
theorem stock_take (s t : State) (p : Fin 6) (i : Fin 8) (e e' : InPathEntry) (side : Bin)
    (h : s.take p i e = some (t, e', side)) :
    ∃ k, s.takeBin p i = some (k, side) ∧ (s.path p).length < 2 ∧ s.hasDoubt p = false ∧
      e' = { e with pack := k.id, serial := k.next.getD 0 } ∧
      t.stock = (s.stock.modPack k.id Pack.takeOne).modPath p (· ++ [e']) := by
  unfold State.take at h
  split at h
  · cases h
  · rename_i free
    simp only [not_or, not_le, Bool.not_eq_true] at free
    split at h
    · cases h
    · cases h
      exact ⟨_, ‹_›, free.1, free.2, rfl, by rw [stock_lowStockCheck, stock_modPath, stock_modPack]⟩

/-- A blank returned, when it is the most recently taken one of its pack (R8). -/
theorem stock_returnBlank_last (s : State) (p : Fin 6) (e : InPathEntry)
    (last : (s.pack? e.pack).any fun k => decide (k.lastTaken = some e.serial)) :
    (s.returnBlank p e).stock = if s.stillInPath p e then s.stock.putBack p e else s.stock := by
  unfold State.returnBlank
  rw [if_pos last]
  split
  · rw [stock_reportCopy _ _ _ (Job.returned e.copy) fun _ => rfl, stock_lowStockOf, stock_modPack, stock_dropEntry]
    rfl
  · rfl

end Sys2Proof.Machine
end

