-- ==== Sys2Proof/Proofs/PoolAndHistory.lean ====
section
/-! SUPPORT. The laws of the job pool, the paths and the shift history under every step (R6, R53, R55, R154). -/

namespace Sys2Proof.Machine

/-! ### Free numbers (R55, R92, R115) -/

/-- The number `i` steps after `n`, round the 65,535 numbers from 1. -/
theorem bump_iterate (i n : Nat) (low : 1 ≤ n) (high : n ≤ 65535) : bump^[i] n = (n - 1 + i) % 65535 + 1 := by
  induction i generalizing n with
  | zero => simp only [Function.iterate_zero, id]; omega
  | succ i ih =>
    obtain ⟨hl, hh⟩ := bump_in_range n
    rw [Function.iterate_succ_apply, ih _ hl hh]
    unfold bump
    split <;> omega

/-- Fewer than 65,535 tries find a number that is not used, or find every number tried used. -/
theorem firstFree_spec (k : Nat) (used : List Nat) (n : Nat) :
    firstFree k used n ∉ used ∨ (∀ i < k, bump^[i] n ∈ used) ∧ firstFree k used n = bump^[k] n := by
  induction k generalizing n with
  | zero => exact .inr ⟨fun i hi => absurd hi (Nat.not_lt_zero i), rfl⟩
  | succ k ih =>
    simp only [firstFree]
    split
    · refine (ih (bump n)).imp_right fun ⟨tried, last⟩ => ⟨fun i hi => ?_, last⟩
      cases i with
      | zero => assumption
      | succ i => exact tried i (Nat.lt_of_succ_lt_succ hi)
    · exact .inl ‹_›

/-- No number comes twice within 65,535 steps, wherever they begin. -/
theorem bump_iterate_injective (n i j : Nat) (hi : i < 65535) (hj : j < 65535) (h : bump^[i] n = bump^[j] n) : i = j := by
  by_cases within : 1 ≤ n ∧ n ≤ 65535
  · rw [bump_iterate i n within.1 within.2, bump_iterate j n within.1 within.2] at h
    omega
  · have first : bump n = 1 := by unfold bump; split <;> omega
    have later : ∀ m, bump^[m + 1] n = m % 65535 + 1 := fun m => by
      rw [Function.iterate_succ_apply, first, bump_iterate m 1 (by decide) (by decide)]
      omega
    cases i with
    | zero =>
      cases j with
      | zero => rfl
      | succ j => rw [later, Function.iterate_zero, id] at h; omega
    | succ i =>
      cases j with
      | zero => rw [later, Function.iterate_zero, id] at h; omega
      | succ j => rw [later, later] at h; omega

/-- As many tries as there are used numbers are enough, while fewer than 65,535 are used. -/
theorem freeNumber_not_mem (used : List Nat) (n : Nat) (few : used.length < 65534) : freeNumber used n ∉ used := by
  intro mem
  rcases firstFree_spec used.length used n with free | ⟨tried, last⟩
  · exact free mem
  · have all : ∀ i ∈ List.range (used.length + 1), bump^[i] n ∈ used := fun i hi => by
      rcases Nat.lt_succ_iff_lt_or_eq.mp (List.mem_range.mp hi) with h | rfl
      · exact tried i h
      · exact last ▸ mem
    have distinct : ((List.range (used.length + 1)).map (bump^[·] n)).Nodup := by
      refine List.Nodup.map_on (fun i hi j hj h => ?_) List.nodup_range
      rw [List.mem_range] at hi hj
      exact bump_iterate_injective n i j (by omega) (by omega) h
    have fits := (distinct.subperm fun m hm => by
      obtain ⟨i, hi, rfl⟩ := List.mem_map.mp hm
      exact all i hi).length_le
    rw [List.length_map, List.length_range] at fits
    omega

theorem freeNumber_in_range (used : List Nat) (n : Nat) (h : 1 ≤ n ∧ n ≤ 65535) :
    1 ≤ freeNumber used n ∧ freeNumber used n ≤ 65535 := firstFree_in_range _ _ _ h

/-! ### The job pool (R53, R55) -/

/-- Tags that only leave the pool keep its law. -/
theorem poolSound_of_tags {s t : State} (h : s.poolSound) (tags : (t.pool.map (·.tag)).Subperm (s.pool.map (·.tag)))
    (nextTag : t.nextTag = s.nextTag) : t.poolSound := by
  obtain ⟨size, nodup, range, low, high⟩ := h
  refine ⟨?_, ?_, fun j hj => ?_, nextTag ▸ low, nextTag ▸ high⟩
  · have := tags.length_le
    rw [List.length_map, List.length_map] at this
    exact this.trans size
  · obtain ⟨l, perm, sub⟩ := tags
    exact perm.nodup_iff.mp (nodup.sublist sub)
  · obtain ⟨i, hi, htag⟩ := List.mem_map.mp (tags.subset (List.mem_map_of_mem hj))
    exact htag ▸ range i hi

theorem Handles.poolSound {s t : State} (h : Handles s t) (hs : s.poolSound) : t.poolSound :=
  poolSound_of_tags hs h.tags h.nextTag

/-- A job accepted under a free tag while the pool has room. -/
theorem acceptJob_poolSound (s : State) (pos : Position) (k : Fin 8) (routing : Option (Fin 6)) (p : Fin 6) (copies value : Nat)
    (d : Tender) (slots : List (List Byte)) (hs : s.poolSound) (room : s.pool.length < poolLimit) :
    (s.acceptJob pos k routing p copies value d slots).poolSound := by
  obtain ⟨size, nodup, range, low, high⟩ := hs
  have room : s.pool.length < 48 := room
  obtain ⟨tagLow, tagHigh⟩ := freeNumber_in_range (s.pool.map (·.tag)) s.nextTag ⟨low, high⟩
  have free := freeNumber_not_mem (s.pool.map (·.tag)) s.nextTag (by rw [List.length_map]; omega)
  unfold State.acceptJob
  simp only
  refine ((serves_joinQueue _ p _).trans (serves_modOutstanding _ pos _)).handles.poolSound ⟨?_, ?_, ?_, bump_in_range _⟩
  · simp only [State.setNextTag_pool, State.setPool_pool, List.length_append, List.length_singleton]
    omega
  · simp only [State.setNextTag_pool, State.setPool_pool, List.map_append, List.map_singleton]
    refine List.nodup_append.mpr ⟨nodup, List.nodup_singleton _, fun a ha b hb e => free ?_⟩
    rw [e, List.mem_singleton.mp hb] at ha
    exact ha
  · intro j hj
    simp only [State.setNextTag_pool, State.setPool_pool, List.mem_append, List.mem_singleton] at hj
    rcases hj with hj | rfl
    · exact range j hj
    · exact ⟨tagLow, tagHigh⟩

/-! ### Start-up and CLEAR AUDIT -/

/-- A window settled at start-up only counts nothing outstanding and goes from CLOSING to COUNTING (R127). -/
theorem WindowRecord.follows_settle (r : WindowRecord) : r.follows r.settle := by
  unfold WindowRecord.settle
  simp only
  split
  · rename_i h
    exact ⟨rfl, h.elim (fun h => .inr ⟨h, rfl⟩) (fun h => .inl h.symm)⟩
  · exact ⟨rfl, .inl rfl⟩

theorem handles_doubtPaths (s : State) : Handles s s.doubtPaths :=
  (handles_foldl _ (fun s p => handles_foldl _ (fun s e => handles_makeDoubtful s p e) _ s) _ s).trans
    (serves_lowStockAll _).handles

theorem handles_verifyChecksum (s : State) : Handles s s.verifyChecksum := by
  unfold State.verifyChecksum
  split
  · exact .refl s
  · exact { Handles.refl s with }

theorem handles_settlePositions (s : State) : Handles s s.settlePositions :=
  { Handles.refl s with
    windows := fun w => by
      have settled : s.settlePositions.window w = (s.window w).settle := by
        simp [State.settlePositions, State.window]
      rw [settled]
      exact (WindowRecord.follows_settle _).trails }

theorem logs_startPrinters (s : State) : Logs s s.startPrinters := by
  refine logs_foldl _ (fun s p => ?_) _ s
  split
  · exact logs_startIdentification s p
  · exact .refl s

theorem logs_restartPrinters (s : State) : Logs s s.restartPrinters := by
  refine logs_foldl _ (fun s p => ?_) _ s
  split
  · exact logs_startIdentification s p
  · exact .refl s

/-- START placed and the arbiter started (R173). -/
theorem handles_placeStart (s : State) : Handles s s.placeStart :=
  ((serves_pushNotice s _).handles.trans (handles_setNotices _ _)).trans (serves_arbitrate _).handles

/-- Start-up once the volatile state is cleared. -/
theorem handles_startUp (s : State) (cause : ResetCause) (straps : Straps) :
    Handles (s.clearVolatile cause straps) (s.startUp cause straps) := by
  refine Handles.trans ?_ (handles_placeStart _)
  refine Handles.trans ?_ (logs_startPrinters _).handles
  refine Handles.trans ?_ (handles_settlePositions _)
  refine Handles.trans ?_ (handles_of_keeps (State.setFaults_keeps _ _) (by decide))
  refine Handles.trans ?_ (handles_doubtPaths _)
  refine Handles.trans ?_ (handles_verifyChecksum _)
  exact (handles_takeImage _ _).trans (handles_setStore _ _)

theorem clearVolatile_pool (s : State) (cause : ResetCause) (straps : Straps) : (s.clearVolatile cause straps).pool = [] := rfl

theorem clearVolatile_nextTag (s : State) (cause : ResetCause) (straps : Straps) : (s.clearVolatile cause straps).nextTag = 1 := rfl

theorem startUp_poolSound (s : State) (cause : ResetCause) (straps : Straps) : (s.startUp cause straps).poolSound := by
  refine (handles_startUp s cause straps).poolSound ?_
  unfold State.poolSound
  rw [clearVolatile_pool, clearVolatile_nextTag]
  simp

theorem logs_clearLog (s : State) : Logs s s.clearLog :=
  logs_of_keeps fun a ha => by cases a <;> first | rfl | exact absurd (by decide) ha

/-- The register emptied and the printers identified afresh, before the windows are closed (R184, steps 1 to 3). -/
theorem logs_clearAudit_middle (s : State) :
    Logs (((s.setPacks []).setDoubtful []).setInPath (Vector.replicate 6 [])) s.clearRegister.clearLog.restartPrinters := by
  unfold State.clearRegister
  exact ((serves_lowStockAll _).logs.trans (logs_clearLog _)).trans (logs_restartPrinters _)

theorem clearShifts_keeps (s : State) : s.keepsBut s.clearShifts [.windows, .nextShift, .console, .history] :=
  fun a ha => by cases a <;> first | rfl | exact absurd (by decide) ha

/-- CLEAR AUDIT's last steps leave the pool and the paths alone (R184, steps 4 to 6). -/
theorem clearAudit_rest (s : State) :
    s.clearRegister.clearLog.restartPrinters.keepsBut s.clearAudit
      [.windows, .nextShift, .console, .history, .checksum, .audit] := by
  have last : ∀ t : State, t.keepsBut ((t.setChecksum true).setAudit .ok) [.checksum, .audit] := fun t a ha => by
    cases a <;> first | rfl | exact absurd (by decide) ha
  unfold State.clearAudit
  exact ((clearShifts_keeps _).mono (by decide)).trans ((last _).mono (by decide))

theorem clearAudit_poolSound (s : State) (hs : s.poolSound) : s.clearAudit.poolSound := by
  have middle := (logs_clearAudit_middle s).handles.poolSound (s := ((s.setPacks []).setDoubtful []).setInPath _) hs
  have pool : s.clearAudit.pool = _ := clearAudit_rest s .pool (by decide)
  exact poolSound_of_tags middle (by rw [pool]) (clearAudit_rest s .nextTag (by decide))

/-- Every effect keeps the law of the job pool. -/
theorem Effect.poolSound {c : Instr} {s u : State} (h : Effect c s u) (hs : s.poolSound) : u.poolSound := by
  rcases h.handles_or_special with kept | special
  · exact kept.poolSound hs
  · cases special with
    | issue pos k routing p copies value d slots room =>
      exact (handles_wakeAll _ _).poolSound (acceptJob_poolSound s pos k routing p copies value d slots hs room.2)
    | openShift => exact hs
    | suspend => exact hs
    | resume => exact hs
    | closeShift => exact (serves_arbitrate _).handles.poolSound hs
    | reopen => exact hs
    | declare w f =>
      unfold State.takeDeclaration
      simp only
      split
      · exact (serves_arbitrate _).handles.poolSound hs
      · exact hs
    | signOff => exact (serves_arbitrate _).handles.poolSound hs
    | clearAudit => exact clearAudit_poolSound s hs
    | start => exact startUp_poolSound _ _ _
    | lost => exact startUp_poolSound _ _ _

/-! ### The paths (R6) -/

theorem Handles.pathsSound {s t : State} (h : Handles s t) (hs : s.pathsSound) : t.pathsSound := fun p => by
  have := h.paths p
  have := hs p
  omega

theorem pathsSound_of_inPath {s t : State} (h : s.pathsSound) (inPath : t.ret.inPath = s.ret.inPath) : t.pathsSound := fun p => by
  rw [show t.path p = s.path p from congrArg (·[p]) inPath]
  exact h p

/-- The arbiter and the printers leave the paths alone. -/
theorem Logs.path {s t : State} (h : Logs s t) (p : Fin 6) : t.path p = s.path p :=
  congrArg (fun x : Stock => x.inPath[p]) h.stock

/-- A blank made DOUBTFUL is off its printer's path, and the other paths are as they were. -/
theorem path_makeDoubtful (s : State) (p q : Fin 6) (e : InPathEntry) :
    (s.makeDoubtful p e).path q = if q = p then withoutBlank e.pack e.serial (s.path q) else s.path q := by
  rw [show (s.makeDoubtful p e).path q = (s.stock.makeDoubtful p e _).inPath[q] from
    congrArg (fun x : Stock => x.inPath[q]) (stock_makeDoubtful s p e)]
  exact s.path_setInPath_updAt p q (withoutBlank e.pack e.serial)

/-- Blanks made DOUBTFUL one after the other leave the entries of none of them on the path. -/
theorem path_makeDoubtful_foldl (es : List InPathEntry) (s : State) (p q : Fin 6) :
    (es.foldl (fun s e => s.makeDoubtful p e) s).path q =
      if q = p then (s.path q).filter (fun x => es.all fun e => decide ¬(x.pack = e.pack ∧ x.serial = e.serial)) else s.path q := by
  induction es generalizing s with
  | nil => simp
  | cons e es ih =>
    rw [List.foldl_cons, ih, path_makeDoubtful]
    split
    · simp only [withoutBlank, List.filter_filter, List.all_cons]
      exact List.filter_congr fun x _ => Bool.and_comm _ _
    · rfl

/-- Every blank of a path made DOUBTFUL leaves it empty. -/
theorem path_doubtPath (s : State) (p q : Fin 6) :
    ((s.path p).foldl (fun s e => s.makeDoubtful p e) s).path q = if q = p then [] else s.path q := by
  rw [path_makeDoubtful_foldl]
  split
  · subst q
    refine List.filter_eq_nil_iff.mpr fun e he => ?_
    simp only [List.all_eq_true, not_forall]
    exact ⟨e, he, by simp⟩
  · rfl

/-- Every path is empty once start-up has made its blanks DOUBTFUL (R26, R186). -/
theorem path_doubtPaths (s : State) (q : Fin 6) : s.doubtPaths.path q = [] := by
  have key : ∀ (l : List (Fin 6)) (s : State), q ∈ l ∨ s.path q = [] →
      (l.foldl (fun s p => (s.path p).foldl (fun s e => s.makeDoubtful p e) s) s).path q = [] := by
    intro l
    induction l with
    | nil => intro s h; simpa using h
    | cons p l ih =>
      intro s h
      refine ih _ ?_
      rw [path_doubtPath]
      by_cases hq : q = p
      · exact .inr (if_pos hq)
      · rw [if_neg hq]
        exact h.imp_left fun h => (List.mem_cons.mp h).resolve_left hq
  exact ((serves_lowStockAll _).logs.path q).trans (key _ s (.inl (List.mem_finRange q)))

/-- Start-up leaves every path empty. -/
theorem path_startUp (s : State) (cause : ResetCause) (straps : Straps) (q : Fin 6) : (s.startUp cause straps).path q = [] := by
  unfold State.startUp
  have placed : ∀ t : State, t.placeStart.path q = t.path q := fun t =>
    (Logs.path (serves_arbitrate _).logs q).trans rfl
  have settled : ∀ t : State, t.clearStanding.settlePositions.path q = t.path q := fun _ => rfl
  rw [placed, (logs_startPrinters _).path, settled]
  exact path_doubtPaths _ q

/-- Every effect keeps the law of the paths. -/
theorem Effect.pathsSound {c : Instr} {s u : State} (h : Effect c s u) (hs : s.pathsSound) : u.pathsSound := by
  have empty : ∀ t : State, (∀ p, t.path p = []) → t.pathsSound := fun t ht p => by rw [ht p]; exact Nat.zero_le 2
  rcases h.handles_or_special with kept | special
  · exact kept.pathsSound hs
  · cases special with
    | issue pos k routing p copies value d slots room =>
      refine (handles_wakeAll _ _).pathsSound (pathsSound_of_inPath hs ?_)
      cases pos <;> rfl
    | openShift => exact hs
    | suspend => exact hs
    | resume => exact hs
    | closeShift => exact (serves_arbitrate _).handles.pathsSound hs
    | reopen => exact hs
    | declare w f =>
      unfold State.takeDeclaration
      simp only
      split
      · exact (serves_arbitrate _).handles.pathsSound hs
      · exact hs
    | signOff => exact (serves_arbitrate _).handles.pathsSound hs
    | clearAudit =>
      refine empty _ fun p => ?_
      rw [show s.clearAudit.path p = _ from congrArg (·[p]) (clearAudit_rest s .inPath (by decide))]
      exact ((logs_clearAudit_middle s).path p).trans (by simp [State.path])
    | start => exact empty _ (path_startUp _ _ _)
    | lost => exact empty _ (path_startUp _ _ _)

/-! ### The shift history (R120, R154) -/

/-- A window's record with the history's law: its slot is reserved exactly between the close of its shift and its end. -/
def WindowRecord.slotSound (r : WindowRecord) : Prop := r.reserved = true ↔ r.state ∈ [.closing, .counting, .held]

theorem WindowRecord.trails.reserved {r r' : WindowRecord} (h : r.trails r') : r'.reserved = r.reserved := by
  simpa using congrArg WindowRecord.reserved h.1

theorem WindowRecord.trails.slotSound {r r' : WindowRecord} (h : r.trails r') (hr : r.slotSound) : r'.slotSound := by
  unfold WindowRecord.slotSound at hr ⊢
  rw [h.reserved, hr]
  rcases h.2 with hs | ⟨hc, hn⟩
  · rw [show r'.state = r.state from hs]
  · rw [show r'.state = .counting from hn, hc]
    decide

theorem Handles.reservedSlots {s t : State} (h : Handles s t) : t.reservedSlots = s.reservedSlots :=
  congrArg (allWindows.countP ·) (funext fun w => (h.windows w).reserved)

theorem Handles.historySound {s t : State} (h : Handles s t) (hs : s.historySound) : t.historySound := by
  obtain ⟨room, slots⟩ := hs
  exact ⟨by rw [h.history, h.reservedSlots]; exact room, fun w => (h.windows w).slotSound (slots w)⟩

/-- A count over a list without repetitions, when the test changes at one member. -/
theorem countP_update {α : Type} [DecidableEq α] (p q : α → Bool) (a : α) (same : ∀ b, b ≠ a → q b = p b) (l : List α)
    (nodup : l.Nodup) (mem : a ∈ l) : l.countP q + (p a).toNat = l.countP p + (q a).toNat := by
  induction l with
  | nil => cases mem
  | cons b l ih =>
    obtain ⟨fresh, nodup⟩ := List.nodup_cons.mp nodup
    rw [List.countP_cons, List.countP_cons]
    by_cases hb : b = a
    · subst b
      have rest : l.countP q = l.countP p := List.countP_congr fun c hc => by
        rw [same c fun h => fresh (h ▸ hc)]
      rw [rest]
      cases p a <;> cases q a <;> simp
    · have := ih nodup ((List.mem_cons.mp mem).resolve_left (Ne.symm hb))
      rw [same b hb]
      omega

/-- The reserved slots after one window changes. -/
theorem State.reservedSlots_modWindow (s : State) (w : Fin 15) (f : WindowRecord → WindowRecord) :
    (s.modWindow w f).reservedSlots + (s.window w).reserved.toNat = s.reservedSlots + (f (s.window w)).reserved.toNat := by
  have h := countP_update (fun v => (s.window v).reserved) (fun v => ((s.modWindow w f).window v).reserved) w
    (fun v hv => by rw [s.modWindow_other w v f hv]) allWindows (List.nodup_finRange 15) (List.mem_finRange w)
  unfold State.reservedSlots
  simpa only [State.modWindow_same] using h

/-- One window's record and the history changed, within the bound. -/
theorem historySound_modWindow (s : State) (w : Fin 15) (f : WindowRecord → WindowRecord) (history : List ShiftRecord)
    (hs : s.historySound) (sound : (f (s.window w)).slotSound)
    (room : history.length + (f (s.window w)).reserved.toNat + s.reservedSlots ≤ 32 + (s.window w).reserved.toNat) :
    ((s.setHistory history).modWindow w f).historySound := by
  obtain ⟨-, slots⟩ := hs
  refine ⟨?_, fun v => ?_⟩
  · have count := (s.setHistory history).reservedSlots_modWindow w f
    change history.length + ((s.setHistory history).modWindow w f).reservedSlots ≤ 32
    change _ + (s.window w).reserved.toNat = s.reservedSlots + (f (s.window w)).reserved.toNat at count
    omega
  · rw [State.window_modWindow]
    split
    · subst v; exact sound
    · exact slots v

/-- The history kept with a window changed that holds no slot before or after. -/
theorem historySound_modWindow_free (s : State) (w : Fin 15) (f : WindowRecord → WindowRecord) (hs : s.historySound)
    (sound : (f (s.window w)).slotSound) (free : (f (s.window w)).reserved = true → (s.window w).reserved = true) :
    (s.modWindow w f).historySound := by
  refine historySound_modWindow s w f s.ret.history hs sound ?_
  obtain ⟨room, -⟩ := hs
  cases h : (f (s.window w)).reserved
  · simp only [Bool.toNat_false]
    omega
  · rw [free h]
    omega

/-- Room made for one more reservation leaves it (R120). -/
theorem State.historyWithRoom_length (s : State) (history : List ShiftRecord) (hs : s.historySound)
    (h : s.historyWithRoom = some history) : history.length + s.reservedSlots < 32 := by
  obtain ⟨room, -⟩ := hs
  unfold State.historyWithRoom at h
  split at h
  · cases h; assumption
  · split at h
    · cases h
      obtain ⟨r, mem, collected⟩ := List.any_eq_true.mp ‹_›
      have gone : (s.ret.history.eraseP (·.collected)).length = s.ret.history.length - 1 :=
        List.length_eraseP_of_mem mem collected
      have := List.length_pos_of_mem mem
      omega
    · cases h

/-- A shift finalised gives its slot to its record (R152). -/
theorem finalise_historySound (s : State) (w : Fin 15) (f : DeclaredFigures) (status : RecordStatus) (by_ : Option Nat)
    (hs : s.historySound) (inUse : (s.window w).state ∈ [.closing, .counting, .held]) : (s.finalise w f status by_).historySound := by
  refine (serves_arbitrate _).handles.historySound (historySound_modWindow s w _ _ hs ?_ ?_)
  · simp [WindowRecord.slotSound, WindowRecord.finalised, closedWindow]
  · rw [(hs.2 w).mpr inUse, List.length_append, List.length_singleton]
    have := hs.1
    simp only [WindowRecord.finalised, closedWindow, Bool.toNat_false, Bool.toNat_true]
    omega

/-- CLEAR AUDIT closes every window and empties the history (R127, R158). -/
theorem clearAudit_window (s : State) (w : Fin 15) : s.clearAudit.window w = closedWindow := by
  have closed : ∀ t : State, ((t.clearShifts.setChecksum true).setAudit .ok).window w = closedWindow := fun t => by
    simp [State.window, State.clearShifts, State.closeAllWindows, State.emptyConsole]
  exact closed _

theorem clearAudit_history (s : State) : s.clearAudit.ret.history = [] := by
  have empty : ∀ t : State, ((t.clearShifts.setChecksum true).setAudit .ok).ret.history = [] := fun t => by
    simp [State.clearShifts]
  exact empty _

theorem clearAudit_historySound (s : State) : s.clearAudit.historySound := by
  refine ⟨?_, fun w => ?_⟩
  · rw [clearAudit_history]
    have few : s.clearAudit.reservedSlots ≤ 15 := List.countP_le_length
    rw [List.length_nil]
    omega
  · rw [clearAudit_window]
    decide

/-- Every effect but a power-on that lost the retained memory keeps the law of the shift history. -/
theorem Effect.historySound {c : Instr} {s u : State} (h : Effect c s u) (held : ∀ straps, c ≠ .powerOn straps false)
    (hs : s.historySound) : u.historySound := by
  have start : ∀ cause straps, (s.startUp cause straps).historySound := fun cause straps =>
    (handles_startUp s cause straps).historySound hs
  have unreserved : ∀ w, (s.window w).state ∉ [.closing, .counting, .held] → (s.window w).reserved = false := fun w out => by
    cases reserved : (s.window w).reserved
    · rfl
    · exact absurd ((hs.2 w).mp reserved) out
  rcases h.handles_or_special with kept | special
  · exact kept.historySound hs
  · cases special with
    | issue pos k routing p copies value d slots room =>
      refine (handles_wakeAll _ _).historySound ?_
      exact ((serves_joinQueue _ p _).trans (serves_modOutstanding _ pos _)).handles.historySound hs
    | openShift w clerk grade float closed =>
      exact historySound_modWindow_free s w _ hs (by simp [WindowRecord.slotSound, WindowRecord.openShift]) nofun
    | suspend w isOpen =>
      have free := unreserved w (by rw [isOpen]; decide)
      exact historySound_modWindow_free s w _ hs (by simp [WindowRecord.slotSound, free]) id
    | resume w suspended =>
      have free := unreserved w (by rw [suspended]; decide)
      exact historySound_modWindow_free s w _ hs (by simp [WindowRecord.slotSound, free]) id
    | closeShift w history inUse room =>
      have bound := s.historyWithRoom_length history hs room
      refine (serves_arbitrate _).handles.historySound (historySound_modWindow s w _ history hs ?_ ?_)
      · unfold WindowRecord.close WindowRecord.slotSound WindowRecord.enterCounting
        simp only
        split <;> simp
      · have := Bool.toNat_le ((s.window w).close s.office.clock).reserved
        omega
    | reopen w =>
      exact historySound_modWindow_free s w _ hs (by simp [WindowRecord.slotSound, WindowRecord.reopen]) nofun
    | declare w f counted =>
      have inUse : (s.window w).state ∈ [.closing, .counting, .held] := by rcases counted with h | h <;> simp [h]
      have noted : (s.modWindow w (·.declared' f)).historySound := historySound_modWindow_free s w _ hs (hs.2 w) id
      have same : (s.modWindow w (·.declared' f)).window w = (s.window w).declared' f := s.modWindow_same w _
      unfold State.takeDeclaration
      simp only
      split
      · exact finalise_historySound _ w f _ _ noted (by rw [same]; exact inUse)
      · refine historySound_modWindow_free _ w _ noted ?_ id
        rw [same]
        simp [WindowRecord.slotSound, WindowRecord.declared', (hs.2 w).mpr inUse]
    | signOff w f supervisor held => exact finalise_historySound s w f _ _ hs (by rw [held]; decide)
    | clearAudit => exact clearAudit_historySound s
    | start cause straps => exact start cause straps
    | lost straps event => exact absurd event (held straps)

end Sys2Proof.Machine
end

