-- ==== Sys2Proof/Proofs/FaultView.lean ====
section
/-! SUPPORT. The fault log seen alone: of every entry its number, printer, class, codes and whether it is CLEARED, the next number, and
the entry each printer's record names. What appending, clearing and joining do to the law of the log (R91 to R93, R102, R104). -/

namespace Sys2Proof.Machine

/-- What the law of the fault log reads of an entry. -/
structure FaultCore where
  number  : Nat
  printer : Fin 6
  cls     : FaultClass
  codes   : List FaultCode
  cleared : Bool

/-- The core of an entry. -/
def FaultEntry.core (e : FaultEntry) : FaultCore :=
  { number := e.number, printer := e.printer, cls := e.cls, codes := (e.first :: e.later).map (·.code), cleared := e.cleared }

/-- What the law of the fault log reads. -/
structure FaultView where
  entries : List FaultCore
  next    : Nat
  opened  : Fin 6 → Option Nat

/-- The fault log of a state. -/
def State.faultView (s : State) : FaultView :=
  { entries := s.ret.faults.map FaultEntry.core, next := s.ret.nextFault, opened := fun p => (s.printer p).openFault }

/-- Is an entry an OPEN standing one of a printer? -/
def FaultCore.standsAt (c : FaultCore) (p : Fin 6) : Bool := decide (c.cls = .standing ∧ c.cleared = false ∧ c.printer = p)

/-- Is an entry an OPEN attended one? -/
def FaultCore.attends (c : FaultCore) : Bool := decide (c.cls = .attended ∧ c.cleared = false)

/-- The law of an entry (R91 to R93, R100). -/
structure FaultCore.Law (c : FaultCore) : Prop where
  range     : 1 ≤ c.number ∧ c.number ≤ 65535
  transient : c.cls = .transient → c.cleared = true
  few       : c.codes.length ≤ 5
  distinct  : c.codes.Nodup

/-- The law of the log, and of the entries the printers' records name. -/
structure FaultView.Sound (v : FaultView) : Prop where
  size     : v.entries.length ≤ 64
  numbers  : (v.entries.map (·.number)).Nodup
  law      : ∀ c ∈ v.entries, c.Law
  next     : 1 ≤ v.next ∧ v.next ≤ 65535
  attended : v.entries.countP (·.attends) ≤ 24
  opened   : ∀ p, (v.entries.filter (·.standsAt p)).map (·.number) = (v.opened p).toList

/-- A printer's record names an OPEN entry exactly while the printer is FAULTED or OFFLINE (R93). -/
def Printer.linked (x : Printer) : Prop := x.openFault.isSome = true ↔ x.state ∈ [.faulted, .offline]

theorem FaultEntry.law_iff (e : FaultEntry) : e.law ↔ e.core.Law := by
  constructor
  · rintro ⟨low, high, transient, few, distinct⟩
    exact ⟨⟨low, high⟩, transient, by simpa [FaultEntry.core, Nat.lt_succ_iff] using few, distinct⟩
  · rintro ⟨⟨low, high⟩, transient, few, distinct⟩
    exact ⟨low, high, transient, by simpa [FaultEntry.core, Nat.lt_succ_iff] using few, distinct⟩

/-- The laws of the fault log are those of its view and of each printer's record. -/
theorem State.faultsSound_iff (s : State) : s.faultsSound ↔ s.faultView.Sound ∧ ∀ p, (s.printer p).linked := by
  have filtered : ∀ p, (s.faultView.entries.filter (·.standsAt p)).map (·.number) =
      (s.ret.faults.filter fun e => decide (e.cls = .standing ∧ e.cleared = false ∧ e.printer = p)).map (·.number) := fun p => by
    simp only [State.faultView, List.filter_map, List.map_map]
    rfl
  have counted : s.faultView.entries.countP (·.attends) =
      s.ret.faults.countP fun e => decide (e.cls = .attended ∧ e.cleared = false) := List.countP_map
  have numbers : s.faultView.entries.map (·.number) = s.ret.faults.map (·.number) := List.map_map
  constructor
  · rintro ⟨size, nodup, law, low, high, attended, printers⟩
    refine ⟨⟨by simpa [State.faultView] using size, numbers ▸ nodup, fun c hc => ?_, ⟨low, high⟩, counted ▸ attended,
      fun p => (filtered p).trans (printers p).1⟩, fun p => (printers p).2⟩
    obtain ⟨e, he, rfl⟩ := List.mem_map.mp hc
    exact e.law_iff.mp (law e he)
  · rintro ⟨h, linked⟩
    exact ⟨by simpa [State.faultView] using h.size, numbers ▸ h.numbers,
      fun e he => e.law_iff.mpr (h.law _ (List.mem_map_of_mem he)), h.next.1, h.next.2, counted ▸ h.attended,
      fun p => ⟨(filtered p).symm.trans (h.opened p), linked p⟩⟩

/-! ### Room for a new entry (R104) -/

/-- Each OPEN standing entry stands at one printer. -/
theorem countP_standing (l : List FaultCore) :
    l.countP (fun c => decide (c.cls = .standing ∧ c.cleared = false)) = ∑ p, (l.filter (·.standsAt p)).length := by
  induction l with
  | nil => simp
  | cons c l ih =>
    have one : ∑ p : Fin 6, (if c.standsAt p then 1 else 0) = if c.cls = .standing ∧ c.cleared = false then 1 else 0 := by
      by_cases h : c.cls = .standing ∧ c.cleared = false
      · simp [FaultCore.standsAt, h]
      · rw [if_neg h]
        refine Finset.sum_eq_zero fun p _ => if_neg ?_
        simp only [FaultCore.standsAt, decide_eq_true_eq]
        exact fun ⟨a, b, _⟩ => h ⟨a, b⟩
    have split : ∀ p, ((c :: l).filter (·.standsAt p)).length = (l.filter (·.standsAt p)).length + if c.standsAt p then 1 else 0 :=
      fun p => by rw [List.filter_cons]; split <;> simp
    rw [List.countP_cons, ih, Finset.sum_congr rfl fun p _ => split p, Finset.sum_add_distrib, one]
    simp only [decide_eq_true_eq]

/-- A log without a CLEARED entry holds at most 30 entries: 24 attended and one standing of each printer. -/
theorem FaultView.Sound.open_le {v : FaultView} (h : v.Sound) (noneCleared : ∀ c ∈ v.entries, c.cleared = false) :
    v.entries.length ≤ 30 := by
  have stands : v.entries.countP (fun c => decide (c.cls = .standing ∧ c.cleared = false)) ≤ 6 := by
    rw [countP_standing]
    refine (Finset.sum_le_card_nsmul _ _ 1 fun p _ => ?_).trans (by simp)
    have := congrArg List.length (h.opened p)
    rw [List.length_map] at this
    rw [this]
    cases v.opened p <;> simp
  have all : v.entries.length ≤ v.entries.countP (·.attends) +
      v.entries.countP (fun c => decide (c.cls = .standing ∧ c.cleared = false)) := by
    have key : ∀ l : List FaultCore, (∀ c ∈ l, c.cleared = false ∧ c.Law) →
        l.length ≤ l.countP (·.attends) + l.countP (fun c => decide (c.cls = .standing ∧ c.cleared = false)) := by
      intro l
      induction l with
      | nil => simp
      | cons c l ih =>
        intro hl
        obtain ⟨isOpen, law⟩ := hl c List.mem_cons_self
        have := ih fun d hd => hl d (List.mem_cons_of_mem c hd)
        have either : c.cls = .standing ∨ c.cls = .attended := by
          cases cls : c.cls with
          | transient => rw [law.transient cls] at isOpen; cases isOpen
          | standing => exact .inl rfl
          | attended => exact .inr rfl
        rw [List.countP_cons, List.countP_cons, List.length_cons]
        rcases either with cls | cls
        · rw [if_pos (c := decide (c.cls = .standing ∧ c.cleared = false) = true) (decide_eq_true ⟨cls, isOpen⟩)]
          omega
        · rw [if_pos (c := c.attends = true) (decide_eq_true ⟨cls, isOpen⟩)]
          omega
    exact key _ fun c hc => ⟨noneCleared c hc, h.law c hc⟩
  have := h.attended
  omega

/-- The entries that stay when a full log makes room (R104). -/
def roomMade (l : List FaultCore) : List FaultCore := if l.length < 64 then l else l.eraseP (·.cleared)

theorem map_core_makeRoom (l : List FaultEntry) : (makeRoom l).map FaultEntry.core = roomMade (l.map FaultEntry.core) := by
  unfold makeRoom roomMade faultLimit
  rw [List.length_map]
  split
  · rfl
  · rw [List.eraseP_map]
    rfl

theorem roomMade_sublist (l : List FaultCore) : (roomMade l).Sublist l := by
  unfold roomMade
  split
  · exact List.Sublist.refl l
  · exact List.eraseP_sublist

/-- Only a CLEARED entry goes. -/
theorem filter_roomMade (l : List FaultCore) (test : FaultCore → Bool) (isOpen : ∀ c, test c = true → c.cleared = false) :
    (roomMade l).filter test = l.filter test := by
  have erased : ∀ l : List FaultCore, (l.eraseP (·.cleared)).filter test = l.filter test := by
    intro l
    induction l with
    | nil => rfl
    | cons c l ih =>
      by_cases hc : c.cleared = true
      · have : ¬ test c = true := fun ht => by rw [isOpen c ht] at hc; cases hc
        rw [List.eraseP_cons_of_pos hc, List.filter_cons, if_neg this]
      · rw [List.eraseP_cons_of_neg hc, List.filter_cons, List.filter_cons, ih]
  unfold roomMade
  split
  · rfl
  · exact erased l

/-- A sound log has a place for one more entry once room is made. -/
theorem FaultView.Sound.room {v : FaultView} (h : v.Sound) : (roomMade v.entries).length < 64 := by
  unfold roomMade
  split
  · assumption
  · rename_i full
    have cleared : ∃ c ∈ v.entries, c.cleared = true := by
      by_contra none
      have := h.open_le fun c hc => Bool.eq_false_iff.mpr fun k => none ⟨c, hc, k⟩
      omega
    obtain ⟨c, hc, hcl⟩ := cleared
    have shorter : (v.entries.eraseP (·.cleared)).length = v.entries.length - 1 := List.length_eraseP_of_mem hc hcl
    have := h.size
    omega

/-! ### The changes of the log -/

/-- An entry appended (R92, R104): with a free number, and no second OPEN standing entry of a printer. -/
theorem FaultView.Sound.append {v : FaultView} (h : v.Sound) (c : FaultCore) (n : Nat) (opened : Fin 6 → Option Nat) (law : c.Law)
    (fresh : c.number ∉ (roomMade v.entries).map (·.number)) (next : 1 ≤ n ∧ n ≤ 65535)
    (named : ∀ p, opened p = if c.standsAt p = true then some c.number else v.opened p)
    (free : ∀ p, c.standsAt p = true → v.opened p = none) (few : c.attends = true → v.entries.countP (·.attends) < 24) :
    FaultView.Sound { entries := roomMade v.entries ++ [c], next := n, opened := opened } where
  size := by have := h.room; simp; omega
  numbers := by
    rw [List.map_append, List.nodup_append]
    refine ⟨h.numbers.sublist ((roomMade_sublist _).map _), by simp, fun a ha b hb => ?_⟩
    rintro rfl
    simp only [List.map_cons, List.map_nil, List.mem_singleton] at hb
    exact fresh (hb ▸ ha)
  law d hd := by
    rcases List.mem_append.mp hd with hd | hd
    · exact h.law d ((roomMade_sublist _).subset hd)
    · exact List.mem_singleton.mp hd ▸ law
  next := next
  attended := by
    have same : (roomMade v.entries).countP (·.attends) ≤ v.entries.countP (·.attends) := (roomMade_sublist _).countP_le
    have := h.attended
    rw [List.countP_append, List.countP_cons, List.countP_nil]
    split
    · have := few ‹_›; omega
    · omega
  opened p := by
    have old : (roomMade v.entries).filter (·.standsAt p) = v.entries.filter (·.standsAt p) :=
      filter_roomMade _ _ fun d hd => (of_decide_eq_true hd).2.1
    change ((roomMade v.entries ++ [c]).filter (·.standsAt p)).map (·.number) = (opened p).toList
    rw [List.filter_append, List.map_append, old, h.opened p, named p]
    split
    · rename_i hs
      rw [free p hs, List.filter_cons, if_pos hs]
      rfl
    · rename_i hs
      rw [List.filter_cons, if_neg hs]
      simp

/-- The entry under a number changed. -/
def FaultView.modEntry (v : FaultView) (n : Nat) (f : FaultCore → FaultCore) (opened : Fin 6 → Option Nat) : FaultView :=
  { entries := v.entries.map fun c => if c.number = n then f c else c, next := v.next, opened := opened }

/-- The codes of an entry changed (R93). -/
theorem FaultView.Sound.recode {v : FaultView} (h : v.Sound) (n : Nat) (f : FaultCore → FaultCore)
    (kept : ∀ c, f c = { c with codes := (f c).codes }) (law : ∀ c, c.Law → (f c).Law) : (v.modEntry n f v.opened).Sound := by
  have number : ∀ c, (f c).number = c.number := fun c => by rw [kept c]
  have attends : ∀ c, (f c).attends = c.attends := fun c => by rw [kept c]; rfl
  have stands : ∀ p c, (f c).standsAt p = c.standsAt p := fun p c => by rw [kept c]; rfl
  have numbers : (v.modEntry n f v.opened).entries.map (·.number) = v.entries.map (·.number) :=
    map_view_of_key FaultCore.number n f FaultCore.number number _
  constructor
  · simpa [FaultView.modEntry] using h.size
  · rw [numbers]; exact h.numbers
  · intro c hc
    obtain ⟨d, hd, rfl⟩ := List.mem_map.mp hc
    split
    · exact law d (h.law d hd)
    · exact h.law d hd
  · exact h.next
  · have : (v.modEntry n f v.opened).entries.countP (·.attends) = v.entries.countP (·.attends) := by
      simp only [FaultView.modEntry, List.countP_map]
      exact List.countP_congr fun c _ => by simp only [Function.comp]; split <;> simp [attends]
    rw [this]; exact h.attended
  · intro p
    have same : (fun c => (if c.number = n then f c else c).standsAt p) = (·.standsAt p) := by
      funext c; split <;> simp [stands]
    have : ((v.modEntry n f v.opened).entries.filter (·.standsAt p)).map (·.number) =
        (v.entries.filter (·.standsAt p)).map (·.number) := by
      simp only [FaultView.modEntry, List.filter_map, List.map_map]
      rw [show (FaultCore.standsAt · p) ∘ (fun c => if c.number = n then f c else c) = (·.standsAt p) from same]
      exact List.map_congr_left fun c _ => by simp only [Function.comp]; split <;> simp [number]
    rw [this]; exact h.opened p

/-- The entry under a number CLEARED (R96, R97, R103): the printer that named it names none. -/
theorem FaultView.Sound.clear {v : FaultView} (h : v.Sound) (n : Nat) (opened : Fin 6 → Option Nat)
    (named : ∀ p, opened p = if v.opened p = some n then none else v.opened p) :
    (v.modEntry n (fun c => { c with cleared := true }) opened).Sound := by
  have numbers : (v.modEntry n (fun c => { c with cleared := true }) opened).entries.map (·.number) = v.entries.map (·.number) :=
    map_view_of_key FaultCore.number n (fun c => { c with cleared := true }) FaultCore.number (fun _ => rfl) _
  constructor
  · simpa [FaultView.modEntry] using h.size
  · rw [numbers]; exact h.numbers
  · intro c hc
    obtain ⟨d, hd, rfl⟩ := List.mem_map.mp hc
    split
    · exact ⟨(h.law d hd).range, fun _ => rfl, (h.law d hd).few, (h.law d hd).distinct⟩
    · exact h.law d hd
  · exact h.next
  · refine le_trans ?_ h.attended
    simp only [FaultView.modEntry, List.countP_map]
    refine List.countP_mono_left fun c _ hc => ?_
    simp only [Function.comp] at hc
    split at hc
    · exact absurd hc (by simp [FaultCore.attends])
    · exact hc
  · intro p
    have left : ((v.modEntry n (fun c => { c with cleared := true }) opened).entries.filter (·.standsAt p)).map (·.number) =
        ((v.entries.filter (·.standsAt p)).map (·.number)).filter (fun m => decide (m ≠ n)) := by
      simp only [FaultView.modEntry]
      induction v.entries with
      | nil => rfl
      | cons c l ih =>
        rw [List.map_cons, List.filter_cons, List.filter_cons]
        by_cases hn : c.number = n
        · have gone : ¬ FaultCore.standsAt (if c.number = n then { c with cleared := true } else c) p = true := by
            rw [if_pos hn]; simp [FaultCore.standsAt]
          rw [if_neg gone, ih]
          split
          · rw [List.map_cons, List.filter_cons, if_neg (by simpa using hn)]
          · rfl
        · rw [if_neg hn]
          split
          · rw [List.map_cons, List.map_cons, List.filter_cons, if_pos (by simpa using hn), ih]
          · exact ih
    rw [left, h.opened p]
    change _ = (opened p).toList
    rw [named p]
    cases v.opened p with
    | none => rfl
    | some m => by_cases hm : m = n <;> simp [hm]

end Sys2Proof.Machine
end

