-- ==== Sys2Proof/Proofs/SameFaults.lean ====
section
/-! SUPPORT. The operations that leave the law of the fault log's view alone: those of the arbiter, of the scheduler, of the register, and
of the ports when nothing is raised, cleared or placed. -/

namespace Sys2Proof.Machine

/-- Is a printer FAULTED or OFFLINE? -/
def Printer.down (x : Printer) : Bool := decide (x.state ∈ [PrinterState.faulted, .offline])

theorem Printer.linked_iff (x : Printer) : x.linked ↔ x.openFault.isSome = x.down := by
  unfold Printer.linked Printer.down
  cases x.openFault.isSome <;> simp

/-- The fault log's view is the same, and the same printers are FAULTED or OFFLINE. -/
structure SameFaults (s t : State) : Prop where
  view : t.faultView = s.faultView
  down : ∀ p, (t.printer p).down = (s.printer p).down

theorem SameFaults.refl (s : State) : SameFaults s s := ⟨rfl, fun _ => rfl⟩

theorem SameFaults.trans {s t u : State} (h : SameFaults s t) (k : SameFaults t u) : SameFaults s u :=
  ⟨k.view.trans h.view, fun p => (k.down p).trans (h.down p)⟩

theorem sameFaults_foldl {α : Type} (f : State → α → State) (h : ∀ s x, SameFaults s (f s x)) (xs : List α) (s : State) :
    SameFaults s (xs.foldl f s) := by
  induction xs generalizing s with
  | nil => exact .refl s
  | cons x xs ih => exact (h s x).trans (ih (f s x))

theorem SameFaults.openFault {s t : State} (h : SameFaults s t) (p : Fin 6) : (t.printer p).openFault = (s.printer p).openFault :=
  congrArg (·.opened p) h.view

theorem SameFaults.linked {s t : State} (h : SameFaults s t) (p : Fin 6) : (t.printer p).linked ↔ (s.printer p).linked := by
  rw [Printer.linked_iff, Printer.linked_iff, h.openFault, h.down]

theorem SameFaults.faultsSound {s t : State} (h : SameFaults s t) (hs : s.faultsSound) : t.faultsSound := by
  rw [State.faultsSound_iff] at hs ⊢
  exact ⟨h.view ▸ hs.1, fun p => (h.linked p).mpr (hs.2 p)⟩

/-! ### The records -/

theorem sameFaults_of_keeps {s t : State} {l : List Part} (h : s.keepsBut t l)
    (apart : ∀ a ∈ [Part.faults, .nextFault, .printers], a ∉ l) : SameFaults s t := by
  have printers : t.printers = s.printers := h .printers (apart _ (by decide))
  have faults : t.ret.faults = s.ret.faults := h .faults (apart _ (by decide))
  have next : t.ret.nextFault = s.ret.nextFault := h .nextFault (apart _ (by decide))
  exact ⟨by simp only [State.faultView, State.printer, printers, faults, next],
    fun p => by simp only [State.printer, printers]⟩

theorem Serves.printerState {s t : State} (h : Serves s t) (p : Fin 6) : (t.printer p).state = (s.printer p).state :=
  show (t.printer p).settled.state = (s.printer p).settled.state by rw [h.printers p]

theorem Serves.sameFaults {s t : State} (h : Serves s t) : SameFaults s t := by
  have opened : ∀ p, (t.printer p).openFault = (s.printer p).openFault := fun p =>
    show (t.printer p).settled.openFault = (s.printer p).settled.openFault by rw [h.printers p]
  have faults : t.ret.faults.map FaultEntry.core = s.ret.faults.map FaultEntry.core := by
    have through : ∀ l : List FaultEntry, l.map FaultEntry.core = (l.map (·.settled)).map FaultEntry.core := fun l => by
      rw [List.map_map]; rfl
    rw [through, h.faults, ← through]
  have next : t.ret.nextFault = s.ret.nextFault := h.parts .nextFault (by decide)
  exact ⟨by simp only [State.faultView, faults, next, opened], fun p => by rw [Printer.down, Printer.down, h.printerState]⟩

theorem sameFaults_modPrinter (s : State) (p : Fin 6) (f : Printer → Printer)
    (opened : (f (s.printer p)).openFault = (s.printer p).openFault) (down : (f (s.printer p)).down = (s.printer p).down) :
    SameFaults s (s.modPrinter p f) := by
  have at_ : ∀ {β : Type} (view : Printer → β), view (f (s.printer p)) = view (s.printer p) →
      ∀ q, view ((s.modPrinter p f).printer q) = view (s.printer q) := fun view h q => updAt_view s.printers p q f view h
  exact ⟨by unfold State.faultView; simp only [at_ Printer.openFault opened]; rfl, at_ Printer.down down⟩

/-- The entries' marks, notices and lengths of runs are not in the view. -/
theorem sameFaults_modFault (s : State) (n : Nat) (f : FaultEntry → FaultEntry) (h : ∀ e, (f e).core = e.core) :
    SameFaults s (s.modFault n f) :=
  ⟨congrArg (fun l => FaultView.mk l s.ret.nextFault fun p => (s.printer p).openFault)
    (map_view_of_key FaultEntry.number n f FaultEntry.core h s.ret.faults), fun _ => rfl⟩

theorem core_mapMarks (e : FaultEntry) (f : CodeMarks → CodeMarks) (h : ∀ m, (f m).code = m.code) :
    (e.mapMarks f).core = e.core := by
  have : (f e.first :: e.later.map f).map (·.code) = (e.first :: e.later).map (·.code) := by
    rw [← List.map_cons, List.map_map]
    exact List.map_congr_left fun m _ => h m
  simp only [FaultEntry.core, FaultEntry.mapMarks, this]

theorem sameFaults_markCodes (s : State) (p : Fin 6) (f : CodeMarks → CodeMarks) (h : ∀ m, (f m).code = m.code) :
    SameFaults s (s.markCodes p f) := by
  unfold State.markCodes
  split
  · exact .refl s
  · exact sameFaults_modFault s _ _ fun e => core_mapMarks e f h

theorem CodeMarks.meet_code (c : FaultCode) (m : CodeMarks) : (m.meet c).code = m.code := by
  unfold CodeMarks.meet; split <;> rfl

theorem CodeMarks.ready_code (m : CodeMarks) : m.ready.code = m.code := by
  unfold CodeMarks.ready; split <;> rfl

theorem CodeMarks.confirm_code (m : CodeMarks) : m.confirm.code = m.code := by
  unfold CodeMarks.confirm; split <;> rfl

/-- A printer that stays, or does not become, FAULTED or OFFLINE. -/
theorem sameFaults_setPrinterState (s : State) (p : Fin 6) (st : PrinterState)
    (h : decide (st ∈ [PrinterState.faulted, .offline]) = (s.printer p).down) : SameFaults s (s.setPrinterState p st) := by
  obtain ⟨o, -, serves⟩ := serves_setPrinterState s p st
  exact (sameFaults_modPrinter s p (fun x => { x with state := st, outstanding := o }) rfl h).trans serves.sameFaults

theorem sameFaults_syncBusy (s : State) (p : Fin 6) : SameFaults s (s.syncBusy p) := by
  unfold State.syncBusy
  split
  · rename_i h; exact sameFaults_setPrinterState s p _ (by rw [Printer.down, h.1]; rfl)
  · split
    · rename_i h; exact sameFaults_setPrinterState s p _ (by rw [Printer.down, h.1]; rfl)
    · exact .refl s

theorem sameFaults_modPath (s : State) (p : Fin 6) (f : List InPathEntry → List InPathEntry) : SameFaults s (s.modPath p f) :=
  (sameFaults_of_keeps (State.setInPath_keeps s _) (by decide)).trans (sameFaults_syncBusy _ p)

theorem sameFaults_dropEntry (s : State) (p : Fin 6) (e : InPathEntry) : SameFaults s (s.dropEntry p e) := sameFaults_modPath s p _

theorem sameFaults_modPack (s : State) (id : Nat) (f : Pack → Pack) : SameFaults s (s.modPack id f) :=
  sameFaults_of_keeps (s.modPack_keeps id f) (by decide)

theorem sameFaults_setDoubtful (s : State) (l : List DoubtfulEntry) : SameFaults s (s.setDoubtful l) :=
  sameFaults_of_keeps (s.setDoubtful_keeps l) (by decide)

theorem sameFaults_modWindow (s : State) (w : Fin 15) (f : WindowRecord → WindowRecord) : SameFaults s (s.modWindow w f) :=
  sameFaults_of_keeps (s.modWindow_keeps w f) (by decide)

theorem sameFaults_modTallies (s : State) (pos : Position) (f : Tallies → Tallies) : SameFaults s (s.modTallies pos f) :=
  sameFaults_of_keeps (s.modTallies_keeps pos f) (by decide)

theorem sameFaults_modRecent (s : State) (pos : Position) (f : List RecentIssue → List RecentIssue) :
    SameFaults s (s.modRecent pos f) := sameFaults_of_keeps (s.modRecent_keeps pos f) (by decide)

/-! ### The parts set outright -/

theorem sameFaults_setLive (s : State) (x : LiveSettings) : SameFaults s (s.setLive x) := ⟨rfl, fun _ => rfl⟩

theorem sameFaults_setStockTypes (s : State) (x : Vector StockType 8) : SameFaults s (s.setStockTypes x) := ⟨rfl, fun _ => rfl⟩

theorem sameFaults_setStore (s : State) (x : Store) : SameFaults s (s.setStore x) := ⟨rfl, fun _ => rfl⟩

theorem sameFaults_setNotices (s : State) (x : NoticeQueue) : SameFaults s (s.setNotices x) := ⟨rfl, fun _ => rfl⟩

theorem sameFaults_setPacks (s : State) (x : List Pack) : SameFaults s (s.setPacks x) := ⟨rfl, fun _ => rfl⟩

theorem sameFaults_setHistory (s : State) (x : List ShiftRecord) : SameFaults s (s.setHistory x) := ⟨rfl, fun _ => rfl⟩

theorem sameFaults_setAudit (s : State) (x : AuditStatus) : SameFaults s (s.setAudit x) := ⟨rfl, fun _ => rfl⟩

theorem sameFaults_setPool (s : State) (x : List Job) : SameFaults s (s.setPool x) := ⟨rfl, fun _ => rfl⟩

theorem sameFaults_setNextTag (s : State) (x : Nat) : SameFaults s (s.setNextTag x) := ⟨rfl, fun _ => rfl⟩

/-! ### The register (chapter 1) -/

theorem sameFaults_addException (s : State) (id : Nat) (e : ExceptionEntry) : SameFaults s (s.addException id e) := by
  unfold State.addException
  split
  · exact .refl s
  · simp only
    split
    · exact sameFaults_modPack s _ _
    · exact (sameFaults_modPack s _ _).trans (serves_lowStockCheck _ _).sameFaults

theorem sameFaults_makeDoubtful (s : State) (p : Fin 6) (e : InPathEntry) : SameFaults s (s.makeDoubtful p e) :=
  ((((sameFaults_modPath s p _).trans (sameFaults_addException _ _ _)).trans (sameFaults_setDoubtful _ _)).trans
    (serves_reportCopy _ _ _ (Job.doubted e.copy) fun _ => rfl).sameFaults).trans (sameFaults_modPack _ _ _)

theorem sameFaults_returnBlank (s : State) (p : Fin 6) (e : InPathEntry) : SameFaults s (s.returnBlank p e) := by
  unfold State.returnBlank
  split
  · split
    · exact (((sameFaults_modPath s p _).trans (sameFaults_modPack _ _ _)).trans (serves_lowStockOf _ _).sameFaults).trans
        (serves_reportCopy _ _ _ (Job.returned e.copy) fun _ => rfl).sameFaults
    · exact sameFaults_foldl _ (fun s x => sameFaults_makeDoubtful s p x) _ s
  · exact .refl s

theorem sameFaults_returnAll (s : State) (p : Fin 6) (es : List InPathEntry) : SameFaults s (s.returnAll p es) :=
  sameFaults_foldl _ (fun s e => sameFaults_returnBlank s p e) _ s

theorem sameFaults_credit (s : State) (pos : Position) (shift : Nat) (k : Fin 8) (serial pack value : Nat) (d : Tender) :
    SameFaults s (s.credit pos shift k serial pack value d) := by
  unfold State.credit
  split
  · exact (sameFaults_modTallies s _ _).trans (sameFaults_modRecent _ _ _)
  · exact .refl s

theorem sameFaults_countSpoil (s : State) (pos : Position) (shift : Nat) (k : Fin 8) :
    SameFaults s (s.countSpoil pos shift k) := by
  unfold State.countSpoil
  split
  · exact sameFaults_modTallies s _ _
  · exact .refl s

theorem sameFaults_issueBlank (s : State) (p : Fin 6) (e : InPathEntry) : SameFaults s (s.issueBlank p e) := by
  unfold State.issueBlank
  simp only
  refine (((sameFaults_dropEntry s p e).trans ?_).trans
    (serves_reportCopy _ _ _ (Job.issued e.copy e.serial) fun _ => rfl).sameFaults).trans (sameFaults_modPack _ _ _)
  split
  · exact .refl _
  · exact sameFaults_credit _ _ _ _ _ _ _ _

theorem sameFaults_spoilBlank (s : State) (p : Fin 6) (e : InPathEntry) (fault : Nat) : SameFaults s (s.spoilBlank p e fault) := by
  have added : ∀ x, SameFaults s ((s.dropEntry p e).addException e.pack x) := fun x =>
    (sameFaults_modPath s p _).trans (sameFaults_addException _ _ _)
  unfold State.spoilBlank
  simp only
  refine (SameFaults.trans ?_ (serves_reportCopy _ _ _ (Job.spoiled e.copy) fun _ => rfl).sameFaults).trans
    (sameFaults_modPack _ _ _)
  split
  · exact added _
  · exact (added _).trans (sameFaults_countSpoil _ _ _ _)

theorem sameFaults_runOut (s : State) (id : Nat) (d : Disposition) (fault : Option Nat) : SameFaults s (s.runOut id d fault) := by
  unfold State.runOut
  split
  · exact .refl s
  · refine (SameFaults.trans ?_ (sameFaults_modPack _ _ _)).trans (sameFaults_modPack _ _ _) |>.trans
      (serves_lowStockCheck _ _).sameFaults
    split
    · exact .refl s
    · exact sameFaults_addException s _ _

theorem sameFaults_binEmptied (s : State) (p : Fin 6) (e : InPathEntry) (fault : Nat) :
    SameFaults s (s.binEmptied p e fault) :=
  ((sameFaults_returnAll s _ _).trans (sameFaults_modFault _ _ _ (by exact fun _ => rfl))).trans (sameFaults_runOut _ _ _ _)

theorem sameFaults_take (s t : State) (p : Fin 6) (k : Fin 8) (e e' : InPathEntry) (side : Bin)
    (h : s.take p k e = some (t, e', side)) : SameFaults s t := by
  unfold State.take at h
  split at h
  · cases h
  · split at h
    · cases h
    · cases h
      exact ((sameFaults_modPack s _ _).trans (sameFaults_modPath _ _ _)).trans (serves_lowStockCheck _ _).sameFaults

/-! ### The ports (chapter 2) -/

theorem sameFaults_send (s : State) (p : Fin 6) (kind : CommandKind) (body : Option PrintBody) :
    SameFaults s (s.send p kind body) := sameFaults_modPrinter s p _ rfl rfl

theorem sameFaults_sendIdent (s : State) (p : Fin 6) : SameFaults s (s.sendIdent p) :=
  (sameFaults_modPrinter s p _ rfl rfl).trans (sameFaults_send _ _ _ _)

theorem sameFaults_dispatch (s t : State) (p : Fin 6) (h : s.dispatch p = some t) : SameFaults s t := by
  unfold State.dispatch at h
  split at h
  · split at h
    · cases h
    · split at h
      · split at h
        · cases h
        · cases h
          exact ((sameFaults_take _ _ _ _ _ _ _ ‹_›).trans (sameFaults_send _ _ _ _)).trans
            (serves_modJob _ _ (Job.dispatched _) fun _ => rfl).sameFaults
      · cases h
  · cases h

theorem sameFaults_pollOrWait (s : State) (p : Fin 6) (trigger : Trigger) : SameFaults s (s.pollOrWait p trigger) := by
  unfold State.pollOrWait
  split
  · exact sameFaults_send s _ _ _
  · exact .refl s

theorem sameFaults_choose (s : State) (trigger : Trigger) (p : Fin 6) : SameFaults s (s.choose trigger p) := by
  have printing : SameFaults s (match s.dispatch p with | some s' => s' | none => s.pollOrWait p trigger) := by
    split
    · exact sameFaults_dispatch _ _ _ ‹_›
    · exact sameFaults_pollOrWait s _ _
  unfold State.choose
  simp only
  split
  · exact .refl s
  · split
    · exact .refl s
    · exact .refl s
    · exact .refl s
    · exact .refl s
    · split
      · exact sameFaults_send s _ _ _
      · exact sameFaults_pollOrWait s _ _
    · exact sameFaults_pollOrWait s _ _
    · exact printing
    · exact printing

theorem sameFaults_wakeAll (s before : State) : SameFaults s (s.wakeAll before) := by
  refine sameFaults_foldl _ (fun s p => ?_) _ s
  unfold State.wake
  split
  · exact .refl s
  · exact sameFaults_choose s _ _

theorem sameFaults_applyOutcome (s : State) (p : Fin 6) (o : PrintOutcome) (fault : Nat) (e : InPathEntry) :
    SameFaults s (s.applyOutcome p o fault e) := by
  cases o with
  | done => exact sameFaults_issueBlank s _ _
  | spoiled _ => exact sameFaults_spoilBlank s _ _ _
  | notFed => exact .refl s
  | binEmpty => exact sameFaults_binEmptied s _ _ _

theorem sameFaults_takeAcceptance (s : State) (p : Fin 6) (n : Byte) (kind : CommandKind) (r : PrinterReply) :
    SameFaults s (s.takeAcceptance p n kind r) := by
  unfold State.takeAcceptance
  simp only
  split
  · exact ((sameFaults_modPrinter s p _ rfl rfl).trans (sameFaults_modPrinter _ p _ rfl rfl)).trans
      (sameFaults_markCodes _ p _ CodeMarks.confirm_code)
  · exact sameFaults_modPrinter s p _ rfl rfl

end Sys2Proof.Machine
end

