-- ==== Sys2Proof/Proofs/FaultLaws.lean ====
section
/-! SUPPORT. The raises, the clearings and the placings of a printer, and that every effect keeps the laws of the fault log. -/

namespace Sys2Proof.Machine

/-- The laws of the fault log, but for the link between one printer's state and its OPEN entry: what holds while that printer is about to
be placed. -/
def State.faultsBut (s : State) (p : Fin 6) : Prop := s.faultView.Sound ∧ ∀ q, q ≠ p → (s.printer q).linked

theorem State.faultsSound.but {s : State} (h : s.faultsSound) (p : Fin 6) : s.faultsBut p := by
  rw [State.faultsSound_iff] at h
  exact ⟨h.1, fun q _ => h.2 q⟩

theorem State.faultsSound.linked {s : State} (h : s.faultsSound) (p : Fin 6) : (s.printer p).linked :=
  (s.faultsSound_iff.mp h).2 p

theorem State.faultsSound.view {s : State} (h : s.faultsSound) : s.faultView.Sound := (s.faultsSound_iff.mp h).1

theorem State.faultsBut.sound {s : State} {p : Fin 6} (h : s.faultsBut p) (linked : (s.printer p).linked) : s.faultsSound := by
  rw [State.faultsSound_iff]
  refine ⟨h.1, fun q => ?_⟩
  by_cases hq : q = p
  · exact hq ▸ linked
  · exact h.2 q hq

theorem SameFaults.faultsBut {s t : State} {p : Fin 6} (h : SameFaults s t) (hs : s.faultsBut p) : t.faultsBut p :=
  ⟨h.view ▸ hs.1, fun q hq => (h.linked q).mpr (hs.2 q hq)⟩

/-- The record of the printer about to be placed changed, but for the entry it names. -/
theorem State.faultsBut.modPrinter {s : State} {p : Fin 6} (h : s.faultsBut p) (f : Printer → Printer)
    (opened : (f (s.printer p)).openFault = (s.printer p).openFault) : (s.modPrinter p f).faultsBut p := by
  have same : ∀ q, ((s.modPrinter p f).printer q).openFault = (s.printer q).openFault :=
    fun q => updAt_view s.printers p q f Printer.openFault opened
  constructor
  · have : (s.modPrinter p f).faultView = s.faultView := by unfold State.faultView; simp only [same]; rfl
    rw [this]; exact h.1
  · intro q hq
    rw [State.printer_modPrinter, if_neg hq]
    exact h.2 q hq

/-! ### Placing a printer -/

theorem State.setPrinterState_record (s : State) (p : Fin 6) (st : PrinterState) :
    ((s.setPrinterState p st).printer p).state = st ∧
      ∀ q, ((s.setPrinterState p st).printer q).openFault = (s.printer q).openFault := by
  obtain ⟨o, -, serves⟩ := serves_setPrinterState s p st
  refine ⟨?_, fun q => ?_⟩
  · rw [serves.printerState, State.printer_modPrinter, if_pos rfl]
  · rw [serves.sameFaults.openFault q]
    exact updAt_view s.printers p q (fun x => { x with state := st, outstanding := o }) Printer.openFault rfl

/-- A printer placed in a state that goes with the entry its record names. -/
theorem place_faultsSound {s : State} {p : Fin 6} (h : s.faultsBut p) (st : PrinterState)
    (fits : (s.printer p).openFault.isSome = decide (st ∈ [PrinterState.faulted, .offline])) :
    (s.setPrinterState p st).faultsSound := by
  obtain ⟨o, -, serves⟩ := serves_setPrinterState s p st
  have placed := serves.sameFaults.faultsBut (h.modPrinter (fun x => { x with state := st, outstanding := o }) rfl)
  refine placed.sound ?_
  obtain ⟨state, opened⟩ := s.setPrinterState_record p st
  rw [Printer.linked_iff, Printer.down, opened, fits, state]

theorem completeDisable_faultsSound {s : State} {p : Fin 6} (h : s.faultsBut p) (free : (s.printer p).openFault = none) :
    (s.completeDisable p).faultsSound := by
  refine place_faultsSound (h.modPrinter (fun x => { x with disablePending := false }) rfl) .disabled ?_
  rw [State.printer_modPrinter, if_pos rfl, free]
  rfl

theorem leaveFaulted_faultsSound {s : State} {p : Fin 6} (h : s.faultsBut p) (free : (s.printer p).openFault = none) :
    (s.leaveFaulted p).faultsSound := by
  unfold State.leaveFaulted
  split
  · exact completeDisable_faultsSound h free
  · split
    · exact place_faultsSound h _ (by rw [free]; rfl)
    · split
      · exact place_faultsSound h _ (by rw [free]; rfl)
      · exact place_faultsSound h _ (by rw [free]; rfl)

theorem placeIdentified_faultsSound {s : State} {p : Fin 6} (h : s.faultsBut p) : (s.placeIdentified p).faultsSound := by
  unfold State.placeIdentified
  split
  · rename_i opened
    exact place_faultsSound h _ opened
  · rename_i none
    rw [Bool.not_eq_true, Option.isSome_eq_false_iff, Option.isNone_iff_eq_none] at none
    split
    · exact completeDisable_faultsSound h none
    · split
      · exact place_faultsSound h _ (by rw [none]; rfl)
      · split
        · exact place_faultsSound h _ (by rw [none]; rfl)
        · exact place_faultsSound h _ (by rw [none]; rfl)

/-- A printer that begins identification names no entry. -/
theorem startIdentification_faultsSound {s : State} {p : Fin 6} (h : s.faultsBut p) (free : (s.printer p).openFault = none) :
    (s.startIdentification p).faultsSound := by
  refine (sameFaults_sendIdent _ p).faultsSound (place_faultsSound (h.modPrinter Printer.forget rfl) _ ?_)
  rw [State.printer_modPrinter, if_pos rfl]
  change (s.printer p).openFault.isSome = _
  rw [free]
  rfl

/-! ### New entries (R92, R104) -/

theorem bump_range (n : Nat) : 1 ≤ bump n ∧ bump n ≤ 65535 := by unfold bump; split <;> omega

/-- The core of the entry a log gains. -/
def FaultEntry.coreAs (e : FaultEntry) (n : Nat) : FaultCore := { e.core with number := n }

theorem faultView_logEntry (s : State) (e : FaultEntry) :
    (s.logEntry e).faultView = { entries := roomMade s.faultView.entries ++ [e.coreAs s.freshFaultNumber]
                                 next := bump s.freshFaultNumber
                                 opened := s.faultView.opened } := by
  have counted : ∀ t : State, (t.countFault e.printer e.first.code).faultView = t.faultView := fun t =>
    (sameFaults_modPrinter t _ _ rfl rfl).view
  have entries : (makeRoom s.ret.faults ++ [{ e with number := s.freshFaultNumber, raisedAt := s.office.clock }]).map
      FaultEntry.core = roomMade s.faultView.entries ++ [e.coreAs s.freshFaultNumber] := by
    rw [List.map_append, map_core_makeRoom]
    rfl
  unfold State.logEntry
  rw [counted]
  exact congrArg (fun l => FaultView.mk l (bump s.freshFaultNumber) fun p => (s.printer p).openFault) entries

theorem freshFaultNumber_fresh {s : State} (h : s.faultView.Sound) :
    s.freshFaultNumber ∉ (roomMade s.faultView.entries).map (·.number) ∧ 1 ≤ s.freshFaultNumber ∧ s.freshFaultNumber ≤ 65535 := by
  have numbers : (roomMade s.faultView.entries).map (·.number) = (makeRoom s.ret.faults).map (·.number) := by
    have := congrArg (List.map FaultCore.number) (map_core_makeRoom s.ret.faults)
    rw [List.map_map] at this
    exact this.symm
  have few : ((makeRoom s.ret.faults).map (·.number)).length < 65534 := by
    have := h.room
    rw [← List.length_map (f := FaultCore.number), show (roomMade s.faultView.entries).map FaultCore.number = _ from numbers] at this
    omega
  rw [numbers]
  exact ⟨freeNumber_not_mem _ _ few, freeNumber_in_range _ _ h.next⟩

/-- An entry that stands at no printer is logged. -/
theorem logEntry_faultsSound {s : State} (e : FaultEntry) (h : s.faultsSound) (codes : e.later = [])
    (transient : e.cls = .transient → e.cleared = true) (apart : e.cls = .standing → e.cleared = true)
    (few : e.cls = .attended → e.cleared = false → s.faultView.entries.countP (·.attends) < 24) : (s.logEntry e).faultsSound := by
  obtain ⟨fresh, range⟩ := freshFaultNumber_fresh h.view
  have stands : ∀ n p, (e.coreAs n).standsAt p = false := fun n p => by
    refine decide_eq_false fun ⟨cls, isOpen, _⟩ => ?_
    rw [show (e.coreAs n).cleared = e.cleared from rfl, apart cls] at isOpen
    cases isOpen
  have sound : (s.logEntry e).faultView.Sound := by
    rw [faultView_logEntry]
    refine h.view.append _ _ _ ⟨range, transient, ?_, ?_⟩ fresh (bump_range _) (fun p => ?_) (fun p hp => ?_) fun ha => ?_
    · simp [FaultEntry.coreAs, FaultEntry.core, codes]
    · simp [FaultEntry.coreAs, FaultEntry.core, codes]
    · simp [stands]
    · rw [stands] at hp; cases hp
    · obtain ⟨cls, isOpen⟩ := of_decide_eq_true ha
      exact few cls isOpen
  rw [State.faultsSound_iff]
  refine ⟨sound, fun p => ?_⟩
  have opened : ((s.logEntry e).printer p).openFault = (s.printer p).openFault :=
    updAt_view s.printers _ p _ Printer.openFault rfl
  have down : ((s.logEntry e).printer p).down = (s.printer p).down := updAt_view s.printers _ p _ Printer.down rfl
  rw [Printer.linked_iff, opened, down, ← Printer.linked_iff]
  exact h.linked p

theorem logTransient_faultsSound {s : State} (p : Fin 6) (c : FaultCode) (o : Occasion) (h : s.faultsSound) :
    (s.logTransient p c o).faultsSound :=
  (serves_arbitrate _).sameFaults.faultsSound (logEntry_faultsSound _ h rfl (fun _ => rfl) nofun nofun)

/-! ### Standing entries (R93) -/

theorem FaultEntry.core_of (e : FaultEntry) (o : Option Occasion) : (e.of o).core = e.core := by
  cases o <;> rfl

/-- With no OPEN entry one is opened and the printer placed. -/
theorem raise_open_faultsSound {s : State} {p : Fin 6} (c : FaultCode) (o : Option Occasion) (h : s.faultsBut p)
    (free : (s.printer p).openFault = none) : (s.raise p c o).faultsSound := by
  obtain ⟨fresh, range⟩ := freshFaultNumber_fresh h.1
  have core : ((blankEntry p .standing c).of o).coreAs s.freshFaultNumber =
      { number := s.freshFaultNumber, printer := p, cls := .standing, codes := [c], cleared := false } := by
    unfold FaultEntry.coreAs
    rw [FaultEntry.core_of]
    rfl
  have openedAt : ∀ (t : State) q, ((t.modPrinter p fun x => { x with openFault := some s.freshFaultNumber }).printer q).openFault =
      if q = p then some s.freshFaultNumber else (t.printer q).openFault := fun t q => by
    rw [State.printer_modPrinter]; split <;> rfl
  have view : ∀ t : State, (t.modPrinter p fun x => { x with openFault := some s.freshFaultNumber }).faultView =
      { t.faultView with opened := fun q => if q = p then some s.freshFaultNumber else (t.printer q).openFault } := fun t =>
    congrArg (FaultView.mk t.faultView.entries t.faultView.next) (funext (openedAt t))
  have logged : ((s.logEntry ((blankEntry p .standing c).of o)).modPrinter p fun x =>
      { x with openFault := some s.freshFaultNumber }).faultsBut p := by
    constructor
    · rw [view, faultView_logEntry, core]
      have same : ∀ q, ((s.logEntry ((blankEntry p .standing c).of o)).printer q).openFault = (s.printer q).openFault :=
        fun q => updAt_view s.printers _ q _ Printer.openFault rfl
      simp only [same]
      refine h.1.append _ _ _ ⟨range, nofun, by simp, by simp⟩ fresh (bump_range _) (fun q => ?_) (fun q hq => ?_) nofun
      · by_cases hq : q = p
        · simp [FaultCore.standsAt, hq]
        · simp [FaultCore.standsAt, hq, Ne.symm hq, State.faultView]
      · have : p = q := (of_decide_eq_true hq).2.2
        exact this ▸ free
    · intro q hq
      have other : ((s.logEntry ((blankEntry p .standing c).of o)).printer q).openFault = (s.printer q).openFault :=
        updAt_view s.printers _ q _ Printer.openFault rfl
      have down : ((s.logEntry ((blankEntry p .standing c).of o)).printer q).down = (s.printer q).down :=
        updAt_view s.printers _ q _ Printer.down rfl
      rw [State.printer_modPrinter, if_neg hq, Printer.linked_iff, other, down, ← Printer.linked_iff]
      exact h.2 q hq
  unfold State.raise
  rw [free]
  refine place_faultsSound ((serves_arbitrate _).sameFaults.faultsBut logged) _ ?_
  rw [(serves_arbitrate _).sameFaults.openFault, openedAt, if_pos rfl]
  split <;> rfl

theorem lists_iff (e : FaultEntry) (c : FaultCode) : e.lists c = true ↔ c ∈ e.core.codes := by
  unfold FaultEntry.lists FaultEntry.core
  rw [List.any_eq_true, List.mem_map]
  simp only [decide_eq_true_eq]

/-- A raise that joins an entry, seen in its core (R93). -/
def FaultCore.join (x : FaultCore) (c : FaultCode) : FaultCore :=
  if c ∈ x.codes then x else if x.codes.length < 5 then { x with codes := x.codes ++ [c] } else x

theorem core_join (e : FaultEntry) (c : FaultCode) : (e.join c).core = e.core.join c := by
  unfold FaultEntry.join FaultCore.join
  by_cases listed : e.lists c = true
  · rw [if_pos listed, if_pos ((lists_iff e c).mp listed)]
    exact core_mapMarks e _ fun m => by split <;> simp_all [freshCode]
  · rw [if_neg listed, if_neg fun h => listed ((lists_iff e c).mpr h)]
    have room : e.later.length < 4 ↔ e.core.codes.length < 5 := by simp [FaultEntry.core]; omega
    by_cases few : e.later.length < 4
    · rw [if_pos few, if_pos (room.mp few)]
      simp [FaultEntry.core, freshCode]
    · rw [if_neg few, if_neg fun h => few (room.mpr h)]

theorem FaultCore.join_law {x : FaultCore} (c : FaultCode) (h : x.Law) : (x.join c).Law := by
  unfold FaultCore.join
  split
  · exact h
  · split
    · exact ⟨h.range, h.transient, by simp; omega, List.nodup_append.mpr ⟨h.distinct, by simp, by
        rintro a ha b hb rfl
        rw [List.mem_singleton] at hb
        exact absurd (hb ▸ ha) ‹_›⟩⟩
    · exact h

theorem faultView_modFault (s : State) (n : Nat) (f : FaultEntry → FaultEntry) (g : FaultCore → FaultCore)
    (h : ∀ e, (f e).core = g e.core) : (s.modFault n f).faultView = s.faultView.modEntry n g s.faultView.opened := by
  have entries : (s.ret.faults.map fun e => if e.number = n then f e else e).map FaultEntry.core =
      (s.ret.faults.map FaultEntry.core).map fun c => if c.number = n then g c else c := by
    rw [List.map_map, List.map_map]
    refine List.map_congr_left fun e _ => ?_
    simp only [Function.comp]
    rw [show e.core.number = e.number from rfl]
    split
    · exact h e
    · rfl
  exact congrArg (fun l => FaultView.mk l s.ret.nextFault fun p => (s.printer p).openFault) entries

/-- A raise that joins keeps the log sound; it changes no printer but in its counters. -/
theorem join_sound {s : State} (n : Nat) (c : FaultCode) (h : s.faultView.Sound) :
    (s.modFault n (·.join c)).faultView.Sound := by
  rw [faultView_modFault s n _ (·.join c) (core_join · c)]
  refine h.recode n _ (fun x => ?_) fun x => FaultCore.join_law c
  unfold FaultCore.join
  split
  · rfl
  · split <;> rfl

theorem raise_joined {s : State} {p : Fin 6} {n : Nat} (c : FaultCode) (o : Option Occasion)
    (opened : (s.printer p).openFault = some n) :
    ∃ t, SameFaults s t ∧ s.raise p c o = t.modFault n (·.join c) := by
  unfold State.raise
  rw [opened]
  refine ⟨_, ?_, rfl⟩
  split
  · exact sameFaults_modPrinter s p _ rfl rfl
  · exact .refl s

theorem raise_faultsBut {s : State} {p : Fin 6} (c : FaultCode) (o : Option Occasion) (h : s.faultsBut p) :
    (s.raise p c o).faultsBut p := by
  cases opened : (s.printer p).openFault with
  | none => exact (raise_open_faultsSound c o h opened).but p
  | some n =>
    obtain ⟨t, same, eq⟩ := raise_joined c o opened
    rw [eq]
    have ht := same.faultsBut h
    exact ⟨join_sound n c ht.1, ht.2⟩

theorem raise_faultsSound {s : State} (p : Fin 6) (c : FaultCode) (o : Option Occasion) (h : s.faultsSound) :
    (s.raise p c o).faultsSound := by
  cases opened : (s.printer p).openFault with
  | none => exact raise_open_faultsSound c o (h.but p) opened
  | some n =>
    obtain ⟨t, same, eq⟩ := raise_joined c o opened
    rw [eq]
    have ht := (State.faultsSound_iff t).mp (same.faultsSound h)
    exact (State.faultsSound_iff _).mpr ⟨join_sound n c ht.1, ht.2⟩

/-- After a raise the printer's record names an entry. -/
theorem raise_opened (s : State) (p : Fin 6) (c : FaultCode) (o : Option Occasion) :
    ((s.raise p c o).printer p).openFault.isSome = true := by
  cases opened : (s.printer p).openFault with
  | none =>
    unfold State.raise
    rw [opened]
    simp only
    rw [(State.setPrinterState_record _ p _).2 p, (serves_arbitrate _).sameFaults.openFault, State.printer_modPrinter, if_pos rfl]
    rfl
  | some n =>
    obtain ⟨t, same, eq⟩ := raise_joined c o opened
    rw [eq]
    change (t.printer p).openFault.isSome = true
    rw [same.openFault, opened]
    rfl

theorem raiseDoubtSince_faultsSound {s : State} (p : Fin 6) (before : Nat) (h : s.faultsSound) :
    (s.raiseDoubtSince p before).faultsSound := by
  unfold State.raiseDoubtSince
  split
  · exact h
  · exact raise_faultsSound p _ _ h

theorem raiseDoubtSince_opened (s : State) (p : Fin 6) (before : Nat) (h : (s.printer p).openFault.isSome = true) :
    ((s.raiseDoubtSince p before).printer p).openFault.isSome = true := by
  unfold State.raiseDoubtSince
  split
  · exact h
  · exact raise_opened _ _ _ _

/-! ### Clearing (R96, R97, R103) -/

/-- No two printers name one entry. -/
theorem FaultView.Sound.opened_inj {v : FaultView} (h : v.Sound) {p q : Fin 6} {n : Nat} (hp : v.opened p = some n)
    (hq : v.opened q = some n) : p = q := by
  have found : ∀ r, v.opened r = some n → ∃ c ∈ v.entries, c.number = n ∧ c.printer = r := fun r hr => by
    have : n ∈ (v.entries.filter (·.standsAt r)).map (·.number) := by rw [h.opened r, hr]; simp
    obtain ⟨c, hc, number⟩ := List.mem_map.mp this
    obtain ⟨mem, stands⟩ := List.mem_filter.mp hc
    exact ⟨c, mem, number, (of_decide_eq_true stands).2.2⟩
  obtain ⟨c, hc, cn, cp⟩ := found p hp
  obtain ⟨d, hd, dn, dq⟩ := found q hq
  rw [← cp, ← dq, List.inj_on_of_nodup_map h.numbers hc hd (cn.trans dn.symm)]

/-- The entry a printer names CLEARED, and named no more: the other printers keep theirs. -/
theorem clearOpen_faultsBut {s u : State} {p : Fin 6} {n : Nat} (h : s.faultsBut p) (opened : (s.printer p).openFault = some n)
    (cause : ClearingCause) (clock : Option Nat) (same : SameFaults (s.modFault n (·.clear cause clock)) u) (f : Printer → Printer)
    (own : (f (u.printer p)).openFault = none) : (u.modPrinter p f).faultsBut p := by
  have linked : ∀ q, q ≠ p → ((u.modPrinter p f).printer q).linked := fun q hq => by
    rw [State.printer_modPrinter, if_neg hq, same.linked]
    exact h.2 q hq
  refine ⟨?_, linked⟩
  have cleared := faultView_modFault s n (·.clear cause clock) (fun c => { c with cleared := true }) fun _ => rfl
  have view : (u.modPrinter p f).faultView =
      s.faultView.modEntry n (fun c => { c with cleared := true }) (u.modPrinter p f).faultView.opened :=
    congrArg (fun v : FaultView => { v with opened := (u.modPrinter p f).faultView.opened }) (same.view.trans cleared)
  rw [view]
  refine h.1.clear n _ fun q => ?_
  have before : s.faultView.opened q = (u.printer q).openFault := (same.openFault q).symm
  change ((u.modPrinter p f).printer q).openFault = _
  rw [State.printer_modPrinter, before]
  split
  · subst q
    rw [own, ← before, if_pos (show s.faultView.opened p = some n from opened)]
  · rename_i hq
    rw [if_neg fun hu => hq (h.1.opened_inj (before.trans hu) opened)]

/-- The entry cleared by POWER PRINTER off leaves the printer without one. -/
theorem clearAtPowerOff_faultsSound {s : State} {p : Fin 6} (h : s.faultsBut p) (off : (s.printer p).state = .poweredDown) :
    (s.clearAtPowerOff p).faultsSound := by
  unfold State.clearAtPowerOff
  split
  · rename_i free
    exact h.sound (by rw [Printer.linked_iff, Printer.down, free, off]; rfl)
  · rename_i n opened
    refine (serves_arbitrate _).sameFaults.faultsSound
      ((clearOpen_faultsBut h opened .powerOff s.office.clock (.refl _) (fun x => { x with openFault := none }) rfl).sound ?_)
    have own : (s.modFault n (·.clear .powerOff s.office.clock)).printer p = s.printer p := rfl
    rw [State.printer_modPrinter, if_pos rfl, own, Printer.linked_iff, Printer.down]
    simp [off]

theorem State.fault?_some {s : State} {n : Nat} {e : FaultEntry} (h : s.fault? n = some e) : e ∈ s.ret.faults ∧ e.number = n :=
  ⟨List.mem_of_find?_eq_some h, by simpa using List.find?_some h⟩

/-- The clearing test either changes nothing or clears the entry the printer names and places a FAULTED printer. -/
theorem clearingTest_cases {s : State} {p : Fin 6} (answered : Bool) (h : s.faultsBut p) :
    s.clearingTest p answered = s ∨
      (s.holdsCondition p answered = false ∧ (s.printer p).openFault.isSome = true ∧
        ∃ t : State, t.faultsBut p ∧ (t.printer p).openFault = none ∧ (t.printer p).state = (s.printer p).state ∧
          s.clearingTest p answered = if (t.printer p).state = .faulted then t.leaveFaulted p else t) := by
  unfold State.clearingTest
  split
  · exact .inl rfl
  · rename_i e found
    obtain ⟨n, opened, found⟩ := Option.bind_eq_some_iff.mp found
    obtain ⟨-, rfl⟩ := State.fault?_some found
    split
    · rename_i met
      simp only [Bool.and_eq_true, Bool.not_eq_true'] at met
      have served := serves_arbitrate (s.modFault e.number (·.clear .met s.office.clock))
      refine .inr ⟨met.2, by rw [opened]; rfl, _, clearOpen_faultsBut h opened .met s.office.clock served.sameFaults (fun x => { x with
        openFault := none
        confirmPending := false
        spoilCount := if e.lists .repeatedSpoil then 0 else x.spoilCount }) rfl, ?_, ?_, rfl⟩
      · rw [State.printer_modPrinter, if_pos rfl]
      · rw [State.printer_modPrinter, if_pos rfl]
        exact served.printerState p
    · exact .inl rfl

theorem clearingTest_faultsBut {s : State} {p : Fin 6} (answered : Bool) (h : s.faultsBut p) :
    (s.clearingTest p answered).faultsBut p := by
  rcases clearingTest_cases answered h with eq | ⟨-, -, t, ht, free, -, eq⟩
  · rw [eq]; exact h
  · rw [eq]
    split
    · exact (leaveFaulted_faultsSound ht free).but p
    · exact ht

/-- Outside an identity reply an OFFLINE printer holds a condition (R94), so what clears is placed at once. -/
theorem clearingTest_faultsSound {s : State} (p : Fin 6) (h : s.faultsSound) : (s.clearingTest p false).faultsSound := by
  rcases clearingTest_cases false (h.but p) with eq | ⟨met, opened, t, ht, free, state, eq⟩
  · rw [eq]; exact h
  · have online : (s.printer p).state ≠ .offline := fun off => by simp [State.holdsCondition, off] at met
    have faulted : (s.printer p).state = .faulted := by simpa [online] using (h.linked p).mp opened
    rw [eq, if_pos (state.trans faulted)]
    exact leaveFaulted_faultsSound ht free

/-! ### The handling of a reply (R31 to R35, R45) -/

theorem countConsecutive_faultsSound {s : State} (p : Fin 6) (e : InPathEntry) (h : s.faultsSound) :
    (s.countConsecutive p e).faultsSound := by
  have counted := (sameFaults_modPrinter s p
    (fun x => { x with spoilCount := saturating 3 ((s.printer p).spoilCount + 1) }) rfl rfl).faultsSound h
  unfold State.countConsecutive
  simp only
  split
  · exact raise_faultsSound p _ _ counted
  · exact counted

theorem raiseOutcome_faultsSound {s : State} (p : Fin 6) (o : PrintOutcome) (e : InPathEntry) (h : s.faultsSound) :
    (s.raiseOutcome p o e).1.faultsSound := by
  cases o with
  | done => exact (sameFaults_modPrinter s p (fun x => { x with spoilCount := 0 }) rfl rfl).faultsSound h
  | spoiled cause =>
    refine countConsecutive_faultsSound p e ?_
    cases cause with
    | misfeed => exact logTransient_faultsSound p _ _ h
    | stripe => exact logTransient_faultsSound p _ _ h
    | jam => exact raise_faultsSound p _ _ h
    | cutter => exact raise_faultsSound p _ _ h
  | notFed => exact h
  | binEmpty => exact logTransient_faultsSound p _ _ h

theorem sameFaults_makeDoubtful_foldl (s : State) (p : Fin 6) (es : List InPathEntry) :
    SameFaults s (es.foldl (fun s e => s.makeDoubtful p e) s) :=
  sameFaults_foldl _ (fun s e => sameFaults_makeDoubtful s p e) es s

theorem applySettlement_faultsSound {s : State} (p : Fin 6) (o : PrintOutcome) (w : Settlement) (h : s.faultsSound) :
    (s.applySettlement p o w).faultsSound := by
  unfold State.applySettlement
  simp only
  refine raiseDoubtSince_faultsSound p _ ((sameFaults_returnAll _ p _).faultsSound ?_)
  cases w.outcome with
  | none => exact (sameFaults_makeDoubtful_foldl s p _).faultsSound h
  | some e =>
    exact ((sameFaults_makeDoubtful_foldl _ p _).trans (sameFaults_applyOutcome _ p o _ e)).faultsSound
      (raiseOutcome_faultsSound p o e h)

theorem Printer.takeSample_record (x : Printer) (n : Nat) :
    (x.takeSample n).openFault = x.openFault ∧ (x.takeSample n).state = x.state := by
  unfold Printer.takeSample; split <;> exact ⟨rfl, rfl⟩

/-- A sample raises SENSOR-FAIL, or leaves the log's view alone (R42). -/
theorem takeSample_cases (s : State) (p : Fin 6) (n : Nat) :
    (∃ t, SameFaults s t ∧ s.takeSample p n = t.raise p .sensorFail none) ∨ SameFaults s (s.takeSample p n) := by
  unfold State.takeSample
  split
  · exact .inl ⟨_, sameFaults_modPrinter s p (fun x => { x with
      average := some sensorMarker
      sensorFailed := true
      limits := some (s.heatLimits p) }) rfl rfl, rfl⟩
  · refine .inr ?_
    split
    · have sampled : SameFaults s (s.modPrinter p fun x => { x.takeSample n with limits := some (s.heatLimits p) }) := by
        obtain ⟨opened, state⟩ := (s.printer p).takeSample_record n
        exact sameFaults_modPrinter s p _ opened (by rw [Printer.down, Printer.down, state])
      simp only
      split
      · exact sampled.trans (sameFaults_markCodes _ p _ (CodeMarks.meet_code _))
      · exact sampled
    · exact .refl s

theorem takeSample_faultsSound {s : State} (p : Fin 6) (n : Nat) (h : s.faultsSound) : (s.takeSample p n).faultsSound := by
  rcases takeSample_cases s p n with ⟨t, same, eq⟩ | same
  · rw [eq]; exact raise_faultsSound p _ _ (same.faultsSound h)
  · exact same.faultsSound h

/-- Neither side of the heat's comparison is FAULTED or OFFLINE (R43). -/
theorem sameFaults_compareHeat (s : State) (p : Fin 6) : SameFaults s (s.compareHeat p) := by
  have moves : ∀ st : PrinterState, (s.printer p).down = false → st ∉ [PrinterState.faulted, .offline] →
      SameFaults s (s.setPrinterState p st) := fun st up place =>
    sameFaults_setPrinterState s p st (by rw [up]; exact decide_eq_false place)
  unfold State.compareHeat
  split
  · rename_i ready
    split
    · exact moves _ (by rw [Printer.down, ready]; rfl) (by simp)
    · exact .refl s
  · rename_i busy
    split
    · exact moves _ (by rw [Printer.down, busy]; rfl) (by simp)
    · exact .refl s
  · rename_i held
    split
    · exact moves _ (by rw [Printer.down, held]; rfl) (by split <;> simp)
    · exact .refl s
  all_goals exact .refl s

theorem takeCondition_faultsSound {s : State} (p : Fin 6) (c : Condition) (h : s.faultsSound) :
    (s.takeCondition p c).faultsSound := by
  unfold State.takeCondition
  split
  · exact raise_faultsSound p _ _ h
  · exact (sameFaults_markCodes s p _ CodeMarks.ready_code).faultsSound h

/-- A READY or HEAT-HOLD printer withdrawn. -/
theorem sameFaults_completeDisable (s : State) (p : Fin 6) (up : (s.printer p).down = false) :
    SameFaults s (s.completeDisable p) := by
  refine (sameFaults_modPrinter s p (fun x => { x with disablePending := false }) rfl rfl).trans
    (sameFaults_setPrinterState _ p _ ?_)
  rw [State.printer_modPrinter, if_pos rfl]
  exact up.symm

theorem sameFaults_finishDisable (s : State) (p : Fin 6) : SameFaults s (s.finishDisable p) := by
  unfold State.finishDisable
  simp only
  split
  · rename_i h
    exact sameFaults_completeDisable s p (by rcases h.2.2 with h | h <;> rw [Printer.down, h] <;> rfl)
  · exact .refl s

theorem receiveReply_faultsSound {s : State} (p : Fin 6) (r : PrinterReply) (h : s.faultsSound) :
    (s.receiveReply p r).faultsSound := by
  unfold State.receiveReply
  split
  · exact h
  · split
    · unfold State.acceptReply
      simp only
      refine ((sameFaults_finishDisable _ p).trans ((sameFaults_choose _ _ p).trans (sameFaults_wakeAll _ _))).faultsSound ?_
      refine clearingTest_faultsSound p (takeCondition_faultsSound p _ ?_)
      refine (sameFaults_compareHeat _ p).faultsSound (takeSample_faultsSound p _ ?_)
      refine (sameFaults_takeAcceptance _ p _ _ _).faultsSound (applySettlement_faultsSound p _ _ ?_)
      exact (sameFaults_modPrinter s p (fun x => { x with outstanding := none }) rfl rfl).faultsSound h
    · exact h

theorem linkAnswered_faultsBut {s : State} {p : Fin 6} (c : Condition) (h : s.faultsBut p) : (s.linkAnswered p c).faultsBut p := by
  have met := (sameFaults_markCodes s p (·.meet .linkLost) (CodeMarks.meet_code _)).faultsBut h
  unfold State.linkAnswered
  simp only
  refine clearingTest_faultsBut true ?_
  split
  · exact (sameFaults_markCodes _ p _ CodeMarks.ready_code).faultsBut
      (met.modPrinter (fun x => { x with lastCondition := some .ready }) rfl)
  · exact met

theorem raiseAtIdentity_faultsBut {s : State} {p : Fin 6} (c : Condition) (h : s.faultsBut p) :
    (s.raiseAtIdentity p c).faultsBut p := by
  have noted := h.modPrinter (fun x => { x with lastCondition := some c }) rfl
  have doubted : ∀ t : State, t.faultsBut p → (if t.hasDoubt p then t.raise p .doubt none else t).faultsBut p := fun t ht => by
    split
    · exact raise_faultsBut _ _ ht
    · exact ht
  unfold State.raiseAtIdentity
  simp only
  split
  · exact raise_faultsBut _ _ (doubted _ noted)
  · exact doubted _ noted

theorem receiveIdentity_faultsSound {s : State} (p : Fin 6) (r : PrinterReply) (i : Identity) (h : s.faultsSound) :
    (s.receiveIdentity p r i).faultsSound := by
  unfold State.receiveIdentity
  split
  · exact h
  · split
    · unfold State.acceptIdentity
      simp only
      refine ((sameFaults_choose _ _ p).trans (sameFaults_wakeAll _ _)).faultsSound (placeIdentified_faultsSound ?_)
      refine raiseAtIdentity_faultsBut _ (linkAnswered_faultsBut _ (State.faultsSound.but ?_ p))
      exact takeSample_faultsSound p _ ((sameFaults_modPrinter s p (·.identified _ r i) rfl rfl).faultsSound h)
    · exact h

/-! ### Timers and requests -/

theorem loseLink_faultsSound {s : State} (p : Fin 6) (h : s.faultsSound) : (s.loseLink p).faultsSound := by
  unfold State.loseLink
  simp only
  refine (sameFaults_wakeAll _ _).faultsSound ?_
  refine (sameFaults_modPrinter _ p (fun x => { x with timeoutCount := 0 }) rfl rfl).faultsSound ?_
  refine place_faultsSound (State.faultsSound.but (raiseDoubtSince_faultsSound p _ (raise_faultsSound p _ _ ?_)) p) _
    (raiseDoubtSince_opened _ p _ (raise_opened _ p _ _))
  exact (sameFaults_makeDoubtful_foldl s p _).faultsSound h

theorem expireReply_faultsSound {s : State} (p : Fin 6) (h : s.faultsSound) : (s.expireReply p).faultsSound := by
  unfold State.expireReply
  split
  · exact h
  · split
    · exact h
    · have freed := (sameFaults_modPrinter s p (fun x => { x with
        outstanding := none
        timeoutCount := (s.printer p).timeoutCount + 1 }) rfl rfl).faultsSound h
      simp only
      split
      · exact (sameFaults_send _ p _ _).faultsSound freed
      · exact loseLink_faultsSound p freed

theorem raiseDoubt_faultsSound {s : State} (p : Fin 6) (h : s.faultsSound) :
    (if s.hasDoubt p then s.raise p .doubt none else s).faultsSound := by
  split
  · exact raise_faultsSound p _ _ h
  · exact h

theorem expireIdent_faultsSound {s : State} (p : Fin 6) (h : s.faultsSound) : (s.expireIdent p).faultsSound := by
  unfold State.expireIdent
  split
  · exact h
  · split
    · have freed := (sameFaults_modPrinter s p (fun x => { x with outstanding := none }) rfl rfl).faultsSound h
      simp only
      split
      · unfold State.giveUpIdentifying
        simp only
        refine ((sameFaults_modPrinter _ p (fun x => { x with identTries := 0 }) rfl rfl).trans
          (sameFaults_wakeAll _ _)).faultsSound ?_
        exact raiseDoubt_faultsSound p (raise_faultsSound p _ _ freed)
      · exact freed
    · exact h

theorem sameFaults_identDue (s : State) (p : Fin 6) : SameFaults s (s.identDue p) := by
  unfold State.identDue
  simp only
  split
  · exact sameFaults_sendIdent s p
  · exact .refl s

theorem sameFaults_withdraw (s : State) (p : Fin 6) : SameFaults s (s.withdraw p) := by
  unfold State.withdraw
  simp only
  split
  · rename_i h
    refine sameFaults_setPrinterState s p _ ?_
    rcases h.1 with h | ⟨h, -⟩ <;> rw [Printer.down, h] <;> rfl
  · exact sameFaults_modPrinter s p (fun x => { x with disablePending := true }) rfl rfl

theorem powerOff_faultsSound {s : State} (p : Fin 6) (h : s.faultsSound) : (s.powerOff p).faultsSound := by
  have placed : (s.setPrinterState p .poweredDown).faultsBut p := by
    obtain ⟨o, -, serves⟩ := serves_setPrinterState s p .poweredDown
    exact serves.sameFaults.faultsBut ((h.but p).modPrinter (fun x => { x with state := .poweredDown, outstanding := o }) rfl)
  refine clearAtPowerOff_faultsSound (placed.modPrinter (fun x => { x with disablePending := false, confirmPending := false }) rfl) ?_
  rw [State.printer_modPrinter, if_pos rfl]
  exact (s.setPrinterState_record p _).1

/-- A printer that is neither FAULTED nor OFFLINE names no entry. -/
theorem State.faultsSound.free {s : State} (h : s.faultsSound) {p : Fin 6} (up : (s.printer p).down = false) :
    (s.printer p).openFault = none := by
  have := (Printer.linked_iff _).mp (h.linked p)
  rw [up, Option.isSome_eq_false_iff, Option.isNone_iff_eq_none] at this
  exact this

theorem reenable_faultsSound {s : State} (p : Fin 6) (disabled : (s.printer p).state = .disabled) (h : s.faultsSound) :
    (s.reenable p).faultsSound := by
  have up : (s.printer p).down = false := by rw [Printer.down, disabled]; rfl
  unfold State.reenable
  simp only
  refine ((sameFaults_send _ p _ _).trans (sameFaults_wakeAll _ _)).faultsSound (raiseDoubt_faultsSound p ?_)
  refine place_faultsSound ((h.but p).modPrinter (fun x => { x with
    lastAcceptance := none
    lastCondition := none
    refill := true }) rfl) _ ?_
  rw [State.printer_modPrinter, if_pos rfl]
  change (s.printer p).openFault.isSome = _
  rw [h.free up]
  rfl

theorem logNote_faultsSound {s : State} (p : Fin 6) (pos : Position) (note : Nat) (withdraw : Bool)
    (room : s.ret.faults.countP FaultEntry.attends < attendedLimit) (h : s.faultsSound) :
    (s.logNote p pos note withdraw).faultsSound := by
  have few : s.faultView.entries.countP (·.attends) = s.ret.faults.countP FaultEntry.attends := by
    simp only [State.faultView, List.countP_map]
    exact List.countP_congr fun e _ => by simp [FaultEntry.core, FaultCore.attends, FaultEntry.attends]
  exact (serves_arbitrate _).sameFaults.faultsSound (logEntry_faultsSound _ h rfl nofun nofun fun _ _ => few ▸ room)

/-- An attended entry closed: no printer names it. -/
theorem closeNote_faultsSound {s : State} {number : Nat} {e : FaultEntry} (found : s.fault? number = some e)
    (attended : e.attends = true) (h : s.faultsSound) : (s.closeNote number).faultsSound := by
  have unnamed : ∀ p, (s.printer p).openFault ≠ some number := fun p opened => by
    have named : number ∈ (s.faultView.entries.filter (·.standsAt p)).map (·.number) := by
      rw [h.view.opened p, show s.faultView.opened p = some number from opened]; simp
    obtain ⟨c, hc, cn⟩ := List.mem_map.mp named
    obtain ⟨hc, stands⟩ := List.mem_filter.mp hc
    obtain ⟨mem, number⟩ := State.fault?_some found
    have same : c = e.core := List.inj_on_of_nodup_map h.view.numbers hc (List.mem_map_of_mem mem) (cn.trans number.symm)
    have cls : e.cls = .standing := by
      rw [same] at stands
      exact (of_decide_eq_true stands).1
    simp [FaultEntry.attends, cls] at attended
  refine (serves_arbitrate _).sameFaults.faultsSound ((State.faultsSound_iff _).mpr ⟨?_, fun p => h.linked p⟩)
  rw [faultView_modFault s number (·.clear .closed s.office.clock) (fun c => { c with cleared := true }) fun _ => rfl]
  exact h.view.clear number _ fun p => by rw [if_neg (show s.faultView.opened p ≠ some number from unnamed p)]

end Sys2Proof.Machine
end

