-- ==== Sys2Proof/Proofs/PoolPathsAndHistory.lean ====
section
/-! O58: start-up and CLEAR AUDIT in the fault log, every effect, and the statement. -/

namespace Sys2Proof.Machine

/-! ### Printers identified afresh (R52, R184) -/

/-- The log's view is sound and no printer's record names an entry: what holds while a start-up or CLEAR AUDIT runs. -/
def State.unnamed (s : State) : Prop := s.faultView.Sound ∧ ∀ q, (s.printer q).openFault = none

theorem State.unnamed.faultsSound {s : State} (h : s.unnamed) (up : ∀ q, (s.printer q).down = false) : s.faultsSound :=
  (State.faultsSound_iff s).mpr ⟨h.1, fun q => by rw [Printer.linked_iff, h.2 q, up q]; rfl⟩

/-- A printer identified afresh: it is STARTING, and the others are as they were. -/
theorem startIdentification_record (s : State) (p : Fin 6) :
    (s.startIdentification p).faultView = s.faultView ∧
      ∀ q, ((s.startIdentification p).printer q).down = (decide (q ≠ p) && (s.printer q).down) := by
  obtain ⟨o, -, serves⟩ := serves_setPrinterState (s.modPrinter p Printer.forget) p .starting
  have moved : SameFaults ((s.modPrinter p Printer.forget).modPrinter p fun x => { x with state := .starting, outstanding := o })
      (s.startIdentification p) := serves.sameFaults.trans (sameFaults_sendIdent _ p)
  have record : ∀ q, ((s.modPrinter p Printer.forget).modPrinter p fun x =>
      { x with state := .starting, outstanding := o }).printer q =
        if q = p then { (s.printer q).forget with state := .starting, outstanding := o } else s.printer q := fun q => by
    rw [State.printer_modPrinter, State.printer_modPrinter]
    split <;> rfl
  constructor
  · rw [moved.view]
    have opened : ∀ q, (((s.modPrinter p Printer.forget).modPrinter p fun x =>
        { x with state := .starting, outstanding := o }).printer q).openFault = (s.printer q).openFault := fun q => by
      rw [record]; split <;> rfl
    unfold State.faultView
    simp only [opened]
    rfl
  · intro q
    rw [moved.down, record]
    split
    · simp [*, Printer.down]
    · simp [*]

/-- Identifying some of the printers in turn: those still FAULTED or OFFLINE were so, and were passed over. -/
theorem startIdentification_foldl (test : State → Fin 6 → Bool) (l : List (Fin 6)) (s : State) :
    let t := l.foldl (fun s p => if test s p then s.startIdentification p else s) s
    t.faultView = s.faultView ∧ ∀ q, (t.printer q).down = true → (s.printer q).down = true := by
  induction l generalizing s with
  | nil => exact ⟨rfl, fun _ => id⟩
  | cons p l ih =>
    obtain ⟨view, down⟩ := ih (if test s p then s.startIdentification p else s)
    obtain ⟨view', down'⟩ := startIdentification_record s p
    rw [List.foldl_cons]
    refine ⟨view.trans ?_, fun q hq => ?_⟩
    · split
      · exact view'
      · rfl
    · have := down q hq
      split at this
      · rw [down', Bool.and_eq_true] at this; exact this.2
      · exact this

theorem State.unnamed.startPrinters {s : State} (h : s.unnamed) (up : ∀ q, (s.printer q).down = false) :
    s.startPrinters.unnamed ∧ ∀ q, (s.startPrinters.printer q).down = false := by
  have identified := startIdentification_foldl (fun s p => s.isFitted p && (s.live.printerItems[p]).enabled) allPrinters s
  have view : s.startPrinters.faultView = s.faultView := identified.1
  have down : ∀ q, (s.startPrinters.printer q).down = true → (s.printer q).down = true := identified.2
  clear identified
  generalize s.startPrinters = t at view down
  refine ⟨⟨view.symm ▸ h.1, fun q => (congrArg (·.opened q) view).trans (h.2 q)⟩, fun q => ?_⟩
  by_contra hq
  rw [Bool.not_eq_false] at hq
  exact absurd (down q hq) (by rw [up q]; decide)

/-- CLEAR AUDIT identifies every FAULTED and every OFFLINE printer afresh. -/
theorem restart_foldl_down (l : List (Fin 6)) (s : State) (q : Fin 6) (hq : q ∈ l) :
    ((l.foldl (fun s p => if (s.printer p).state.restarts then s.startIdentification p else s) s).printer q).down = false := by
  induction l generalizing s with
  | nil => cases hq
  | cons p l ih =>
    rw [List.foldl_cons]
    by_cases later : q ∈ l
    · exact ih _ later
    · have hp : q = p := (List.mem_cons.mp hq).resolve_right later
      subst q
      by_contra down
      rw [Bool.not_eq_false] at down
      have := (startIdentification_foldl (fun s p => (s.printer p).state.restarts) l _).2 p down
      split at this
      · rw [(startIdentification_record s p).2] at this; simp at this
      · rename_i skip
        have : (s.printer p).state ∈ [PrinterState.faulted, .offline] := of_decide_eq_true this
        simp only [List.mem_cons, List.not_mem_nil, or_false] at this
        rcases this with h | h <;> rw [h] at skip <;> exact skip rfl

theorem State.unnamed.restartPrinters {s : State} (h : s.unnamed) : s.restartPrinters.faultsSound := by
  have view : s.restartPrinters.faultView = s.faultView :=
    (startIdentification_foldl (fun s p => (s.printer p).state.restarts) allPrinters s).1
  have down : ∀ q, (s.restartPrinters.printer q).down = false := fun q =>
    restart_foldl_down allPrinters s q (List.mem_finRange q)
  generalize s.restartPrinters = t at view down
  exact State.unnamed.faultsSound ⟨view ▸ h.1, fun q => (congrArg (·.opened q) view).trans (h.2 q)⟩ down

theorem unnamed_clearLog (s : State) : s.clearLog.unnamed := by
  have opened : ∀ q, (s.clearLog.printer q).openFault = none := fun q => by simp [State.clearLog, State.printer]
  refine ⟨⟨?_, ?_, ?_, ?_, ?_, fun p => ?_⟩, opened⟩
  · exact Nat.zero_le 64
  · exact List.nodup_nil
  · exact nofun
  · exact (show 1 ≤ 1 ∧ 1 ≤ 65535 by decide)
  · exact Nat.zero_le 24
  · change [] = ((s.clearLog.printer p).openFault).toList
    rw [opened p]
    rfl

theorem clearAudit_faultsSound (s : State) : s.clearAudit.faultsSound := by
  have cleared : ∀ t : State, t.clearLog.restartPrinters.faultsSound := fun t => (unnamed_clearLog t).restartPrinters
  have rest : SameFaults s.clearRegister.clearLog.restartPrinters s.clearAudit :=
    sameFaults_of_keeps (clearAudit_rest s) (by decide)
  exact rest.faultsSound (cleared _)

/-! ### Start-up (R97, R109) -/

/-- An entry's core as start-up leaves it: no standing entry stays OPEN. -/
def FaultCore.atStart (c : FaultCore) : FaultCore := if c.cls = .standing then { c with cleared := true } else c

theorem core_clearStanding (e : FaultEntry) :
    (if e.cls = .standing ∧ ¬ e.cleared then e.clear .startUp none else e).core = e.core.atStart := by
  unfold FaultCore.atStart
  by_cases standing : e.cls = .standing
  · rw [if_pos (show e.core.cls = .standing from standing)]
    by_cases cleared : e.cleared = true
    · rw [if_neg (by simp [cleared])]
      simp [FaultEntry.core, cleared]
    · rw [if_pos ⟨standing, cleared⟩]
      rfl
  · rw [if_neg (by simp [standing]), if_neg (show ¬ e.core.cls = .standing from standing)]

/-- Every OPEN standing entry is CLEARED at start-up. -/
theorem clearStanding_sound {s t : State} (h : s.faultView.Sound) (entries : t.faultView.entries = s.faultView.entries)
    (next : t.faultView.next = s.faultView.next) (free : ∀ q, (t.printer q).openFault = none) : t.clearStanding.unnamed := by
  have cleared : t.clearStanding.faultView.entries = s.faultView.entries.map FaultCore.atStart := by
    rw [← entries]
    simp only [State.faultView, List.map_map]
    change (t.ret.faults.map _).map _ = _
    rw [List.map_map]
    exact List.map_congr_left fun e _ => core_clearStanding e
  have view : t.clearStanding.faultView =
      { entries := s.faultView.entries.map FaultCore.atStart, next := s.faultView.next, opened := fun _ => none } :=
    congr (congrArg₂ FaultView.mk cleared next) (funext free)
  refine ⟨?_, free⟩
  rw [view]
  constructor
  · simpa using h.size
  · have : (s.faultView.entries.map FaultCore.atStart).map (·.number) = s.faultView.entries.map (·.number) := by
      rw [List.map_map]
      exact List.map_congr_left fun c _ => by simp only [Function.comp, FaultCore.atStart]; split <;> rfl
    exact this ▸ h.numbers
  · intro c hc
    obtain ⟨d, hd, rfl⟩ := List.mem_map.mp hc
    unfold FaultCore.atStart
    split
    · exact ⟨(h.law d hd).range, fun _ => rfl, (h.law d hd).few, (h.law d hd).distinct⟩
    · exact h.law d hd
  · exact h.next
  · refine le_trans ?_ h.attended
    rw [List.countP_map]
    refine List.countP_mono_left fun c _ hc => ?_
    simp only [Function.comp, FaultCore.atStart] at hc
    split at hc
    · rename_i standing
      simp [FaultCore.attends, standing] at hc
    · exact hc
  · intro p
    have none : (s.faultView.entries.map FaultCore.atStart).filter (·.standsAt p) = [] := by
      rw [List.filter_eq_nil_iff]
      intro c hc stands
      obtain ⟨d, -, rfl⟩ := List.mem_map.mp hc
      obtain ⟨cls, isOpen, -⟩ := of_decide_eq_true stands
      unfold FaultCore.atStart at cls isOpen
      split at cls
      · rw [if_pos ‹_›] at isOpen; cases isOpen
      · exact absurd cls ‹_›
    rw [none]
    rfl

theorem sameFaults_doubtPaths (s : State) : SameFaults s s.doubtPaths :=
  (sameFaults_foldl _ (fun s p => sameFaults_makeDoubtful_foldl s p _) _ s).trans (serves_lowStockAll _).sameFaults

theorem sameFaults_loadLayouts (s : State) (offered : Vector (List FieldEntry) 8) : SameFaults s (s.loadLayouts offered) := by
  refine sameFaults_foldl _ (fun s k => ?_) _ s
  split <;> exact ⟨rfl, fun _ => rfl⟩

theorem sameFaults_takeImage (s : State) (m : SettingsImage) : SameFaults s (s.takeImage m) :=
  ((sameFaults_setLive s _).trans (sameFaults_setStockTypes _ _)).trans (sameFaults_loadLayouts _ m.layouts)

theorem sameFaults_verifyChecksum (s : State) : SameFaults s s.verifyChecksum := by
  unfold State.verifyChecksum
  split <;> exact ⟨rfl, fun _ => rfl⟩

theorem sameFaults_placeStart (s : State) : SameFaults s s.placeStart := by
  unfold State.placeStart
  exact ((serves_pushNotice s _).sameFaults.trans (sameFaults_setNotices _ _)).trans (serves_arbitrate _).sameFaults

theorem clearVolatile_printer (s : State) (cause : ResetCause) (straps : Straps) (q : Fin 6) :
    (s.clearVolatile cause straps).printer q = clearedPrinter := by
  simp [State.clearVolatile, State.printer, State.emptyConsole]

theorem startUp_faultsSound {s : State} (cause : ResetCause) (straps : Straps) (h : s.faultsSound) :
    (s.startUp cause straps).faultsSound := by
  have early : SameFaults (s.clearVolatile cause straps) ((s.clearVolatile cause straps).loadAtStart.verifyChecksum.doubtPaths) :=
    (((sameFaults_takeImage _ _).trans (sameFaults_setStore _ _)).trans (sameFaults_verifyChecksum _)).trans (sameFaults_doubtPaths _)
  have settled : ∀ t : State, t.clearStanding.unnamed → (∀ q, (t.printer q).down = false) →
      t.clearStanding.settlePositions.startPrinters.placeStart.faultsSound := fun t ht up => by
    obtain ⟨started, down⟩ := State.unnamed.startPrinters (s := t.clearStanding.settlePositions) ht up
    exact (sameFaults_placeStart _).faultsSound (started.faultsSound down)
  have entries := congrArg FaultView.entries early.view
  have next := congrArg FaultView.next early.view
  refine settled _ (clearStanding_sound h.view entries next fun q => ?_) fun q => ?_
  · rw [early.openFault, clearVolatile_printer]; rfl
  · rw [early.down, clearVolatile_printer]; rfl

/-! ### Every effect -/

theorem sameFaults_storeDone (s : State) (r : StoreResult) : SameFaults s (s.storeDone r) :=
  (sameFaults_setStore s _).trans (serves_arbitrate _).sameFaults

theorem settleDoubt_faultsSound {s : State} (d : DoubtfulEntry) (h : s.faultsSound) : (s.settleDoubt d).faultsSound := by
  unfold State.settleDoubt
  split
  · exact h
  · exact clearingTest_faultsSound _ ((sameFaults_markCodes s _ _ (CodeMarks.meet_code _)).faultsSound h)

theorem resolveIssued_faultsSound {s : State} (d : DoubtfulEntry) (h : s.faultsSound) : (s.resolveIssued d).faultsSound := by
  have off : ∀ f l, SameFaults s ((s.modPack d.pack f).setDoubtful l) := fun f l =>
    (sameFaults_modPack s _ f).trans (sameFaults_setDoubtful _ l)
  unfold State.resolveIssued
  simp only
  refine settleDoubt_faultsSound d ?_
  split
  · exact (off _ _).faultsSound h
  · exact ((off _ _).trans (sameFaults_credit _ _ _ _ _ _ _ _)).faultsSound h

theorem resolveSpoiled_faultsSound {s : State} (d : DoubtfulEntry) (h : s.faultsSound) : (s.resolveSpoiled d).faultsSound := by
  have off : ∀ f l, SameFaults s ((s.modPack d.pack f).setDoubtful l) := fun f l =>
    (sameFaults_modPack s _ f).trans (sameFaults_setDoubtful _ l)
  unfold State.resolveSpoiled
  simp only
  refine settleDoubt_faultsSound d ?_
  split
  · exact (off _ _).faultsSound h
  · exact ((off _ _).trans (sameFaults_countSpoil _ _ _ _)).faultsSound h

theorem sameFaults_packPlaced (s before : State) (l : Location) : SameFaults s (s.packPlaced before l) := by
  cases l with
  | store => exact sameFaults_wakeAll s before
  | bin => exact (serves_passAll s).sameFaults.trans (sameFaults_wakeAll _ _)

theorem sameFaults_enterSetup (s : State) : SameFaults s s.enterSetup := by
  unfold State.enterSetup
  split <;> exact ⟨rfl, fun _ => rfl⟩

theorem sameFaults_writeStockType (s : State) (k : Fin 8) (d : StockDefinition) (threshold : Nat) :
    SameFaults s (s.writeStockType k d threshold) := by
  unfold State.writeStockType
  split
  · exact (sameFaults_setStockTypes s _).trans (serves_lowStockCheck _ _).sameFaults
  · exact ((sameFaults_setStockTypes s _).trans (sameFaults_setLive _ _)).trans (serves_lowStockCheck _ _).sameFaults

theorem sameFaults_acceptJob (s : State) (pos : Position) (k : Fin 8) (routing : Option (Fin 6)) (p : Fin 6) (copies value : Nat)
    (d : Tender) (slots : List (List Byte)) : SameFaults s (s.acceptJob pos k routing p copies value d slots) :=
  (((sameFaults_setPool s _).trans (sameFaults_setNextTag _ _)).trans (serves_joinQueue _ p _).sameFaults).trans
    (serves_modOutstanding _ pos _).sameFaults

theorem sameFaults_finalise (s : State) (w : Fin 15) (f : DeclaredFigures) (status : RecordStatus) (signedOffBy : Option Nat) :
    SameFaults s (s.finalise w f status signedOffBy) :=
  ((sameFaults_setHistory s _).trans (sameFaults_modWindow _ w _)).trans (serves_arbitrate _).sameFaults

theorem sameFaults_takeDeclaration (s : State) (w : Fin 15) (f : DeclaredFigures) : SameFaults s (s.takeDeclaration w f) := by
  unfold State.takeDeclaration
  simp only
  split
  · exact (sameFaults_modWindow s w _).trans (sameFaults_finalise _ w f _ _)
  · exact (sameFaults_modWindow s w _).trans (sameFaults_modWindow _ w _)

theorem sameFaults_loadDone (s : State) (a : Area) : SameFaults s (s.loadDone a) := by
  unfold State.loadDone
  split
  · exact sameFaults_storeDone s _
  · refine SameFaults.trans ?_ (sameFaults_storeDone _ _)
    exact ((sameFaults_takeImage s _).trans (serves_lowStockAll _).sameFaults).trans (sameFaults_setStore _ _)

theorem withdrawFor_sameFaults (s : State) (p : Fin 6) (withdraw : Bool) : SameFaults s (s.withdrawFor p withdraw) := by
  unfold State.withdrawFor
  split
  · exact sameFaults_withdraw s p
  · exact .refl s

/-- Office control's opening empties the fault counters alone (R181). -/
theorem sameFaults_openOffice (s : State) (date : List Byte) : SameFaults s (s.openOffice date) := by
  have record : ∀ p, (s.openOffice date).printer p = { s.printer p with counters := Vector.replicate 12 0 } := fun p => by
    simp [State.openOffice, State.printer]
  have opened : ∀ p, ((s.openOffice date).printer p).openFault = (s.printer p).openFault := fun p => by rw [record]
  exact ⟨congrArg (FaultView.mk _ _) (funext opened), fun p => by rw [record]; rfl⟩

/-- Every effect but a power-on that lost the retained memory keeps the laws of the fault log. -/
theorem Effect.faultsSound {c : Instr} {s u : State} (h : Effect c s u) (held : ∀ straps, c ≠ .powerOn straps false)
    (hs : s.faultsSound) : u.faultsSound := by
  have woken : ∀ {t : State}, t.faultsSound → (t.wakeAll s).faultsSound := fun ht => (sameFaults_wakeAll _ _).faultsSound ht
  have quiet : ∀ {t : State}, SameFaults s t → t.faultsSound := fun same => same.faultsSound hs
  cases h with
  | same => exact hs
  | issue pos k routing p copies value d slots => exact woken (quiet (sameFaults_acceptJob s pos k routing p copies value d slots))
  | cancel =>
    exact woken (quiet ((serves_modJob s _ _ (by exact fun _ => rfl)).trans (serves_endTest _ _)).sameFaults)
  | void =>
    exact woken (quiet (((sameFaults_addException s _ _).trans (sameFaults_modTallies _ _ _)).trans (sameFaults_modRecent _ _ _)))
  | tally pos f => exact quiet (sameFaults_modTallies s pos f)
  | fetch => exact quiet ((sameFaults_setNotices s _).trans (serves_arbitrate _).sameFaults)
  | load _ _ _ _ _ _ k =>
    exact quiet (((sameFaults_setPacks s _).trans (serves_lowStockCheck _ _).sameFaults).trans
      (sameFaults_packPlaced _ s k.location))
  | move _ k l => exact quiet ((sameFaults_modPack s _ _).trans (sameFaults_packPlaced _ s l))
  | writeOff => exact woken (quiet (sameFaults_runOut s _ _ _))
  | retire => exact quiet ⟨rfl, fun _ => rfl⟩
  | ruleIssued _ _ d => exact woken (resolveIssued_faultsSound d hs)
  | ruleSpoiled _ _ d => exact woken (resolveSpoiled_faultsSound d hs)
  | failAudit => exact quiet ((sameFaults_setAudit s _).trans (sameFaults_enterSetup _))
  | powerOn p off =>
    exact startIdentification_faultsSound (hs.but p) (hs.free (by rw [Printer.down, off]; rfl))
  | powerOff p => exact powerOff_faultsSound p hs
  | disable p => exact woken (quiet (sameFaults_withdraw s p))
  | keepEnabled p => exact woken (quiet (sameFaults_modPrinter s p _ rfl rfl))
  | enable p disabled => exact reenable_faultsSound p disabled hs
  | confirm p => exact quiet (sameFaults_modPrinter s p _ rfl rfl)
  | report pos p note withdraw room =>
    exact woken ((withdrawFor_sameFaults _ p withdraw).faultsSound (logNote_faultsSound p pos note withdraw room hs))
  | close number e found attended => exact closeNote_faultsSound found attended hs
  | openShift => exact quiet ⟨rfl, fun _ => rfl⟩
  | suspend w => exact quiet (sameFaults_modWindow s w _)
  | resume w => exact quiet (sameFaults_modWindow s w _)
  | closeShift => exact quiet (((sameFaults_setHistory s _).trans (sameFaults_modWindow _ _ _)).trans (serves_arbitrate _).sameFaults)
  | reopen w => exact quiet (sameFaults_modWindow s w _)
  | declare w f => exact quiet (sameFaults_takeDeclaration s w f)
  | signOff w f => exact quiet (sameFaults_finalise s w f _ _)
  | collect => exact quiet ⟨rfl, fun _ => rfl⟩
  | settings => exact quiet ⟨rfl, fun _ => rfl⟩
  | stockType k d threshold => exact woken (quiet (sameFaults_writeStockType s k d threshold))
  | layout => exact quiet ⟨rfl, fun _ => rfl⟩
  | store => exact quiet ⟨rfl, fun _ => rfl⟩
  | openOffice date => exact quiet (sameFaults_openOffice s date)
  | closeOffice => exact quiet (sameFaults_enterSetup s)
  | clock => exact quiet ⟨rfl, fun _ => rfl⟩
  | clearAudit => exact clearAudit_faultsSound s
  | start cause straps => exact startUp_faultsSound cause straps hs
  | lost straps event => exact absurd event (held straps)
  | reply p r => exact receiveReply_faultsSound p r hs
  | identity p r i => exact receiveIdentity_faultsSound p r i hs
  | replyTimer p => exact expireReply_faultsSound p hs
  | identTimer p => exact expireIdent_faultsSound p hs
  | waiting p => exact quiet (sameFaults_choose s _ p)
  | identDue p => exact quiet (sameFaults_identDue s p)
  | written kind a m good =>
    unfold State.writeDone
    refine quiet (SameFaults.trans ?_ (sameFaults_storeDone _ _))
    split <;> exact ⟨rfl, fun _ => rfl⟩
  | unrestored => exact quiet (sameFaults_storeDone s _)
  | loaded a => exact woken (quiet (sameFaults_loadDone s a))

end Sys2Proof.Machine

open Sys2Proof Sys2Proof.Machine

/-- Settles O58: every effect keeps each of the four laws, and none of them reads the link or the queue of commands. -/
theorem poolPathsAndHistoryStaySound : Obligations.PoolPathsAndHistoryStaySound := by
  refine ⟨fun s t hs h => ?_, fun s t hs h => ?_, fun s t held h => ⟨fun hs => ?_, fun hs => ?_⟩⟩
  · exact step_keeps (fun _ _ => id) (fun _ _ => id) (fun _ _ _ _ he => he.poolSound) h hs
  · exact step_keeps (fun _ _ => id) (fun _ _ => id) (fun _ _ _ _ he => he.pathsSound) h hs
  · exact step_keeps (fun _ _ => id) (fun _ _ => id)
      (fun c _ _ front he => he.historySound fun straps hc => held straps (hc ▸ front)) h hs
  · exact step_keeps (fun _ _ => id) (fun _ _ => id)
      (fun c _ _ front he => he.faultsSound fun straps hc => held straps (hc ▸ front)) h hs
end

