-- ==== Sys2Proof/Proofs/Packed.lean ====
section
/-! SUPPORT. Stretches of a range that share no place: the geometry behind the laws of a pack (R3, R9, R25). A stretch is an offset and a
length, as `Pack.stretches` gives it. -/

namespace Sys2Proof.Machine

/-- Two stretches share no place. -/
def apart (a b : Int × Nat) : Prop := a.1 + a.2 ≤ b.1 ∨ b.1 + b.2 ≤ a.1

theorem apart_symm {a b : Int × Nat} (h : apart a b) : apart b a := h.symm

theorem disjoint_iff (l : List (Int × Nat)) : disjoint l = true ↔ l.Pairwise apart := by
  induction l with
  | nil => simp [disjoint]
  | cons a l ih => simp [disjoint, List.pairwise_cons, ih, apart]

/-- Stretches of at least one place each, within the first `n` places, no two of which share one. -/
structure Packed (n : Int) (l : List (Int × Nat)) : Prop where
  long   : ∀ a ∈ l, 1 ≤ a.2
  inside : ∀ a ∈ l, 0 ≤ a.1 ∧ a.1 + a.2 ≤ n
  apart  : l.Pairwise apart

theorem packed_nil (n : Int) : Packed n [] := ⟨nofun, nofun, .nil⟩

theorem packed_cons {n : Int} {a : Int × Nat} {l : List (Int × Nat)} :
    Packed n (a :: l) ↔ (1 ≤ a.2 ∧ 0 ≤ a.1 ∧ a.1 + a.2 ≤ n ∧ ∀ b ∈ l, Machine.apart a b) ∧ Packed n l := by
  constructor
  · rintro ⟨long, inside, apart⟩
    rw [List.forall_mem_cons] at long inside
    rw [List.pairwise_cons] at apart
    exact ⟨⟨long.1, inside.1.1, inside.1.2, apart.1⟩, long.2, inside.2, apart.2⟩
  · rintro ⟨⟨long, low, high, clear⟩, h⟩
    exact ⟨List.forall_mem_cons.mpr ⟨long, h.long⟩, List.forall_mem_cons.mpr ⟨⟨low, high⟩, h.inside⟩,
      List.pairwise_cons.mpr ⟨clear, h.apart⟩⟩

theorem Packed.perm {n : Int} {l m : List (Int × Nat)} (h : Packed n l) (p : m.Perm l) : Packed n m where
  long a ha := h.long a (p.subset ha)
  inside a ha := h.inside a (p.subset ha)
  apart := p.symm.pairwise h.apart apart_symm

theorem Packed.sublist {n : Int} {l m : List (Int × Nat)} (h : Packed n l) (p : m.Sublist l) : Packed n m where
  long a ha := h.long a (p.subset ha)
  inside a ha := h.inside a (p.subset ha)
  apart := h.apart.sublist p

theorem Packed.subperm {n : Int} {l m : List (Int × Nat)} (h : Packed n l) (p : m.Subperm l) : Packed n m := by
  obtain ⟨k, hk, sub⟩ := p
  exact (h.sublist sub).perm hk.symm

/-- One stretch more, from the end of the places taken. -/
theorem Packed.extend {n : Int} {l : List (Int × Nat)} (h : Packed n l) (a : Int × Nat) (long : 1 ≤ a.2) (low : 0 ≤ n)
    (start : a.1 = n) : Packed (n + a.2) (a :: l) := by
  refine packed_cons.mpr ⟨⟨long, start ▸ low, by omega, fun b hb => .inr (start ▸ (h.inside b hb).2)⟩,
    h.long, fun b hb => ⟨(h.inside b hb).1, by have := (h.inside b hb).2; omega⟩, h.apart⟩

/-- The last place given up. -/
theorem Packed.retract {n : Int} {l : List (Int × Nat)} (h : Packed n ((n - 1, 1) :: l)) : Packed (n - 1) l := by
  obtain ⟨⟨-, -, -, clear⟩, hl⟩ := packed_cons.mp h
  refine ⟨hl.long, fun b hb => ⟨(hl.inside b hb).1, ?_⟩, hl.apart⟩
  have := hl.long b hb
  have := (hl.inside b hb).2
  rcases clear b hb with h | h <;> simp only at h <;> omega

/-- A stretch that directly follows another merged into it (R9). -/
theorem Packed.merge {n : Int} {l : List (Int × Nat)} (a b : Int × Nat) (h : Packed n (a :: b :: l)) (follows : a.1 = b.1 + b.2) :
    Packed n ((b.1, b.2 + a.2) :: l) := by
  obtain ⟨⟨along, alow, ahigh, aclear⟩, hb⟩ := packed_cons.mp h
  obtain ⟨⟨blong, blow, bhigh, bclear⟩, hl⟩ := packed_cons.mp hb
  refine packed_cons.mpr ⟨⟨by simp; omega, blow, by simp; omega, fun c hc => ?_⟩, hl⟩
  have long := hl.long c hc
  have ha := aclear c (List.mem_cons_of_mem b hc)
  have hb := bclear c hc
  unfold Machine.apart at ha hb ⊢
  simp only [Nat.cast_add]
  omega

/-- Stretches that share no place are together no longer than the places they lie in. -/
theorem Packed.sum_le {n : Int} {l : List (Int × Nat)} (h : Packed n l) (low : 0 ≤ n) : (((l.map (·.2)).sum : Nat) : Int) ≤ n := by
  have covered : ∃ S ⊆ Finset.Ico 0 n, (S.card : Int) = ((l.map (·.2)).sum : Nat) ∧
      ∀ a : Int × Nat, (∀ b ∈ l, Machine.apart a b) → Disjoint (Finset.Ico a.1 (a.1 + a.2)) S := by
    clear low
    induction l with
    | nil => exact ⟨∅, by simp, by simp, fun _ _ => Finset.disjoint_empty_right _⟩
    | cons a l ih =>
      obtain ⟨⟨-, alow, ahigh, clear⟩, hl⟩ := packed_cons.mp h
      obtain ⟨S, inside, card, free⟩ := ih hl
      refine ⟨Finset.Ico a.1 (a.1 + a.2) ∪ S, Finset.union_subset (Finset.Ico_subset_Ico alow ahigh) inside, ?_, fun c hc => ?_⟩
      · rw [Finset.card_union_of_disjoint (free a clear), Int.card_Ico]
        simp only [List.map_cons, List.sum_cons]
        omega
      · rw [List.forall_mem_cons] at hc
        refine Finset.disjoint_union_right.mpr ⟨Finset.disjoint_left.mpr fun x hx hy => ?_, free c hc.2⟩
        have := hc.1
        unfold Machine.apart at this
        rw [Finset.mem_Ico] at hx hy
        omega
  obtain ⟨S, inside, card, -⟩ := covered
  have := Finset.card_le_card inside
  rw [Int.card_Ico] at this
  omega

/-- Single places that share none differ. -/
theorem Packed.nodup {n : Int} {l : List (Int × Nat)} (h : Packed n l) : l.Nodup := by
  refine List.Pairwise.imp_of_mem (fun {a b} ha _ hab => ?_) h.apart
  rintro rfl
  have := h.long a ha
  unfold Machine.apart at hab
  omega

end Sys2Proof.Machine
end

