-- ==== Sys2Proof/Proofs/PackLaw.lean ====
section
/-! SUPPORT. The law of one pack against the serials of its blanks in path, of its recent issues and of its doubtful entries (R3 to R10,
R25), and what a take, a return, a run, a ruling and the EXHAUSTED test do to it. -/

namespace Sys2Proof.Machine

/-! ### The law -/

/-- The place of one serial of a pack. -/
def Pack.place (k : Pack) (serial : Nat) : Int × Nat := (k.offset serial, 1)

/-- The stretch of an exception entry of a pack. -/
def Pack.stretch (k : Pack) (e : ExceptionEntry) : Int × Nat := (k.offset e.first, e.run)

/-- The stretches of a pack: of its exceptions, of the blanks in path and of the recent issues. -/
def Pack.places (k : Pack) (path recent : List Nat) : List (Int × Nat) :=
  k.exceptions.map k.stretch ++ path.map k.place ++ recent.map k.place

/-- The first serials of a pack's DOUBTFUL exceptions. -/
def Pack.doubts (k : Pack) : List Nat := (k.exceptions.filter fun e => decide (e.disposition = .doubtful)).map (·.first)

/-- The law of a pack but for the EXHAUSTED test. -/
structure Pack.Core (k : Pack) (path recent doubt : List Nat) : Prop where
  next   : k.nextAgrees = true
  fits   : k.remaining ≤ k.count
  low    : 0 ≤ k.range.1
  usable : k.condition = .usable → k.exceptions.length ≤ 20
  room   : k.exceptions.length + path.length + (if k.remaining = 0 then 0 else 1) ≤ 24
  packed : Packed ((k.count : Int) - k.remaining) (k.places path recent)
  doubts : k.doubts.Perm doubt
  alive  : k.condition = .exhausted → k.remaining = 0 ∧ path = []

/-- The law of a pack: a pack of which nothing remains or is in path is EXHAUSTED (R5). -/
structure Pack.Law (k : Pack) (path recent doubt : List Nat) : Prop extends k.Core path recent doubt where
  spent : k.remaining = 0 → path = [] → k.condition = .exhausted

theorem ite_le_one (p : Prop) [Decidable p] : (if p then 0 else 1) ≤ 1 := by split <;> decide

section
variable {k : Pack} {path path' recent recent' doubt doubt' : List Nat}

theorem Pack.places_path_cons (k : Pack) (n : Nat) (path recent : List Nat) :
    (k.places (n :: path) recent).Perm (k.place n :: k.places path recent) := by
  unfold Pack.places
  rw [List.append_assoc, List.append_assoc, List.map_cons, List.cons_append]
  exact List.perm_middle

theorem Pack.places_recent_cons (k : Pack) (n : Nat) (path recent : List Nat) :
    (k.places path (n :: recent)).Perm (k.place n :: k.places path recent) := by
  unfold Pack.places
  rw [List.map_cons]
  exact List.perm_middle

theorem Pack.places_perm (k : Pack) (hp : path.Perm path') (hr : recent.Perm recent') :
    (k.places path recent).Perm (k.places path' recent') :=
  ((hp.map _).append_left _).append (hr.map _)

theorem Pack.places_subperm (k : Pack) (hp : path.Perm path') (hr : recent.Subperm recent') :
    (k.places path recent).Subperm (k.places path' recent') := by
  have tail : (k.places path recent).Subperm (k.places path recent') := by
    obtain ⟨l, hl, hs⟩ := hr
    exact (List.subperm_append_left _).mpr ⟨l.map k.place, hl.map _, hs.map _⟩
  exact tail.trans (k.places_perm hp (List.Perm.refl _)).subperm

/-- Serials of the same blanks, and fewer recent issues. -/
theorem Pack.Core.replace (h : k.Core path recent doubt) (hp : path'.Perm path) (hr : recent'.Subperm recent)
    (hd : doubt'.Perm doubt) : k.Core path' recent' doubt' :=
  { h with
    room := hp.length_eq ▸ h.room
    packed := h.packed.subperm (k.places_subperm hp hr)
    doubts := h.doubts.trans hd.symm
    alive := fun e => ⟨(h.alive e).1, by have := (h.alive e).2; subst this; exact List.perm_nil.mp hp⟩ }

theorem Pack.Law.replace (h : k.Law path recent doubt) (hp : path'.Perm path) (hr : recent'.Subperm recent)
    (hd : doubt'.Perm doubt) : k.Law path' recent' doubt' :=
  { h.toCore.replace hp hr hd with
    spent := fun none empty => h.spent none (by subst empty; exact List.nil_perm.mp hp) }

/-- The EXHAUSTED test makes the law whole (R5). -/
theorem Pack.Core.exhaustTest (h : k.Core path recent doubt) :
    (if k.remaining = 0 ∧ path.length = 0 then k.exhaust else k).Law path recent doubt := by
  split
  · rename_i spent
    obtain ⟨none, empty⟩ := spent
    exact { next := h.next, fits := h.fits, low := h.low, usable := nofun, room := h.room, packed := h.packed, doubts := h.doubts
            alive := fun _ => ⟨none, List.eq_nil_of_length_eq_zero empty⟩, spent := fun _ _ => rfl }
  · rename_i alive
    exact { h with spent := fun none empty => absurd ⟨none, by rw [empty]; rfl⟩ alive }

/-- A blank in path that leaves it, kept as a recent issue or not. -/
theorem Pack.Core.leave (n : Nat) (h : k.Core (n :: path) recent doubt) : k.Core path (n :: recent) doubt :=
  { h with
    room := by have := h.room; simp only [List.length_cons] at this; omega
    packed := h.packed.perm ((k.places_recent_cons n path recent).trans (k.places_path_cons n path recent).symm)
    alive := fun e => absurd (h.alive e).2 (by simp) }

/-! ### Runs (R9, R10) -/

theorem Pack.addRun_fields (k : Pack) (e : ExceptionEntry) :
    k.addRun e = { k with exceptions := (k.addRun e).exceptions, condition := (k.addRun e).condition } := by
  unfold Pack.addRun; split <;> rfl

theorem Pack.addRun_condition (k : Pack) (e : ExceptionEntry) :
    (k.addRun e).condition = k.condition ∨ k.condition = .usable ∧ (k.addRun e).condition = .suspended := by
  unfold Pack.addRun
  split
  · exact .inl rfl
  · simp only
    split
    · exact .inr ⟨(‹_ ∧ _› : _ ∧ _).2, rfl⟩
    · exact .inl rfl

/-- A run that merges follows the last entry, of its own disposition and not DOUBTFUL (R9). -/
theorem Pack.merges_last {e : ExceptionEntry} (h : k.merges e = true) :
    ∃ init l, k.exceptions = init ++ [l] ∧ e.disposition ≠ .doubtful ∧ l.disposition = e.disposition ∧
      k.offset e.first = k.offset l.first + l.run ∧
      (k.addRun e) = { k with exceptions := init ++ [{ l with run := l.run + e.run }] } := by
  have merged := h
  unfold Pack.merges at h
  cases last : k.exceptions.getLast? with
  | none => rw [last] at h; cases h
  | some l =>
    obtain ⟨init, whole⟩ := List.getLast?_eq_some_iff.mp last
    rw [last] at h
    simp only [Bool.and_eq_true, decide_eq_true_eq] at h
    obtain ⟨⟨apart, same, -⟩, follows⟩ := h
    refine ⟨init, l, whole, apart, same, ?_, ?_⟩
    · unfold Pack.follows at follows
      unfold Pack.offset
      cases dir : k.direction <;> simp only [dir, decide_eq_true_eq] at follows ⊢ <;> omega
    · unfold Pack.addRun
      rw [if_pos merged, last, whole]
      simp

theorem Pack.addRun_append {e : ExceptionEntry} (h : ¬ k.merges e = true) :
    (k.addRun e).exceptions = k.exceptions ++ [e] ∧
      (k.exceptions.length + 1 = 21 → (k.addRun e).condition ≠ .usable) := by
  unfold Pack.addRun
  rw [if_neg h]
  refine ⟨rfl, fun full => ?_⟩
  simp only [suspendAt, full, true_and]
  split
  · exact nofun
  · assumption

/-- The place of a run is that of one stretch more. -/
theorem Pack.addRun_packed {n : Int} {e : ExceptionEntry} (h : Packed n (k.stretch e :: k.places path recent)) :
    Packed n ((k.addRun e).places path recent) := by
  have stretch : (k.addRun e).stretch = k.stretch ∧ (k.addRun e).place = k.place := by
    rw [k.addRun_fields e]; exact ⟨rfl, rfl⟩
  unfold Pack.places
  rw [stretch.1, stretch.2]
  by_cases merges : k.merges e = true
  · obtain ⟨init, l, whole, -, -, follows, added⟩ := Pack.merges_last merges
    have split : (k.stretch e :: k.places path recent).Perm
        (k.stretch e :: k.stretch l :: (init.map k.stretch ++ (path.map k.place ++ recent.map k.place))) := by
      unfold Pack.places
      rw [whole, List.map_append, List.append_assoc, List.append_assoc]
      exact (List.perm_middle).cons _
    have merged := (h.perm split.symm).merge _ _ follows
    refine merged.perm ?_
    rw [added, List.map_append, List.append_assoc, List.append_assoc]
    exact List.perm_middle
  · rw [(Pack.addRun_append merges).1, List.map_append, List.append_assoc, List.append_assoc]
    refine h.perm ?_
    unfold Pack.places
    rw [List.append_assoc]
    exact List.perm_middle

theorem Pack.addRun_doubts (k : Pack) (e : ExceptionEntry) :
    (k.addRun e).doubts = if e.disposition = .doubtful then k.doubts ++ [e.first] else k.doubts := by
  unfold Pack.doubts
  by_cases merges : k.merges e = true
  · obtain ⟨init, l, whole, apart, same, -, added⟩ := Pack.merges_last merges
    rw [if_neg apart, added, whole]
    simp [List.filter_append, same, apart]
  · rw [(Pack.addRun_append merges).1, List.filter_append, List.map_append]
    split <;> simp [*]

/-- A run added, its stretch no longer among the blanks in path or the recent issues. -/
theorem Pack.Core.addRun {e : ExceptionEntry} (h : k.Core path recent doubt) (fewer : path'.length ≤ path.length)
    (room : k.merges e = true ∨ k.exceptions.length + 1 + path'.length + (if k.remaining = 0 then 0 else 1) ≤ 24)
    (packed : Packed ((k.count : Int) - k.remaining) (k.stretch e :: k.places path' recent'))
    (doubts : doubt'.Perm (if e.disposition = .doubtful then e.first :: doubt else doubt)) :
    (k.addRun e).Core path' recent' doubt' := by
  have fields := k.addRun_fields e
  have remaining : (k.addRun e).remaining = k.remaining := by rw [fields]
  have count : (k.addRun e).count = k.count := by rw [fields]
  refine { next := ?_, fits := ?_, low := ?_, usable := ?_, room := ?_, packed := ?_, doubts := ?_, alive := ?_ }
  · rw [fields]; exact h.next
  · rw [remaining, count]; exact h.fits
  · rw [fields]; exact h.low
  · intro usable
    have before : k.condition = .usable := by
      rcases k.addRun_condition e with same | ⟨was, -⟩
      · exact same ▸ usable
      · exact was
    have few := h.usable before
    by_cases merges : k.merges e = true
    · obtain ⟨init, l, whole, -, -, -, added⟩ := Pack.merges_last merges
      rw [added]
      rw [whole] at few
      simpa using few
    · obtain ⟨appended, suspended⟩ := Pack.addRun_append merges
      rw [appended, List.length_append, List.length_singleton]
      have : k.exceptions.length + 1 ≠ 21 := fun full => suspended full usable
      omega
  · rw [remaining]
    by_cases merges : k.merges e = true
    · obtain ⟨init, l, whole, -, -, -, added⟩ := Pack.merges_last merges
      have before := h.room
      rw [added]
      rw [whole] at before
      simp only [List.length_append, List.length_singleton] at before ⊢
      omega
    · rw [(Pack.addRun_append merges).1, List.length_append, List.length_singleton]
      exact room.resolve_left merges
  · rw [remaining, count]; exact Pack.addRun_packed packed
  · rw [k.addRun_doubts e]
    split
    · rename_i doubtful
      rw [if_pos doubtful] at doubts
      exact ((List.perm_append_singleton _ _).trans (h.doubts.cons _)).trans doubts.symm
    · rename_i other
      rw [if_neg other] at doubts
      exact h.doubts.trans doubts.symm
  · intro exhausted
    have before : k.condition = .exhausted := by
      rcases k.addRun_condition e with same | ⟨-, now⟩
      · exact same ▸ exhausted
      · rw [now] at exhausted; cases exhausted
    obtain ⟨none, empty⟩ := h.alive before
    rw [empty] at fewer
    exact ⟨remaining.trans none, List.eq_nil_of_length_eq_zero (Nat.le_zero.mp fewer)⟩

/-- A blank in path turned into an exception of one blank (R12, R15). -/
theorem Pack.Core.except (n : Nat) {e : ExceptionEntry} (first : e.first = n) (run : e.run = 1)
    (h : k.Core (n :: path) recent doubt)
    (doubts : doubt'.Perm (if e.disposition = .doubtful then e.first :: doubt else doubt)) :
    (k.addRun e).Core path recent doubt' := by
  have stretch : k.stretch e = k.place n := by unfold Pack.stretch Pack.place; rw [first, run]
  refine h.addRun (by simp) (.inr ?_) ?_ doubts
  · have := h.room
    simp only [List.length_cons] at this
    omega
  · rw [stretch]
    exact h.packed.perm (k.places_path_cons n path recent).symm

/-! ### Takes and returns (R7, R8) -/

theorem Pack.Core.next_some (h : k.Core path recent doubt) (some_ : 0 < k.remaining) :
    ∃ n, k.next = some n ∧ k.offset n = (k.count : Int) - k.remaining := by
  have next := h.next
  unfold Pack.nextAgrees at next
  cases hn : k.next with
  | none => rw [hn] at next; simp at next; omega
  | some n =>
    rw [hn] at next
    exact ⟨n, rfl, (of_decide_eq_true next).2⟩

theorem Pack.offset_stepSerial (k : Pack) (n : Nat) (inside : 0 ≤ k.range.1) (offset : k.offset n + 2 ≤ k.count) :
    k.offset (k.stepSerial n) = k.offset n + 1 := by
  unfold Pack.offset Pack.stepSerial Pack.range at *
  cases dir : k.direction <;> simp only [dir] at * <;> omega

/-- A take puts the pack's next serial in path (R7). -/
theorem Pack.Law.takeOne (h : k.Law path recent doubt) (usable : k.condition = .usable) (left : 0 < k.remaining)
    (room : path.length ≤ 1) : k.takeOne.Law (k.next.getD 0 :: path) recent doubt := by
  obtain ⟨n, next, offset⟩ := h.next_some left
  have fits := h.fits
  rw [next, Option.getD_some]
  refine { next := ?_, fits := ?_, low := h.low, usable := h.usable, room := ?_, packed := ?_, doubts := h.doubts
           alive := fun e => absurd (usable.symm.trans e) (by decide), spent := fun _ empty => by cases empty }
  · unfold Pack.nextAgrees Pack.takeOne
    by_cases last : k.remaining ≤ 1
    · simp only [if_pos last, decide_eq_true_eq]; omega
    · simp only [if_neg last, next, Option.map_some, decide_eq_true_eq]
      refine ⟨by omega, ?_⟩
      have step := k.offset_stepSerial n h.low (by omega)
      change k.offset (k.stepSerial n) = _
      rw [step]
      omega
  · simp only [Pack.takeOne]; omega
  · have := h.usable usable
    have := ite_le_one (k.takeOne.remaining = 0)
    change k.exceptions.length + (path.length + 1) + _ ≤ 24
    omega
  · have extended := h.packed.extend (k.place n) (le_refl 1) (by omega) offset
    have count : ((k.takeOne.count : Int) - k.takeOne.remaining) = (k.count : Int) - k.remaining + (k.place n).2 := by
      simp only [Pack.takeOne, Pack.place]; omega
    rw [count]
    exact extended.perm (k.places_path_cons n path recent)

theorem Pack.offset_serialAt (k : Pack) (i : Nat) (inside : 0 ≤ k.range.1) (within : i < k.count) :
    k.offset (k.serialAt i) = i := by
  unfold Pack.offset Pack.serialAt Pack.range at *
  cases dir : k.direction <;> simp only [dir] at * <;> omega

/-- The most recently taken serial put back (R8). -/
theorem Pack.Core.putBack (n : Nat) (h : k.Core (n :: path) recent doubt) (last : k.lastTaken = some n) :
    (k.putBack n).Law path recent doubt := by
  have fits := h.fits
  have offset : k.offset n = (k.count : Int) - k.remaining - 1 ∧ k.remaining < k.count := by
    unfold Pack.lastTaken Pack.taken at last
    split at last
    · cases last
    · cases last
      refine ⟨?_, by omega⟩
      rw [k.offset_serialAt _ h.low (by omega)]
      omega
  refine { next := ?_, fits := ?_, low := h.low, usable := h.usable, room := ?_, packed := ?_, doubts := h.doubts
           alive := fun e => absurd (h.alive e).2 (by simp), spent := fun none => by simp [Pack.putBack] at none }
  · refine decide_eq_true ⟨Nat.succ_ne_zero _, ?_⟩
    change k.offset n = (k.count : Int) - ((k.remaining + 1 : Nat) : Int)
    omega
  · simp only [Pack.putBack]; omega
  · have := h.room
    simp only [List.length_cons] at this
    have := ite_le_one ((k.putBack n).remaining = 0)
    change k.exceptions.length + path.length + _ ≤ 24
    omega
  · have before : Packed ((k.count : Int) - k.remaining) (((k.count : Int) - k.remaining - 1, 1) :: k.places path recent) := by
      rw [← offset.1]
      exact h.packed.perm (k.places_path_cons n path recent).symm
    have count : ((k.putBack n).count : Int) - (k.putBack n).remaining = (k.count : Int) - k.remaining - 1 := by
      simp only [Pack.putBack]; omega
    rw [count]
    exact before.retract

/-! ### The rest of a pack moved into one run (R14, R21) -/

/-- A stretch cut short. -/
theorem Packed.shorten {n : Int} {a b : Int × Nat} {l : List (Int × Nat)} (h : Packed n (a :: l)) (start : b.1 = a.1)
    (long : 1 ≤ b.2) (short : b.2 ≤ a.2) : Packed n (b :: l) := by
  obtain ⟨⟨-, low, high, clear⟩, hl⟩ := packed_cons.mp h
  refine packed_cons.mpr ⟨⟨long, start ▸ low, by omega, fun c hc => ?_⟩, hl⟩
  have := clear c hc
  unfold Machine.apart at this ⊢
  omega

theorem Packed.mono {n m : Int} {l : List (Int × Nat)} (h : Packed n l) (le : n ≤ m) : Packed m l :=
  ⟨h.long, fun a ha => ⟨(h.inside a ha).1, (h.inside a ha).2.trans le⟩, h.apart⟩

theorem Pack.Core.emptied (h : k.Core path recent doubt) : k.emptied.Core path recent doubt :=
  { h with
    next := by simp [Pack.nextAgrees, Pack.emptied]
    fits := Nat.zero_le _
    room := by rw [if_pos (show k.emptied.remaining = 0 from rfl)]; exact le_trans (Nat.le_add_right _ _) h.room
    packed := h.packed.mono (by simp only [Pack.emptied]; omega)
    alive := fun e => ⟨rfl, (h.alive e).2⟩ }

theorem Pack.addRun_emptied (k : Pack) (e : ExceptionEntry) : (k.addRun e).emptied = k.emptied.addRun e := by
  have merges : k.emptied.merges e = k.merges e := rfl
  unfold Pack.addRun
  rw [merges]
  split <;> rfl

/-- What remained is one run more, if anything did. -/
theorem Pack.Core.runOut (h : k.Core path recent doubt) (d : Disposition) (fault : Option Nat) (apart : d ≠ .doubtful) :
    (((k.restRun d fault).elim k fun e => k.addRun e).emptied).Core path recent doubt := by
  unfold Pack.restRun
  split
  · exact h.emptied
  · rename_i left
    obtain ⟨n, next, offset⟩ := h.next_some (Nat.pos_of_ne_zero left)
    have fits := h.fits
    rw [Option.elim_some, Pack.addRun_emptied]
    refine h.emptied.addRun (le_refl _) (.inr ?_) ?_ (by rw [if_neg apart])
    · have := h.room
      rw [if_neg left] at this
      rw [if_pos (show k.emptied.remaining = 0 from rfl)]
      change k.exceptions.length + 1 + path.length + 0 ≤ 24
      omega
    · have extended := h.packed.extend (((k.count : Int) - k.remaining), k.remaining) (Nat.pos_of_ne_zero left) (by omega) rfl
      have stretch : k.emptied.stretch { first := k.next.getD 0, run := k.remaining, disposition := d, position := none, fault := fault } =
          (((k.count : Int) - k.remaining), k.remaining) := by
        rw [next, ← offset]; rfl
      rw [stretch]
      refine extended.mono ?_
      simp only [Pack.emptied]
      omega

/-! ### Rulings on a doubtful blank (R16) -/

theorem Pack.mem_doubts {n : Nat} : n ∈ k.doubts ↔ ∃ e ∈ k.exceptions, e.doubts n = true := by
  simp [Pack.doubts, ExceptionEntry.doubts, and_assoc]

/-- The entry of a doubtful serial, and the list around it. -/
theorem Pack.doubt_split {n : Nat} (mem : n ∈ k.doubts) :
    ∃ e before after, k.exceptions = before ++ e :: after ∧ e.doubts n = true ∧
      k.exceptions.eraseP (·.doubts n) = before ++ after ∧ ∀ d ∈ before, ¬ d.doubts n = true := by
  obtain ⟨e, he, hd⟩ := Pack.mem_doubts.mp mem
  obtain ⟨a, before, after, none, ha, whole, erased⟩ := List.exists_of_eraseP (p := (·.doubts n)) he hd
  exact ⟨a, before, after, whole, ha, erased, none⟩

theorem ExceptionEntry.doubts_iff (e : ExceptionEntry) (n : Nat) : e.doubts n = true ↔ e.disposition = .doubtful ∧ e.first = n := by
  unfold ExceptionEntry.doubts; exact decide_eq_true_iff

/-- The DOUBTFUL entry of a serial taken off the list, its blank a recent issue or not. -/
theorem Pack.Law.eraseDoubt (n : Nat) (h : k.Law path recent doubt) (mem : n ∈ doubt) :
    ({ k with exceptions := k.exceptions.eraseP (·.doubts n) }).Law path (n :: recent) (doubt.erase n) := by
  obtain ⟨e, before, after, whole, hd, erased, none⟩ := Pack.doubt_split (h.doubts.mem_iff.mpr mem)
  obtain ⟨doubtful, first⟩ := (e.doubts_iff n).mp hd
  have shorter : (k.exceptions.eraseP (·.doubts n)).length ≤ k.exceptions.length := List.length_eraseP_le
  refine { h with usable := fun u => shorter.trans (h.usable u), room := ?_, packed := ?_, doubts := ?_ }
  · have := h.room
    change (k.exceptions.eraseP (·.doubts n)).length + path.length + (if k.remaining = 0 then 0 else 1) ≤ 24
    omega
  · have split : (k.places path recent).Perm (k.stretch e :: ((before ++ after).map k.stretch ++ path.map k.place ++
        recent.map k.place)) := by
      unfold Pack.places
      rw [whole, List.map_append, List.map_cons, List.map_append, List.append_assoc, List.append_assoc, List.append_assoc,
        List.append_assoc]
      exact List.perm_middle
    have packed := (h.packed.perm split.symm)
    have cut := packed.shorten (b := k.place n) (by rw [← first]; rfl) (le_refl 1) (packed_cons.mp packed).1.1
    refine cut.perm ?_
    refine (Pack.places_recent_cons _ n path recent).trans ?_
    unfold Pack.places
    rw [erased]
    exact List.Perm.refl _
  · have old : k.doubts.Perm (n :: ((before ++ after).filter fun e => decide (e.disposition = .doubtful)).map (·.first)) := by
      unfold Pack.doubts
      rw [whole, List.filter_append, List.filter_cons, if_pos (decide_eq_true doubtful), List.map_append, List.map_cons, first,
        List.filter_append, List.map_append]
      exact List.perm_middle
    have new : (n :: ((before ++ after).filter fun e => decide (e.disposition = .doubtful)).map (·.first)).Perm
        (n :: doubt.erase n) := old.symm.trans (h.doubts.trans (List.perm_cons_erase mem))
    unfold Pack.doubts
    rw [erased]
    exact new.cons_inv

/-- No two stretches of a pack begin at one serial, so one DOUBTFUL entry at most is a serial's. -/
theorem Pack.Law.spoilDoubt_eq (n : Nat) (h : k.Law path recent doubt) {e : ExceptionEntry} {before after : List ExceptionEntry}
    (whole : k.exceptions = before ++ e :: after) (hd : e.doubts n = true) (none : ∀ d ∈ before, ¬ d.doubts n = true) :
    (k.spoilDoubt n).exceptions = before ++ { e with disposition := .spoiled } :: after := by
  have later : ∀ d ∈ after, ¬ d.doubts n = true := fun d hda hdd => by
    have nodup := h.packed.nodup
    have clear : Machine.apart (k.stretch e) (k.stretch d) := by
      have pairs := h.packed.apart
      unfold Pack.places at pairs
      rw [List.append_assoc, List.pairwise_append] at pairs
      have own := pairs.1
      rw [whole, List.map_append, List.pairwise_append, List.map_cons, List.pairwise_cons] at own
      exact own.2.1.1 _ (List.mem_map_of_mem hda)
    have long : ∀ x ∈ k.exceptions, 1 ≤ x.run := fun x hx => h.packed.long (k.stretch x)
      (List.mem_append_left _ (List.mem_append_left _ (List.mem_map_of_mem hx)))
    have same : (k.stretch e).1 = (k.stretch d).1 := by
      unfold Pack.stretch
      rw [((e.doubts_iff n).mp hd).2, ((d.doubts_iff n).mp hdd).2]
    have he := long e (by simp [whole])
    have hd := long d (by simp [whole, hda])
    have le : (k.stretch e).2 = e.run ∧ (k.stretch d).2 = d.run := ⟨rfl, rfl⟩
    unfold Machine.apart at clear
    omega
  have keep : ∀ l : List ExceptionEntry, (∀ d ∈ l, ¬ d.doubts n = true) →
      (l.map fun e => if e.doubts n then { e with disposition := .spoiled } else e) = l := fun l hl => by
    conv_rhs => rw [← List.map_id l]
    exact List.map_congr_left fun d hd => if_neg (hl d hd)
  unfold Pack.spoilDoubt
  simp only
  rw [whole, List.map_append, List.map_cons, keep before none, keep after later, if_pos hd]

/-- The DOUBTFUL entry of a serial turned into a SPOILED one in place. -/
theorem Pack.Law.spoilDoubt (n : Nat) (h : k.Law path recent doubt) (mem : n ∈ doubt) :
    (k.spoilDoubt n).Law path recent (doubt.erase n) := by
  obtain ⟨e, before, after, whole, hd, -, none⟩ := Pack.doubt_split (h.doubts.mem_iff.mpr mem)
  obtain ⟨doubtful, first⟩ := (e.doubts_iff n).mp hd
  have spoiled := h.spoilDoubt_eq n whole hd none
  have length : (k.spoilDoubt n).exceptions.length = k.exceptions.length := by
    unfold Pack.spoilDoubt; exact List.length_map _
  refine { h with usable := fun u => length ▸ h.usable u, room := ?_, packed := ?_, doubts := ?_ }
  · rw [length]; exact h.room
  · have same : (k.spoilDoubt n).places path recent = k.places path recent := by
      unfold Pack.places
      rw [spoiled, whole]
      simp only [List.map_append, List.map_cons]
      rfl
    rw [same]
    exact h.packed
  · have old : k.doubts.Perm (n :: ((before ++ after).filter fun e => decide (e.disposition = .doubtful)).map (·.first)) := by
      unfold Pack.doubts
      rw [whole, List.filter_append, List.filter_cons, if_pos (decide_eq_true doubtful), List.map_append, List.map_cons, first,
        List.filter_append, List.map_append]
      exact List.perm_middle
    have new : (n :: ((before ++ after).filter fun e => decide (e.disposition = .doubtful)).map (·.first)).Perm
        (n :: doubt.erase n) := old.symm.trans (h.doubts.trans (List.perm_cons_erase mem))
    have kept : (k.spoilDoubt n).doubts = ((before ++ after).filter fun e => decide (e.disposition = .doubtful)).map (·.first) := by
      unfold Pack.doubts
      rw [spoiled, List.filter_append, List.filter_cons, if_neg (by simp), List.filter_append]
    rw [kept]
    exact new.cons_inv

/-! ### A new pack, and a pack moved (R19, R20) -/

theorem Pack.Law.relocate (h : k.Law path recent doubt) (l : Location) : ({ k with location := l }).Law path recent doubt :=
  { h with }

theorem Pack.new_law (fresh : k.next = some k.first ∧ k.remaining = k.count ∧ k.condition = .usable ∧ k.exceptions = [])
    (some_ : 0 < k.count) (low : 0 ≤ k.range.1) : k.Law [] [] [] := by
  obtain ⟨next, remaining, usable, empty⟩ := fresh
  refine { next := ?_, fits := remaining.le, low := low, usable := fun _ => by simp [empty], room := ?_, packed := ?_, doubts := ?_
           alive := fun e => absurd (usable.symm.trans e) (by decide), spent := fun none => by omega }
  · unfold Pack.nextAgrees
    rw [next]
    refine decide_eq_true ⟨by omega, ?_⟩
    unfold Pack.offset
    cases k.direction <;> simp only <;> omega
  · simp only [empty, List.length_nil]; split <;> omega
  · unfold Pack.places
    rw [empty]
    exact packed_nil _
  · unfold Pack.doubts; rw [empty]; exact List.Perm.refl _

end

end Sys2Proof.Machine
end

