-- ==== Sys2Proof/Proofs/StockLaw.lean ====
section
/-! SUPPORT. The laws of the stock register on its view, and that they are `stockSound`. -/

namespace Sys2Proof.Machine

/-- The blanks in path of every printer. -/
def Stock.allPaths (x : Stock) : List InPathEntry := allPrinters.flatMap fun p => x.inPath[p]

/-- The recent issues of every position. -/
def Stock.recents (x : Stock) : List RecentIssue := x.recent .console ++ allWindows.flatMap fun w => x.recent (.window w)

/-- The serials in path of a pack. -/
def Stock.pathSerials (x : Stock) (id : Nat) : List Nat := (x.allPaths.filter fun e => decide (e.pack = id)).map (·.serial)

/-- The serials of a pack in the recent issues. -/
def Stock.recentSerials (x : Stock) (id : Nat) : List Nat := (x.recents.filter fun e => decide (e.pack = id)).map (·.serial)

/-- The doubtful serials of a pack. -/
def Stock.doubtSerials (x : Stock) (id : Nat) : List Nat := (x.doubtful.filter fun d => decide (d.pack = id)).map (·.serial)

/-- A location in a bin of a printer. -/
def Location.within (p : Fin 6) (l : Location) : Prop := l = .bin p .a ∨ l = .bin p .b

/-- How many blanks of a printer are doubtful or in path. -/
def Stock.held (x : Stock) (p : Fin 6) : Nat := (x.doubtful.filter fun d => decide (d.printer = p)).length + (x.inPath[p]).length

/-- The laws of the stock register (R3, R5, R6, R10, R15, R18, R25). -/
structure Stock.Sound (x : Stock) : Prop where
  size        : x.packs.length ≤ 64
  ids         : (x.packs.map (·.id)).Nodup
  bins        : ∀ p side, x.packs.countP (fun k => decide (k.location = .bin p side)) ≤ 1
  laws        : ∀ k ∈ x.packs, k.Law (x.pathSerials k.id) (x.recentSerials k.id) (x.doubtSerials k.id)
  clear       : ∀ k ∈ x.packs, ∀ j ∈ x.packs, k.id ≠ j.id → k.collides j = false
  held        : ∀ p, x.held p ≤ 2
  located     : ∀ p, ∀ e ∈ x.inPath[p], ∃ k ∈ x.packs, k.id = e.pack ∧ k.location.within p
  doubtKnown  : ∀ d ∈ x.doubtful, ∃ k ∈ x.packs, k.id = d.pack
  recentKnown : ∀ e ∈ x.recents, ∃ k ∈ x.packs, k.id = e.pack

/-! ### The same laws -/

theorem Stock.inPathOf_eq (x : Stock) (id : Nat) : x.inPathOf id = (x.pathSerials id).length := by
  unfold Stock.inPathOf Stock.pathSerials Stock.allPaths
  rw [List.length_map, ← List.countP_eq_length_filter, List.countP_flatMap]
  rfl

theorem State.inPathOf_eq (s : State) (id : Nat) : s.inPathOf id = (s.stock.pathSerials id).length := s.stock.inPathOf_eq id

/-- The run lengths of all exceptions are those of the five dispositions. -/
theorem Pack.runs_sum (k : Pack) : (k.exceptions.map (·.run)).sum =
    k.runs .spoiled + k.runs .voided + k.runs .doubtful + k.runs .missing + k.runs .writtenOff := by
  unfold Pack.runs
  induction k.exceptions with
  | nil => rfl
  | cons e l ih =>
    simp only [List.map_cons, List.sum_cons, List.filter_cons, ih]
    cases e.disposition <;> simp <;> omega

theorem Pack.issued_eq (k : Pack) (inPath : Nat) :
    k.issued inPath = (k.count : Int) - k.remaining - inPath - (k.exceptions.map (·.run)).sum := by
  have sum := k.runs_sum
  unfold Pack.issued Pack.consumed
  omega

theorem Pack.stretches_append (k : Pack) (path : List InPathEntry) (recent : List RecentIssue) :
    k.stretches path ++ (recent.filter fun e => decide (e.pack = k.id)).map (fun e => (k.offset e.serial, 1)) =
      k.places ((path.filter fun e => decide (e.pack = k.id)).map (·.serial))
        ((recent.filter fun e => decide (e.pack = k.id)).map (·.serial)) := by
  unfold Pack.stretches Pack.places
  rw [List.map_map, List.map_map]
  rfl

theorem State.recents_eq (s : State) :
    (s.ret.console.recent ++ allWindows.flatMap fun w => (s.window w).recent) = s.stock.recents := rfl

theorem State.packPlaces (s : State) (k : Pack) : k.stretches s.allPaths ++ s.recentStretches k =
    k.places (s.stock.pathSerials k.id) (s.stock.recentSerials k.id) :=
  k.stretches_append s.allPaths s.stock.recents

/-- Distinct ids make the records distinct. -/
theorem packs_nodup {l : List Pack} (ids : (l.map (·.id)).Nodup) : l.Nodup := List.Nodup.of_map _ ids

theorem packSound_clear {s : State} (ids : (s.ret.packs.map (·.id)).Nodup) (k : Pack) (hk : k ∈ s.ret.packs) :
    ((s.ret.packs.erase k).all fun j => !k.collides j) = true ↔ ∀ j ∈ s.ret.packs, k.id ≠ j.id → k.collides j = false := by
  rw [List.all_eq_true]
  simp only [(packs_nodup ids).mem_erase_iff, Bool.not_eq_true']
  constructor
  · exact fun h j hj other => h j ⟨fun e => other (by rw [e]), hj⟩
  · exact fun h j ⟨other, hj⟩ => h j hj fun same => other (List.inj_on_of_nodup_map ids hj hk same.symm)

/-- The tests of STOCK CHECK with the further laws of a pack are the law of the pack, and that it collides with no other. -/
theorem State.packLaw_iff (s : State) (ids : (s.ret.packs.map (·.id)).Nodup) (k : Pack) (hk : k ∈ s.ret.packs) :
    s.packLaw k ↔ k.Law (s.stock.pathSerials k.id) (s.stock.recentSerials k.id) (s.stock.doubtSerials k.id) ∧
      ∀ j ∈ s.ret.packs, k.id ≠ j.id → k.collides j = false := by
  have doubts : ((k.exceptions.filter fun e => decide (e.disposition = .doubtful)).map (·.first)).isPerm
      ((s.ret.doubtful.filter fun d => decide (d.pack = k.id)).map (·.serial)) = true ↔
        k.doubts.Perm (s.stock.doubtSerials k.id) := List.isPerm_iff
  have places := s.packPlaces k
  constructor
  · rintro ⟨tests, low, runs, spent, usable, room, inside, apart⟩
    unfold State.packSound at tests
    simp only [Bool.and_eq_true, decide_eq_true_eq] at tests
    obtain ⟨⟨⟨⟨⟨⟨⟨issued, -⟩, next⟩, -⟩, -⟩, -⟩, perm⟩, clear⟩ := tests
    rw [k.issued_eq] at issued
    rw [s.inPathOf_eq] at spent room
    rw [places] at inside apart
    refine ⟨{ next := next, fits := by omega, low := low, usable := usable, room := room, doubts := doubts.mp perm
              packed := ⟨?_, inside, (disjoint_iff _).mp apart⟩
              alive := fun e => ⟨(spent.mp e).1, List.eq_nil_of_length_eq_zero (spent.mp e).2⟩
              spent := fun none empty => spent.mpr ⟨none, by rw [empty]; rfl⟩ }, (packSound_clear ids k hk).mp clear⟩
    intro a ha
    unfold Pack.places at ha
    rcases List.mem_append.mp ha with ha | ha
    · rcases List.mem_append.mp ha with ha | ha
      · obtain ⟨e, he, rfl⟩ := List.mem_map.mp ha
        exact runs e he
      · obtain ⟨n, -, rfl⟩ := List.mem_map.mp ha
        exact le_refl 1
    · obtain ⟨n, -, rfl⟩ := List.mem_map.mp ha
      exact le_refl 1
  · rintro ⟨h, clear⟩
    have own : (k.stretches s.allPaths).Sublist (k.places (s.stock.pathSerials k.id) (s.stock.recentSerials k.id)) :=
      places ▸ List.sublist_append_left _ _
    have ownPacked := h.packed.sublist own
    have taken : (0 : Int) ≤ (k.count : Int) - k.remaining := by have := h.fits; omega
    have sum := ownPacked.sum_le taken
    have length : (k.stretches s.allPaths).map (·.2) = k.exceptions.map (·.run) ++ (s.stock.pathSerials k.id).map fun _ => 1 := by
      unfold Pack.stretches Stock.pathSerials
      rw [List.map_append, List.map_map, List.map_map, List.map_map]
      rfl
    have ones : ((s.stock.pathSerials k.id).map fun _ => 1).sum = (s.stock.pathSerials k.id).length := by simp
    rw [length, List.sum_append, ones] at sum
    have issued := k.issued_eq (s.stock.pathSerials k.id).length
    refine ⟨?_, h.low, fun e he => ?_, ?_, h.usable, ?_, ?_, ?_⟩
    · unfold State.packSound
      simp only [Bool.and_eq_true, decide_eq_true_eq]
      refine ⟨⟨⟨⟨⟨⟨?_, h.next⟩, ?_⟩, (disjoint_iff _).mpr ownPacked.apart⟩, ?_⟩, doubts.mpr h.doubts⟩,
        (packSound_clear ids k hk).mpr clear⟩
      · rw [s.inPathOf_eq, issued]; omega
      · rw [List.all_eq_true]
        exact fun a ha => decide_eq_true (ownPacked.inside a ha)
      · have := h.room; omega
    · exact h.packed.long (k.stretch e) (List.mem_append_left _ (List.mem_append_left _ (List.mem_map_of_mem he)))
    · rw [s.inPathOf_eq, List.length_eq_zero_iff]
      exact ⟨fun e => h.alive e, fun ⟨bare, empty⟩ => h.spent bare empty⟩
    · rw [s.inPathOf_eq]; exact h.room
    · rw [places]; exact h.packed.inside
    · rw [places]; exact (disjoint_iff _).mpr h.packed.apart

/-- Two blanks of each of the six printers are twelve. -/
theorem doubtful_length_le {l : List DoubtfulEntry} (few : ∀ p : Fin 6, (l.filter fun d => decide (d.printer = p)).length ≤ 2) :
    l.length ≤ 12 := by
  have split : l.length = ∑ p : Fin 6, (l.filter fun d => decide (d.printer = p)).length := by
    clear few
    induction l with
    | nil => simp
    | cons d l ih =>
      have one : ∀ p, ((d :: l).filter fun d => decide (d.printer = p)).length =
          (l.filter fun d => decide (d.printer = p)).length + if d.printer = p then 1 else 0 := fun p => by
        rw [List.filter_cons]
        by_cases hp : d.printer = p <;> simp [hp]
      rw [List.length_cons, ih, Finset.sum_congr rfl fun p _ => one p, Finset.sum_add_distrib]
      simp
  rw [split]
  exact (Finset.sum_le_card_nsmul _ _ 2 fun p _ => few p).trans (by simp)

theorem State.stockSound_iff (s : State) : s.stockSound ↔ s.stock.Sound := by
  constructor
  · rintro ⟨⟨size, ids, bins⟩, packs, ⟨-, held⟩, located, doubtKnown, console, windows⟩
    refine { size := size, ids := ids, bins := fun p side => bins p side (by cases side <;> simp), held := held
             laws := fun k hk => ((s.packLaw_iff ids k hk).mp (packs k hk)).1
             clear := fun k hk => ((s.packLaw_iff ids k hk).mp (packs k hk)).2
             located := located, doubtKnown := doubtKnown, recentKnown := fun e he => ?_ }
    rcases List.mem_append.mp he with he | he
    · exact console e he
    · obtain ⟨w, -, he⟩ := List.mem_flatMap.mp he
      exact windows w e he
  · intro h
    refine ⟨⟨h.size, h.ids, fun p side _ => h.bins p side⟩, fun k hk => (s.packLaw_iff h.ids k hk).mpr ⟨h.laws k hk, h.clear k hk⟩,
      ⟨doubtful_length_le fun p => le_trans (Nat.le_add_right _ _) (h.held p), h.held⟩, h.located, h.doubtKnown,
      fun e he => h.recentKnown e (List.mem_append_left _ he),
      fun w e he => h.recentKnown e (List.mem_append_right _ (List.mem_flatMap.mpr ⟨w, List.mem_finRange w, he⟩))⟩

end Sys2Proof.Machine
end

