-- ==== Sys2Proof/Proofs/StockChange.lean ====
section
/-! SUPPORT. What a change of one pack, with its blanks in path, doubtful entries and recent issues, must keep for the register's laws to
stand; and the blanks that leave a path. -/

namespace Sys2Proof.Machine

/-- The serials of a pack among the entries of a path. -/
def serialsOf (id : Nat) (l : List InPathEntry) : List Nat := (l.filter fun e => decide (e.pack = id)).map (·.serial)

theorem serialsOf_append (id : Nat) (l m : List InPathEntry) : serialsOf id (l ++ m) = serialsOf id l ++ serialsOf id m := by
  simp [serialsOf]

theorem mem_serialsOf {id n : Nat} {l : List InPathEntry} : n ∈ serialsOf id l ↔ ∃ e ∈ l, e.pack = id ∧ e.serial = n := by
  simp [serialsOf, and_assoc]

/-! ### One pack changed -/

section
variable {x y : Stock}

theorem Stock.Sound.pack_unique (h : x.Sound) {k j : Pack} (hk : k ∈ x.packs) (hj : j ∈ x.packs) (same : k.id = j.id) : k = j :=
  List.inj_on_of_nodup_map h.ids hk hj same

/-- The laws after a change of one pack and of what names it. -/
theorem Stock.Sound.change (h : x.Sound) {k : Pack} (hk : k ∈ x.packs) {id : Nat} (own : k.id = id) (f : Pack → Pack)
    (packs : y.packs = x.packs.map fun j => if j.id = id then f j else j)
    (same : (f k).id = k.id ∧ (f k).stockType = k.stockType ∧ (f k).range = k.range)
    (bins : ∀ p side, (f k).location = .bin p side → k.location = .bin p side ∨ ∀ j ∈ x.packs, j.location ≠ .bin p side)
    (stays : (f k).location = k.location ∨ y.pathSerials id = [])
    (law : (f k).Law (y.pathSerials id) (y.recentSerials id) (y.doubtSerials id))
    (others : ∀ n, n ≠ id → (y.pathSerials n).Perm (x.pathSerials n) ∧
      (y.recentSerials n).Subperm (x.recentSerials n) ∧ (y.doubtSerials n).Perm (x.doubtSerials n))
    (held : ∀ p, y.held p ≤ 2)
    (located : ∀ p, ∀ e ∈ y.inPath[p], e ∈ x.inPath[p] ∨ e.pack = id ∧ k.location.within p)
    (doubtKnown : ∀ d ∈ y.doubtful, d ∈ x.doubtful ∨ d.pack = id)
    (recentKnown : ∀ e ∈ y.recents, e ∈ x.recents ∨ e.pack = id) : y.Sound := by
  subst own
  obtain ⟨sameId, sameType, sameRange⟩ := same
  have mem : ∀ j, j ∈ y.packs ↔ j = f k ∨ j ∈ x.packs ∧ j.id ≠ k.id := fun j => by
    rw [packs, List.mem_map]
    constructor
    · rintro ⟨i, hi, rfl⟩
      split
      · exact .inl (by rw [h.pack_unique hi hk ‹_›])
      · exact .inr ⟨hi, ‹_›⟩
    · rintro (rfl | ⟨hj, other⟩)
      · exact ⟨k, hk, if_pos rfl⟩
      · exact ⟨j, hj, if_neg other⟩
  have known : ∀ id, (∃ j ∈ x.packs, j.id = id) ∨ id = k.id → ∃ j ∈ y.packs, j.id = id := fun id => by
    rintro (⟨j, hj, rfl⟩ | rfl)
    · by_cases own : j.id = k.id
      · exact ⟨f k, (mem _).mpr (.inl rfl), own ▸ sameId⟩
      · exact ⟨j, (mem j).mpr (.inr ⟨hj, own⟩), rfl⟩
    · exact ⟨f k, (mem _).mpr (.inl rfl), sameId⟩
  have ids : y.packs.map (·.id) = x.packs.map (·.id) := by
    rw [packs, List.map_map]
    refine List.map_congr_left fun j hj => ?_
    simp only [Function.comp]
    split
    · rename_i own
      rw [h.pack_unique hj hk own, sameId]
    · rfl
  have clear : ∀ j ∈ x.packs, j.id ≠ k.id → (f k).collides j = k.collides j ∧ j.collides (f k) = j.collides k := fun j _ _ => by
    unfold Pack.collides
    rw [sameType, sameRange]
    exact ⟨rfl, rfl⟩
  refine { size := ?_, ids := ids ▸ h.ids, bins := fun p side => ?_, laws := fun j hj => ?_, clear := fun i hi j hj other => ?_
           held := held, located := fun p e he => ?_
           doubtKnown := fun d hd => known _ ((doubtKnown d hd).imp_left (h.doubtKnown d))
           recentKnown := fun e he => known _ ((recentKnown e he).imp_left (h.recentKnown e)) }
  · rw [← List.length_map (f := (·.id)), ids, List.length_map]; exact h.size
  · by_cases moved : (f k).location = .bin p side ∧ ¬ k.location = .bin p side
    · have empty := (bins p side moved.1).resolve_left moved.2
      have one : y.packs.countP (fun j => decide (j.location = .bin p side)) ≤ (y.packs.map (·.id)).count k.id := by
        rw [List.count, List.countP_map]
        refine List.countP_mono_left fun j hj at_ => ?_
        rcases (mem j).mp hj with rfl | ⟨hj, -⟩
        · simp [sameId]
        · exact absurd (of_decide_eq_true at_) (empty j hj)
      exact one.trans (List.nodup_iff_count_le_one.mp (ids ▸ h.ids) _)
    · refine le_trans ?_ (h.bins p side)
      rw [packs, List.countP_map]
      refine List.countP_mono_left fun j hj at_ => ?_
      simp only [Function.comp, decide_eq_true_eq] at at_ ⊢
      split at at_
      · rename_i own
        rw [h.pack_unique hj hk own] at at_ ⊢
        by_contra off
        exact moved ⟨at_, off⟩
      · exact at_
  · rcases (mem j).mp hj with rfl | ⟨hj, other⟩
    · rw [sameId]; exact law
    · obtain ⟨path, recent, doubt⟩ := others j.id other
      exact (h.laws j hj).replace path recent doubt
  · rcases (mem i).mp hi with rfl | ⟨hi, iother⟩
    · rcases (mem j).mp hj with rfl | ⟨hj, jother⟩
      · exact absurd rfl other
      · rw [(clear j hj jother).1]; exact h.clear k hk j hj (Ne.symm jother)
    · rcases (mem j).mp hj with rfl | ⟨hj, jother⟩
      · rw [(clear i hi iother).2]; exact h.clear i hi k hk iother
      · exact h.clear i hi j hj other
  · have place : ∃ j ∈ x.packs, j.id = e.pack ∧ j.location.within p := by
      rcases located p e he with old | ⟨own, within⟩
      · exact h.located p e old
      · exact ⟨k, hk, own.symm, within⟩
    obtain ⟨j, hj, id, within⟩ := place
    by_cases own : j.id = k.id
    · have hjk := h.pack_unique hj hk own
      subst hjk
      refine ⟨f j, (mem _).mpr (.inl rfl), sameId.trans id, ?_⟩
      rcases stays with same | empty
      · rw [same]; exact within
      · have : e.serial ∈ y.pathSerials j.id := by
          refine mem_serialsOf.mpr ⟨e, ?_, id.symm, rfl⟩
          exact List.mem_flatMap.mpr ⟨p, List.mem_finRange p, he⟩
        rw [empty] at this
        cases this
    · exact ⟨j, (mem j).mpr (.inr ⟨hj, own⟩), id, within⟩

/-- Fewer recent issues (R125). -/
theorem Stock.Sound.fewer_recents (h : x.Sound) (packs : y.packs = x.packs) (doubtful : y.doubtful = x.doubtful)
    (inPath : y.inPath = x.inPath) (recents : y.recents.Sublist x.recents) : y.Sound := by
  have path : ∀ id, y.pathSerials id = x.pathSerials id := fun id => by
    unfold Stock.pathSerials Stock.allPaths; rw [inPath]
  have doubt : ∀ id, y.doubtSerials id = x.doubtSerials id := fun id => by unfold Stock.doubtSerials; rw [doubtful]
  refine { size := packs ▸ h.size, ids := packs ▸ h.ids, bins := fun p side => packs ▸ h.bins p side, laws := fun k hk => ?_
           clear := fun k hk j hj => h.clear k (packs ▸ hk) j (packs ▸ hj)
           held := fun p => by unfold Stock.held; rw [doubtful, inPath]; exact h.held p
           located := fun p e he => ?_
           doubtKnown := fun d hd => by rw [packs]; exact h.doubtKnown d (doubtful ▸ hd)
           recentKnown := fun e he => by rw [packs]; exact h.recentKnown e (recents.subset he) }
  · rw [path, doubt]
    exact (h.laws k (packs ▸ hk)).replace (List.Perm.refl _) (((recents.filter _).map _).subperm) (List.Perm.refl _)
  · rw [packs]; rw [inPath] at he; exact h.located p e he

/-! ### Blanks in path -/

/-- The serials in path of a pack, one path apart. -/
theorem Stock.pathSerials_perm (x : Stock) (p : Fin 6) (id : Nat) :
    (x.pathSerials id).Perm (serialsOf id x.inPath[p] ++ serialsOf id ((allPrinters.erase p).flatMap fun q => x.inPath[q])) := by
  have split : x.allPaths.Perm (x.inPath[p] ++ (allPrinters.erase p).flatMap fun q => x.inPath[q]) := by
    have := (List.perm_cons_erase (List.mem_finRange p)).flatMap_right fun q => x.inPath[q]
    rwa [List.flatMap_cons] at this
  rw [← serialsOf_append]
  exact (split.filter _).map _

theorem Stock.modPath_apart (x : Stock) (p q : Fin 6) (f : List InPathEntry → List InPathEntry) (other : q ≠ p) :
    (x.modPath p f).inPath[q] = x.inPath[q] := updAt_other x.inPath p q f other

theorem Stock.modPath_own (x : Stock) (p : Fin 6) (f : List InPathEntry → List InPathEntry) :
    (x.modPath p f).inPath[p] = f x.inPath[p] := updAt_same x.inPath p f

theorem Stock.modPath_rest (x : Stock) (p : Fin 6) (f : List InPathEntry → List InPathEntry) :
    ((allPrinters.erase p).flatMap fun q => (x.modPath p f).inPath[q]) = (allPrinters.erase p).flatMap fun q => x.inPath[q] := by
  refine List.flatMap_congr fun q hq => x.modPath_apart p q f ?_
  rintro rfl
  exact ((List.nodup_finRange 6).mem_erase_iff.mp hq).1 rfl

theorem Stock.pathSerials_modPath (x : Stock) (p : Fin 6) (f : List InPathEntry → List InPathEntry) (id : Nat) :
    ((x.modPath p f).pathSerials id).Perm
      (serialsOf id (f x.inPath[p]) ++ serialsOf id ((allPrinters.erase p).flatMap fun q => x.inPath[q])) := by
  have := (x.modPath p f).pathSerials_perm p id
  rwa [x.modPath_own, x.modPath_rest] at this

/-- A blank stands on a printer's path. -/
def Stock.onPath (x : Stock) (p : Fin 6) (pack serial : Nat) : Prop := ∃ e ∈ x.inPath[p], e.pack = pack ∧ e.serial = serial

theorem Stock.Sound.onPath_pack (h : x.Sound) {p : Fin 6} {pack serial : Nat} (here : x.onPath p pack serial) :
    ∃ k ∈ x.packs, k.id = pack ∧ k.location.within p := by
  obtain ⟨e, he, rfl, -⟩ := here
  exact h.located p e he

theorem Pack.Law.path_nodup {k : Pack} {path recent doubt : List Nat} (h : k.Law path recent doubt) : path.Nodup := by
  have nodup := h.packed.nodup
  unfold Pack.places at nodup
  exact List.Nodup.of_map _ (List.nodup_append.mp (List.nodup_append.mp nodup).1).2.1

theorem serialsOf_withoutBlank (id pack serial : Nat) (l : List InPathEntry) :
    serialsOf id (withoutBlank pack serial l) = if id = pack then (serialsOf id l).filter (fun n => decide (n ≠ serial))
      else serialsOf id l := by
  unfold serialsOf withoutBlank
  rw [List.filter_filter]
  split
  · rename_i own
    subst own
    rw [List.filter_map, List.filter_filter]
    refine congrArg _ (List.filter_congr fun e _ => ?_)
    by_cases he : e.pack = id <;> by_cases hs : e.serial = serial <;> simp [he, hs]
  · rename_i other
    refine congrArg _ (List.filter_congr fun e _ => ?_)
    by_cases he : e.pack = id
    · simp [he, other]
    · simp [he]

theorem filter_ne_perm {l : List Nat} {n : Nat} (nodup : l.Nodup) (mem : n ∈ l) :
    l.Perm (n :: l.filter fun m => decide (m ≠ n)) := by
  have : l.filter (fun m => decide (m ≠ n)) = l.erase n := by
    rw [nodup.erase_eq_filter]
    exact List.filter_congr fun m _ => by simp [bne, beq_eq_decide]
  rw [this]
  exact List.perm_cons_erase mem

/-- What a blank taken off its path leaves. -/
theorem Stock.Sound.drop_spec (h : x.Sound) {p : Fin 6} {e : InPathEntry} (here : x.onPath p e.pack e.serial) :
    (x.pathSerials e.pack).Perm (e.serial :: (x.drop p e).pathSerials e.pack) ∧
      (∀ id, id ≠ e.pack → ((x.drop p e).pathSerials id).Perm (x.pathSerials id)) ∧
      ((x.drop p e).inPath[p]).length + 1 ≤ (x.inPath[p]).length ∧
      ∀ q : Fin 6, (x.drop p e).inPath[q].Sublist x.inPath[q] := by
  obtain ⟨k, hk, id, -⟩ := h.onPath_pack here
  have whole := x.pathSerials_perm p
  have dropped := x.pathSerials_modPath p (withoutBlank e.pack e.serial)
  have sub : ∀ q : Fin 6, (x.drop p e).inPath[q].Sublist x.inPath[q] := fun q => by
    by_cases hq : q = p
    · rw [hq]; unfold Stock.drop; rw [x.modPath_own]; exact List.filter_sublist
    · unfold Stock.drop; rw [x.modPath_apart p q _ hq]
  refine ⟨?_, fun id other => ?_, ?_, sub⟩
  · have nodup := (h.laws k hk).path_nodup
    rw [id] at nodup
    have own := (List.nodup_append.mp ((whole e.pack).nodup_iff.mp nodup)).1
    have mem : e.serial ∈ serialsOf e.pack x.inPath[p] := mem_serialsOf.mpr here
    refine (whole e.pack).trans (((filter_ne_perm own mem).append_right _).trans ?_)
    have := dropped e.pack
    rw [serialsOf_withoutBlank, if_pos rfl] at this
    exact this.symm.cons _
  · have := dropped id
    rw [serialsOf_withoutBlank, if_neg other] at this
    exact this.trans (whole id).symm
  · unfold Stock.drop
    rw [x.modPath_own]
    obtain ⟨y, hy, pack, serial⟩ := here
    have short := (List.length_filter_lt_length_iff_exists
      (p := fun z : InPathEntry => decide ¬(z.pack = e.pack ∧ z.serial = e.serial))).mpr
      ⟨y, hy, show ¬ decide (¬(y.pack = e.pack ∧ y.serial = e.serial)) = true by simp [pack, serial]⟩
    exact short

/-- The blanks in path of a pack stand on the one path of its bin. -/
theorem Stock.Sound.path_length_le (h : x.Sound) {k : Pack} (hk : k ∈ x.packs) {p : Fin 6} (within : k.location.within p) :
    (x.pathSerials k.id).length ≤ (x.inPath[p]).length := by
  rw [(x.pathSerials_perm p k.id).length_eq, List.length_append]
  have rest : serialsOf k.id ((allPrinters.erase p).flatMap fun q => x.inPath[q]) = [] := by
    rw [List.eq_nil_iff_forall_not_mem]
    intro n hn
    obtain ⟨e, he, pack, -⟩ := mem_serialsOf.mp hn
    obtain ⟨q, hq, he⟩ := List.mem_flatMap.mp he
    obtain ⟨j, hj, id, at_⟩ := h.located q e he
    have := h.pack_unique hj hk (id.trans pack)
    subst this
    have other := ((List.nodup_finRange 6).mem_erase_iff.mp hq).1
    rcases within with a | a <;> rcases at_ with b | b <;> rw [a] at b <;> cases b <;> exact other rfl
  rw [rest, List.length_nil, Nat.add_zero]
  unfold serialsOf
  rw [List.length_map]
  exact List.length_filter_le _ _

theorem Stock.Sound.path_le_two (h : x.Sound) {k : Pack} (hk : k ∈ x.packs) : (x.pathSerials k.id).length ≤ 2 := by
  cases path : x.pathSerials k.id with
  | nil => simp
  | cons n l =>
    have mem : n ∈ x.pathSerials k.id := by simp [path]
    obtain ⟨e, he, pack, -⟩ := mem_serialsOf.mp mem
    obtain ⟨p, -, he⟩ := List.mem_flatMap.mp he
    obtain ⟨j, hj, id, within⟩ := h.located p e he
    have := h.pack_unique hj hk (id.trans pack)
    subst this
    rw [← path]
    exact (h.path_length_le hk within).trans ((Nat.le_add_left _ _).trans (h.held p))

end

end Sys2Proof.Machine
end

