-- ==== Sys2Proof/Proofs/StockOperations.lean ====
section
/-! SUPPORT. That each operation of the register keeps its laws: outcomes, returns, takes, runs, voids, rulings, and the requests on pack
records (R7 to R22). -/

namespace Sys2Proof.Machine

section
variable {x y : Stock}

/-! ### Recent issues (R125) -/

/-- Every position. -/
def allPositions : List Position := .console :: allWindows.map .window

theorem allPositions_nodup : allPositions.Nodup := by
  refine List.nodup_cons.mpr ⟨by simp [allWindows], (List.nodup_finRange 15).map fun a b h => by injection h⟩

theorem mem_allPositions (pos : Position) : pos ∈ allPositions := by
  cases pos <;> simp [allPositions, allWindows]

theorem Stock.recents_eq (x : Stock) : x.recents = allPositions.flatMap x.recent := by
  unfold Stock.recents allPositions
  rw [List.flatMap_cons, List.flatMap_map]

/-- The recent issues after one position's list is changed. -/
theorem Stock.recents_update (pos : Position) (f : List RecentIssue → List RecentIssue)
    (recent : y.recent = fun q => if q = pos then f (x.recent q) else x.recent q) :
    ∃ rest, x.recents.Perm (x.recent pos ++ rest) ∧ y.recents.Perm (f (x.recent pos) ++ rest) := by
  have split : ∀ g : Position → List RecentIssue,
      (allPositions.flatMap g).Perm (g pos ++ (allPositions.erase pos).flatMap g) := fun g => by
    have := (List.perm_cons_erase (mem_allPositions pos)).flatMap_right g
    rwa [List.flatMap_cons] at this
  refine ⟨(allPositions.erase pos).flatMap x.recent, x.recents_eq ▸ split x.recent, ?_⟩
  have rest : (allPositions.erase pos).flatMap y.recent = (allPositions.erase pos).flatMap x.recent := by
    refine List.flatMap_congr fun q hq => ?_
    have other := (allPositions_nodup.mem_erase_iff.mp hq).1
    rw [recent]
    exact if_neg other
  have := split y.recent
  rw [rest, show y.recent pos = f (x.recent pos) by rw [recent]; exact if_pos rfl] at this
  rwa [y.recents_eq]

theorem addRecent_subperm (l : List RecentIssue) (r : RecentIssue) : (addRecent l r).Subperm (r :: l) := by
  unfold addRecent
  refine (List.perm_append_singleton r _).subperm.trans ((List.Sublist.cons_cons r ?_).subperm)
  split
  · exact List.tail_sublist l
  · exact List.Sublist.refl l

/-- A recent issue more, and perhaps the oldest of its position gone. -/
theorem Stock.recents_record (x : Stock) (pos : Position) (r : RecentIssue) : (x.record pos r).recents.Subperm (r :: x.recents) := by
  obtain ⟨rest, before, after⟩ := Stock.recents_update (x := x) (y := x.record pos r) pos (addRecent · r) rfl
  refine after.subperm.trans ?_
  refine ((List.subperm_append_right rest).mpr (addRecent_subperm (x.recent pos) r)).trans ?_
  exact (before.symm.cons r).subperm

theorem recentSerials_of_subperm {r : RecentIssue} (sub : y.recents.Subperm (r :: x.recents)) (id : Nat) :
    (y.recentSerials id).Subperm (if r.pack = id then r.serial :: x.recentSerials id else x.recentSerials id) := by
  unfold Stock.recentSerials
  obtain ⟨l, perm, sublist⟩ := sub
  have small := (sublist.filter fun e => decide (e.pack = id)).map (·.serial)
  rw [List.filter_cons] at small
  have big := ((perm.filter fun e => decide (e.pack = id)).map (·.serial)).symm.subperm.trans small.subperm
  simp only [decide_eq_true_eq] at big
  split at big
  · rw [if_pos ‹_›]; exact big
  · rw [if_neg ‹_›]; exact big

/-! ### Outcomes (R11, R12, R15) -/

theorem Pack.exhaust_if (k : Pack) (c : Prop) [Decidable c] :
    let j := if c then k.exhaust else k
    j.id = k.id ∧ j.stockType = k.stockType ∧ j.range = k.range ∧ (j.location = k.location ∨ c ∧ j.location = .store) := by
  simp only
  split
  · exact ⟨rfl, rfl, rfl, .inr ⟨‹c›, rfl⟩⟩
  · exact ⟨rfl, rfl, rfl, .inl rfl⟩

/-- What a change keeps of the record of a pack. -/
def Pack.alike (j k : Pack) : Prop := j.id = k.id ∧ j.stockType = k.stockType ∧ j.range = k.range ∧ j.location = k.location

/-- One pack changed as `Stock.Sound.change` has it, and the EXHAUSTED test made. -/
theorem Stock.Sound.changeExhaust (h : x.Sound) {k : Pack} (hk : k ∈ x.packs) {id : Nat} (own : k.id = id) (g : Pack → Pack)
    (packs : y.packs = x.packs.map fun j => if j.id = id then g j else j) (alike : ∀ j, (g j).alike j)
    (core : (g k).Core (y.pathSerials id) (y.recentSerials id) (y.doubtSerials id))
    (others : ∀ n, n ≠ id → (y.pathSerials n).Perm (x.pathSerials n) ∧
      (y.recentSerials n).Subperm (x.recentSerials n) ∧ (y.doubtSerials n).Perm (x.doubtSerials n))
    (held : ∀ p, y.held p ≤ 2) (located : ∀ p : Fin 6, ∀ e ∈ y.inPath[p], e ∈ x.inPath[p])
    (doubtKnown : ∀ d ∈ y.doubtful, d ∈ x.doubtful ∨ d.pack = id)
    (recentKnown : ∀ e ∈ y.recents, e ∈ x.recents ∨ e.pack = id) : (y.exhaustTest id).Sound := by
  have law := core.exhaustTest
  rw [← y.inPathOf_eq] at law
  obtain ⟨gid, gtype, grange, glocation⟩ := alike k
  obtain ⟨sid, stype, srange, slocation⟩ := (g k).exhaust_if ((g k).remaining = 0 ∧ y.inPathOf id = 0)
  refine h.change hk own (fun j => if (g j).remaining = 0 ∧ y.inPathOf id = 0 then (g j).exhaust else g j) ?_
    ⟨sid.trans gid, stype.trans gtype, srange.trans grange⟩ (fun q side at_ => .inl ?_) ?_ law others held
    (fun q f hf => .inl (located q f hf)) doubtKnown recentKnown
  · change (y.packs.map _) = _
    rw [packs, List.map_map]
    refine List.map_congr_left fun j _ => ?_
    simp only [Function.comp]
    by_cases hj : j.id = id
    · rw [if_pos hj, if_pos hj, if_pos ((alike j).1.trans hj)]
    · rw [if_neg hj, if_neg hj, if_neg hj]
  · rcases slocation with same | ⟨-, stored⟩
    · rw [← glocation, ← same]; exact at_
    · rw [stored] at at_; cases at_
  · rcases slocation with same | ⟨⟨-, none⟩, -⟩
    · exact .inl (same.trans glocation)
    · rw [y.inPathOf_eq] at none
      exact .inr (List.eq_nil_of_length_eq_zero none)

/-- A blank leaves its path for its fate; its pack and what names it change with it, and the EXHAUSTED test is made. -/
theorem Stock.Sound.settleBlank (h : x.Sound) {p : Fin 6} {e : InPathEntry} (here : x.onPath p e.pack e.serial) (g : Pack → Pack)
    (packs : y.packs = x.packs.map fun j => if j.id = e.pack then g j else j) (inPath : y.inPath = (x.drop p e).inPath)
    (alike : ∀ j, (g j).alike j)
    (core : ∀ (k : Pack) path, k.Core (e.serial :: path) (x.recentSerials e.pack) (x.doubtSerials e.pack) →
      (g k).Core path (y.recentSerials e.pack) (y.doubtSerials e.pack))
    (others : ∀ id, id ≠ e.pack → (y.recentSerials id).Subperm (x.recentSerials id) ∧
      (y.doubtSerials id).Perm (x.doubtSerials id))
    (held : ∀ q, (y.doubtful.filter fun d => decide (d.printer = q)).length ≤
      (x.doubtful.filter fun d => decide (d.printer = q)).length + if q = p then 1 else 0)
    (doubtKnown : ∀ d ∈ y.doubtful, d ∈ x.doubtful ∨ d.pack = e.pack)
    (recentKnown : ∀ r ∈ y.recents, r ∈ x.recents ∨ r.pack = e.pack) : (y.exhaustTest e.pack).Sound := by
  obtain ⟨k, hk, id, -⟩ := h.onPath_pack here
  obtain ⟨own, apart, short, sub⟩ := h.drop_spec here
  have path : ∀ n, y.pathSerials n = (x.drop p e).pathSerials n := fun n => by
    unfold Stock.pathSerials Stock.allPaths; rw [inPath]
  have before : k.Core (e.serial :: y.pathSerials e.pack) (x.recentSerials e.pack) (x.doubtSerials e.pack) := by
    have law := (h.laws k hk).toCore
    rw [id] at law
    exact law.replace (by rw [path]; exact own.symm) (List.Subperm.refl _) (List.Perm.refl _)
  refine h.changeExhaust hk id g packs alike (core k _ before) (fun n other => ⟨by rw [path]; exact apart n other, others n other⟩)
    (fun q => ?_) (fun q f hf => ?_) doubtKnown recentKnown
  · have bound := h.held q
    have more := held q
    have less := (sub q).length_le
    unfold Stock.held at bound ⊢
    rw [inPath]
    by_cases hq : q = p
    · subst q; rw [if_pos rfl] at more; omega
    · rw [if_neg hq] at more; omega
  · rw [inPath] at hf
    exact (sub q).subset hf

/-- A run of one blank in path keeps what names the pack. -/
theorem Pack.addRun_alike (j : Pack) (e : ExceptionEntry) : (j.addRun e).alike j := by
  rw [j.addRun_fields e]
  exact ⟨rfl, rfl, rfl, rfl⟩

theorem Stock.Sound.makeDoubtful (h : x.Sound) {p : Fin 6} {e : InPathEntry} (here : x.onPath p e.pack e.serial)
    (fault : Option Nat) : (x.makeDoubtful p e fault).Sound := by
  have doubts : ∀ id, ((x.doubtful ++ [doubtfulFrom p e]).filter fun d => decide (d.pack = id)).map (·.serial) =
      x.doubtSerials id ++ if e.pack = id then [e.serial] else [] := fun id => by
    unfold Stock.doubtSerials
    rw [List.filter_append, List.map_append, List.filter_cons]
    by_cases own : e.pack = id <;> simp [own, doubtfulFrom]
  refine h.settleBlank here (·.addRun (doubtRun e fault)) (y := { ((x.drop p e).modPack e.pack (·.addRun (doubtRun e fault))) with
    doubtful := x.doubtful ++ [doubtfulFrom p e] }) rfl rfl (fun j => j.addRun_alike _) (fun k path core => ?_)
    (fun id other => ⟨List.Subperm.refl _, ?_⟩) (fun q => ?_) (fun d hd => ?_) (fun r hr => .inl hr)
  · refine core.except e.serial rfl rfl ?_
    change (((x.doubtful ++ [doubtfulFrom p e]).filter fun d => decide (d.pack = e.pack)).map (·.serial)).Perm _
    rw [doubts, if_pos rfl]
    exact List.perm_append_singleton _ _
  · change (((x.doubtful ++ [doubtfulFrom p e]).filter fun d => decide (d.pack = id)).map (·.serial)).Perm _
    rw [doubts, if_neg (Ne.symm other), List.append_nil]
  · rw [List.filter_append, List.length_append, List.filter_cons]
    by_cases own : p = q
    · simp [doubtfulFrom, own]
    · simp [doubtfulFrom, own, Ne.symm own]
  · rcases List.mem_append.mp hd with old | new
    · exact .inl old
    · exact .inr (by rw [List.mem_singleton.mp new]; rfl)

theorem Stock.Sound.spoil (h : x.Sound) {p : Fin 6} {e : InPathEntry} (here : x.onPath p e.pack e.serial) (run : ExceptionEntry)
    (first : run.first = e.serial) (one : run.run = 1) (spoiled : run.disposition ≠ .doubtful) :
    (((x.drop p e).modPack e.pack (·.addRun run)).exhaustTest e.pack).Sound :=
  h.settleBlank here (·.addRun run) rfl rfl (fun j => j.addRun_alike _)
    (fun _ _ core => core.except e.serial first one (by rw [if_neg spoiled]; exact List.Perm.refl _))
    (fun _ _ => ⟨List.Subperm.refl _, List.Perm.refl _⟩) (fun _ => Nat.le_add_right _ _) (fun _ => .inl) fun _ => .inl

/-- A blank issued, and credited to a position or discarded (R11). -/
theorem Stock.Sound.issue (h : x.Sound) {p : Fin 6} {e : InPathEntry} (here : x.onPath p e.pack e.serial) :
    ((x.drop p e).exhaustTest e.pack).Sound ∧
      ∀ pos (r : RecentIssue), r.serial = e.serial → r.pack = e.pack → (((x.drop p e).record pos r).exhaustTest e.pack).Sound := by
  have packs : x.packs = x.packs.map fun j => if j.id = e.pack then id j else j := by simp
  have kept : ∀ j : Pack, (id j).alike j := fun _ => ⟨rfl, rfl, rfl, rfl⟩
  constructor
  · exact h.settleBlank here id packs rfl kept
      (fun _ _ core => (core.leave e.serial).replace (List.Perm.refl _) (List.sublist_cons_self _ _).subperm (List.Perm.refl _))
      (fun _ _ => ⟨List.Subperm.refl _, List.Perm.refl _⟩) (fun _ => Nat.le_add_right _ _) (fun _ => .inl) fun _ => .inl
  · intro pos r serial pack
    have recents : ((x.drop p e).record pos r).recents.Subperm (r :: x.recents) := (x.drop p e).recents_record pos r
    have serials := recentSerials_of_subperm recents
    refine h.settleBlank here id packs rfl kept (fun k path core => ?_) (fun n other => ⟨?_, List.Perm.refl _⟩)
      (fun _ => Nat.le_add_right _ _) (fun _ => .inl) fun q hq => ?_
    · have own := serials e.pack
      rw [if_pos pack, serial] at own
      exact (core.leave e.serial).replace (List.Perm.refl _) own (List.Perm.refl _)
    · have off := serials n
      rw [if_neg fun same => other (same.symm.trans pack)] at off
      exact off
    · rcases List.mem_cons.mp (recents.subset hq) with rfl | old
      · exact .inr pack
      · exact .inl old

/-! ### Returns and takes (R7, R8) -/

theorem Stock.Sound.putBack (h : x.Sound) {p : Fin 6} {e : InPathEntry} (here : x.onPath p e.pack e.serial)
    (last : ∀ k ∈ x.packs, k.id = e.pack → k.lastTaken = some e.serial) : (x.putBack p e).Sound := by
  obtain ⟨k, hk, id, -⟩ := h.onPath_pack here
  obtain ⟨own, apart, short, sub⟩ := h.drop_spec here
  have core := (h.laws k hk).toCore
  rw [id] at core
  have law := (core.replace own.symm (List.Subperm.refl _) (List.Perm.refl _)).putBack e.serial (last k hk id)
  refine h.change hk id (·.putBack e.serial) rfl ⟨rfl, rfl, rfl⟩ (fun q side at_ => .inl at_) (.inl rfl) law
    (fun n other => ⟨apart n other, List.Subperm.refl _, List.Perm.refl _⟩) (fun q => ?_)
    (fun q f hf => .inl ((sub q).subset hf)) (fun _ => .inl) fun _ => .inl
  have bound := h.held q
  have less := (sub q).length_le
  exact (Nat.add_le_add_left less _).trans bound

/-- The next blank of a pack in a bin put in path (R7). -/
theorem Stock.Sound.take (h : x.Sound) {p : Fin 6} {k : Pack} (hk : k ∈ x.packs) (within : k.location.within p)
    (usable : k.condition = .usable) (left : 0 < k.remaining) (room : x.held p < 2) (e : InPathEntry)
    (pack : e.pack = k.id) (serial : e.serial = k.next.getD 0) : ((x.modPack k.id Pack.takeOne).modPath p (· ++ [e])).Sound := by
  have few : (x.pathSerials k.id).length ≤ 1 := by
    have := h.path_length_le hk within
    unfold Stock.held at room
    omega
  have grown := (x.modPack k.id Pack.takeOne).pathSerials_modPath p (· ++ [e])
  have whole : ∀ n, (x.pathSerials n).Perm _ := x.pathSerials_perm p
  have law := (h.laws k hk).takeOne usable left few
  have sub : ∀ q : Fin 6, q ≠ p → ((x.modPack k.id Pack.takeOne).modPath p (· ++ [e])).inPath[q] = x.inPath[q] :=
    fun q other => Stock.modPath_apart _ p q _ other
  have ownPath : ((x.modPack k.id Pack.takeOne).modPath p (· ++ [e])).inPath[p] = x.inPath[p] ++ [e] := Stock.modPath_own _ p _
  refine h.change hk rfl Pack.takeOne rfl ⟨rfl, rfl, rfl⟩ (fun q side at_ => .inl at_) (.inl rfl) ?_
    (fun n other => ⟨?_, List.Subperm.refl _, List.Perm.refl _⟩) (fun q => ?_) (fun q f hf => ?_) (fun _ => .inl) fun _ => .inl
  · refine law.replace ?_ (List.Subperm.refl _) (List.Perm.refl _)
    refine (grown k.id).trans ?_
    have one : serialsOf k.id [e] = [k.next.getD 0] := by simp [serialsOf, pack, serial]
    rw [serialsOf_append, one, List.append_assoc]
    exact List.perm_middle.trans ((whole k.id).symm.cons _)
  · refine (grown n).trans ?_
    have none : serialsOf n [e] = [] := by simp [serialsOf, pack, Ne.symm other]
    rw [serialsOf_append, none, List.append_nil]
    exact (whole n).symm
  · by_cases hq : q = p
    · subst q
      unfold Stock.held at room ⊢
      rw [ownPath, List.length_append, List.length_singleton]
      change (x.doubtful.filter _).length + _ ≤ 2
      omega
    · have bound := h.held q
      unfold Stock.held at bound ⊢
      rw [sub q hq]
      exact bound
  · by_cases hq : q = p
    · subst q
      rw [ownPath] at hf
      rcases List.mem_append.mp hf with old | new
      · exact .inl old
      · exact .inr (by rw [List.mem_singleton.mp new]; exact ⟨pack, within⟩)
    · rw [sub q hq] at hf
      exact .inl hf

/-! ### The rest of a pack (R14, R21) -/

theorem Stock.Sound.runOut (h : x.Sound) {k : Pack} (hk : k ∈ x.packs) (d : Disposition) (fault : Option Nat)
    (apart : d ≠ .doubtful) : (x.runOut k.id (k.restRun d fault)).Sound := by
  have core := (h.laws k hk).toCore.runOut d fault apart
  refine h.changeExhaust hk rfl (fun j => ((k.restRun d fault).elim j fun e => j.addRun e).emptied)
    (y := ((k.restRun d fault).elim x fun e => x.modPack k.id (·.addRun e)).modPack k.id Pack.emptied) ?_ (fun j => ?_) ?_ ?_ ?_ ?_ ?_ ?_
  · cases k.restRun d fault with
    | none => rfl
    | some e =>
      change (x.packs.map _).map _ = _
      rw [List.map_map]
      refine List.map_congr_left fun j _ => ?_
      simp only [Function.comp, Option.elim_some]
      by_cases hj : j.id = k.id
      · rw [if_pos hj, if_pos hj, if_pos ((j.addRun_alike e).1.trans hj)]
      · rw [if_neg hj, if_neg hj, if_neg hj]
  · cases k.restRun d fault with
    | none => exact ⟨rfl, rfl, rfl, rfl⟩
    | some e => exact j.addRun_alike e
  all_goals generalize k.restRun d fault = run at core ⊢
  · cases run <;> exact core
  · cases run <;> exact fun n _ => ⟨List.Perm.refl _, List.Subperm.refl _, List.Perm.refl _⟩
  · cases run <;> exact h.held
  · cases run <;> exact fun _ _ => id
  · cases run <;> exact fun _ => .inl
  · cases run <;> exact fun _ => .inl

/-! ### Voids and rulings (R16, R17) -/

/-- A recent issue voided: its VOIDED run joins the list of its pack (R17). -/
theorem Stock.Sound.void (h : x.Sound) {k : Pack} (hk : k ∈ x.packs) {w : Fin 15} {r : RecentIssue} (mem : r ∈ x.recent (.window w))
    (pack : r.pack = k.id) (room : k.merges (r.voidRun w) = true ∨ k.exceptions.length < 21)
    (packs : y.packs = x.packs.map fun j => if j.id = k.id then j.addRun (r.voidRun w) else j)
    (doubtful : y.doubtful = x.doubtful) (inPath : y.inPath = x.inPath)
    (recent : y.recent = fun q => if q = .window w then (x.recent q).erase r else x.recent q) : y.Sound := by
  obtain ⟨rest, before, after⟩ := Stock.recents_update (x := x) (y := y) (.window w) (·.erase r) recent
  have recents : x.recents.Perm (r :: y.recents) :=
    before.trans ((((List.perm_cons_erase mem).append_right rest)).trans (after.symm.cons r))
  have serials : ∀ n, (x.recentSerials n).Perm (if r.pack = n then r.serial :: y.recentSerials n else y.recentSerials n) := fun n => by
    have := (recents.filter fun e => decide (e.pack = n)).map (·.serial)
    rw [List.filter_cons] at this
    simp only [decide_eq_true_eq] at this
    split at this
    · rw [if_pos ‹_›]; exact this
    · rw [if_neg ‹_›]; exact this
  have path : ∀ n, y.pathSerials n = x.pathSerials n := fun n => by unfold Stock.pathSerials Stock.allPaths; rw [inPath]
  have doubt : ∀ n, y.doubtSerials n = x.doubtSerials n := fun n => by unfold Stock.doubtSerials; rw [doubtful]
  obtain ⟨gid, gtype, grange, glocation⟩ := k.addRun_alike (r.voidRun w)
  have law := h.laws k hk
  have own := serials k.id
  rw [if_pos pack] at own
  have core : (k.addRun (r.voidRun w)).Core (y.pathSerials k.id) (y.recentSerials k.id) (y.doubtSerials k.id) := by
    rw [path, doubt]
    refine law.toCore.addRun (le_refl _) (room.imp_right fun few => ?_) ?_ (by rw [if_neg (by simp [RecentIssue.voidRun])])
    · have := h.path_le_two hk
      have := ite_le_one (k.remaining = 0)
      omega
    · refine law.packed.perm ?_
      refine List.Perm.trans ?_ (k.places_perm (List.Perm.refl _) own.symm)
      exact (k.places_recent_cons r.serial _ _).symm
  have fields := k.addRun_fields (r.voidRun w)
  refine h.change hk rfl (·.addRun (r.voidRun w)) packs ⟨gid, gtype, grange⟩
    (fun p side at_ => .inl (glocation ▸ at_)) (.inl glocation) ?_
    (fun n other => ⟨by rw [path], ?_, by rw [doubt]⟩) (fun p => ?_) (fun p e he => .inl (inPath ▸ he))
    (fun d hd => .inl (doubtful ▸ hd)) fun e he => .inl (recents.symm.subset (List.mem_cons_of_mem r he))
  · refine { core with spent := fun none empty => ?_ }
    rw [fields] at none
    rw [path] at empty
    have spent := law.spent none empty
    rcases k.addRun_condition (r.voidRun w) with same | ⟨usable, -⟩
    · exact same.trans spent
    · rw [spent] at usable; cases usable
  · have off := serials n
    rw [if_neg fun same => other (same.symm.trans pack)] at off
    exact off.symm.subperm
  · unfold Stock.held; rw [doubtful, inPath]; exact h.held p

/-- A doubtful entry ruled on: it goes from the list, and its exception with it. -/
theorem Stock.Sound.rule (h : x.Sound) {k : Pack} (hk : k ∈ x.packs) {d : DoubtfulEntry} (mem : d ∈ x.doubtful) (pack : d.pack = k.id)
    (f : Pack → Pack) (packs : y.packs = x.packs.map fun j => if j.id = k.id then f j else j) (alike : (f k).alike k)
    (doubtful : y.doubtful = x.doubtful.erase d) (inPath : y.inPath = x.inPath) (recent : List Nat)
    (law : (f k).Law (x.pathSerials k.id) recent ((x.doubtSerials k.id).erase d.serial))
    (own : (y.recentSerials k.id).Subperm recent) (others : ∀ n, n ≠ k.id → (y.recentSerials n).Subperm (x.recentSerials n))
    (recentKnown : ∀ e ∈ y.recents, e ∈ x.recents ∨ e.pack = k.id) : y.Sound := by
  have path : ∀ n, y.pathSerials n = x.pathSerials n := fun n => by unfold Stock.pathSerials Stock.allPaths; rw [inPath]
  have doubts : ∀ n, (x.doubtSerials n).Perm (if d.pack = n then d.serial :: y.doubtSerials n else y.doubtSerials n) := fun n => by
    have := ((List.perm_cons_erase mem).filter fun e => decide (e.pack = n)).map (·.serial)
    rw [List.filter_cons, ← doubtful] at this
    simp only [decide_eq_true_eq] at this
    split at this
    · rw [if_pos ‹_›]; exact this
    · rw [if_neg ‹_›]; exact this
  have ownDoubts : (y.doubtSerials k.id).Perm ((x.doubtSerials k.id).erase d.serial) := by
    have whole := doubts k.id
    rw [if_pos pack] at whole
    exact (whole.symm.trans (List.perm_cons_erase (whole.symm.subset List.mem_cons_self))).cons_inv
  obtain ⟨gid, gtype, grange, glocation⟩ := alike
  refine h.change hk rfl f packs ⟨gid, gtype, grange⟩ (fun p side at_ => .inl (glocation ▸ at_)) (.inl glocation)
    (law.replace (by rw [path]) own ownDoubts) (fun n other => ⟨by rw [path], others n other, ?_⟩) (fun p => ?_)
    (fun p e he => .inl (inPath ▸ he)) (fun e he => .inl ?_) recentKnown
  · have off := doubts n
    rw [if_neg fun same => other (same.symm.trans pack)] at off
    exact off.symm
  · have fewer := ((List.erase_sublist (a := d) (l := x.doubtful)).filter fun e => decide (e.printer = p)).length_le
    have bound := h.held p
    unfold Stock.held at bound ⊢
    rw [doubtful, inPath]
    omega
  · rw [doubtful] at he
    exact List.mem_of_mem_erase he

/-- A doubtful serial of a pack in the table. -/
theorem Stock.mem_doubtSerials {d : DoubtfulEntry} {id : Nat} (mem : d ∈ x.doubtful) (pack : d.pack = id) :
    d.serial ∈ x.doubtSerials id :=
  List.mem_map.mpr ⟨d, List.mem_filter.mpr ⟨mem, decide_eq_true pack⟩, rfl⟩

/-- A doubtful blank ruled SPOILED (R16). -/
theorem Stock.Sound.ruleSpoiled (h : x.Sound) {k : Pack} (hk : k ∈ x.packs) {d : DoubtfulEntry} (mem : d ∈ x.doubtful)
    (pack : d.pack = k.id) :
    ({ x.modPack k.id (·.spoilDoubt d.serial) with doubtful := x.doubtful.erase d } : Stock).Sound :=
  h.rule hk mem pack (·.spoilDoubt d.serial) rfl ⟨rfl, rfl, rfl, rfl⟩ rfl rfl _
    ((h.laws k hk).spoilDoubt d.serial (Stock.mem_doubtSerials mem pack)) (List.Subperm.refl _) (fun _ _ => List.Subperm.refl _)
    fun _ => .inl

/-- A doubtful blank ruled ISSUED, and credited to a position or discarded (R16). -/
theorem Stock.Sound.ruleIssued (h : x.Sound) {k : Pack} (hk : k ∈ x.packs) {d : DoubtfulEntry} (mem : d ∈ x.doubtful)
    (pack : d.pack = k.id) (recents : y.recents = x.recents ∨
      ∃ r : RecentIssue, r.serial = d.serial ∧ r.pack = d.pack ∧ y.recents.Subperm (r :: x.recents))
    (packs : y.packs = (x.modPack k.id fun j => { j with exceptions := j.exceptions.eraseP (·.doubts d.serial) }).packs)
    (doubtful : y.doubtful = x.doubtful.erase d) (inPath : y.inPath = x.inPath) : y.Sound := by
  have law := (h.laws k hk).eraseDoubt d.serial (Stock.mem_doubtSerials mem pack)
  have same : y.recents = x.recents → ∀ n, (y.recentSerials n) = x.recentSerials n := fun e n => by
    unfold Stock.recentSerials; rw [e]
  refine h.rule hk mem pack (fun j => { j with exceptions := j.exceptions.eraseP (·.doubts d.serial) }) packs ⟨rfl, rfl, rfl, rfl⟩
    doubtful inPath _ law ?_ (fun n other => ?_) fun e he => ?_
  · rcases recents with eq | ⟨r, serial, rpack, sub⟩
    · rw [same eq]; exact (List.sublist_cons_self _ _).subperm
    · have := recentSerials_of_subperm sub k.id
      rw [if_pos (rpack.trans pack), serial] at this
      exact this
  · rcases recents with eq | ⟨r, -, rpack, sub⟩
    · rw [same eq]
    · have := recentSerials_of_subperm sub n
      rwa [if_neg fun own => other (own.symm.trans (rpack.trans pack))] at this
  · rcases recents with eq | ⟨r, -, rpack, sub⟩
    · exact .inl (eq ▸ he)
    · rcases List.mem_cons.mp (sub.subset he) with rfl | old
      · exact .inr (rpack.trans pack)
      · exact .inl old

/-! ### Pack records (R19, R20, R22) -/

theorem Stock.Sound.relocate (h : x.Sound) {k : Pack} (hk : k ∈ x.packs) (idle : x.inPathOf k.id = 0) (l : Location)
    (free : ∀ p side, l = .bin p side → ∀ j ∈ x.packs, j.location ≠ .bin p side) :
    (x.modPack k.id fun j => { j with location := l }).Sound := by
  rw [x.inPathOf_eq] at idle
  exact h.change hk rfl (fun j => { j with location := l }) rfl ⟨rfl, rfl, rfl⟩ (fun p side at_ => .inr (free p side at_))
    (.inr (List.eq_nil_of_length_eq_zero idle)) ((h.laws k hk).relocate l)
    (fun _ _ => ⟨List.Perm.refl _, List.Subperm.refl _, List.Perm.refl _⟩) h.held (fun _ _ => .inl) (fun _ => .inl) fun _ => .inl

/-- A pack record removed that nothing names. -/
theorem Stock.Sound.remove (h : x.Sound) (id : Nat) (idle : ∀ p : Fin 6, ∀ e ∈ x.inPath[p], e.pack ≠ id)
    (certain : ∀ d ∈ x.doubtful, d.pack ≠ id) (unissued : ∀ e ∈ x.recents, e.pack ≠ id) :
    ({ x with packs := x.packs.filter fun k => decide (k.id ≠ id) } : Stock).Sound := by
  have sub : (x.packs.filter fun k => decide (k.id ≠ id)).Sublist x.packs := List.filter_sublist
  have stays : ∀ n, n ≠ id → (∃ k ∈ x.packs, k.id = n) → ∃ k ∈ x.packs.filter fun k => decide (k.id ≠ id), k.id = n := by
    rintro n other ⟨k, hk, rfl⟩
    exact ⟨k, List.mem_filter.mpr ⟨hk, decide_eq_true other⟩, rfl⟩
  refine { size := sub.length_le.trans h.size, ids := h.ids.sublist (sub.map _), bins := fun p side => (sub.countP_le).trans (h.bins p side)
           laws := fun k hk => h.laws k (sub.subset hk), held := h.held
           clear := fun k hk j hj => h.clear k (sub.subset hk) j (sub.subset hj), located := fun p e he => ?_
           doubtKnown := fun d hd => stays _ (certain d hd) (h.doubtKnown d hd)
           recentKnown := fun e he => stays _ (unissued e he) (h.recentKnown e he) }
  obtain ⟨k, hk, pack, within⟩ := h.located p e he
  exact ⟨k, List.mem_filter.mpr ⟨hk, decide_eq_true (pack ▸ idle p e he)⟩, pack, within⟩

/-- A new pack record. -/
theorem Stock.Sound.create (h : x.Sound) (k : Pack) (fresh : k.next = some k.first ∧ k.remaining = k.count ∧ k.condition = .usable ∧
      k.exceptions = []) (blanks : 0 < k.count) (low : 0 ≤ k.range.1) (new : ∀ j ∈ x.packs, j.id ≠ k.id)
    (clear : ∀ j ∈ x.packs, k.collides j = false) (room : x.packs.length < 64)
    (free : ∀ p side, k.location = .bin p side → ∀ j ∈ x.packs, j.location ≠ .bin p side) :
    ({ x with packs := x.packs ++ [k] } : Stock).Sound := by
  have grown : ∀ {P : Pack → Prop}, (∃ j ∈ x.packs, P j) → ∃ j ∈ x.packs ++ [k], P j := fun ⟨j, hj, hp⟩ =>
    ⟨j, List.mem_append_left _ hj, hp⟩
  have unnamed : x.pathSerials k.id = [] ∧ x.recentSerials k.id = [] ∧ x.doubtSerials k.id = [] := by
    refine ⟨?_, ?_, ?_⟩ <;>
      refine List.map_eq_nil_iff.mpr (List.filter_eq_nil_iff.mpr fun e he own => ?_) <;>
      have own := of_decide_eq_true own
    · obtain ⟨p, -, he⟩ := List.mem_flatMap.mp he
      obtain ⟨j, hj, id, -⟩ := h.located p e he
      exact new j hj (id.trans own)
    · obtain ⟨j, hj, id⟩ := h.recentKnown e he
      exact new j hj (id.trans own)
    · obtain ⟨j, hj, id⟩ := h.doubtKnown e he
      exact new j hj (id.trans own)
  have collides_symm : ∀ j : Pack, j.collides k = k.collides j := fun j => by
    unfold Pack.collides
    refine decide_eq_decide.mpr ⟨fun ⟨a, b⟩ => ⟨a.symm, ?_⟩, fun ⟨a, b⟩ => ⟨a.symm, ?_⟩⟩ <;> omega
  refine { size := ?_, ids := ?_, bins := fun p side => ?_, laws := fun j hj => ?_, clear := fun i hi j hj other => ?_
           held := h.held, located := fun p e he => grown (h.located p e he)
           doubtKnown := fun d hd => grown (h.doubtKnown d hd), recentKnown := fun e he => grown (h.recentKnown e he) }
  · rw [List.length_append, List.length_singleton]; exact room
  · rw [List.map_append, List.nodup_append]
    refine ⟨h.ids, by simp, fun a ha b hb => ?_⟩
    obtain ⟨j, hj, rfl⟩ := List.mem_map.mp ha
    rw [List.map_cons, List.map_nil, List.mem_singleton] at hb
    rw [hb]
    exact new j hj
  · rw [List.countP_append, List.countP_cons, List.countP_nil]
    by_cases at_ : k.location = .bin p side
    · have none : x.packs.countP (fun j => decide (j.location = .bin p side)) = 0 :=
        List.countP_eq_zero.mpr fun j hj here => free p side at_ j hj (of_decide_eq_true here)
      rw [none]
      simp [at_]
    · rw [if_neg (by simpa using at_)]
      exact h.bins p side
  · rcases List.mem_append.mp hj with old | only
    · exact h.laws j old
    · rw [List.mem_singleton.mp only]
      obtain ⟨path, recent, doubt⟩ := unnamed
      change k.Law (x.pathSerials k.id) (x.recentSerials k.id) (x.doubtSerials k.id)
      rw [path, recent, doubt]
      exact Pack.new_law fresh blanks low
  · rcases List.mem_append.mp hi with iold | inew
    · rcases List.mem_append.mp hj with jold | jnew
      · exact h.clear i iold j jold other
      · rw [List.mem_singleton.mp jnew, collides_symm]
        exact clear i iold
    · rw [List.mem_singleton.mp inew] at other ⊢
      rcases List.mem_append.mp hj with jold | jnew
      · exact clear j jold
      · rw [List.mem_singleton.mp jnew] at other
        exact absurd rfl other

theorem Stock.sound_empty (packs : x.packs = []) (doubtful : x.doubtful = []) (inPath : ∀ p : Fin 6, x.inPath[p] = [])
    (recents : x.recents = []) : x.Sound where
  size := by simp [packs]
  ids := by simp [packs]
  bins := by simp [packs]
  laws := by simp [packs]
  clear := by simp [packs]
  held p := by simp [Stock.held, doubtful, inPath]
  located p e he := by rw [inPath] at he; cases he
  doubtKnown d hd := by rw [doubtful] at hd; cases hd
  recentKnown e he := by rw [recents] at he; cases he

/-! ### Distinct blanks on a path -/

/-- Two entries are of different blanks. -/
def InPathEntry.differs (a b : InPathEntry) : Prop := ¬(a.pack = b.pack ∧ a.serial = b.serial)

/-- No blank stands twice on a path. -/
theorem Stock.Sound.path_distinct (h : x.Sound) (p : Fin 6) : (x.inPath[p]).Pairwise InPathEntry.differs := by
  have own : ∀ id, (serialsOf id x.inPath[p]).Nodup := fun id => by
    by_cases known : ∃ k ∈ x.packs, k.id = id
    · obtain ⟨k, hk, rfl⟩ := known
      exact (List.nodup_append.mp ((x.pathSerials_perm p k.id).nodup_iff.mp (h.laws k hk).path_nodup)).1
    · have : serialsOf id x.inPath[p] = [] := by
        rw [List.eq_nil_iff_forall_not_mem]
        intro n hn
        obtain ⟨e, he, pack, -⟩ := mem_serialsOf.mp hn
        obtain ⟨k, hk, kid, -⟩ := h.located p e he
        exact known ⟨k, hk, kid.trans pack⟩
      rw [this]
      exact List.nodup_nil
  generalize x.inPath[p] = l at own
  induction l with
  | nil => exact .nil
  | cons a l ih =>
    refine List.pairwise_cons.mpr ⟨fun b hb same => ?_, ih fun id => ?_⟩
    · have nodup := own a.pack
      unfold serialsOf at nodup
      rw [List.filter_cons, if_pos (by simp), List.map_cons, List.nodup_cons] at nodup
      exact nodup.1 (List.mem_map.mpr ⟨b, List.mem_filter.mpr ⟨hb, decide_eq_true same.1.symm⟩, same.2.symm⟩)
    · exact (own id).sublist (((List.sublist_cons_self a l).filter _).map _)

end

end Sys2Proof.Machine
end

