-- ==== Sys2Proof/Proofs/StockRegister.lean ====
section
/-! O2: that every effect keeps the laws of the stock register, and the statement. -/

namespace Sys2Proof.Machine

/-! ### Outcomes and returns -/

section
variable {s : State}

theorem makeDoubtful_sound (h : s.stock.Sound) {p : Fin 6} {e : InPathEntry} (here : s.stock.onPath p e.pack e.serial) :
    (s.makeDoubtful p e).stock.Sound := by
  rw [stock_makeDoubtful]
  exact h.makeDoubtful here _

/-- Blanks of a path made DOUBTFUL one after the other. -/
theorem makeDoubtful_foldl_sound (p : Fin 6) (es : List InPathEntry) (distinct : es.Pairwise InPathEntry.differs) :
    ∀ s : State, s.stock.Sound → (∀ e ∈ es, e ∈ s.path p) → (es.foldl (fun s e => s.makeDoubtful p e) s).stock.Sound := by
  induction es with
  | nil => exact fun s h _ => h
  | cons e es ih =>
    intro s h mem
    obtain ⟨first, rest⟩ := List.pairwise_cons.mp distinct
    refine ih rest _ (makeDoubtful_sound h ⟨e, mem e List.mem_cons_self, rfl, rfl⟩) fun f hf => ?_
    rw [path_makeDoubtful, if_pos rfl]
    refine List.mem_filter.mpr ⟨mem f (List.mem_cons_of_mem e hf), decide_eq_true fun same => first f hf ?_⟩
    exact ⟨same.1.symm, same.2.symm⟩

/-- A part of a path made DOUBTFUL. -/
theorem makeDoubtful_sublist_sound (h : s.stock.Sound) (p : Fin 6) (es : List InPathEntry) (sub : es.Sublist (s.path p)) :
    (es.foldl (fun s e => s.makeDoubtful p e) s).stock.Sound :=
  makeDoubtful_foldl_sound p es ((h.path_distinct p).sublist sub) s h fun _ he => sub.subset he

theorem State.stillInPath_iff (s : State) (p : Fin 6) (e : InPathEntry) :
    s.stillInPath p e = true ↔ s.stock.onPath p e.pack e.serial := by
  unfold State.stillInPath Stock.onPath
  rw [List.any_eq_true]
  simp only [decide_eq_true_eq]
  rfl

theorem fromEntry_sublist (path : List InPathEntry) (e : InPathEntry) : (fromEntry path e).Sublist path :=
  List.filter_sublist.trans (List.dropWhile_sublist _)

theorem returnBlank_sound (h : s.stock.Sound) (p : Fin 6) (e : InPathEntry) : (s.returnBlank p e).stock.Sound := by
  by_cases last : (s.pack? e.pack).any fun k => decide (k.lastTaken = some e.serial)
  · rw [stock_returnBlank_last s p e last]
    split
    · rename_i here
      refine h.putBack ((s.stillInPath_iff p e).mp here) fun k hk id => ?_
      obtain ⟨j, found, lastTaken⟩ : ∃ j, s.pack? e.pack = some j ∧ decide (j.lastTaken = some e.serial) = true := by
        cases found : s.pack? e.pack with
        | none => rw [found] at last; cases last
        | some j => exact ⟨j, rfl, by rwa [found] at last⟩
      obtain ⟨hj, jid⟩ := State.pack?_some found
      rw [h.pack_unique hk hj (id.trans jid.symm)]
      exact of_decide_eq_true lastTaken
    · exact h
  · unfold State.returnBlank
    rw [if_neg last]
    split
    · exact makeDoubtful_sublist_sound h p _ (fromEntry_sublist _ e)
    · exact h

theorem returnAll_sound (h : s.stock.Sound) (p : Fin 6) (es : List InPathEntry) : (s.returnAll p es).stock.Sound := by
  unfold State.returnAll
  generalize es.reverse = l
  induction l generalizing s with
  | nil => exact h
  | cons e l ih => exact ih (returnBlank_sound h p e)

theorem issueBlank_sound (h : s.stock.Sound) {p : Fin 6} {e : InPathEntry} (here : s.stock.onPath p e.pack e.serial) :
    (s.issueBlank p e).stock.Sound := by
  obtain ⟨discarded, credited⟩ := h.issue here
  rcases stock_issueBlank s p e with eq | ⟨r, serial, pack, eq⟩
  · rw [eq]; exact discarded
  · rw [eq]; exact credited _ r serial pack

theorem spoilBlank_sound (h : s.stock.Sound) {p : Fin 6} {e : InPathEntry} (here : s.stock.onPath p e.pack e.serial) (fault : Nat) :
    (s.spoilBlank p e fault).stock.Sound := by
  rw [stock_spoilBlank]
  exact h.spoil here _ rfl rfl nofun

theorem runOut_sound (h : s.stock.Sound) (id : Nat) (d : Disposition) (fault : Option Nat) (apart : d ≠ .doubtful) :
    (s.runOut id d fault).stock.Sound := by
  rw [stock_runOut]
  cases found : s.pack? id with
  | none => exact h
  | some k =>
    obtain ⟨hk, rfl⟩ := State.pack?_some found
    exact h.runOut hk d fault apart

theorem binEmptied_sound (h : s.stock.Sound) (p : Fin 6) (e : InPathEntry) (fault : Nat) : (s.binEmptied p e fault).stock.Sound := by
  refine runOut_sound ?_ e.pack .missing (some fault) nofun
  rw [(logs_modFault _ _ _).stock]
  exact returnAll_sound h p _

/-! ### The ports -/

theorem binPack?_some {s : State} {p : Fin 6} {side : Bin} {k : Pack} (h : s.binPack? p side = some k) :
    k ∈ s.ret.packs ∧ k.location = .bin p side :=
  ⟨List.mem_of_find?_eq_some h, by simpa using List.find?_some h⟩

/-- The pack a take finds is in a bin of the printer, USABLE, and not empty (R7). -/
theorem takeBin_spec {p : Fin 6} {t : Fin 8} {k : Pack} {side : Bin} (h : s.takeBin p t = some (k, side)) :
    s.binPack? p side = some k ∧ k.stockType = t ∧ k.condition = .usable ∧ 0 < k.remaining := by
  have fits : ∀ {side : Bin} {k : Pack}, (s.binPack? p side).filter (·.takeable t) = some k →
      s.binPack? p side = some k ∧ k.stockType = t ∧ k.condition = .usable ∧ 0 < k.remaining := fun h => by
    obtain ⟨found, takeable⟩ := Option.filter_eq_some_iff.mp h
    exact ⟨found, of_decide_eq_true takeable⟩
  unfold State.takeBin at h
  split at h
  · cases h
  · cases h; exact fits ‹_›
  · cases h; exact fits ‹_›
  · split at h <;> cases h <;> exact fits ‹_›

theorem take_sound (h : s.stock.Sound) {t : State} {p : Fin 6} {i : Fin 8} {e e' : InPathEntry} {side : Bin}
    (taken : s.take p i e = some (t, e', side)) : t.stock.Sound := by
  obtain ⟨k, found, room, certain, entry, eq⟩ := stock_take s t p i e e' side taken
  obtain ⟨bin, -, usable, left⟩ := takeBin_spec found
  obtain ⟨hk, location⟩ := binPack?_some bin
  have within : k.location.within p := by
    cases side with
    | a => exact .inl location
    | b => exact .inr location
  have none : (s.stock.doubtful.filter fun d => decide (d.printer = p)) = [] := by
    rw [List.filter_eq_nil_iff]
    unfold State.hasDoubt at certain
    exact List.any_eq_false.mp certain
  rw [eq]
  refine h.take hk within usable left ?_ e' (by rw [entry]) (by rw [entry])
  unfold Stock.held
  rw [none]
  exact (Nat.zero_add _).trans_lt room

theorem dispatch_sound (h : s.stock.Sound) {t : State} {p : Fin 6} (sent : s.dispatch p = some t) : t.stock.Sound := by
  unfold State.dispatch at sent
  split at sent
  · split at sent
    · cases sent
    · split at sent
      · split at sent
        · cases sent
        · rename_i taken
          cases sent
          have := take_sound h taken
          exact this
      · cases sent
  · cases sent

/-- A port's choice dispatches a PRINT, or changes the port's own record alone (R37). -/
theorem choose_cases (s : State) (trigger : Trigger) (p : Fin 6) :
    s.dispatch p = some (s.choose trigger p) ∨ Logs s (s.choose trigger p) := by
  have waits : Logs s (s.pollOrWait p trigger) := by
    unfold State.pollOrWait
    split
    · exact logs_send s _ _ _
    · exact .refl s
  unfold State.choose
  simp only
  split
  · exact .inr (.refl s)
  · split
    · exact .inr (.refl s)
    · exact .inr (.refl s)
    · exact .inr (.refl s)
    · exact .inr (.refl s)
    · split
      · exact .inr (logs_send s _ _ _)
      · exact .inr waits
    · exact .inr waits
    · split
      · exact .inl ‹_›
      · exact .inr waits
    · split
      · exact .inl ‹_›
      · exact .inr waits

theorem choose_sound (h : s.stock.Sound) (trigger : Trigger) (p : Fin 6) : (s.choose trigger p).stock.Sound := by
  rcases choose_cases s trigger p with sent | logs
  · exact dispatch_sound h sent
  · rw [logs.stock]; exact h

theorem wakeAll_sound (h : s.stock.Sound) (before : State) : (s.wakeAll before).stock.Sound := by
  unfold State.wakeAll
  generalize allPrinters = l
  induction l generalizing s with
  | nil => exact h
  | cons p l ih =>
    refine ih ?_
    change (s.wake before p).stock.Sound
    unfold State.wake
    split
    · exact h
    · exact choose_sound h _ _

/-! ### Replies and timers -/

theorem logs_sound {t : State} (logs : Logs s t) (h : s.stock.Sound) : t.stock.Sound := logs.stock ▸ h

theorem applyOutcome_sound (h : s.stock.Sound) {p : Fin 6} {e : InPathEntry} (here : s.stock.onPath p e.pack e.serial)
    (o : PrintOutcome) (fault : Nat) : (s.applyOutcome p o fault e).stock.Sound := by
  cases o with
  | done => exact issueBlank_sound h here
  | spoiled cause => exact spoilBlank_sound h here fault
  | notFed => exact h
  | binEmpty => exact binEmptied_sound h p e fault

/-- One entry of each blank stands on a path. -/
theorem differs_eq {l : List InPathEntry} (distinct : l.Pairwise InPathEntry.differs) {a b : InPathEntry} (ha : a ∈ l) (hb : b ∈ l)
    (same : a.pack = b.pack ∧ a.serial = b.serial) : a = b := by
  by_contra other
  have symm : Std.Symm InPathEntry.differs := ⟨fun _ _ h k => h ⟨k.1.symm, k.2.symm⟩⟩
  exact distinct.forall ha hb other same

/-- The settlements of a reply: the blank of the outcome is none of those lost. -/
theorem applySettlement_sound (h : s.stock.Sound) (p : Fin 6) (o : PrintOutcome) (w : Settlement)
    (lost : w.lost.Sublist (s.path p)) (outcome : ∀ e, w.outcome = some e → e ∈ s.path p ∧ e ∉ w.lost) :
    (s.applySettlement p o w).stock.Sound := by
  unfold State.applySettlement
  simp only
  refine logs_sound (logs_raiseDoubtSince _ _ _) (returnAll_sound ?_ p _)
  cases found : w.outcome with
  | none => exact makeDoubtful_sublist_sound h p _ lost
  | some e =>
    obtain ⟨mem, kept⟩ := outcome e found
    have raised := logs_raiseOutcome s p o e
    have path : (s.raiseOutcome p o e).1.path p = s.path p := raised.path p
    have doubted := makeDoubtful_sublist_sound (logs_sound raised h) p w.lost (path ▸ lost)
    refine applyOutcome_sound doubted ?_ o _
    refine ⟨e, ?_, rfl, rfl⟩
    change e ∈ (w.lost.foldl (fun s e => s.makeDoubtful p e) (s.raiseOutcome p o e).1).path p
    rw [path_makeDoubtful_foldl, if_pos rfl, path]
    refine List.mem_filter.mpr ⟨mem, List.all_eq_true.mpr fun f hf => decide_eq_true fun same => kept ?_⟩
    rw [differs_eq (h.path_distinct p) mem (lost.subset hf) same]
    exact hf

/-- A reply's settlements are parts of the path (R32, R34). -/
theorem settle_parts (path : List InPathEntry) (n : Byte) (kind : CommandKind) (r : PrinterReply) :
    (settle path n kind r).lost.Sublist path ∧
      ∀ e, (settle path n kind r).outcome = some e → e ∈ path ∧ e ∉ (settle path n kind r).lost := by
  refine ⟨List.filter_sublist, fun e found => ?_⟩
  unfold settle at found
  simp only at found
  split at found
  · have age : commandAge n e.command = commandAge n r.outcomeOf := by simpa using List.find?_some found
    refine ⟨List.mem_of_find?_eq_some found, fun lost => ?_⟩
    have older := of_decide_eq_true (List.mem_filter.mp lost).2
    omega
  · cases found

theorem receiveReply_sound (h : s.stock.Sound) (p : Fin 6) (r : PrinterReply) : (s.receiveReply p r).stock.Sound := by
  unfold State.receiveReply
  split
  · exact h
  · rename_i n kind _
    split
    · unfold State.acceptReply
      simp only
      refine wakeAll_sound (choose_sound (logs_sound (logs_finishDisable _ p) ?_) _ _) _
      refine logs_sound ((logs_takeCondition _ p _).trans (logs_clearingTest _ p _)) ?_
      refine logs_sound ((logs_takeAcceptance _ p n kind r).trans ((logs_takeSample _ p _).trans (logs_compareHeat _ p))) ?_
      obtain ⟨lost, outcome⟩ := settle_parts (s.path p) n kind r
      exact applySettlement_sound (s := s.modPrinter p fun x => { x with outstanding := none }) h p _ _ lost outcome
    · exact h

theorem receiveIdentity_sound (h : s.stock.Sound) (p : Fin 6) (r : PrinterReply) (i : Identity) :
    (s.receiveIdentity p r i).stock.Sound := by
  unfold State.receiveIdentity
  split
  · exact h
  · split
    · unfold State.acceptIdentity
      simp only
      refine wakeAll_sound (choose_sound (logs_sound ?_ h) _ _) _
      exact ((((logs_modPrinter s p _).trans (logs_takeSample _ _ _)).trans (logs_linkAnswered _ _ _)).trans
        (logs_raiseAtIdentity _ _ _)).trans (logs_placeIdentified _ _)
    · exact h

theorem loseLink_sound (h : s.stock.Sound) (p : Fin 6) : (s.loseLink p).stock.Sound := by
  unfold State.loseLink
  simp only
  refine wakeAll_sound (logs_sound ?_ (makeDoubtful_sublist_sound h p (s.path p) (List.Sublist.refl _))) _
  exact (((logs_raise _ _ _ _).trans (logs_raiseDoubtSince _ _ _)).trans (logs_setPrinterState _ _ _)).trans (logs_modPrinter _ _ _)

theorem expireReply_sound (h : s.stock.Sound) (p : Fin 6) : (s.expireReply p).stock.Sound := by
  unfold State.expireReply
  split
  · exact h
  · split
    · exact h
    · simp only
      split
      · exact h
      · exact loseLink_sound (s := s.modPrinter p _) h p

theorem expireIdent_sound (h : s.stock.Sound) (p : Fin 6) : (s.expireIdent p).stock.Sound := by
  unfold State.expireIdent
  split
  · exact h
  · split
    · simp only
      split
      · unfold State.giveUpIdentifying
        simp only
        refine wakeAll_sound (logs_sound ?_ h) _
        refine Logs.trans ?_ (logs_modPrinter _ _ _)
        split
        · exact ((logs_modPrinter s p _).trans (logs_raise _ _ _ _)).trans (logs_raise _ _ _ _)
        · exact (logs_modPrinter s p _).trans (logs_raise _ _ _ _)
      · exact h
    · exact h

/-! ### The requests -/

theorem voidEntry_sound (h : s.stock.Sound) {w : Fin 15} {serial : Nat} {i : Fin 8} {e : RecentIssue}
    (found : s.recentEntry w serial i = some e) (room : s.canVoid w e = true) : (s.voidEntry w e).stock.Sound := by
  have mem : e ∈ s.stock.recent (.window w) := List.mem_of_find?_eq_some found
  have known : ∃ k ∈ s.stock.packs, k.id = e.pack := h.recentKnown e
    (List.mem_append_right _ (List.mem_flatMap.mpr ⟨w, List.mem_finRange w, mem⟩))
  obtain ⟨k, hk, id⟩ := known
  have hp : s.pack? e.pack = some k := by
    cases looked : s.pack? e.pack with
    | none => exact absurd id (State.pack?_none looked k hk)
    | some j =>
      obtain ⟨hj, jid⟩ := State.pack?_some looked
      rw [h.pack_unique hk hj (id.trans jid.symm)]
  have fits : k.merges (e.voidRun w) = true ∨ k.exceptions.length < 21 := by
    unfold State.canVoid at room
    rw [hp, Option.all_some, Bool.or_eq_true, decide_eq_true_eq] at room
    exact room
  have recorded : ∀ t : State, t.stock = s.stock.modPack e.pack (·.addRun (e.voidRun w)) →
      (t.modRecent (.window w) (·.erase e)).stock.Sound := fun t ht => by
    have recent : t.recent = s.recent := congrArg Stock.recent ht
    have packs : t.ret.packs = _ := congrArg Stock.packs ht
    have doubtful : t.ret.doubtful = s.ret.doubtful := congrArg Stock.doubtful ht
    have inPath : t.ret.inPath = s.ret.inPath := congrArg Stock.inPath ht
    rw [stock_modRecent]
    refine h.void hk mem id.symm fits ?_ doubtful inPath ?_
    · rw [id]; exact packs
    · change (fun q => if q = Position.window w then (t.recent q).erase e else t.recent q) = _
      rw [recent]
      rfl
  exact wakeAll_sound (recorded _ (by rw [stock_modTallies, stock_addException])) s

/-- A place that admits a pack is STORE, or a bin with none (R19, check 8). -/
theorem admits_free {l : Location} (free : s.admits l = true) :
    ∀ p side, l = .bin p side → ∀ j ∈ s.ret.packs, j.location ≠ .bin p side := by
  rintro p side rfl j hj at_
  unfold State.admits at free
  simp only [Bool.and_eq_true, Option.isNone_iff_eq_none] at free
  have := List.find?_eq_none.mp free.1.1 j hj
  simp [at_] at this

theorem packPlaced_sound {t : State} (h : t.stock.Sound) (before : State) (l : Location) : (t.packPlaced before l).stock.Sound := by
  cases l with
  | store => exact wakeAll_sound h before
  | bin => exact wakeAll_sound (logs_sound (serves_passAll t).logs h) before

theorem packOf_spec {packId stockType first count direction destination : Nat} {k : Pack}
    (fields : packOf packId stockType first count direction destination = some k) :
    (k.next = some k.first ∧ k.remaining = k.count ∧ k.condition = .usable ∧ k.exceptions = []) ∧ 0 < k.count := by
  unfold packOf at fields
  simp only [Option.bind_eq_bind, Option.bind_eq_some_iff] at fields
  obtain ⟨i, -, d, -, l, -, fields⟩ := fields
  split at fields
  · rename_i ranges
    have count : 1 ≤ count ∧ count ≤ 2000 := of_decide_eq_true ranges.2.2
    cases fields
    exact ⟨⟨rfl, rfl, rfl, rfl⟩, count.1⟩
  · cases fields

theorem createPack_sound (h : s.stock.Sound) {packId stockType first count direction destination : Nat} {k : Pack}
    (fields : packOf packId stockType first count direction destination = some k)
    (checks : ∀ x ∈ s.loadChecks k, x.1 = true) : (s.createPack k).stock.Sound := by
  obtain ⟨fresh, blanks⟩ := packOf_spec fields
  unfold State.loadChecks at checks
  simp only [List.forall_mem_cons, List.not_mem_nil, false_implies, implies_true, and_true] at checks
  obtain ⟨-, fits, new, clear, room, free⟩ := checks
  have low : 0 ≤ k.range.1 := (of_decide_eq_true fits).1
  rw [Option.isNone_iff_eq_none] at new
  rw [Bool.not_eq_true', List.any_eq_false] at clear
  refine packPlaced_sound (logs_sound (serves_lowStockCheck _ _).logs ?_) s k.location
  exact h.create k fresh blanks low (State.pack?_none new) (fun j hj => Bool.eq_false_iff.mpr (clear j hj)) (of_decide_eq_true room)
    (admits_free free)

theorem relocate_sound (h : s.stock.Sound) {packId : Nat} {k : Pack} (found : s.pack? packId = some k) (idle : s.inPathOf k.id = 0)
    {l : Location} (free : s.admits l = true) : (s.relocate k l).stock.Sound := by
  obtain ⟨hk, -⟩ := State.pack?_some found
  exact packPlaced_sound (t := s.modPack k.id fun x => { x with location := l }) (h.relocate hk idle l (admits_free free)) s l

theorem removePack_sound (h : s.stock.Sound) {packId : Nat} {k : Pack} (found : s.pack? packId = some k)
    (done : s.retirable k = true) : (s.removePack packId).stock.Sound := by
  obtain ⟨hk, rfl⟩ := State.pack?_some found
  unfold State.retirable State.recentlyIssued at done
  simp only [Bool.and_eq_true, decide_eq_true_eq, Bool.not_eq_true'] at done
  obtain ⟨⟨exhausted, certain⟩, unissued⟩ := done
  have law := h.laws k hk
  obtain ⟨-, empty⟩ := law.alive exhausted
  refine h.remove k.id (fun p e he pack => ?_) (fun d hd pack => ?_) fun e he pack => ?_
  · have : e.serial ∈ s.stock.pathSerials k.id :=
      mem_serialsOf.mpr ⟨e, List.mem_flatMap.mpr ⟨p, List.mem_finRange p, he⟩, pack, rfl⟩
    rw [empty] at this
    cases this
  · obtain ⟨x, hx, doubts⟩ := Pack.mem_doubts.mp (law.doubts.mem_iff.mpr (Stock.mem_doubtSerials hd pack))
    exact List.any_eq_false.mp certain x hx (decide_eq_true ((x.doubts_iff _).mp doubts).1)
  · exact List.any_eq_false.mp unissued e he (decide_eq_true pack)

/-! ### Rulings -/

theorem State.doubtful?_some {packId serial : Nat} {d : DoubtfulEntry} (found : s.doubtful? packId serial = some d) :
    d ∈ s.ret.doubtful := List.mem_of_find?_eq_some found

/-- A doubtful entry off the list. -/
def Stock.without (x : Stock) (d : DoubtfulEntry) : Stock := { x with doubtful := x.doubtful.erase d }

theorem resolveIssued_sound (h : s.stock.Sound) {d : DoubtfulEntry} (mem : d ∈ s.ret.doubtful) : (s.resolveIssued d).stock.Sound := by
  obtain ⟨k, hk, id⟩ := h.doubtKnown d mem
  unfold State.resolveIssued
  simp only
  refine logs_sound (logs_settleDoubt _ d) ?_
  have ruled : ∀ t : State, t.stock = (s.stock.modPack d.pack fun j => { j with
        exceptions := j.exceptions.eraseP (·.doubts d.serial) }).without d →
      t.stock.Sound ∧ ∀ pos (r : RecentIssue), r.serial = d.serial → r.pack = d.pack → (t.stock.record pos r).Sound := fun t ht => by
    rw [ht]
    refine ⟨h.ruleIssued hk mem id.symm (.inl rfl) (by rw [id]; rfl) rfl rfl, fun pos r serial pack => ?_⟩
    exact h.ruleIssued hk mem id.symm (.inr ⟨r, serial, pack, Stock.recents_record _ pos r⟩) (by rw [id]; rfl) rfl rfl
  split
  · exact (ruled _ rfl).1
  · rename_i i _
    have off := ruled ((s.modPack d.pack fun j => { j with exceptions := j.exceptions.eraseP (·.doubts d.serial) }).setDoubtful
      (s.ret.doubtful.erase d)) rfl
    rcases stock_credit ((s.modPack d.pack fun j => { j with exceptions := j.exceptions.eraseP (·.doubts d.serial) }).setDoubtful
      (s.ret.doubtful.erase d)) d.position d.shift i d.serial d.pack d.value d.tender with eq | ⟨r, serial, pack, eq⟩
    · exact eq ▸ off.1
    · exact eq ▸ off.2 d.position r serial pack

theorem resolveSpoiled_sound (h : s.stock.Sound) {d : DoubtfulEntry} (mem : d ∈ s.ret.doubtful) : (s.resolveSpoiled d).stock.Sound := by
  obtain ⟨k, hk, id⟩ := h.doubtKnown d mem
  have ruled := h.ruleSpoiled hk mem id.symm
  rw [id] at ruled
  unfold State.resolveSpoiled
  simp only
  refine logs_sound (logs_settleDoubt _ d) ?_
  split
  · exact ruled
  · rw [stock_countSpoil]; exact ruled

/-! ### Windows, the office and start-up -/

theorem flatMap_sublist {α β : Type} (l : List α) {f g : α → List β} (h : ∀ a ∈ l, (f a).Sublist (g a)) :
    (l.flatMap f).Sublist (l.flatMap g) := by
  induction l with
  | nil => exact List.Sublist.refl _
  | cons a l ih =>
    rw [List.flatMap_cons, List.flatMap_cons]
    exact (h a List.mem_cons_self).append (ih fun b hb => h b (List.mem_cons_of_mem a hb))

/-- No position has gained a recent issue, and nothing else of the register has changed. -/
theorem fewer_sound {t : State} (h : s.stock.Sound) (packs : t.ret.packs = s.ret.packs) (doubtful : t.ret.doubtful = s.ret.doubtful)
    (inPath : t.ret.inPath = s.ret.inPath) (recent : ∀ pos, (t.recent pos).Sublist (s.recent pos)) : t.stock.Sound := by
  refine h.fewer_recents packs doubtful inPath ?_
  rw [Stock.recents_eq, Stock.recents_eq]
  exact flatMap_sublist _ fun pos _ => recent pos

theorem modWindow_sound (h : s.stock.Sound) (w : Fin 15) (f : WindowRecord → WindowRecord)
    (fewer : (f (s.window w)).recent.Sublist (s.window w).recent) : (s.modWindow w f).stock.Sound := by
  refine fewer_sound h rfl rfl rfl fun pos => ?_
  cases pos with
  | console => exact List.Sublist.refl _
  | window v =>
    change ((s.modWindow w f).window v).recent.Sublist (s.window v).recent
    rw [State.window_modWindow]
    split
    · subst v; exact fewer
    · exact List.Sublist.refl _

theorem finalise_sound (h : s.stock.Sound) (w : Fin 15) (f : DeclaredFigures) (status : RecordStatus) (by_ : Option Nat) :
    (s.finalise w f status by_).stock.Sound :=
  logs_sound (serves_arbitrate _).logs (modWindow_sound (s := s.setHistory _) h w WindowRecord.finalised (List.nil_sublist _))

theorem takeDeclaration_sound (h : s.stock.Sound) (w : Fin 15) (f : DeclaredFigures) : (s.takeDeclaration w f).stock.Sound := by
  have noted := modWindow_sound h w (·.declared' f) (List.Sublist.refl _)
  unfold State.takeDeclaration
  simp only
  split
  · exact finalise_sound noted w f _ _
  · exact modWindow_sound noted w _ (List.Sublist.refl _)

theorem emptyConsole_sound (h : s.stock.Sound) : s.emptyConsole.stock.Sound := by
  refine fewer_sound h rfl rfl rfl fun pos => ?_
  cases pos with
  | console => exact List.nil_sublist _
  | window w => exact List.Sublist.refl _

theorem enterSetup_sound (h : s.stock.Sound) : s.enterSetup.stock.Sound := by
  unfold State.enterSetup
  split
  · exact emptyConsole_sound (s := s.setOffice _) h
  · exact h

theorem clearAudit_console (s : State) : s.clearAudit.ret.console.recent = [] := by
  have empty : ∀ t : State, ((t.clearShifts.setChecksum true).setAudit .ok).ret.console.recent = [] := fun t => by
    simp [State.clearShifts, State.emptyConsole]
  exact empty _

theorem clearAudit_sound (s : State) : s.clearAudit.stock.Sound := by
  have rest := clearAudit_rest s
  have middle := (logs_clearAudit_middle s).parts
  have packs : s.clearAudit.ret.packs = s.clearRegister.clearLog.restartPrinters.ret.packs := rest .packs (by decide)
  have packs' : s.clearRegister.clearLog.restartPrinters.ret.packs = [] := middle .packs (by decide)
  have doubtful : s.clearAudit.ret.doubtful = s.clearRegister.clearLog.restartPrinters.ret.doubtful := rest .doubtful (by decide)
  have doubtful' : s.clearRegister.clearLog.restartPrinters.ret.doubtful = [] := middle .doubtful (by decide)
  have inPath : s.clearAudit.ret.inPath = s.clearRegister.clearLog.restartPrinters.ret.inPath := rest .inPath (by decide)
  have inPath' : s.clearRegister.clearLog.restartPrinters.ret.inPath = Vector.replicate 6 [] := middle .inPath (by decide)
  have windows := clearAudit_window s
  have console := clearAudit_console s
  clear rest middle
  generalize s.clearAudit = t at packs doubtful inPath windows console
  generalize s.clearRegister.clearLog.restartPrinters = u at packs packs' doubtful doubtful' inPath inPath'
  refine Stock.sound_empty (packs.trans packs') (doubtful.trans doubtful') (fun p => ?_) ?_
  · change t.ret.inPath[p] = []
    rw [inPath, inPath']
    simp
  · rw [Stock.recents_eq, List.flatMap_eq_nil_iff]
    intro pos _
    cases pos with
    | console => exact console
    | window w => change (t.window w).recent = []; rw [windows w]; rfl

theorem settlePositions_sound (h : s.stock.Sound) : s.settlePositions.stock.Sound := by
  refine fewer_sound h rfl rfl rfl fun pos => ?_
  cases pos with
  | console => exact List.Sublist.refl _
  | window w =>
    have settled : s.settlePositions.window w = (s.window w).settle := by
      simp [State.settlePositions, State.window]
    have recent : (s.window w).settle.recent = (s.window w).recent := by rw [(WindowRecord.follows_settle _).1]
    change (s.settlePositions.window w).recent.Sublist (s.window w).recent
    rw [settled, recent]

theorem clearVolatile_sound (h : s.stock.Sound) (cause : ResetCause) (straps : Straps) : (s.clearVolatile cause straps).stock.Sound := by
  refine fewer_sound h rfl rfl rfl fun pos => ?_
  cases pos with
  | console => exact List.nil_sublist _
  | window w => exact List.Sublist.refl _

theorem doubtPaths_sound (h : s.stock.Sound) : s.doubtPaths.stock.Sound := by
  refine logs_sound (serves_lowStockAll _).logs ?_
  generalize allPrinters = l
  induction l generalizing s with
  | nil => exact h
  | cons p l ih => exact ih (makeDoubtful_sublist_sound h p (s.path p) (List.Sublist.refl _))

theorem stock_loadLayouts (s : State) (offered : Vector (List FieldEntry) 8) : (s.loadLayouts offered).stock = s.stock := by
  unfold State.loadLayouts
  generalize allTypes = l
  induction l generalizing s with
  | nil => rfl
  | cons k l ih =>
    rw [List.foldl_cons, ih]
    split <;> rfl

theorem stock_takeImage (s : State) (m : SettingsImage) : (s.takeImage m).stock = s.stock := by
  unfold State.takeImage
  exact stock_loadLayouts _ _

theorem stock_setStore (s : State) (x : Store) : (s.setStore x).stock = s.stock := rfl

theorem stock_loadAtStart (s : State) : s.loadAtStart.stock = s.stock := by
  unfold State.loadAtStart
  simp only
  rw [stock_setStore, stock_takeImage]

theorem stock_verifyChecksum (s : State) : s.verifyChecksum.stock = s.stock := by
  unfold State.verifyChecksum
  split <;> rfl

theorem startUp_sound (h : s.stock.Sound) (cause : ResetCause) (straps : Straps) : (s.startUp cause straps).stock.Sound := by
  have loaded : ∀ t : State, t.stock.Sound → t.loadAtStart.verifyChecksum.stock.Sound := fun t ht => by
    rw [stock_verifyChecksum, stock_loadAtStart]
    exact ht
  have placed : ∀ t : State, t.stock.Sound → t.placeStart.stock.Sound := fun t ht => by
    unfold State.placeStart
    simp only
    rw [(serves_arbitrate _).stock]
    exact ht
  unfold State.startUp
  have cleared : ∀ t : State, t.stock.Sound → t.clearStanding.stock.Sound := fun _ => id
  exact placed _ (logs_sound (logs_startPrinters _) (settlePositions_sound (cleared _
    (doubtPaths_sound (loaded _ (clearVolatile_sound h cause straps))))))

/-! ### Every effect -/

/-- Every effect but a power-on that lost the retained memory keeps the laws of the stock register. -/
theorem Effect.stockSound {c : Instr} {u : State} (he : Effect c s u) (held : ∀ straps, c ≠ .powerOn straps false)
    (h : s.stock.Sound) : u.stock.Sound := by
  have woken : ∀ {t : State}, t.stock.Sound → (t.wakeAll s).stock.Sound := fun ht => wakeAll_sound ht s
  cases he with
  | same => exact h
  | issue pos k routing p copies value d slots =>
    exact woken (logs_sound ((serves_joinQueue _ p _).trans (serves_modOutstanding _ pos _)).logs
      (s := (s.setPool _).setNextTag _) h)
  | cancel => exact woken (logs_sound ((serves_modJob s _ _ (by exact fun _ => rfl)).trans (serves_endTest _ _)).logs h)
  | void w serial k e found room => exact voidEntry_sound h found room
  | tally pos f => exact (stock_modTallies s pos f).symm ▸ h
  | fetch n rest => exact logs_sound (serves_arbitrate _).logs h
  | load _ _ _ _ _ _ k fields checks => exact createPack_sound h fields checks
  | move _ k l found _ idle free => exact relocate_sound h found idle free
  | writeOff packId => exact woken (runOut_sound h packId .writtenOff none nofun)
  | retire _ k found done => exact removePack_sound h found done
  | ruleIssued _ _ d found => exact woken (resolveIssued_sound h (State.doubtful?_some found))
  | ruleSpoiled _ _ d found => exact woken (resolveSpoiled_sound h (State.doubtful?_some found))
  | failAudit => exact enterSetup_sound (s := s.setAudit .fault) h
  | powerOn p => exact logs_sound (logs_startIdentification s p) h
  | powerOff p => exact logs_sound (logs_powerOff s p) h
  | disable p => exact woken (logs_sound (logs_withdraw s p) h)
  | keepEnabled p => exact woken (logs_sound (logs_modPrinter s p _) h)
  | enable p =>
    unfold State.reenable
    simp only
    refine wakeAll_sound (logs_sound ?_ h) s
    refine Logs.trans ?_ (logs_send _ p _ _)
    have readied := (logs_modPrinter s p fun x => { x with lastAcceptance := none, lastCondition := none, refill := true }).trans
      (logs_setPrinterState _ p .ready)
    split
    · exact readied.trans (logs_raise _ _ _ _)
    · exact readied
  | confirm p => exact logs_sound (logs_modPrinter s p _) h
  | report pos p note withdraw => exact woken (logs_sound ((logs_logNote s p pos note withdraw).trans (logs_withdrawFor _ p _)) h)
  | close number => exact logs_sound (logs_closeNote s number) h
  | openShift w => exact modWindow_sound (s := s.setNextShift _) h w _ (List.Sublist.refl _)
  | suspend w => exact modWindow_sound h w _ (List.Sublist.refl _)
  | resume w => exact modWindow_sound h w _ (List.Sublist.refl _)
  | closeShift w history =>
    refine logs_sound (serves_arbitrate _).logs (modWindow_sound (s := s.setHistory history) h w _ ?_)
    unfold WindowRecord.close
    simp only
    split <;> exact List.Sublist.refl _
  | reopen w => exact modWindow_sound h w _ (List.Sublist.refl _)
  | declare w f => exact takeDeclaration_sound h w f
  | signOff w f => exact finalise_sound h w f _ _
  | collect => exact h
  | settings => exact h
  | stockType k d threshold =>
    refine woken ?_
    unfold State.writeStockType
    split
    · exact logs_sound (serves_lowStockCheck _ _).logs h
    · exact logs_sound (serves_lowStockCheck _ _).logs h
  | layout => exact h
  | store => exact h
  | openOffice => exact h
  | closeOffice => exact enterSetup_sound h
  | clock => exact h
  | clearAudit => exact clearAudit_sound s
  | start cause straps => exact startUp_sound h cause straps
  | lost straps event => exact absurd event (held straps)
  | reply p r => exact receiveReply_sound h p r
  | identity p r i => exact receiveIdentity_sound h p r i
  | replyTimer p => exact expireReply_sound h p
  | identTimer p => exact expireIdent_sound h p
  | waiting p => exact choose_sound h _ p
  | identDue p => exact logs_sound (logs_identDue s p) h
  | written kind a m good =>
    refine logs_sound (serves_arbitrate _).logs ?_
    unfold State.setStore
    split <;> exact h
  | unrestored => exact logs_sound (serves_arbitrate _).logs h
  | loaded a =>
    refine woken ?_
    unfold State.loadDone
    split
    · exact logs_sound (serves_arbitrate _).logs h
    · unfold State.storeDone State.loadImage
      simp only
      rw [(serves_arbitrate _).stock, stock_setStore, stock_setStore, (serves_lowStockAll _).stock, stock_takeImage]
      exact h

end

end Sys2Proof.Machine

open Sys2Proof Sys2Proof.Machine

/-- Settles O2: every effect keeps the laws of the register's view, which read neither the link nor the queue of commands. -/
theorem stockRegisterStaysSound : Obligations.StockRegisterStaysSound := by
  intro s t hs held h
  rw [State.stockSound_iff] at hs ⊢
  exact step_keeps (P := fun s => s.stock.Sound) (fun _ _ => id) (fun _ _ => id)
    (fun c _ _ front he => he.stockSound fun straps hc => held straps (hc ▸ front)) h hs
end

