-- ==== Sys2Proof/Proofs/Reset.lean ====
section
/-! O5 and O59: the state after reset, evaluated. -/

namespace Sys2Proof.Machine

/-- The state of a part that has never been started, its retained memory unused (R26, R109, R124, R127, R158, R184). -/
def State.unused : State := { State.reset with ret := unusedRetained false .ok false }

/-- The first start-up, evaluated. -/
theorem State.unused_startUp :
    State.unused.startUp .powerOn { unit := 0, rate := 0, fitted := 0 } = State.reset := by decide +kernel

theorem State.reset_window (w : Fin 15) : State.reset.window w = closedWindow := by
  revert w; decide +kernel

theorem State.reset_path (p : Fin 6) : State.reset.path p = [] := by revert p; decide +kernel

theorem State.reset_printer (p : Fin 6) : (State.reset.printer p).state = .starting ∧
    (State.reset.printer p).outstanding = some (0#8, .ident) ∧ (State.reset.printer p).openFault = none := by
  revert p; decide +kernel

/-- An empty fault log is sound while every printer is STARTING. -/
theorem faultsSound_of_empty {s : State} (faults : s.ret.faults = []) (next : s.ret.nextFault = 1)
    (printers : ∀ p, (s.printer p).state = .starting ∧ (s.printer p).openFault = none) : s.faultsSound := by
  unfold State.faultsSound
  rw [faults, next]
  refine ⟨by decide, List.nodup_nil, fun _ he => absurd he List.not_mem_nil, le_refl 1, by decide, by decide, fun p => ?_⟩
  rw [(printers p).1, (printers p).2]
  exact ⟨rfl, by decide⟩

/-- An empty pool is sound. -/
theorem poolSound_of_empty {s : State} (pool : s.pool = []) (next : s.nextTag = 1) : s.poolSound := by
  unfold State.poolSound
  rw [pool, next]
  exact ⟨by decide, List.nodup_nil, fun _ hj => absurd hj List.not_mem_nil, le_refl 1, by decide⟩

/-- A register without records is sound. -/
theorem stockSound_of_empty {s : State} (packs : s.ret.packs = []) (doubtful : s.ret.doubtful = [])
    (path : ∀ p, s.path p = []) (console : s.ret.console.recent = []) (windows : ∀ w, (s.window w).recent = []) : s.stockSound := by
  rw [State.stockSound_iff]
  refine Stock.sound_empty packs doubtful path ?_
  rw [Stock.recents_eq, List.flatMap_eq_nil_iff]
  intro pos _
  cases pos with
  | console => exact console
  | window w => exact windows w

end Sys2Proof.Machine

open Sys2Proof Sys2Proof.Machine

/-- Settles O5: the first start-up is evaluated, and each part of the state after reset read off. -/
theorem firstStartUpOfANewPart : Obligations.FirstStartUpOfANewPart := by
  refine ⟨congrArg Host.Outcome.next State.unused_startUp, rfl, rfl, rfl, rfl, rfl, rfl, rfl, rfl, rfl, rfl, rfl, rfl,
    State.reset_window, fun p => ?_, rfl, rfl⟩
  obtain ⟨state, outstanding, -⟩ := State.reset_printer p
  exact ⟨state, outstanding, State.reset_path p⟩

/-- Settles O59: the records are empty, no path holds a blank, and no printer is FAULTED or OFFLINE. -/
theorem resetIsSound : Obligations.ResetIsSound := by
  have faults : State.reset.faultsSound :=
    faultsSound_of_empty rfl rfl fun p => ⟨(State.reset_printer p).1, (State.reset_printer p).2.2⟩
  have history : State.reset.historySound := by
    refine ⟨by decide +kernel, fun w => ?_⟩
    rw [State.reset_window]
    decide
  have stock : State.reset.stockSound :=
    stockSound_of_empty rfl rfl State.reset_path rfl fun w => by rw [State.reset_window]; rfl
  have notices : State.reset.noticesSound := by
    refine ⟨?_, ?_⟩ <;> decide +kernel
  have office : State.reset.officeSound := ⟨nofun, nofun, nofun⟩
  have pool : State.reset.poolSound := poolSound_of_empty rfl rfl
  refine ⟨notices, office, pool, fun p => ?_, history, faults, stock⟩
  rw [State.reset_path]
  exact Nat.zero_le 2
end

