-- ==== Sys2Proof/Proofs/Answers.lean ====
section
/-! SUPPORT. A request whose checks pass: its next state, its reply and its frame; and the frames of the parts' own operations. -/

namespace Sys2Proof.Machine

/-! ### Requests -/

section
variable {s u taken : State} {c i : Instr} {request : Nat} {checks : List (Bool × ReplyCode)} {code : ReplyCode}

/-- A judged request whose checks all pass, on a free line. -/
theorem next_of_judged (free : s.lineFree = true) (h : exec c s = s.taken i (s.judged request checks taken))
    (passes : ∀ x ∈ checks, x.1 = true) : exec c s = .next taken := by
  rw [h, State.taken_free _ _ _ free, State.judged_passed _ _ _ _ ((judge_eq_none checks).mpr passes)]

/-- A judged request with a check that fails, after others that pass. -/
theorem onlyReplies_of_judged (free : s.lineFree = true) (h : exec c s = s.taken i (s.judged request checks taken))
    (fails : judge checks = some code) : s.onlyReplies c code request [] :=
  s.onlyReplies_of_answer c code request [] (by
    rw [h, State.taken_free _ _ _ free, State.judged_failed _ _ _ _ code fails])

/-- The reply and the frame of an operation that ends with its answer. -/
theorem answered {l : List Part} (k : s.keepsBut u l) (hl : Part.link ∉ l) (code : ReplyCode) (request : Nat) (body : List Byte) :
    s.replies (u.answer code request body) code request body ∧ s.keepsBut (u.answer code request body) (.link :: l) := by
  refine ⟨?_, (k.mono (List.subset_cons_self _ _)).trans ((u.answer_keeps _ _ _).mono fun a ha => ?_)⟩
  · unfold State.replies
    rw [State.answer_link, show u.link = s.link from k .link hl]
  · rw [List.mem_singleton.mp ha]; exact List.mem_cons_self

end

/-! ### What a frame gives -/

theorem State.portsQuiet.carry {s t : State} {l : List Part} (h : s.portsQuiet) (k : s.keepsBut t l) (hn : Part.printers ∉ l) :
    t.portsQuiet := by
  have same : t.printers = s.printers := k .printers hn
  intro p
  have here := h p
  unfold State.portQuiet State.printer at here ⊢
  rwa [same]

/-! ### The parts' own operations -/

theorem State.setConsole_keeps (s : State) (x : ConsoleRecord) : s.keepsBut (s.setConsole x) [.console] :=
  fun a ha => by cases a <;> first | rfl | exact absurd (by decide) ha

theorem State.setOffice_keeps (s : State) (x : Office) : s.keepsBut (s.setOffice x) [.office] :=
  fun a ha => by cases a <;> first | rfl | exact absurd (by decide) ha

theorem State.setAudit_keeps (s : State) (x : AuditStatus) : s.keepsBut (s.setAudit x) [.audit] :=
  fun a ha => by cases a <;> first | rfl | exact absurd (by decide) ha

theorem State.setPacks_keeps (s : State) (x : List Pack) : s.keepsBut (s.setPacks x) [.packs] :=
  fun a ha => by cases a <;> first | rfl | exact absurd (by decide) ha

theorem State.setLive_keeps (s : State) (x : LiveSettings) : s.keepsBut (s.setLive x) [.live] :=
  fun a ha => by cases a <;> first | rfl | exact absurd (by decide) ha

theorem State.setStockTypes_keeps (s : State) (x : Vector StockType 8) : s.keepsBut (s.setStockTypes x) [.stockTypes] :=
  fun a ha => by cases a <;> first | rfl | exact absurd (by decide) ha

theorem State.setFlash_keeps (s : State) (x : Flash) : s.keepsBut (s.setFlash x) [.flash] :=
  fun a ha => by cases a <;> first | rfl | exact absurd (by decide) ha

theorem State.enterSetup_keeps (s : State) : s.keepsBut s.enterSetup [.office, .console] := by
  unfold State.enterSetup
  split
  · exact ((s.setOffice_keeps _).mono (by decide)).trans ((State.setConsole_keeps _ _).mono (by decide))
  · exact s.keepsBut_refl _

theorem State.failAudit_keeps (s : State) : s.keepsBut s.failAudit [.audit, .office, .console] :=
  ((s.setAudit_keeps .fault).mono (by decide)).trans ((s.setAudit .fault).enterSetup_keeps.mono (by decide))

end Sys2Proof.Machine
end

