-- ==== Sys2Proof/Proofs/PackOperations.lean ====
section
/-! O38 and O42: the runs, takes and returns of one pack, and the tests of STOCK CHECK. -/

namespace Sys2Proof.Machine

/-! ### Runs (R9, R10) -/

section
variable (k : Pack) (e : ExceptionEntry)

theorem Pack.merges_doubtful (h : e.disposition = .doubtful) : k.merges e = false := by
  unfold Pack.merges
  cases k.exceptions.getLast? with
  | none => rfl
  | some l => simp [h]

theorem Pack.runs_addRun (d : Disposition) : (k.addRun e).runs d = k.runs d + (if d = e.disposition then e.run else 0) := by
  unfold Pack.runs
  by_cases merges : k.merges e = true
  · obtain ⟨init, l, whole, -, same, -, grown⟩ := Pack.merges_last merges
    rw [grown, whole]
    by_cases hd : l.disposition = d
    · simp [List.filter_append, hd, ← same, Nat.add_assoc]
    · simp [List.filter_append, hd, ← same, Ne.symm hd]
  · rw [(Pack.addRun_append merges).1]
    by_cases hd : e.disposition = d
    · simp [List.filter_append, hd]
    · simp [List.filter_append, hd, Ne.symm hd]

theorem Pack.length_addRun : (k.addRun e).exceptions.length =
    (if k.merges e then k.exceptions.length else k.exceptions.length + 1) := by
  split
  next merges =>
    obtain ⟨init, l, whole, -, -, -, grown⟩ := Pack.merges_last merges
    rw [grown, whole]
    simp
  next merges => rw [(Pack.addRun_append merges).1]; simp

theorem Pack.condition_addRun : (k.addRun e).condition =
    (if ¬ k.merges e ∧ k.exceptions.length = 20 ∧ k.condition = .usable then .suspended else k.condition) := by
  unfold Pack.addRun
  by_cases merges : k.merges e = true
  · simp [merges]
  · simp [merges, suspendAt]

end

/-! ### Takes and returns (R7, R8) -/

section
variable {k : Pack} {n : Nat}

theorem Pack.stepSerial_serialAt (k : Pack) (i : Nat) : k.stepSerial (k.serialAt i) = k.serialAt (i + 1) := by
  unfold Pack.stepSerial Pack.serialAt
  cases k.direction <;> simp only <;> omega

theorem Pack.lastTaken_takeOne (left : 1 ≤ k.remaining) (fits : k.remaining ≤ k.count) (hn : n = k.serialAt (k.count - k.remaining)) :
    k.takeOne.lastTaken = some n := by
  have taken : k.takeOne.taken = k.count - k.remaining + 1 := by
    show k.count - (k.remaining - 1) = _
    omega
  unfold Pack.lastTaken
  rw [taken, if_neg (Nat.succ_ne_zero _), hn]
  rfl

theorem Pack.putBack_takeOne (next : k.next = some n) (left : 1 ≤ k.remaining) : k.takeOne.putBack n = k := by
  show { k with remaining := k.remaining - 1 + 1, next := some n } = k
  rw [Nat.sub_add_cancel left, ← next]

theorem Pack.next_takeOne (next : k.next = some n) (more : 1 < k.remaining) (fits : k.remaining ≤ k.count)
    (hn : n = k.serialAt (k.count - k.remaining)) : k.takeOne.next = some (k.serialAt (k.count - k.takeOne.remaining)) := by
  have later : k.count - k.takeOne.remaining = k.count - k.remaining + 1 := by
    show k.count - (k.remaining - 1) = _
    omega
  show (if k.remaining ≤ 1 then none else k.next.map k.stepSerial) = _
  rw [if_neg (by omega), next, hn, later, Option.map_some, Pack.stepSerial_serialAt]

end

/-! ### The tests of STOCK CHECK (R25) -/

theorem insertRising_perm (n : Nat) (l : List Nat) : (insertRising n l).Perm (n :: l) := by
  induction l with
  | nil => exact .refl _
  | cons m rest ih =>
    unfold insertRising
    split
    · exact .refl _
    · exact (ih.cons m).trans (.swap n m rest)

theorem insertRising_rising (n : Nat) {l : List Nat} (h : l.Pairwise (· ≤ ·)) : (insertRising n l).Pairwise (· ≤ ·) := by
  induction h with
  | nil => exact List.pairwise_singleton _ _
  | @cons m rest low rising ih =>
    unfold insertRising
    split
    next le => exact .cons (List.forall_mem_cons.mpr ⟨le, fun x hx => le.trans (low x hx)⟩) (.cons low rising)
    next gt =>
      refine .cons (fun x hx => ?_) ih
      rcases List.mem_cons.mp ((insertRising_perm n rest).mem_iff.mp hx) with rfl | old
      · omega
      · exact low x old

/-- A list put in rising order number by number holds the same numbers. -/
theorem foldl_insertRising (ns acc : List Nat) (h : acc.Pairwise (· ≤ ·)) :
    (ns.foldl (fun acc n => insertRising n acc) acc).Pairwise (· ≤ ·) ∧
      ∀ m, m ∈ ns.foldl (fun acc n => insertRising n acc) acc ↔ m ∈ ns ∨ m ∈ acc := by
  induction ns generalizing acc with
  | nil => exact ⟨h, fun m => by simp⟩
  | cons n ns ih =>
    obtain ⟨rising, members⟩ := ih _ (insertRising_rising n h)
    refine ⟨rising, fun m => ?_⟩
    rw [List.foldl_cons, members, (insertRising_perm n acc).mem_iff, List.mem_cons, List.mem_cons]
    tauto

theorem State.failedPacks_rising (s : State) : s.failedPacks.Pairwise (· ≤ ·) := (foldl_insertRising _ [] .nil).1

theorem State.mem_failedPacks (s : State) (n : Nat) :
    n ∈ s.failedPacks ↔ ∃ x ∈ s.ret.packs, x.id = n ∧ s.packSound x = false := by
  unfold State.failedPacks
  rw [(foldl_insertRising _ [] .nil).2, List.mem_map]
  simp only [List.mem_filter, List.not_mem_nil, or_false, Bool.not_eq_true']
  exact exists_congr fun x => by tauto

/-- The stretch as its first place and the place after its last. -/
def span (a : Int × Nat) : Int × Int := (a.1, a.1 + a.2)

theorem within_iff {a : Int × Nat} (n : Int) (long : 1 ≤ a.2) :
    (∀ i, (span a).1 ≤ i → i < (span a).2 → 0 ≤ i ∧ i < n) ↔ 0 ≤ a.1 ∧ a.1 + a.2 ≤ n := by
  unfold span
  refine ⟨fun h => ?_, fun h i low high => ⟨by omega, by omega⟩⟩
  have first := h a.1 (by simp) (by simp only; omega)
  have last := h (a.1 + a.2 - 1) (by simp only; omega) (by simp only; omega)
  omega

theorem apart_iff {a b : Int × Nat} (ha : 1 ≤ a.2) (hb : 1 ≤ b.2) :
    apart a b ↔ ∀ i, ¬ ((span a).1 ≤ i ∧ i < (span a).2 ∧ (span b).1 ≤ i ∧ i < (span b).2) := by
  unfold apart span
  refine ⟨fun h i hi => by simp only at hi; omega, fun h => ?_⟩
  have here := h a.1
  have there := h b.1
  simp only at here there
  omega

theorem pairwise_apart_iff {l : List (Int × Nat)} (long : ∀ a ∈ l, 1 ≤ a.2) :
    l.Pairwise apart ↔
      (l.map span).Pairwise fun a b => ∀ i, ¬ (a.1 ≤ i ∧ i < a.2 ∧ b.1 ≤ i ∧ i < b.2) := by
  rw [List.pairwise_map]
  exact List.Pairwise.iff_of_mem fun ha hb => apart_iff (long _ ha) (long _ hb)

theorem Pack.stretches_long {k : Pack} (path : List InPathEntry) (h : ∀ e ∈ k.exceptions, 1 ≤ e.run) :
    ∀ a ∈ k.stretches path, 1 ≤ a.2 := by
  intro a ha
  unfold Pack.stretches at ha
  rcases List.mem_append.mp ha with run | blank
  · obtain ⟨e, he, rfl⟩ := List.mem_map.mp run
    exact h e he
  · obtain ⟨e, -, rfl⟩ := List.mem_map.mp blank
    exact Nat.le_refl 1

theorem Pack.stretches_spans (k : Pack) (path : List InPathEntry) : (k.stretches path).map span =
    (k.exceptions.map fun e => (k.offset e.first, k.offset e.first + (e.run : Int))) ++
      (path.filter fun e => decide (e.pack = k.id)).map fun e => (k.offset e.serial, k.offset e.serial + 1) := by
  unfold Pack.stretches
  rw [List.map_append, List.map_map, List.map_map]
  rfl

theorem State.inPathOf_length (s : State) (id : Nat) :
    s.inPathOf id = ((allPrinters.flatMap s.path).filter fun e => decide (e.pack = id)).length := by
  unfold State.inPathOf
  rw [← List.countP_eq_length_filter, List.countP_flatMap]
  rfl

theorem Pack.not_collides_iff (x k : Pack) : (!x.collides k) = true ↔
    (k.stockType ≠ x.stockType ∨ ∀ n : Int, ¬ (x.holdsSerial n ∧ k.holdsSerial n)) := by
  rw [Bool.not_eq_true', ← Bool.not_eq_true, Pack.collides_iff_shared, not_and_or, not_exists]
  exact or_congr ne_comm Iff.rfl

/-- The tests in the words of R25. -/
theorem State.packSound_iff (s : State) (x : Pack) (long : ∀ e ∈ x.exceptions, 1 ≤ e.run) :
    s.packSound x = true ↔
      0 ≤ (x.count : Int) - x.remaining - s.inPathOf x.id - (x.exceptions.map (·.run)).sum ∧ x.nextAgrees = true ∧
      (∀ a ∈ (x.stretches s.allPaths).map span, ∀ i, a.1 ≤ i → i < a.2 →
        0 ≤ i ∧ i < (x.count : Int) - x.remaining) ∧
      ((x.stretches s.allPaths).map span).Pairwise (fun a b => ∀ i, ¬ (a.1 ≤ i ∧ i < a.2 ∧ b.1 ≤ i ∧ i < b.2)) ∧
      x.exceptions.length ≤ 24 ∧
      ((x.exceptions.filter fun e => decide (e.disposition = .doubtful)).map (·.first)).Perm
        ((s.ret.doubtful.filter fun d => decide (d.pack = x.id)).map (·.serial)) ∧
      ∀ k ∈ s.ret.packs.erase x, k.stockType ≠ x.stockType ∨ ∀ n : Int, ¬ (x.holdsSerial n ∧ k.holdsSerial n) := by
  have count : (0 ≤ x.issued (s.inPathOf x.id) ∧
      (x.count : Int) = x.remaining + s.inPathOf x.id + x.issued (s.inPathOf x.id) + (x.exceptions.map (·.run)).sum) ↔
      0 ≤ (x.count : Int) - x.remaining - s.inPathOf x.id - (x.exceptions.map (·.run)).sum := by
    rw [Pack.issued_eq]
    omega
  have all (n : Int) : (∀ a ∈ (x.stretches s.allPaths).map span, ∀ i, a.1 ≤ i → i < a.2 → 0 ≤ i ∧ i < n) ↔
      ∀ a ∈ x.stretches s.allPaths, 0 ≤ a.1 ∧ a.1 + a.2 ≤ n := by
    rw [List.forall_mem_map]
    exact forall₂_congr fun a ha => within_iff n (Pack.stretches_long s.allPaths long a ha)
  rw [all, ← pairwise_apart_iff (Pack.stretches_long s.allPaths long), ← count]
  unfold State.packSound
  simp only [Bool.and_eq_true, decide_eq_true_eq, List.all_eq_true, disjoint_iff, List.isPerm_iff, Pack.not_collides_iff, and_assoc]

/-! ### The reply and what a failure changes -/

theorem State.enterSetup_office (s : State) : s.enterSetup.office = { s.office with mode := .setup } := by
  unfold State.enterSetup
  split
  · rfl
  next closed =>
    have setup : s.office.mode = .setup := by cases mode : s.office.mode <;> simp_all
    rw [← setup]

theorem State.enterSetup_console (s : State) : s.enterSetup.ret.console =
    (if s.office.mode = .trading then { s.ret.console with tallies := zeroTallies, recent := [] } else s.ret.console) := by
  unfold State.enterSetup
  split <;> rfl

end Sys2Proof.Machine

open Sys2Proof Sys2Proof.Machine

/-- Settles O38, from the rules of a run, a take and a return. -/
theorem packRunsTakesAndReturns : Obligations.PackRunsTakesAndReturns := by
  refine ⟨fun k e => ⟨k.runs_addRun e, k.length_addRun e, k.condition_addRun e, k.addRun_fields e, k.merges_doubtful e⟩,
    fun k n next left fits hn => ⟨Pack.lastTaken_takeOne left fits hn, Pack.putBack_takeOne next left,
      Nat.sub_add_cancel left, fun one => if_pos one.le, fun more => Pack.next_takeOne next more fits hn⟩⟩

/-- Settles O42: the reply and the change by the outcome of the tests, and the tests in the words of R25. -/
theorem stockCheckRule : Obligations.StockCheckRule := by
  refine ⟨fun s pos free holds => ⟨fun none_failed matching => ?_, fun failed => ?_⟩,
    fun s => ⟨s.failedPacks_rising, s.mem_failedPacks⟩, fun s x long => ?_⟩
  · refine s.onlyReplies_of_answer _ _ _ _ ((next_of_judged free rfl (by simp [holds])).trans ?_)
    rw [if_pos ⟨none_failed, matching⟩]
  · have fails : ¬ (s.failedPacks = [] ∧ s.ret.checksumMatches = true) := by
      rintro ⟨none_failed, matching⟩
      rcases failed with failed | failed
      · exact failed none_failed
      · rw [matching] at failed; cases failed
    have next := next_of_judged (c := .stockCheck pos) free rfl (by simp [holds])
    rw [if_neg fails] at next
    obtain ⟨replies, keeps⟩ := answered s.failAudit_keeps (by decide) .ok 0x17
      (bList (be 2) s.failedPacks ++ bFlag s.ret.checksumMatches)
    exact ⟨_, next, (s.setAudit .fault).enterSetup_keeps .audit (by decide), (s.setAudit .fault).enterSetup_office,
      (s.setAudit .fault).enterSetup_console, replies, keeps.mono (by decide)⟩
  · intro place taken path spans
    have next : x.nextAgrees = true ↔ (match x.next with
        | none => x.remaining = 0
        | some n => x.remaining ≠ 0 ∧ x.offset n = taken) := by
      unfold Pack.nextAgrees
      cases x.next <;> exact decide_eq_true_iff
    rw [s.packSound_iff x long, next, Pack.stretches_spans, State.inPathOf_length]
    exact Iff.rfl

end

