-- ==== Sys2Proof/Proofs/Placing.lean ====
section
/-! SUPPORT. What the arbiter leaves of the records it serves: each keeps its flag or its notice stands in the queue; and what an empty
pool spares. -/

namespace Sys2Proof.Machine

/-! ### An empty pool -/

section
variable {s : State} (h : s.pool = [])
include h

theorem State.job?_none (tag : Nat) : s.job? tag = none := by
  unfold State.job?
  rw [h]
  rfl

theorem State.rerouteJob_none (tag : Nat) : s.rerouteJob tag = s := by
  unfold State.rerouteJob
  rw [State.job?_none h]

theorem State.reportCopy_none (p : Fin 6) (tag : Nat) (f : Job → Job) : s.reportCopy p tag f = s := by
  unfold State.reportCopy
  rw [State.job?_none h]

theorem State.reroutePass_none (p : Fin 6) : s.reroutePass p = s := by
  unfold State.reroutePass
  split
  · exact List.foldl_fixed' (fun tag => State.rerouteJob_none h tag) _
  · rfl

theorem State.passAll_none : s.passAll = s := List.foldl_fixed' (fun p => State.reroutePass_none h p) _

theorem State.losePrinter_none (p : Fin 6) : s.losePrinter p = s := by
  unfold State.losePrinter
  refine List.foldl_fixed' (fun tag => ?_) _
  rw [State.job?_none h]

end

theorem Serves.pool {s t : State} (k : Serves s t) (h : s.pool = []) : t.pool = [] := by
  have gone := k.tags
  rw [h, List.map_nil, List.subperm_nil] at gone
  exact List.map_eq_nil_iff.mp gone

/-! ### Placing notices -/

theorem Printer.of_settled {x y : Printer} (h : x.settled = y.settled) :
    x = { y with queue := x.queue, statePending := x.statePending } := by
  cases x; cases y
  simp only [Printer.settled, Printer.mk.injEq] at h ⊢
  tauto

theorem StockType.of_settled {x y : StockType} (h : x.settled = y.settled) :
    x = { y with lowNotified := x.lowNotified, lowPending := x.lowPending } := by
  cases x; cases y
  simp only [StockType.settled, StockType.mk.injEq] at h ⊢
  tauto

/-- What placing notices leaves: what `Serves` says, and of each record its pending flag alone changes, and where it was pending it still
is, or its notice is in the queue. With an empty pool no outstanding count and no CLOSING window changes. -/
structure Places (s t : State) : Prop extends Serves s t where
  printer : ∀ p, t.printer p = { s.printer p with statePending := (t.printer p).statePending }
  stock : ∀ k, t.stockType k = { s.stockType k with lowPending := (t.stockType k).lowPending } ∧
    ((t.stockType k).lowPending = true → (s.stockType k).lowPending = true) ∧
    ((s.stockType k).lowPending = true →
      (t.stockType k).lowPending = true ∨ Notice.stockLow k (s.totalRemaining k) ∈ t.notices.queue)
  done : t.store.donePending = true → s.store.donePending = true
  outstanding : s.pool = [] → t.ret.console = s.ret.console
  window : s.pool = [] → ∀ w, t.window w = { s.window w with countReady := (t.window w).countReady } ∧
    ((s.window w).countReady = true →
      (t.window w).countReady = true ∨ Notice.countReady w (s.window w).shift (s.window w).state ∈ t.notices.queue)

theorem Places.refl (s : State) : Places s s where
  toServes := .refl s
  printer _ := rfl
  stock _ := ⟨rfl, id, .inl⟩
  done := id
  outstanding _ := rfl
  window _ _ := ⟨rfl, .inl⟩

theorem State.totalRemaining_keeps {s t : State} {l : List Part} (h : s.keepsBut t l) (hl : Part.packs ∉ l) (k : Fin 8) :
    t.totalRemaining k = s.totalRemaining k := by
  unfold State.totalRemaining
  rw [show t.ret.packs = s.ret.packs from h .packs hl]

theorem Places.trans {s t u : State} (h : Places s t) (k : Places t u) : Places s u where
  toServes := h.toServes.trans k.toServes
  printer p := by rw [k.printer p, h.printer p]
  stock i := by
    obtain ⟨first, back, waits⟩ := h.stock i
    obtain ⟨second, back', waits'⟩ := k.stock i
    refine ⟨by rw [second, first], back ∘ back', fun pending => ?_⟩
    rcases waits pending with still | placed
    · rw [← State.totalRemaining_keeps h.parts (by decide) i]
      exact waits' still
    · exact .inr (k.queue.subset placed)
  done := h.done ∘ k.done
  outstanding none := (k.outstanding (h.toServes.pool none)).trans (h.outstanding none)
  window none w := by
    obtain ⟨first, waits⟩ := h.window none w
    obtain ⟨second, waits'⟩ := k.window (h.toServes.pool none) w
    refine ⟨by rw [second, first], fun pending => ?_⟩
    rcases waits pending with still | placed
    · rw [first] at waits'
      exact waits' still
    · exact .inr (k.queue.subset placed)

theorem State.releaseJob_parts (s : State) (j : Job) : s.keepsBut (s.releaseJob j) [.pool, .console, .windows] := by
  have released := ((s.setPool_keeps (s.pool.filter fun k => decide (k.tag ≠ j.tag))).mono (by decide)).trans
    ((State.modOutstanding_keeps _ j.position (· - 1)).mono (by decide)) (l := [.pool, .console, .windows])
  unfold State.releaseJob
  simp only
  split
  · exact released
  · split
    · exact released.trans ((State.modWindow_keeps _ _ _).mono (by decide))
    · exact released

theorem printer_of_same {s t : State} (h : t.printers = s.printers) (p : Fin 6) :
    t.printer p = { s.printer p with statePending := (t.printer p).statePending } := by
  unfold State.printer
  rw [h]

theorem State.settlePlaced_printer (s : State) (x : Waiting) (p : Fin 6) : (s.settlePlaced x).printer p =
    { s.printer p with statePending := ((s.settlePlaced x).printer p).statePending } := by
  cases x with
  | job j => exact printer_of_same ((s.releaseJob_parts j) .printers (by decide)) p
  | printer q =>
    unfold State.settlePlaced
    simp only [State.printer_modPrinter]
    split <;> rfl
  | fault e => rfl
  | countReady w => rfl
  | shiftEnd r => rfl
  | stockType k => rfl
  | store r => rfl

theorem State.settlePlaced_stockType (s : State) (x : Waiting) (k : Fin 8) : (s.settlePlaced x).stockType k =
    if x = .stockType k then { s.stockType k with lowPending := false } else s.stockType k := by
  cases x with
  | job j => exact congrArg (·[k]) ((s.releaseJob_parts j) .stockTypes (by decide))
  | stockType i =>
    unfold State.settlePlaced
    rw [State.stockType_modStockType]
    by_cases h : k = i
    · rw [if_pos h, if_pos (by rw [h])]
    · rw [if_neg h, if_neg (by rintro ⟨⟩; exact h rfl)]
  | fault e => rfl
  | countReady w => rfl
  | shiftEnd r => rfl
  | printer q => rfl
  | store r => rfl

/-- A record other than a job, settled: the windows keep all but the COUNT-READY flag of the one placed. -/
theorem State.settlePlaced_window (s : State) (x : Waiting) (hx : ∀ j, x ≠ .job j) (w : Fin 15) : (s.settlePlaced x).window w =
    if x = .countReady w then { s.window w with countReady := false } else s.window w := by
  cases x with
  | job j => exact absurd rfl (hx j)
  | countReady v =>
    unfold State.settlePlaced
    rw [State.window_modWindow]
    by_cases h : w = v
    · rw [if_pos h, if_pos (by rw [h])]
    · rw [if_neg h, if_neg (by rintro ⟨⟩; exact h rfl)]
  | stockType i => rfl
  | fault e => rfl
  | shiftEnd r => rfl
  | printer q => rfl
  | store r => rfl

theorem State.settlePlaced_console (s : State) (x : Waiting) (hx : ∀ j, x ≠ .job j) :
    (s.settlePlaced x).ret.console = s.ret.console := by
  cases x with
  | job j => exact absurd rfl (hx j)
  | _ => rfl

theorem State.settlePlaced_done (s : State) (x : Waiting) :
    (s.settlePlaced x).store.donePending = true → s.store.donePending = true := by
  cases x with
  | job j => rw [show (s.settlePlaced (.job j)).store = s.store from s.releaseJob_parts j .store (by decide)]; exact id
  | store r => exact nofun
  | _ => exact id

/-- With no job in the pool, none waits. -/
theorem State.firstWaiting_not_job {s : State} {x : Waiting} (h : s.pool = []) (first : s.firstWaiting = some x) (j : Job) :
    x ≠ .job j := by
  rintro rfl
  have later : ∀ (a : Option Waiting) (b : Option Waiting), (a.or b) = some (.job j) → a = some (.job j) ∨ b = some (.job j) :=
    fun a b hab => (Option.or_eq_some_iff.mp hab).imp id And.right
  have unlike : ∀ {α : Type} (o : Option α) (f : α → Waiting), (∀ a, f a ≠ .job j) → o.map f ≠ some (.job j) :=
    fun o f hf ho => by
      obtain ⟨a, -, ha⟩ := Option.map_eq_some_iff.mp ho
      exact hf a ha
  unfold State.firstWaiting at first
  rw [h] at first
  rcases later _ _ first with job | first
  · rw [List.find?_nil, Option.map_none] at job
    cases job
  rcases later _ _ first with fault | first
  · exact unlike _ Waiting.fault (fun _ => Waiting.noConfusion) fault
  rcases later _ _ first with shift | first
  · obtain ⟨w, -, here⟩ := List.exists_of_findSome?_eq_some shift
    unfold State.waitingAt at here
    split at here
    · cases here
    · exact unlike _ Waiting.shiftEnd (fun _ => Waiting.noConfusion) here
  rcases later _ _ first with printer | first
  · exact unlike _ Waiting.printer (fun _ => Waiting.noConfusion) printer
  rcases later _ _ first with type | first
  · exact unlike _ Waiting.stockType (fun _ => Waiting.noConfusion) type
  split at first
  · exact unlike _ Waiting.store (fun _ => Waiting.noConfusion) first
  · cases first

/-- One notice placed. -/
theorem places_settlePlaced (s : State) (x : Waiting) (first : s.firstWaiting = some x) :
    Places s ((s.pushNotice (s.noticeOf x)).settlePlaced x) where
  toServes := (serves_pushNotice s _).trans (serves_settlePlaced _ x)
  printer p := State.settlePlaced_printer _ x p
  stock k := by
    have queue := (serves_settlePlaced (s.pushNotice (s.noticeOf x)) x).queue
    rw [State.settlePlaced_stockType]
    split
    next hx =>
      refine ⟨rfl, nofun, fun _ => .inr (queue.subset ?_)⟩
      subst hx
      exact List.mem_append_right _ List.mem_cons_self
    · exact ⟨rfl, id, .inl⟩
  done := State.settlePlaced_done _ x
  outstanding none := State.settlePlaced_console _ x (State.firstWaiting_not_job none first)
  window none w := by
    have queue := (serves_settlePlaced (s.pushNotice (s.noticeOf x)) x).queue
    rw [State.settlePlaced_window _ x (State.firstWaiting_not_job none first)]
    split
    next hx =>
      refine ⟨rfl, fun _ => .inr (queue.subset ?_)⟩
      subst hx
      exact List.mem_append_right _ List.mem_cons_self
    · exact ⟨rfl, .inl⟩

theorem places_fillPlaces (fuel : Nat) (s : State) : Places s (fillPlaces fuel s) := by
  induction fuel generalizing s with
  | zero => exact .refl s
  | succ fuel ih =>
    simp only [fillPlaces]
    split
    · split
      · exact .refl s
      · exact (places_settlePlaced s _ ‹_›).trans (ih _)
    · exact .refl s

theorem places_arbitrate (s : State) : Places s s.arbitrate := by
  unfold State.arbitrate
  split
  · exact places_fillPlaces _ s
  · exact .refl s

/-! ### What an empty pool spares -/

/-- A printer entering a state while the pool is empty. -/
theorem State.setPrinterState_none {s : State} (h : s.pool = []) (p : Fin 6) (st : PrinterState) :
    ∃ o r, (o = (s.printer p).outstanding ∨ o = none) ∧
      Places (s.modPrinter p fun x => { x with state := st, outstanding := o, statePending := r }) (s.setPrinterState p st) := by
  unfold State.setPrinterState
  simp only
  split
  next same =>
    refine ⟨(s.printer p).outstanding, (s.printer p).statePending, .inl rfl, ?_⟩
    rw [s.modPrinter_congr p (g := fun x => x) (by rw [← same]), s.modPrinter_id]
    exact .refl s
  · split
    · refine ⟨(s.printer p).outstanding, (s.printer p).statePending, .inl rfl, ?_⟩
      rw [s.modPrinter_congr p (f := fun x => { x with state := st, outstanding := _, statePending := _ })
        (g := fun x => { x with state := st }) rfl]
      exact .refl _
    · refine ⟨if st.dropsCommand then none else (s.printer p).outstanding, true, by split <;> simp, ?_⟩
      have after : ∀ u : State, u.pool = [] → Places u
          (if st = .ready then (if st.losesJobs then u.arbitrate.losePrinter p else u.arbitrate).passAll
            else (if st.losesJobs then u.arbitrate.losePrinter p else u.arbitrate).reroutePass p) := fun u hu => by
        have none := (serves_arbitrate u).pool hu
        rw [State.losePrinter_none none, ite_self, State.passAll_none none, State.reroutePass_none none, ite_self]
        exact places_arbitrate u
      rw [s.modPrinter_congr p
        (f := fun x => { x with state := st, outstanding := _, statePending := true })
        (g := fun x => { x with state := st, statePending := true, outstanding := if st.dropsCommand then none else x.outstanding }) rfl]
      exact after _ h

end Sys2Proof.Machine
end

