-- ==== Sys2Proof/Proofs/Identifying.lean ====
section
/-! SUPPORT. Printers identified afresh while no job stands in the pool, one and several in turn (R44, R52, R184). -/

namespace Sys2Proof.Machine

/-- A printer's record once its identification has begun, PRINTER-STATE waiting or placed (R44). -/
def Printer.identifying (x : Printer) (pending : Bool) : Printer :=
  { x.forget with
    state := .starting
    statePending := pending
    identTries := 1
    nextCommand := x.nextCommand + 1#8
    outstanding := some (x.nextCommand, .ident)
    sentSince := 1
    sent := some { number := x.nextCommand, kind := .ident, body := none } }

/-- With no job in the pool, the chosen printers are identified afresh; of the others PRINTER-STATE alone may be placed, and what else
changes is what placing notices changes. Before START is placed only printers change. -/
structure Identifies (chosen : Fin 6 → Prop) (s t : State) : Prop where
  pool : t.pool = []
  console : t.ret.console = s.ret.console
  stock : ∀ k, (t.stockType k).settled = (s.stockType k).settled
  faults : t.ret.faults.map (·.settled) = s.ret.faults.map (·.settled)
  parts : s.keepsBut t placed
  early : s.notices.started = false → s.keepsBut t [.printers]
  begun : ∀ p, chosen p → ∃ r, t.printer p = (s.printer p).identifying r
  others : ∀ p, ¬ chosen p → ∃ r, t.printer p = { s.printer p with statePending := r }

theorem Identifies.refl {s : State} (h : s.pool = []) : Identifies (fun _ => False) s s where
  pool := h
  console := rfl
  stock _ := rfl
  faults := rfl
  parts := s.keepsBut_refl _
  early _ := s.keepsBut_refl _
  begun _ := False.elim
  others p _ := ⟨(s.printer p).statePending, rfl⟩

theorem Identifies.trans {A B : Fin 6 → Prop} {s t u : State} (h : Identifies A s t) (k : Identifies B t u)
    (apart : ∀ p, A p → ¬ B p) : Identifies (fun p => A p ∨ B p) s u where
  pool := k.pool
  console := k.console.trans h.console
  stock i := (k.stock i).trans (h.stock i)
  faults := k.faults.trans h.faults
  parts := h.parts.trans k.parts
  early started := by
    have same := h.early started
    exact same.trans (k.early (by rw [show t.notices = s.notices from same .notices (by decide)]; exact started))
  begun p hp := by
    by_cases first : A p
    · obtain ⟨r, hr⟩ := h.begun p first
      obtain ⟨r', hr'⟩ := k.others p (apart p first)
      exact ⟨r', by rw [hr', hr]; rfl⟩
    · obtain ⟨r, hr⟩ := h.others p first
      obtain ⟨r', hr'⟩ := k.begun p (hp.resolve_left first)
      exact ⟨r', by rw [hr', hr]; rfl⟩
  others p hp := by
    obtain ⟨r, hr⟩ := h.others p (hp ∘ .inl)
    obtain ⟨r', hr'⟩ := k.others p (hp ∘ .inr)
    exact ⟨r', by rw [hr', hr]⟩

theorem Identifies.congr {A B : Fin 6 → Prop} {s t : State} (h : Identifies A s t) (same : ∀ p, A p ↔ B p) : Identifies B s t := by
  rwa [show B = A from funext fun p => propext (same p).symm]

theorem State.arbitrate_unstarted {s : State} (h : s.notices.started = false) : s.arbitrate = s := by
  unfold State.arbitrate
  rw [h]
  exact if_neg Bool.false_ne_true

/-- Before START is placed, and with no job in the pool, entering a state changes the printer's record alone. -/
theorem State.setPrinterState_early {s : State} (empty : s.pool = []) (h : s.notices.started = false) (p : Fin 6) (st : PrinterState) :
    s.keepsBut (s.setPrinterState p st) [.printers] := by
  have after : ∀ u : State, u.pool = [] → u.notices.started = false →
      u.keepsBut (if st = .ready then (if st.losesJobs then u.arbitrate.losePrinter p else u.arbitrate).passAll
        else (if st.losesJobs then u.arbitrate.losePrinter p else u.arbitrate).reroutePass p)
        [.printers] := fun u hu early => by
    rw [State.arbitrate_unstarted early, State.losePrinter_none hu, ite_self, State.passAll_none hu, State.reroutePass_none hu,
      ite_self]
    exact u.keepsBut_refl _
  unfold State.setPrinterState
  simp only
  split
  · exact s.keepsBut_refl _
  · split
    · exact s.modPrinter_keeps p _
    · exact (s.modPrinter_keeps p _).trans (after _ empty h)

theorem identifies_startIdentification {s : State} (empty : s.pool = []) (p : Fin 6) :
    Identifies (· = p) s (s.startIdentification p) := by
  obtain ⟨o, r, -, places⟩ := State.setPrinterState_none (s := s.modPrinter p Printer.forget) empty p .starting
  have whole : ∀ q, (s.startIdentification p).printer q =
      if q = p then { ((s.modPrinter p Printer.forget).setPrinterState p .starting).printer p with
          identTries := 1, nextCommand := (s.printer p).nextCommand + 1#8,
          outstanding := some ((s.printer p).nextCommand, .ident), sentSince := 1
          sent := some { number := (s.printer p).nextCommand, kind := .ident, body := none } }
        else ((s.modPrinter p Printer.forget).setPrinterState p .starting).printer q := fun q => by
    have entered := places.printer p
    rw [State.modPrinter_same, State.modPrinter_same] at entered
    unfold State.startIdentification State.sendIdent State.send
    rw [State.printer_modPrinter, State.printer_modPrinter]
    split
    next here =>
      subst here
      rw [entered]
      rfl
    · rfl
  exact {
    pool := places.toServes.pool empty
    console := places.outstanding empty
    stock := places.toServes.stockTypes
    faults := places.toServes.faults
    parts := ((s.modPrinter_keeps p _).mono (by decide)).trans ((((State.modPrinter_keeps _ p _).mono (by decide)).trans
      places.parts).trans (((State.modPrinter_keeps _ p _).trans (State.modPrinter_keeps _ p _)).mono (by decide)))
    early := fun h => ((s.modPrinter_keeps p _).trans (State.setPrinterState_early (s := s.modPrinter p Printer.forget) empty h p _)).trans
      ((State.modPrinter_keeps _ p _).trans (State.modPrinter_keeps _ p _))
    begun := fun q hq => by
      subst hq
      refine ⟨(((s.modPrinter q Printer.forget).setPrinterState q .starting).printer q).statePending, ?_⟩
      rw [whole, if_pos rfl, places.printer q, State.modPrinter_same, State.modPrinter_same]
      rfl
    others := fun q hq => by
      refine ⟨(((s.modPrinter p Printer.forget).setPrinterState p .starting).printer q).statePending, ?_⟩
      rw [whole, if_neg hq, places.printer q, State.modPrinter_other _ _ _ _ hq, State.modPrinter_other _ _ _ _ hq] }

/-- Some of the printers identified in turn, where identifying one does not change whether another is chosen. -/
theorem identifies_foldl (test : State → Fin 6 → Bool)
    (steady : ∀ (s : State) (p q : Fin 6), s.pool = [] → q ≠ p → test (s.startIdentification p) q = test s q)
    {l : List (Fin 6)} (nodup : l.Nodup) {s : State} (empty : s.pool = []) :
    Identifies (fun p => p ∈ l ∧ test s p = true) s
      (l.foldl (fun s p => if test s p then s.startIdentification p else s) s) := by
  induction nodup generalizing s with
  | nil => exact (Identifies.refl empty).congr fun p => by simp
  | @cons p l fresh nodup ih =>
    rw [List.foldl_cons]
    by_cases hp : test s p = true
    · rw [if_pos hp]
      have first := identifies_startIdentification empty p
      refine (first.trans (ih first.pool) fun q hq => ?_).congr fun q => ?_
      · rintro ⟨here, -⟩
        exact fresh q here hq.symm
      · by_cases hq : q = p
        · simp [hq, hp]
        · rw [List.mem_cons, or_iff_right hq, or_iff_right hq, steady s p q empty hq]
    · rw [if_neg hp]
      refine (ih empty).congr fun q => ?_
      by_cases hq : q = p
      · simp [hq, hp]
      · rw [List.mem_cons, or_iff_right hq]

theorem allPrinters_nodup : allPrinters.Nodup := List.nodup_finRange 6

theorem mem_allPrinters (p : Fin 6) : p ∈ allPrinters := List.mem_finRange p

theorem identifies_restartPrinters {s : State} (empty : s.pool = []) :
    Identifies (fun p => (s.printer p).state.restarts = true) s s.restartPrinters := by
  refine (identifies_foldl (fun s p => (s.printer p).state.restarts) (fun s p q empty hq => ?_) allPrinters_nodup empty).congr
    fun p => and_iff_right (mem_allPrinters p)
  obtain ⟨r, hr⟩ := (identifies_startIdentification empty p).others q hq
  rw [hr]

theorem identifies_startPrinters {s : State} (empty : s.pool = []) :
    Identifies (fun p => p.val + 1 ≤ s.fitted ∧ (s.live.printerItems[p]).enabled = true) s s.startPrinters := by
  refine (identifies_foldl (fun s p => s.isFitted p && (s.live.printerItems[p]).enabled) (fun s p q empty _ => ?_)
    allPrinters_nodup empty).congr fun p => ?_
  · have parts := (identifies_startIdentification empty p).parts
    unfold State.isFitted
    rw [show (s.startIdentification p).fitted = s.fitted from parts .fitted (by decide),
      show (s.startIdentification p).live = s.live from parts .live (by decide)]
  · rw [and_iff_right (mem_allPrinters p), Bool.and_eq_true, State.isFitted, decide_eq_true_eq]

end Sys2Proof.Machine
end

