-- ==== Sys2Proof/Proofs/ClearAudit.lean ====
section
/-! O14: CLEAR AUDIT taken. -/

namespace Sys2Proof.Machine

theorem lowStockCheck_console {s : State} (empty : s.pool = []) (k : Fin 8) :
    (s.lowStockCheck k).ret.console = s.ret.console := by
  unfold State.lowStockCheck
  simp only
  split
  · split
    · split
      · rfl
      · exact (places_arbitrate (s.modStockType k fun x => { x with lowNotified := true, lowPending := true })).outstanding empty
    · rfl
  · rfl

theorem lowStockAll_console {s : State} (empty : s.pool = []) : s.lowStockAll.ret.console = s.ret.console := by
  unfold State.lowStockAll
  generalize allTypes = l
  induction l generalizing s with
  | nil => rfl
  | cons k l ih =>
    exact (ih ((serves_lowStockCheck s k).pool empty)).trans (lowStockCheck_console empty k)

theorem State.clearLog_keeps (s : State) : s.keepsBut s.clearLog [.faults, .nextFault, .printers] :=
  fun a ha => by cases a <;> first | rfl | exact absurd (by decide) ha

theorem State.clearLog_printer (s : State) (p : Fin 6) :
    s.clearLog.printer p = { s.printer p with openFault := none, confirmPending := false } := by
  simp [State.clearLog, State.printer]

/-- The packs, the doubtful list and the paths emptied (R26). -/
def State.withoutStock (s : State) : State := ((s.setPacks []).setDoubtful []).setInPath (Vector.replicate 6 [])

theorem State.withoutStock_keeps (s : State) : s.keepsBut s.withoutStock [.packs, .doubtful, .inPath] :=
  fun a ha => by cases a <;> first | rfl | exact absurd (by decide) ha

theorem State.withoutStock_path (s : State) (p : Fin 6) : s.withoutStock.path p = [] := by
  simp [State.withoutStock, State.path]

theorem State.clearRegister_eq (s : State) : s.clearRegister = s.withoutStock.lowStockAll := rfl

theorem serves_clearRegister (s : State) : Serves s.withoutStock s.clearRegister := serves_lowStockAll _

section
variable {s : State} (empty : s.pool = [])
include empty

theorem clearRegister_console : s.clearRegister.ret.console = s.ret.console := by
  rw [State.clearRegister_eq, lowStockAll_console (s := s.withoutStock) empty]
  exact s.withoutStock_keeps .console (by decide)

/-- The printers identified after the fault log is emptied (R184, step 3). -/
theorem identifies_clearAudit : Identifies (fun p => (s.clearRegister.clearLog.printer p).state.restarts = true)
    s.clearRegister.clearLog s.clearRegister.clearLog.restartPrinters := by
  have pool : s.clearRegister.pool = [] := (serves_clearRegister s).pool empty
  generalize s.clearRegister = t at pool
  exact identifies_restartPrinters (s := t.clearLog) pool

end

/-- What CLEAR AUDIT may change in all while the pool is empty. -/
def cleared : List Part := [.stockTypes, .packs, .doubtful, .inPath, .console, .windows, .nextShift, .history, .faults, .nextFault,
  .audit, .checksum, .printers, .notices, .store]

section
variable {s : State} (empty : s.pool = [])
include empty

theorem clearAudit_keeps : s.keepsBut s.clearAudit cleared := by
  have start := s.withoutStock_keeps
  have register := (serves_clearRegister s).parts
  have log := s.clearRegister.clearLog_keeps
  have printers := (identifies_clearAudit empty).parts
  have rest := clearAudit_rest s
  have pool := (identifies_clearAudit empty).pool
  have samePool : s.clearAudit.pool = _ := rest .pool (by decide)
  rw [pool, ← empty] at samePool
  have all : s.keepsBut s.clearAudit (.pool :: cleared) :=
    ((((start.mono (by decide)).trans (register.mono (by decide))).trans (log.mono (by decide))).trans
      (printers.mono (by decide))).trans (rest.mono (by decide))
  intro a ha
  by_cases h : a = .pool
  · rw [h]; exact samePool
  · exact all a (by simpa [h] using ha)

theorem clearAudit_emptyConsole : s.clearAudit.ret.console = { s.ret.console with tallies := zeroTallies, recent := [] } := by
  have last : ∀ t : State, ((t.clearShifts.setChecksum true).setAudit .ok).ret.console =
      { t.ret.console with tallies := zeroTallies, recent := [] } := fun t => rfl
  have whole : s.clearAudit.ret.console =
      { s.clearRegister.clearLog.restartPrinters.ret.console with tallies := zeroTallies, recent := [] } := last _
  have log : s.clearRegister.clearLog.ret.console = s.clearRegister.ret.console := s.clearRegister.clearLog_keeps .console (by decide)
  rw [whole, (identifies_clearAudit empty).console, log, clearRegister_console empty]

theorem clearAudit_stockType (k : Fin 8) : (s.clearAudit.stockType k).settled = (s.stockType k).settled := by
  have rest : s.clearAudit.ret.stockTypes = _ := clearAudit_rest s .stockTypes (by decide)
  have same : s.clearAudit.stockType k = s.clearRegister.clearLog.restartPrinters.stockType k := by
    unfold State.stockType
    rw [rest]
  have log : s.clearRegister.clearLog.ret.stockTypes = _ := s.clearRegister.clearLog_keeps .stockTypes (by decide)
  have log' : s.clearRegister.clearLog.stockType k = s.clearRegister.stockType k := by
    unfold State.stockType
    rw [log]
  rw [same, (identifies_clearAudit empty).stock k, log', (serves_clearRegister s).stockTypes k]
  unfold State.stockType
  rw [show s.withoutStock.ret.stockTypes = s.ret.stockTypes from s.withoutStock_keeps .stockTypes (by decide)]

/-- A printer's record after CLEAR AUDIT, from what the arbiter left of it. -/
theorem clearAudit_printer (p : Fin 6) : ∃ x : Printer, x.settled = (s.printer p).settled ∧ ∃ r, s.clearAudit.printer p =
    if x.state.restarts = true then ({ x with openFault := none, confirmPending := false } : Printer).identifying r
    else { x with openFault := none, confirmPending := false, statePending := r } := by
  have rest : s.clearAudit.printers = _ := clearAudit_rest s .printers (by decide)
  have same : s.clearAudit.printer p = s.clearRegister.clearLog.restartPrinters.printer p := by
    unfold State.printer
    rw [rest]
  have identified := identifies_clearAudit empty
  have settled := (serves_clearRegister s).printers p
  have log := s.clearRegister.clearLog_printer p
  rw [same]
  generalize s.clearRegister.clearLog = u at identified log
  generalize s.clearRegister.printer p = x at settled log
  refine ⟨x, settled, ?_⟩
  by_cases h : x.state.restarts = true
  · obtain ⟨r, hr⟩ := identified.begun p (by rw [log]; exact h)
    exact ⟨r, by rw [if_pos h, hr, log]⟩
  · obtain ⟨r, hr⟩ := identified.others p (by rw [log]; exact h)
    exact ⟨r, by rw [if_neg h, hr, log]⟩

end

/-- CLEAR AUDIT's empty records (R184, steps 1 to 5). -/
theorem clearAudit_records {s : State} (empty : s.pool = []) : s.clearAudit.ret.packs = [] ∧ s.clearAudit.ret.doubtful = [] ∧
    (∀ p, s.clearAudit.path p = []) ∧ s.clearAudit.ret.faults = [] ∧ s.clearAudit.ret.nextFault = 1 := by
  have register := (serves_clearRegister s).parts
  have log := s.clearRegister.clearLog_keeps
  have printers := identifies_clearAudit empty
  have rest := clearAudit_rest s
  have keeps : s.withoutStock.keepsBut s.clearAudit (.pool :: cleared.diff [.packs, .doubtful, .inPath]) :=
    (((register.mono (by decide)).trans (log.mono (by decide))).trans (printers.parts.mono (by decide))).trans (rest.mono (by decide))
  have faults : s.clearAudit.ret.faults = s.clearRegister.clearLog.restartPrinters.ret.faults := rest .faults (by decide)
  have nextFault : s.clearAudit.ret.nextFault = s.clearRegister.clearLog.ret.nextFault :=
    ((printers.parts.mono (List.subset_append_left _ _)).trans (rest.mono (List.subset_append_right _ _))) .nextFault (by decide)
  have nothing : (s.clearRegister.clearLog.restartPrinters.ret.faults.map (·.settled)) = [] := printers.faults
  refine ⟨keeps .packs (by decide), keeps .doubtful (by decide), fun p => ?_, ?_, nextFault⟩
  · have paths : s.clearAudit.ret.inPath = s.withoutStock.ret.inPath := keeps .inPath (by decide)
    rw [← s.withoutStock_path p]
    unfold State.path
    rw [paths]
  · rw [faults]
    exact List.map_eq_nil_iff.mp nothing

theorem clearAudit_numbers (s : State) : s.clearAudit.ret.nextShift = 1 ∧ s.clearAudit.ret.audit = .ok ∧
    s.clearAudit.ret.checksumMatches = true := by
  have last : ∀ t : State, ((t.clearShifts.setChecksum true).setAudit .ok).ret.nextShift = 1 ∧
      ((t.clearShifts.setChecksum true).setAudit .ok).ret.audit = .ok ∧
      ((t.clearShifts.setChecksum true).setAudit .ok).ret.checksumMatches = true := fun t => ⟨rfl, rfl, rfl⟩
  exact last _

theorem State.allClosed_iff (s : State) : s.allClosed = true ↔ ∀ w, (s.window w).state = .closed := by
  simp only [State.allClosed, List.all_eq_true, Vector.mem_toList_iff, Vector.mem_iff_getElem, decide_eq_true_eq]
  exact ⟨fun h w => h _ ⟨w.val, w.isLt, rfl⟩, fun h r ⟨i, hi, hr⟩ => hr ▸ h ⟨i, hi⟩⟩

theorem State.answer_printer (s : State) (code : ReplyCode) (request : Nat) (body : List Byte) (p : Fin 6) :
    (s.answer code request body).printer p = s.printer p := rfl

theorem State.answer_stockType (s : State) (code : ReplyCode) (request : Nat) (body : List Byte) (k : Fin 8) :
    (s.answer code request body).stockType k = s.stockType k := rfl

theorem PrinterState.restarts_iff (st : PrinterState) :
    st.restarts = true ↔ st ∈ [PrinterState.starting, .ready, .heatHold, .faulted, .offline] := by cases st <;> decide

end Sys2Proof.Machine

open Sys2Proof Sys2Proof.Machine

/-- Settles O14: each step of R184 by what it leaves of the parts it works on, the pool being empty. -/
theorem clearAuditEmptiesTheRecords : Obligations.ClearAuditEmptiesTheRecords := by
  intro s free setup closed empty
  have next := next_of_judged (c := .clearAudit .console) free rfl (by
    rw [← State.allClosed_iff] at closed
    simp [setup, closed, empty])
  obtain ⟨replies, keeps⟩ := answered (clearAudit_keeps empty) (by decide) .ok 0x4B []
  obtain ⟨packs, doubtful, path, faults, nextFault⟩ := clearAudit_records empty
  obtain ⟨nextShift, audit, checksum⟩ := clearAudit_numbers s
  have window := clearAudit_window s
  have history := clearAudit_history s
  have console := clearAudit_emptyConsole empty
  have stock := clearAudit_stockType empty
  have printer := clearAudit_printer empty
  generalize s.clearAudit = t at *
  refine ⟨_, next, packs, doubtful, path, faults, nextFault, window, nextShift, history, console, audit, checksum, fun k => ?_,
    fun p => ?_, replies, keeps.mono (by decide)⟩
  · have same := StockType.of_settled (stock k)
    rw [State.answer_stockType, same]
    exact ⟨rfl, rfl⟩
  · obtain ⟨x, same, r, after⟩ := printer p
    have state : x.state = (s.printer p).state := by rw [Printer.of_settled same]
    by_cases h : x.state.restarts = true
    · rw [if_pos h] at after
      rw [State.answer_printer, after, if_pos ((PrinterState.restarts_iff _).mp (state ▸ h)), Printer.of_settled same]
      exact ⟨rfl, rfl, rfl, rfl, rfl, rfl, rfl⟩
    · rw [if_neg h] at after
      rw [State.answer_printer, after, if_neg (state ▸ mt (PrinterState.restarts_iff _).mpr h), Printer.of_settled same]
      exact ⟨rfl, rfl, rfl, rfl, rfl, rfl⟩

end

