-- ==== Sys2Proof/Proofs/Loading.lean ====
section
/-! SUPPORT. What taking a whole set of items leaves (R1, R81, R179): the live items, the stock types and the layouts. -/

namespace Sys2Proof.Machine

theorem allTypes_nodup : allTypes.Nodup := List.nodup_finRange 8

theorem mem_allTypes (k : Fin 8) : k ∈ allTypes := List.mem_finRange k

/-! ### One layout stored (R79, R80) -/

theorem State.storeLayout_keeps (s : State) (k : Fin 8) (fields : List FieldEntry) : s.keepsBut (s.storeLayout k fields) [.live] :=
  s.setLive_keeps _

theorem State.layout_storeLayout (s : State) (k l : Fin 8) (fields : List FieldEntry) : (s.storeLayout k fields).layout l =
    if l = k then { entries := fields, invalid := combinedCheck (s.stockType k).definition fields } else s.layout l := by
  show (s.live.layouts.set k _)[l] = _
  split
  next h => subst h; exact Vector.getElem_set_self _
  next h => exact Vector.getElem_set_ne _ _ fun e => h (Fin.ext e.symm)

/-! ### Every layout loaded (R81) -/

/-- The fields a load leaves of a type: the stored ones of a type with a live job, those offered otherwise (R81). -/
def State.loadedFields (s : State) (offered : Vector (List FieldEntry) 8) (k : Fin 8) : List FieldEntry :=
  if s.hasLiveJob k then (s.layout k).entries else offered[k]

/-- The layout a load leaves of a type, checked (R81). -/
def State.loadedLayout (s : State) (offered : Vector (List FieldEntry) 8) (k : Fin 8) : Layout :=
  { entries := s.loadedFields offered k, invalid := combinedCheck (s.stockType k).definition (s.loadedFields offered k) }

/-- One layout of a load. -/
def State.loadLayout (s : State) (offered : Vector (List FieldEntry) 8) (k : Fin 8) : State :=
  if s.hasLiveJob k then s.recheckLayout k else s.storeLayout k offered[k]

theorem State.loadLayout_eq (s : State) (offered : Vector (List FieldEntry) 8) (k : Fin 8) :
    s.loadLayout offered k = s.storeLayout k (s.loadedFields offered k) := by
  unfold State.loadLayout State.recheckLayout State.loadedFields
  split <;> rfl

theorem loadLayouts_foldl (offered : Vector (List FieldEntry) 8) {l : List (Fin 8)} (nodup : l.Nodup) (s : State) :
    let t := l.foldl (fun s k => s.loadLayout offered k) s
    s.keepsBut t [.live] ∧ t.live = { s.live with layouts := t.live.layouts } ∧
      ∀ k, t.layout k = if k ∈ l then s.loadedLayout offered k else s.layout k := by
  induction nodup generalizing s with
  | nil => exact ⟨s.keepsBut_refl _, rfl, fun k => by simp⟩
  | @cons i l fresh nodup ih =>
    rw [List.foldl_cons]
    have one : s.keepsBut (s.loadLayout offered i) [.live] ∧
        (s.loadLayout offered i).live = { s.live with layouts := (s.loadLayout offered i).live.layouts } ∧
        ∀ k, (s.loadLayout offered i).layout k = if k = i then s.loadedLayout offered i else s.layout k := by
      rw [State.loadLayout_eq]
      exact ⟨s.storeLayout_keeps _ _, rfl, fun k => s.layout_storeLayout i k _⟩
    obtain ⟨keeps, live, layout⟩ := one
    obtain ⟨keeps', live', layout'⟩ := ih (s.loadLayout offered i)
    refine ⟨keeps.trans keeps', by rw [live', live], fun k => ?_⟩
    have pool : (s.loadLayout offered i).pool = s.pool := keeps .pool (by decide)
    have types : (s.loadLayout offered i).ret.stockTypes = s.ret.stockTypes := keeps .stockTypes (by decide)
    rw [layout', layout]
    by_cases hk : k = i
    · subst hk
      rw [if_neg fun h => fresh k h rfl, if_pos rfl, if_pos List.mem_cons_self]
    · by_cases later : k ∈ l
      · rw [if_pos later, if_pos (List.mem_cons_of_mem i later)]
        unfold State.loadedLayout State.loadedFields State.hasLiveJob State.stockType
        rw [layout, if_neg hk, pool, types]
      · rw [if_neg later, if_neg hk, if_neg fun h => (List.mem_cons.mp h).elim hk later]

theorem loadLayouts_spec (s : State) (offered : Vector (List FieldEntry) 8) :
    s.keepsBut (s.loadLayouts offered) [.live] ∧
      (s.loadLayouts offered).live = { s.live with layouts := (s.loadLayouts offered).live.layouts } ∧
      ∀ k, (s.loadLayouts offered).layout k = s.loadedLayout offered k := by
  obtain ⟨keeps, live, layout⟩ := loadLayouts_foldl offered allTypes_nodup s
  exact ⟨keeps, live, fun k => (layout k).trans (if_pos (mem_allTypes k))⟩

/-! ### A whole set of items (R1, R179) -/

/-- The items of a set taken, but for the layouts. -/
def State.withItems (s : State) (m : SettingsImage) : State :=
  (s.setLive { s.live with
    office := m.office, faces := m.faces, permissions := m.permissions, printerItems := m.printerItems }).setStockTypes
      (Vector.ofFn fun k => (s.stockType k).load (s.hasPacks k) m.stockTypes[k])

theorem State.takeImage_eq (s : State) (m : SettingsImage) : s.takeImage m = (s.withItems m).loadLayouts m.layouts := rfl

theorem State.withItems_keeps (s : State) (m : SettingsImage) : s.keepsBut (s.withItems m) [.live, .stockTypes] :=
  ((s.setLive_keeps _).mono (by decide)).trans ((State.setStockTypes_keeps _ _).mono (by decide))

theorem State.withItems_stockType (s : State) (m : SettingsImage) (k : Fin 8) :
    (s.withItems m).stockType k = (s.stockType k).load (s.hasPacks k) m.stockTypes[k] := by
  simp [State.withItems, State.stockType]

section
variable (s : State) (m : SettingsImage)

theorem takeImage_keeps : s.keepsBut (s.takeImage m) [.live, .stockTypes] :=
  (s.withItems_keeps m).trans ((loadLayouts_spec _ _).1.mono (by decide))

theorem takeImage_stockType (k : Fin 8) : (s.takeImage m).stockType k = (s.stockType k).load (s.hasPacks k) m.stockTypes[k] := by
  have same : (s.takeImage m).ret.stockTypes = (s.withItems m).ret.stockTypes := (loadLayouts_spec _ _).1 .stockTypes (by decide)
  rw [← s.withItems_stockType]
  unfold State.stockType
  rw [same]

theorem takeImage_live : (s.takeImage m).live = { (s.takeImage m).live with
    office := m.office, faces := m.faces, permissions := m.permissions, printerItems := m.printerItems } := by
  rw [State.takeImage_eq, (loadLayouts_spec (s.withItems m) m.layouts).2.1]
  rfl

theorem takeImage_layout (k : Fin 8) : (s.takeImage m).layout k =
    { entries := s.loadedFields m.layouts k
      invalid := combinedCheck ((s.takeImage m).stockType k).definition (s.loadedFields m.layouts k) } := by
  rw [takeImage_stockType, ← s.withItems_stockType, State.takeImage_eq, (loadLayouts_spec _ _).2.2]
  rfl

end

end Sys2Proof.Machine
end

