-- ==== Sys2Proof/Proofs/DoubtPaths.lean ====
section
/-! SUPPORT. Start-up's fifth step (R26): the blanks in path made DOUBTFUL and the low-stock check, before START is placed. -/

namespace Sys2Proof.Machine

/-! ### The packs -/

theorem Stock.modPack_packs (x : Stock) (id : Nat) (f : Pack → Pack) :
    (x.modPack id f).packs = x.packs.map fun k => if k.id = id then f k else k := rfl

/-- What a conversion leaves of the pack of the blank, when `spent` tells whether it was the last of the pack in path (R5, R15). -/
def Pack.losing (k : Pack) (e : InPathEntry) (spent : Bool) : Pack :=
  let k' := k.addRun (doubtRun e none)
  if k'.remaining = 0 ∧ spent = true then k'.exhaust else k'

theorem doubt_not_merges (k : Pack) (e : InPathEntry) : k.merges (doubtRun e none) = false := k.merges_doubtful _ rfl

theorem Pack.addRun_doubt (k : Pack) (e : InPathEntry) : k.addRun (doubtRun e none) =
    { k with
      exceptions := k.exceptions ++ [doubtRun e none]
      condition := if k.exceptions.length = 20 ∧ k.condition = .usable then .suspended else k.condition } := by
  unfold Pack.addRun
  rw [if_neg (by rw [doubt_not_merges]; exact Bool.false_ne_true)]
  simp [suspendAt]

theorem Pack.losing_id (k : Pack) (e : InPathEntry) (spent : Bool) : (k.losing e spent).id = k.id := by
  unfold Pack.losing
  rw [Pack.addRun_doubt]
  simp only
  split <;> rfl

/-- A conversion before others of the pack is one more lost blank. -/
theorem Pack.atStartUp_losing (k : Pack) (e : InPathEntry) (spent : Bool) (rest : List InPathEntry) (last : rest = [] → spent = true) :
    (k.losing e spent).atStartUp rest = k.atStartUp (e :: rest) := by
  unfold Pack.losing
  rw [Pack.addRun_doubt]
  unfold Pack.atStartUp Pack.exhaust
  have below : k.exceptions.length ≠ 20 → (k.exceptions.length < 20 ↔ k.exceptions.length ≤ 20) := by omega
  by_cases spentAll : k.remaining = 0
  · cases rest with
    | nil => simp [last rfl, spentAll]
    | cons e' rest => cases spent <;> simp [spentAll]
  · by_cases full : k.exceptions.length = 20
    · cases rest <;> cases k.condition <;> simp_all
    · cases rest <;> cases k.condition <;> simp_all

/-- The blanks of a pack among some. -/
def lostOf (l : List (Fin 6 × InPathEntry)) (id : Nat) : List InPathEntry :=
  (l.map (·.2)).filter fun e => decide (e.pack = id)

theorem lostOf_cons (p : Fin 6) (e : InPathEntry) (l : List (Fin 6 × InPathEntry)) (id : Nat) :
    lostOf ((p, e) :: l) id = if e.pack = id then e :: lostOf l id else lostOf l id := by
  unfold lostOf
  rw [List.map_cons, List.filter_cons]
  by_cases h : e.pack = id <;> simp [h]

theorem Stock.packs_makeDoubtful (x : Stock) (p : Fin 6) (e : InPathEntry) : (x.makeDoubtful p e none).packs =
    x.packs.map fun k => if k.id = e.pack then k.losing e (decide ((x.drop p e).inPathOf e.pack = 0)) else k := by
  unfold Stock.makeDoubtful Stock.exhaustTest
  rw [Stock.modPack_packs, Stock.modPack_packs, List.map_map]
  refine List.map_congr_left fun k _ => ?_
  by_cases h : k.id = e.pack
  · have id : (k.addRun (doubtRun e none)).id = e.pack := by rw [Pack.addRun_doubt]; exact h
    simp only [Function.comp_apply, if_pos h, if_pos id, Pack.losing, decide_eq_true_eq]
    rfl
  · simp only [Function.comp_apply, if_neg h]

theorem Stock.mem_drop {x : Stock} {p q : Fin 6} {e b : InPathEntry} (h : b ∈ (x.drop p e).inPath[q]) :
    b ∈ x.inPath[q] ∧ (q, b) ≠ (p, e) := by
  unfold Stock.drop Stock.modPath at h
  by_cases hq : q = p
  · subst hq
    rw [updAt_same, withoutBlank, List.mem_filter, decide_eq_true_eq] at h
    refine ⟨h.1, ?_⟩
    rintro ⟨⟩
    exact h.2 ⟨rfl, rfl⟩
  · rw [updAt_other _ _ _ _ hq] at h
    exact ⟨h, fun same => hq (congrArg Prod.fst same)⟩

theorem Stock.inPathOf_eq_zero {x : Stock} {id : Nat} : x.inPathOf id = 0 ↔ ∀ q : Fin 6, ∀ b ∈ x.inPath[q], b.pack ≠ id := by
  unfold Stock.inPathOf
  rw [List.sum_eq_zero_iff]
  simp only [List.mem_map, forall_exists_index, and_imp, forall_apply_eq_imp_iff₂, List.countP_eq_zero, decide_eq_true_eq]
  exact ⟨fun h q => h q (mem_allPrinters q), fun h q _ => h q⟩

/-- Blanks made DOUBTFUL in turn, every blank in path among them: what becomes of the packs and the doubtful list (R15, R26). -/
theorem Stock.makeDoubtful_foldl (l : List (Fin 6 × InPathEntry)) (x : Stock) (all : ∀ q : Fin 6, ∀ b ∈ x.inPath[q], (q, b) ∈ l) :
    let y := l.foldl (fun x b => x.makeDoubtful b.1 b.2 none) x
    y.doubtful = x.doubtful ++ l.map (fun b => doubtfulFrom b.1 b.2) ∧
      y.packs = x.packs.map fun k => k.atStartUp (lostOf l k.id) := by
  induction l generalizing x with
  | nil => exact ⟨(List.append_nil _).symm, (List.map_id' _).symm⟩
  | cons b l ih =>
    obtain ⟨p, e⟩ := b
    have left : ∀ q : Fin 6, ∀ b ∈ (x.drop p e).inPath[q], (q, b) ∈ l := fun q b hb => by
      obtain ⟨old, other⟩ := Stock.mem_drop hb
      exact (List.mem_cons.mp (all q b old)).resolve_left other
    obtain ⟨doubtful, packs⟩ := ih (x.makeDoubtful p e none) left
    refine ⟨doubtful.trans (List.append_assoc _ _ _), packs.trans ?_⟩
    rw [Stock.packs_makeDoubtful, List.map_map]
    refine List.map_congr_left fun k _ => ?_
    rw [Function.comp_apply, lostOf_cons]
    by_cases h : k.id = e.pack
    · rw [if_pos h, if_pos h.symm, Pack.losing_id, Pack.atStartUp_losing]
      intro none
      refine decide_eq_true (Stock.inPathOf_eq_zero.mpr fun q b hb same => ?_)
      have mem : b ∈ lostOf l k.id := List.mem_filter.mpr ⟨List.mem_map.mpr ⟨_, left q b hb, rfl⟩, decide_eq_true (same.trans h.symm)⟩
      rw [none] at mem
      exact absurd mem List.not_mem_nil
    · rw [if_neg h, if_neg (Ne.symm h)]

/-! ### The stock types (R2) -/

theorem State.modStockType_congr (s : State) (k : Fin 8) {f g : StockType → StockType} (h : f (s.stockType k) = g (s.stockType k)) :
    s.modStockType k f = s.modStockType k g := by
  unfold State.stockType at h
  unfold State.modStockType updAt
  rw [h]

@[simp] theorem State.modStockType_id (s : State) (k : Fin 8) : s.modStockType k (fun x => x) = s := by
  have same : updAt s.ret.stockTypes k (fun x => x) = s.ret.stockTypes := Vector.set_getElem_self _
  unfold State.modStockType
  rw [same]
  rfl

/-- A stock type's record after its low-stock check, with a total remaining, while nothing is placed (R2). -/
def StockType.checked (x : StockType) (total : Nat) : StockType :=
  if x.definition.defined && x.definition.numbered then
    if total < x.threshold then if x.lowNotified then x else { x with lowNotified := true, lowPending := true }
    else { x with lowNotified := false }
  else x

theorem State.lowStockCheck_early {s : State} (h : s.notices.started = false) (k : Fin 8) :
    s.lowStockCheck k = s.modStockType k (·.checked (s.totalRemaining k)) := by
  have idle : ∀ f, (s.modStockType k f).arbitrate = s.modStockType k f := fun f => State.arbitrate_unstarted h
  have none : ∀ f : StockType → StockType, f (s.stockType k) = s.stockType k → s = s.modStockType k f := fun f hf => by
    rw [s.modStockType_congr k (g := fun x => x) hf, s.modStockType_id]
  unfold State.lowStockCheck StockType.checked
  simp only [idle]
  split
  next numbered =>
    split
    next low =>
      split
      next notified => exact none _ (by simp [numbered, low, notified])
      next fresh => exact s.modStockType_congr k (by simp [numbered, low, fresh])
    next enough => exact s.modStockType_congr k (by simp [numbered, enough])
  next loose => exact none _ (by simp [loose])

/-- What every type's flags meet before START is placed: a type notified waits, and only a numbered type does. -/
def StockType.calm (x : StockType) : Prop :=
  (x.lowNotified = true → x.lowPending = true) ∧
    (¬ (x.definition.defined = true ∧ x.definition.numbered = true) → x.lowNotified = false ∧ x.lowPending = false)

theorem StockType.checked_settled (x : StockType) (total : Nat) : (x.checked total).settled = x.settled := by
  unfold StockType.checked
  split
  · split
    · split <;> rfl
    · rfl
  · rfl

theorem StockType.calm.checked {x : StockType} (h : x.calm) (total : Nat) : (x.checked total).calm := by
  unfold StockType.checked
  split
  next numbered =>
    rw [Bool.and_eq_true] at numbered
    split
    · split
      · exact h
      · exact ⟨fun _ => rfl, fun loose => absurd numbered loose⟩
    · exact ⟨nofun, fun loose => absurd numbered loose⟩
  · exact h

theorem StockType.checked_notified {x : StockType} (h : x.definition.defined = true ∧ x.definition.numbered = true) (total : Nat) :
    (x.checked total).lowNotified = true ↔ total < x.threshold := by
  unfold StockType.checked
  rw [if_pos (by rw [h.1, h.2]; rfl)]
  split
  next low => split <;> simp_all
  next enough => simp [enough]

/-! ### The state before START is placed -/

/-- Start-up after its second step: no job, every printer as it was cleared, and START not placed (R186). -/
structure State.early (s : State) : Prop where
  pool : s.pool = []
  started : s.notices.started = false
  printer : ∀ p, s.printer p = clearedPrinter

/-- What step 5 can change. -/
def doubted : List Part := [.packs, .doubtful, .inPath, .stockTypes]

/-- What the operations of step 5 leave. -/
structure Doubts (s t : State) : Prop where
  parts : s.keepsBut t doubted
  types : ∀ k, (t.stockType k).settled = (s.stockType k).settled
  calm : ∀ k, (s.stockType k).calm → (t.stockType k).calm

theorem Doubts.refl (s : State) : Doubts s s := ⟨s.keepsBut_refl _, fun _ => rfl, fun _ => id⟩

theorem Doubts.trans {s t u : State} (h : Doubts s t) (k : Doubts t u) : Doubts s u :=
  ⟨h.parts.trans k.parts, fun i => (k.types i).trans (h.types i), fun i => k.calm i ∘ h.calm i⟩

theorem Doubts.early {s t : State} (h : Doubts s t) (early : s.early) : t.early where
  pool := (h.parts .pool (by decide)).trans early.pool
  started := by rw [show t.notices = s.notices from h.parts .notices (by decide)]; exact early.started
  printer p := by
    have same : t.printers = s.printers := h.parts .printers (by decide)
    rw [← early.printer p]
    unfold State.printer
    rw [same]

theorem doubts_of_keeps {s t : State} (h : s.keepsBut t [.packs, .doubtful, .inPath]) : Doubts s t := by
  have same : ∀ k, t.stockType k = s.stockType k := fun k => by
    unfold State.stockType
    rw [show t.ret.stockTypes = s.ret.stockTypes from h .stockTypes (by decide)]
  exact ⟨h.mono (by decide), fun k => by rw [same], fun k => by rw [same]; exact id⟩

section
variable {s : State} (early : s.early)
include early

theorem doubts_lowStockCheck (k : Fin 8) : Doubts s (s.lowStockCheck k) := by
  rw [State.lowStockCheck_early early.started]
  refine ⟨(s.modStockType_keeps k _).mono (by decide), fun i => ?_, fun i calm => ?_⟩
  · rw [State.stockType_modStockType]
    split
    · exact StockType.checked_settled _ _
    · rfl
  · rw [State.stockType_modStockType]
    split
    · exact calm.checked _
    · exact calm

theorem doubts_dropEntry (p : Fin 6) (e : InPathEntry) : Doubts s (s.dropEntry p e) := by
  have idle : ∀ x, (s.setInPath x).syncBusy p = s.setInPath x := fun x => by
    have down : ((s.setInPath x).printer p).state = .poweredDown := congrArg Printer.state (early.printer p)
    unfold State.syncBusy
    rw [down, if_neg (fun h => absurd h.1 (by decide)), if_neg (fun h => absurd h.1 (by decide))]
  unfold State.dropEntry State.modPath
  rw [idle]
  exact doubts_of_keeps ((s.setInPath_keeps _).mono (by decide))

theorem doubts_addException (id : Nat) (e : ExceptionEntry) : Doubts s (s.addException id e) := by
  unfold State.addException
  split
  · exact .refl s
  · have added : Doubts s (s.modPack id (·.addRun e)) := doubts_of_keeps ((s.modPack_keeps id _).mono (by decide))
    simp only
    split
    · exact added
    · exact added.trans (doubts_lowStockCheck (added.early early) _)

theorem doubts_makeDoubtful (p : Fin 6) (e : InPathEntry) : Doubts s (s.makeDoubtful p e) := by
  have dropped := doubts_dropEntry early p e
  have added := dropped.trans (doubts_addException (dropped.early early) e.pack (doubtRun e (s.printer p).openFault))
  have listed := added.trans (doubts_of_keeps ((State.setDoubtful_keeps _
    (((s.dropEntry p e).addException e.pack (doubtRun e (s.printer p).openFault)).ret.doubtful ++ [doubtfulFrom p e])).mono (by decide)))
  have reported := State.reportCopy_none (listed.early early).pool p e.tag (Job.doubted e.copy)
  refine listed.trans ?_
  show Doubts _ ((State.reportCopy _ p e.tag (Job.doubted e.copy)).exhaustTest e.pack)
  exact reported.symm ▸ doubts_of_keeps ((State.modPack_keeps _ e.pack _).mono (by decide))

theorem stock_makeDoubtful_early (p : Fin 6) (e : InPathEntry) : (s.makeDoubtful p e).stock = s.stock.makeDoubtful p e none := by
  rw [stock_makeDoubtful, early.printer]
  rfl

end

/-- Some blanks made DOUBTFUL in turn. -/
theorem doubts_foldl (l : List (Fin 6 × InPathEntry)) {s : State} (early : s.early) :
    let t := l.foldl (fun s b => s.makeDoubtful b.1 b.2) s
    Doubts s t ∧ t.stock = l.foldl (fun x b => x.makeDoubtful b.1 b.2 none) s.stock := by
  induction l generalizing s with
  | nil => exact ⟨.refl s, rfl⟩
  | cons b l ih =>
    have one := doubts_makeDoubtful early b.1 b.2
    obtain ⟨rest, stock⟩ := ih (one.early early)
    refine ⟨one.trans rest, stock.trans ?_⟩
    rw [stock_makeDoubtful_early early]
    rfl

/-- The blanks in path, printer by printer. -/
def State.blanks (s : State) (l : List (Fin 6)) : List (Fin 6 × InPathEntry) := l.flatMap fun p => (s.path p).map (Prod.mk p)

/-- Printer by printer is blank by blank: converting the blanks of one leaves the paths of the others alone. -/
theorem doubtPaths_blanks {l : List (Fin 6)} (nodup : l.Nodup) (s u : State) (same : ∀ p ∈ l, u.path p = s.path p) :
    l.foldl (fun u p => (u.path p).foldl (fun u e => u.makeDoubtful p e) u) u =
      (s.blanks l).foldl (fun u b => u.makeDoubtful b.1 b.2) u := by
  induction nodup generalizing u with
  | nil => rfl
  | @cons p l fresh nodup ih =>
    have blanks : s.blanks (p :: l) = (s.path p).map (Prod.mk p) ++ s.blanks l := rfl
    rw [List.foldl_cons, blanks, List.foldl_append, List.foldl_map, same p List.mem_cons_self]
    refine ih _ fun q hq => ?_
    rw [path_makeDoubtful_foldl, if_neg (fun h => fresh q hq h.symm)]
    exact same q (List.mem_cons_of_mem p hq)

/-- Low-stock checks while nothing is placed (R26). -/
theorem lowStock_foldl_early {l : List (Fin 8)} (nodup : l.Nodup) {s : State} (early : s.early) :
    let t := l.foldl State.lowStockCheck s
    Doubts s t ∧ s.keepsBut t [.stockTypes] ∧
      ∀ k, t.stockType k = if k ∈ l then (s.stockType k).checked (s.totalRemaining k) else s.stockType k := by
  induction nodup generalizing s with
  | nil => exact ⟨.refl s, s.keepsBut_refl _, fun k => by simp⟩
  | @cons i l fresh nodup ih =>
    have one := doubts_lowStockCheck early i
    obtain ⟨rest, parts, types⟩ := ih (one.early early)
    have check := State.lowStockCheck_early early.started i
    have part : s.keepsBut (s.lowStockCheck i) [.stockTypes] := by rw [check]; exact s.modStockType_keeps i _
    refine ⟨one.trans rest, part.trans parts, fun k => (types k).trans ?_⟩
    rw [State.totalRemaining_keeps part (by decide), check, State.stockType_modStockType]
    by_cases hk : k = i
    · subst hk
      rw [if_neg fun h => fresh k h rfl, if_pos rfl, if_pos List.mem_cons_self]
    · by_cases later : k ∈ l
      · rw [if_pos later, if_neg hk, if_pos (List.mem_cons_of_mem i later)]
      · rw [if_neg later, if_neg hk, if_neg fun h => (List.mem_cons.mp h).elim hk later]

theorem State.blanks_all (s : State) : ∀ q : Fin 6, ∀ b ∈ s.stock.inPath[q], (q, b) ∈ s.blanks allPrinters := fun q b hb =>
  List.mem_flatMap.mpr ⟨q, mem_allPrinters q, List.mem_map.mpr ⟨b, hb, rfl⟩⟩

theorem State.lostOf_blanks (s : State) (id : Nat) :
    lostOf (s.blanks allPrinters) id = (allPrinters.flatMap s.path).filter fun e => decide (e.pack = id) := by
  unfold lostOf State.blanks
  rw [List.map_flatMap]
  simp only [List.map_map, Function.comp_def, List.map_id']

/-- Step 5 of start-up (R26, R186). -/
theorem doubtPaths_spec {s : State} (early : s.early) :
    Doubts s s.doubtPaths ∧
      s.doubtPaths.ret.doubtful = s.ret.doubtful ++ allPrinters.flatMap (fun p => (s.path p).map (doubtfulFrom p)) ∧
      s.doubtPaths.ret.packs = s.ret.packs.map (fun k =>
        k.atStartUp ((allPrinters.flatMap s.path).filter fun e => decide (e.pack = k.id))) ∧
      ∀ k, ∃ x : StockType, x.settled = (s.stockType k).settled ∧ s.doubtPaths.stockType k = x.checked (s.doubtPaths.totalRemaining k) := by
  have flat := doubtPaths_blanks allPrinters_nodup s s fun _ _ => rfl
  obtain ⟨doubts, stock⟩ := doubts_foldl (s.blanks allPrinters) early
  obtain ⟨doubtful, packs⟩ := Stock.makeDoubtful_foldl (s.blanks allPrinters) s.stock s.blanks_all
  have whole : s.doubtPaths = allTypes.foldl State.lowStockCheck
    ((s.blanks allPrinters).foldl (fun s b => s.makeDoubtful b.1 b.2) s) := congrArg State.lowStockAll flat
  rw [whole]
  generalize (s.blanks allPrinters).foldl (fun s b => s.makeDoubtful b.1 b.2) s = u at doubts stock
  obtain ⟨checks, parts, types⟩ := lowStock_foldl_early allTypes_nodup (doubts.early early)
  refine ⟨doubts.trans checks, ?_, ?_, fun k => ⟨u.stockType k, doubts.types k, ?_⟩⟩
  · rw [show _ = u.ret.doubtful from parts .doubtful (by decide)]
    refine (congrArg Stock.doubtful stock).trans (doubtful.trans (congrArg (s.ret.doubtful ++ ·) ?_))
    unfold State.blanks
    rw [List.map_flatMap]
    simp only [List.map_map, Function.comp_def]
  · rw [show _ = u.ret.packs from parts .packs (by decide)]
    refine (congrArg Stock.packs stock).trans (packs.trans ?_)
    simp only [State.lostOf_blanks]
    rfl
  · rw [types, if_pos (mem_allTypes k), State.totalRemaining_keeps parts (by decide)]

end Sys2Proof.Machine
end

