-- ==== Sys2Proof/Proofs/StartUp.lean ====
section
/-! O6 and O7: start-up, stage by stage (R186). -/

namespace Sys2Proof.Machine

/-! ### Steps 1 to 4 -/

/-- The state once the settings are loaded and the checksum is verified (R186, steps 1 to 4). -/
def State.awake (s : State) (cause : ResetCause) (straps : Straps) : State :=
  ((s.clearVolatile cause straps).loadAtStart).verifyChecksum

/-- What those steps change. -/
def woken : List Part := [.fitted, .link, .pool, .nextTag, .notices, .printers, .stockTypes, .console, .store, .office, .live, .audit,
  .checksum]

theorem clearVolatile_keeps (s : State) (cause : ResetCause) (straps : Straps) :
    s.keepsBut (s.clearVolatile cause straps) [.fitted, .link, .pool, .nextTag, .notices, .printers, .stockTypes, .console, .store,
      .office] :=
  fun a ha => by cases a <;> first | rfl | exact absurd (by decide) ha

theorem loadAtStart_keeps (s : State) : s.keepsBut s.loadAtStart [.live, .stockTypes, .store] := by
  unfold State.loadAtStart
  exact ((takeImage_keeps s _).mono (by decide)).trans ((State.setStore_keeps _ _).mono (by decide))

theorem verifyChecksum_keeps (s : State) : s.keepsBut s.verifyChecksum [.audit, .checksum] := by
  unfold State.verifyChecksum
  split
  · exact s.keepsBut_refl _
  · exact fun a ha => by cases a <;> first | rfl | exact absurd (by decide) ha

theorem verifyChecksum_audit (s : State) : s.verifyChecksum.ret.checksumMatches = true ∧
    s.verifyChecksum.ret.audit = (if s.ret.checksumMatches then s.ret.audit else .fault) := by
  unfold State.verifyChecksum
  split
  next h => exact ⟨h, rfl⟩
  next h => exact ⟨rfl, rfl⟩

section
variable (s : State) (cause : ResetCause) (straps : Straps)

theorem awake_keeps : s.keepsBut (s.awake cause straps) woken :=
  (((clearVolatile_keeps s cause straps).mono (by decide)).trans ((loadAtStart_keeps _).mono (by decide))).trans
    ((verifyChecksum_keeps _).mono (by decide))

/-- What the last two of those steps keep. -/
theorem awake_rest : (s.clearVolatile cause straps).keepsBut (s.awake cause straps) [.live, .stockTypes, .store, .audit, .checksum] :=
  ((loadAtStart_keeps _).mono (by decide)).trans ((verifyChecksum_keeps _).mono (by decide))

theorem awake_early : (s.awake cause straps).early where
  pool := awake_rest s cause straps .pool (by decide)
  started := by
    rw [show (s.awake cause straps).notices = emptyQueue from awake_rest s cause straps .notices (by decide)]
    rfl
  printer p := by
    have same : (s.awake cause straps).printers = Vector.replicate 6 clearedPrinter := awake_rest s cause straps .printers (by decide)
    unfold State.printer
    rw [same]
    exact Vector.getElem_replicate _

theorem loadAtStart_live : s.loadAtStart.live = (s.takeImage s.flash.firstGood.2).live := State.setStore_live _ _

theorem loadAtStart_stockType (k : Fin 8) : s.loadAtStart.stockType k = (s.takeImage s.flash.firstGood.2).stockType k := by
  unfold State.loadAtStart State.stockType
  rw [State.setStore_ret]

theorem loadAtStart_store : s.loadAtStart.store = { s.store with source := s.flash.firstGood.1 } := State.setStore_store _ _

theorem verifyChecksum_live : s.verifyChecksum.live = s.live := verifyChecksum_keeps s .live (by decide)

theorem verifyChecksum_stockType (k : Fin 8) : s.verifyChecksum.stockType k = s.stockType k := by
  unfold State.stockType
  rw [show s.verifyChecksum.ret.stockTypes = s.ret.stockTypes from verifyChecksum_keeps s .stockTypes (by decide)]

theorem awake_live : (s.awake cause straps).live = ((s.clearVolatile cause straps).takeImage s.flash.firstGood.2).live := by
  unfold State.awake
  rw [verifyChecksum_live, loadAtStart_live]
  rfl

theorem awake_stockType (k : Fin 8) : (s.awake cause straps).stockType k =
    ({ s.stockType k with lowNotified := false, lowPending := false } : StockType).load (s.hasPacks k)
      s.flash.firstGood.2.stockTypes[k] := by
  have cleared : (s.clearVolatile cause straps).stockType k = { s.stockType k with lowNotified := false, lowPending := false } := by
    simp [State.clearVolatile, State.stockType, State.emptyConsole]
  unfold State.awake
  rw [verifyChecksum_stockType, loadAtStart_stockType, takeImage_stockType, cleared]
  rfl

theorem awake_flags (k : Fin 8) : ((s.awake cause straps).stockType k).lowNotified = false ∧
    ((s.awake cause straps).stockType k).lowPending = false := by
  rw [awake_stockType]
  unfold StockType.load
  split <;> simp

theorem awake_layout (k : Fin 8) : (s.awake cause straps).layout k =
    { entries := s.flash.firstGood.2.layouts[k]
      invalid := combinedCheck ((s.awake cause straps).stockType k).definition s.flash.firstGood.2.layouts[k] } := by
  have stored := takeImage_layout (s.clearVolatile cause straps) s.flash.firstGood.2 k
  have fields : (s.clearVolatile cause straps).loadedFields s.flash.firstGood.2.layouts k = s.flash.firstGood.2.layouts[k] := by
    unfold State.loadedFields State.hasLiveJob
    rw [show (s.clearVolatile cause straps).pool = [] from rfl]
    rfl
  have same : (s.awake cause straps).stockType k = ((s.clearVolatile cause straps).takeImage s.flash.firstGood.2).stockType k := by
    unfold State.awake
    rw [verifyChecksum_stockType, loadAtStart_stockType]
    rfl
  rw [fields, ← same] at stored
  unfold State.layout at stored ⊢
  rw [awake_live, stored]

theorem awake_store : (s.awake cause straps).store =
    { running := none, donePending := false, lastResult := none, source := s.flash.firstGood.1 } := by
  unfold State.awake
  rw [show (s.clearVolatile cause straps).loadAtStart.verifyChecksum.store = _ from verifyChecksum_keeps _ .store (by decide),
    loadAtStart_store]
  rfl

theorem awake_audit : (s.awake cause straps).ret.checksumMatches = true ∧
    (s.awake cause straps).ret.audit = (if s.ret.checksumMatches then s.ret.audit else .fault) := by
  have kept : s.keepsBut (s.clearVolatile cause straps).loadAtStart (.live :: woken.diff [.audit, .checksum]) :=
    ((clearVolatile_keeps s cause straps).mono (by decide)).trans ((loadAtStart_keeps (s.clearVolatile cause straps)).mono (by decide))
  have audit : (s.clearVolatile cause straps).loadAtStart.ret.audit = s.ret.audit := kept .audit (by decide)
  have checksum : (s.clearVolatile cause straps).loadAtStart.ret.checksumMatches = s.ret.checksumMatches := kept .checksum (by decide)
  unfold State.awake
  rw [← audit, ← checksum]
  exact verifyChecksum_audit _

end

/-! ### Steps 5 to 8 -/

/-- The state once the records are settled and the printers identified (R186, steps 5 to 8). -/
def State.recovered (s : State) : State := s.doubtPaths.clearStanding.settlePositions.startPrinters

theorem State.startUp_eq (s : State) (cause : ResetCause) (straps : Straps) :
    s.startUp cause straps = (s.awake cause straps).recovered.placeStart := rfl

theorem clearStanding_keeps (s : State) : s.keepsBut s.clearStanding [.faults] := s.setFaults_keeps _

theorem settlePositions_keeps (s : State) : s.keepsBut s.settlePositions [.console, .windows] :=
  fun a ha => by cases a <;> first | rfl | exact absurd (by decide) ha

section
variable {s : State} (early : s.early)
include early

/-- The state before the printers are identified. -/
theorem settled_keeps : s.keepsBut s.doubtPaths.clearStanding.settlePositions (doubted ++ [.faults, .console, .windows]) :=
  (((doubtPaths_spec early).1.parts.mono (by decide)).trans ((clearStanding_keeps _).mono (by decide))).trans
    ((settlePositions_keeps _).mono (by decide))

theorem recovered_identifies : Identifies (fun p => p.val + 1 ≤ s.fitted ∧ (s.live.printerItems[p]).enabled = true)
    s.doubtPaths.clearStanding.settlePositions s.recovered := by
  have keeps := settled_keeps early
  have pool := (keeps .pool (by decide)).trans early.pool
  have live : s.doubtPaths.clearStanding.settlePositions.live = s.live := keeps .live (by decide)
  have fitted : s.doubtPaths.clearStanding.settlePositions.fitted = s.fitted := keeps .fitted (by decide)
  unfold State.recovered
  rw [← live, ← fitted]
  exact identifies_startPrinters pool

theorem recovered_rest : s.doubtPaths.clearStanding.settlePositions.keepsBut s.recovered [.printers] := by
  refine (recovered_identifies early).early ?_
  rw [show _ = s.notices from settled_keeps early .notices (by decide)]
  exact early.started

theorem recovered_keeps : s.keepsBut s.recovered (doubted ++ [.faults, .console, .windows, .printers]) :=
  ((settled_keeps early).mono (by decide)).trans ((recovered_rest early).mono (by decide))

theorem recovered_printer (p : Fin 6) : ∃ r, s.recovered.printer p =
    if p.val + 1 ≤ s.fitted ∧ (s.live.printerItems[p]).enabled = true then clearedPrinter.identifying r
    else { clearedPrinter with statePending := r } := by
  have identified := recovered_identifies early
  have cleared : s.doubtPaths.clearStanding.settlePositions.printer p = clearedPrinter := by
    rw [← early.printer p]
    unfold State.printer
    rw [show _ = s.printers from settled_keeps early .printers (by decide)]
  by_cases h : p.val + 1 ≤ s.fitted ∧ (s.live.printerItems[p]).enabled = true
  · obtain ⟨r, hr⟩ := identified.begun p h
    exact ⟨r, by rw [if_pos h, hr, cleared]⟩
  · obtain ⟨r, hr⟩ := identified.others p h
    exact ⟨r, by rw [if_neg h, hr, cleared]⟩

theorem recovered_records : s.recovered.ret.doubtful = s.doubtPaths.ret.doubtful ∧ s.recovered.ret.packs = s.doubtPaths.ret.packs ∧
    s.recovered.ret.faults = s.doubtPaths.ret.faults.map (fun e =>
      if e.cls = .standing ∧ ¬ e.cleared then e.clear .startUp none else e) ∧
    (∀ w, s.recovered.window w = (s.doubtPaths.window w).settle) ∧
    s.recovered.ret.console = { s.doubtPaths.ret.console with outstanding := 0 } ∧
    ∀ k, s.recovered.stockType k = s.doubtPaths.stockType k := by
  have rest := recovered_rest early
  generalize s.doubtPaths = u at rest ⊢
  have windows : s.recovered.ret.windows = u.ret.windows.map WindowRecord.settle := rest .windows (by decide)
  refine ⟨rest .doubtful (by decide), rest .packs (by decide), rest .faults (by decide), fun w => ?_, rest .console (by decide),
    fun k => ?_⟩
  · unfold State.window
    rw [windows]
    exact Vector.getElem_map _ _
  · unfold State.stockType
    rw [show s.recovered.ret.stockTypes = u.ret.stockTypes from rest .stockTypes (by decide)]

end

/-! ### Step 9 -/

/-- START placed and the arbiter let loose, before it has acted (R173). -/
def State.opened (s : State) : State :=
  (s.pushNotice (.start s.office.resetCause s.ret.audit s.store.source)).setNotices
    { (s.pushNotice (.start s.office.resetCause s.ret.audit s.store.source)).notices with started := true }

theorem State.opened_keeps (s : State) : s.keepsBut s.opened [.notices] :=
  (s.setNotices_keeps _).trans (State.setNotices_keeps _ _)

theorem places_placeStart (s : State) : Places s.opened s.placeStart := places_arbitrate _

/-! ### Start-up as a whole -/

/-- What steps 5 to 9 can change of what step 4 leaves. -/
def restored : List Part := [.packs, .doubtful, .inPath, .stockTypes, .faults, .console, .windows, .printers, .history, .pool,
  .notices, .store]

section
variable (s : State) (cause : ResetCause) (straps : Straps)

theorem startUp_opened : (s.awake cause straps).keepsBut ((s.awake cause straps).recovered.opened)
    (doubted ++ [.faults, .console, .windows, .printers, .notices]) :=
  ((recovered_keeps (awake_early s cause straps)).mono (by decide)).trans ((State.opened_keeps _).mono (by decide))

theorem startUp_keeps : (s.awake cause straps).keepsBut (s.startUp cause straps) restored :=
  ((startUp_opened s cause straps).mono (by decide)).trans ((places_placeStart _).parts.mono (by decide))

theorem startUp_whole : s.keepsBut (s.startUp cause straps) (woken ++ restored) :=
  ((awake_keeps s cause straps).mono (by decide)).trans ((startUp_keeps s cause straps).mono (by decide))

theorem opened_pool : (s.awake cause straps).recovered.opened.pool = [] :=
  (startUp_opened s cause straps .pool (by decide)).trans (awake_early s cause straps).pool

theorem startUp_pool : (s.startUp cause straps).pool = [] :=
  (places_placeStart _).toServes.pool (opened_pool s cause straps)

theorem startUp_store : (s.startUp cause straps).store =
    { running := none, donePending := false, lastResult := none, source := s.flash.firstGood.1 } := by
  have places := places_placeStart (s.awake cause straps).recovered
  have store : (s.awake cause straps).recovered.opened.store = _ :=
    (startUp_opened s cause straps .store (by decide)).trans (awake_store s cause straps)
  have served := places.store
  have done := places.done
  rw [← State.startUp_eq, store] at served done
  rw [served]
  cases pending : (s.startUp cause straps).store.donePending with
  | false => rfl
  | true => exact absurd (done pending) Bool.false_ne_true

theorem startUp_notices : (s.startUp cause straps).notices.queue.head? =
      some (.start cause (s.startUp cause straps).ret.audit (s.startUp cause straps).store.source) ∧
    (s.startUp cause straps).notices.attention = true ∧ (s.startUp cause straps).notices.lastFetched = none := by
  have places := places_placeStart (s.awake cause straps).recovered
  have kept := recovered_keeps (awake_early s cause straps)
  have notices : (s.awake cause straps).recovered.notices = emptyQueue :=
    (kept .notices (by decide)).trans (awake_rest s cause straps .notices (by decide))
  have audit : (s.startUp cause straps).ret.audit = (s.awake cause straps).recovered.ret.audit :=
    (startUp_keeps s cause straps .audit (by decide)).trans (kept .audit (by decide)).symm
  have office : (s.awake cause straps).recovered.office.resetCause = cause :=
    congrArg Office.resetCause ((kept .office (by decide)).trans (awake_rest s cause straps .office (by decide)))
  have source : (s.startUp cause straps).store.source = (s.awake cause straps).recovered.store.source := by
    rw [startUp_store, show _ = (s.awake cause straps).store from kept .store (by decide), awake_store]
  have queue := places.queue
  have attention := places.attention
  have rest := places.notices
  rw [← State.startUp_eq] at queue attention rest
  rw [audit, source]
  generalize (s.awake cause straps).recovered = u at *
  have first : u.opened.notices.queue = [.start cause u.ret.audit u.store.source] := by
    rw [← office]
    show u.notices.queue ++ _ = _
    rw [notices]
    rfl
  refine ⟨?_, attention rfl, ?_⟩
  · obtain ⟨more, whole⟩ := queue
    rw [← whole, first]
    rfl
  · rw [rest]
    show u.notices.lastFetched = none
    rw [notices]
    rfl

theorem startUp_packs : (s.startUp cause straps).ret.packs = (s.awake cause straps).doubtPaths.ret.packs := by
  have records := recovered_records (awake_early s cause straps)
  have opened := State.opened_keeps (s.awake cause straps).recovered
  have placed := (places_placeStart (s.awake cause straps).recovered).parts
  rw [← State.startUp_eq] at placed
  exact ((placed .packs (by decide)).trans (opened .packs (by decide))).trans records.2.1

/-- A stock type's record after start-up: checked against the total remaining, its STOCK-LOW waiting or placed (R2, R26). -/
theorem startUp_stockType (k : Fin 8) : ∃ x pending, StockType.settled x = ((s.awake cause straps).stockType k).settled ∧
    (x.checked ((s.startUp cause straps).totalRemaining k)).calm ∧
    (s.startUp cause straps).stockType k =
      { x.checked ((s.startUp cause straps).totalRemaining k) with lowPending := pending } ∧
    (pending = true → (x.checked ((s.startUp cause straps).totalRemaining k)).lowPending = true) ∧
    ((x.checked ((s.startUp cause straps).totalRemaining k)).lowPending = true →
      pending = true ∨ Notice.stockLow k ((s.startUp cause straps).totalRemaining k) ∈ (s.startUp cause straps).notices.queue) := by
  have early := awake_early s cause straps
  obtain ⟨doubts, -, -, types⟩ := doubtPaths_spec early
  obtain ⟨x, same, checked⟩ := types k
  have total : (s.awake cause straps).doubtPaths.totalRemaining k = (s.startUp cause straps).totalRemaining k := by
    unfold State.totalRemaining
    rw [startUp_packs]
  have calm : ((s.awake cause straps).doubtPaths.stockType k).calm := doubts.calm k (by
    obtain ⟨notified, pending⟩ := awake_flags s cause straps k
    exact ⟨fun h => absurd (notified.symm.trans h) Bool.false_ne_true, fun _ => ⟨notified, pending⟩⟩)
  have opened : (s.awake cause straps).recovered.opened.stockType k = (s.awake cause straps).doubtPaths.stockType k := by
    rw [← (recovered_records early).2.2.2.2.2 k]
    unfold State.stockType
    rw [show _ = (s.awake cause straps).recovered.ret.stockTypes from State.opened_keeps _ .stockTypes (by decide)]
  obtain ⟨record, back, waits⟩ := (places_placeStart (s.awake cause straps).recovered).stock k
  have totals := State.totalRemaining_keeps (places_placeStart (s.awake cause straps).recovered).parts (by decide) k
  rw [← State.startUp_eq] at record back waits totals
  rw [← totals] at waits
  rw [opened, checked, total] at record back waits
  rw [checked, total] at calm
  exact ⟨x, _, same, calm, record, back, waits⟩

theorem startUp_definition (k : Fin 8) :
    ((s.startUp cause straps).stockType k).definition = ((s.awake cause straps).stockType k).definition ∧
      ((s.startUp cause straps).stockType k).threshold = ((s.awake cause straps).stockType k).threshold := by
  obtain ⟨x, pending, same, -, record, -, -⟩ := startUp_stockType s cause straps k
  have checked := StockType.of_settled ((x.checked_settled ((s.startUp cause straps).totalRemaining k)).trans same)
  generalize (s.startUp cause straps).stockType k = z at record ⊢
  generalize (s.startUp cause straps).totalRemaining k = n at record checked
  generalize (s.awake cause straps).stockType k = y at checked ⊢
  rw [record, checked]
  exact ⟨rfl, rfl⟩

theorem Pack.atStartUp_stockType (k : Pack) (lost : List InPathEntry) : (k.atStartUp lost).stockType = k.stockType := by
  unfold Pack.atStartUp
  simp only
  split
  · rfl
  · split
    · rfl
    · split <;> rfl

/-- Start-up keeps every pack's stock type. -/
theorem startUp_hasPacks (k : Fin 8) : (∃ x ∈ (s.startUp cause straps).ret.packs, x.stockType = k) ↔
    ∃ x ∈ s.ret.packs, x.stockType = k := by
  have packs := (doubtPaths_spec (awake_early s cause straps)).2.2.1
  rw [startUp_packs, packs, show (s.awake cause straps).ret.packs = s.ret.packs from awake_keeps s cause straps .packs (by decide)]
  constructor
  · rintro ⟨x, hx, rfl⟩
    obtain ⟨y, hy, rfl⟩ := List.mem_map.mp hx
    exact ⟨y, hy, (Pack.atStartUp_stockType _ _).symm⟩
  · rintro ⟨y, hy, rfl⟩
    exact ⟨_, List.mem_map.mpr ⟨y, hy, rfl⟩, Pack.atStartUp_stockType _ _⟩

end

/-- The first good area, and its contents (R186, step 3). -/
theorem Flash.firstGood_eq (f : Flash) :
    let source : Area := if f.user1.isSome then .user1 else if f.user2.isSome then .user2 else .factory
    f.firstGood = (source, (f.read source).getD factoryImage) := by
  unfold Flash.firstGood
  cases one : f.user1 with
  | some m => simp [Flash.read, one]
  | none =>
    cases two : f.user2 with
    | some m => simp [Flash.read, two]
    | none => cases three : f.factory <;> simp [Flash.read, three]

/-- What any start-up leaves of everything but the records (R173, R186). -/
theorem startUp_afresh (s : State) (cause : ResetCause) (straps : Straps) :
    (s.startUp cause straps).pool = [] ∧ (s.startUp cause straps).nextTag = 1 ∧
      (s.startUp cause straps).office = { mode := .setup, date := none, clock := none, resetCause := cause } ∧
      (s.startUp cause straps).link = { receiver := .hunting, unit := straps.unit, rate := straps.rate, reply := none,
                                         leaving := false, rateNext := none, restartNext := false } ∧
      (s.startUp cause straps).fitted = (if straps.fitted.val = 0 ∨ straps.fitted.val = 7 then 6 else straps.fitted.val) ∧
      (s.startUp cause straps).live = (s.awake cause straps).live ∧ (s.startUp cause straps).flash = s.flash ∧
      (s.startUp cause straps).ret.checksumMatches = true ∧
      (s.startUp cause straps).ret.audit = (if s.ret.checksumMatches then s.ret.audit else .fault) := by
  have keeps := startUp_keeps s cause straps
  have rest := awake_rest s cause straps
  obtain ⟨checksum, audit⟩ := awake_audit s cause straps
  exact ⟨startUp_pool s cause straps, (keeps .nextTag (by decide)).trans (rest .nextTag (by decide)),
    (keeps .office (by decide)).trans (rest .office (by decide)), (keeps .link (by decide)).trans (rest .link (by decide)),
    (keeps .fitted (by decide)).trans (rest .fitted (by decide)), keeps .live (by decide),
    startUp_whole s cause straps .flash (by decide), (keeps .checksum (by decide)).trans checksum,
    (keeps .audit (by decide)).trans audit⟩

/-- The live settings after start-up (R1, R81, R186). -/
theorem startUp_settings (s : State) (cause : ResetCause) (straps : Straps) (k : Fin 8) :
    ((s.startUp cause straps).stockType k).threshold = s.flash.firstGood.2.stockTypes[k].2 ∧
      ((∀ x ∈ (s.startUp cause straps).ret.packs, x.stockType ≠ k) →
        ((s.startUp cause straps).stockType k).definition = s.flash.firstGood.2.stockTypes[k].1) ∧
      ((∃ x ∈ s.ret.packs, x.stockType = k) → ((s.startUp cause straps).stockType k).definition = (s.stockType k).definition) ∧
      (s.startUp cause straps).layout k =
        { entries := s.flash.firstGood.2.layouts[k]
          invalid := combinedCheck ((s.startUp cause straps).stockType k).definition s.flash.firstGood.2.layouts[k] } := by
  obtain ⟨definition, threshold⟩ := startUp_definition s cause straps k
  have live : (s.startUp cause straps).live = (s.awake cause straps).live := startUp_keeps s cause straps .live (by decide)
  have here : s.hasPacks k = true ↔ ∃ x ∈ (s.startUp cause straps).ret.packs, x.stockType = k := by
    rw [startUp_hasPacks]
    simp [State.hasPacks]
  have loaded := awake_stockType s cause straps k
  refine ⟨?_, fun none => ?_, fun some => ?_, ?_⟩
  · rw [threshold, loaded]
    unfold StockType.load
    split <;> rfl
  · have empty : ¬ s.hasPacks k = true := fun h => by
      obtain ⟨x, hx, same⟩ := here.mp h
      exact none x hx same
    rw [definition, loaded, StockType.load, if_neg empty]
  · rw [definition, loaded, StockType.load, if_pos (here.mpr ((startUp_hasPacks s cause straps k).mpr some))]
  · rw [definition, ← awake_layout]
    unfold State.layout
    rw [live]

end Sys2Proof.Machine

open Sys2Proof Sys2Proof.Machine

end

