-- ==== Sys2Proof/Proofs/StartUpRecords.lean ====
section
/-! O6 and O7: what start-up leaves of the settings and the records. -/

namespace Sys2Proof.Machine

section
variable (s : State) (cause : ResetCause) (straps : Straps)

theorem awake_path : (s.awake cause straps).path = s.path := by
  funext p
  unfold State.path
  rw [show (s.awake cause straps).ret.inPath = s.ret.inPath from awake_keeps s cause straps .inPath (by decide)]

theorem startUp_doubtful : (s.startUp cause straps).ret.doubtful =
    s.ret.doubtful ++ allPrinters.flatMap (fun p => (s.path p).map (doubtfulFrom p)) := by
  have early := awake_early s cause straps
  have spec := (doubtPaths_spec early).2.1
  have records := (recovered_records early).1
  have opened : (s.awake cause straps).recovered.opened.ret.doubtful = _ := State.opened_keeps (s.awake cause straps).recovered .doubtful (by decide)
  have placed := (places_placeStart (s.awake cause straps).recovered).parts
  rw [← State.startUp_eq] at placed
  have after : (s.startUp cause straps).ret.doubtful = _ := placed .doubtful (by decide)
  have awake := awake_keeps s cause straps
  rw [show (s.awake cause straps).ret.doubtful = s.ret.doubtful from awake .doubtful (by decide), awake_path] at spec
  rw [after, opened, records, spec]

theorem startUp_packs_settled : (s.startUp cause straps).ret.packs = s.ret.packs.map (fun k =>
    k.atStartUp ((allPrinters.flatMap s.path).filter fun e => decide (e.pack = k.id))) := by
  have awake := awake_keeps s cause straps
  have spec := (doubtPaths_spec (awake_early s cause straps)).2.2.1
  rw [show (s.awake cause straps).ret.packs = s.ret.packs from awake .packs (by decide), awake_path] at spec
  exact (startUp_packs s cause straps).trans spec

theorem startUp_faults : (s.startUp cause straps).ret.faults.map (·.settled) = s.ret.faults.map (fun e =>
    (if e.cls = .standing ∧ e.cleared = false then
      { e with cleared := true, cause := some .startUp, clearedAt := none } else e).settled) := by
  have early := awake_early s cause straps
  have placed := (places_placeStart (s.awake cause straps).recovered).faults
  have opened : (s.awake cause straps).recovered.opened.ret.faults = _ := State.opened_keeps (s.awake cause straps).recovered .faults (by decide)
  have records := (recovered_records early).2.2.1
  have kept : (s.awake cause straps).doubtPaths.ret.faults = s.ret.faults :=
    ((doubtPaths_spec early).1.parts .faults (by decide)).trans (awake_keeps s cause straps .faults (by decide))
  rw [← State.startUp_eq, opened, records, kept, List.map_map] at placed
  rw [placed]
  refine List.map_congr_left fun e _ => ?_
  simp only [Function.comp_apply, Bool.not_eq_true]
  split <;> rfl

theorem startUp_window (w : Fin 15) : ∃ ready, (s.startUp cause straps).window w = { (s.window w).settle with countReady := ready } ∧
    ((s.window w).settle.countReady = true → ready = true ∨
      Notice.countReady w (s.window w).settle.shift (s.window w).settle.state ∈ (s.startUp cause straps).notices.queue) := by
  have early := awake_early s cause straps
  have placed := (places_placeStart (s.awake cause straps).recovered).window (opened_pool s cause straps) w
  have opened : (s.awake cause straps).recovered.opened.ret.windows = _ := State.opened_keeps (s.awake cause straps).recovered .windows (by decide)
  have records := (recovered_records early).2.2.2.1 w
  have kept : (s.awake cause straps).doubtPaths.ret.windows = s.ret.windows :=
    ((doubtPaths_spec early).1.parts .windows (by decide)).trans (awake_keeps s cause straps .windows (by decide))
  have before : (s.awake cause straps).recovered.opened.window w = (s.window w).settle := by
    have same : (s.awake cause straps).recovered.opened.window w = (s.awake cause straps).recovered.window w := by
      unfold State.window
      rw [opened]
    have same' : (s.awake cause straps).doubtPaths.window w = s.window w := by
      unfold State.window
      rw [kept]
    rw [same, records, same']
  rw [← State.startUp_eq, before] at placed
  exact ⟨_, placed⟩

theorem startUp_console : (s.startUp cause straps).ret.console =
    { s.ret.console with outstanding := 0, tallies := zeroTallies, recent := [] } := by
  have early := awake_early s cause straps
  have placed := (places_placeStart (s.awake cause straps).recovered).outstanding (opened_pool s cause straps)
  have opened : (s.awake cause straps).recovered.opened.ret.console = _ := State.opened_keeps (s.awake cause straps).recovered .console (by decide)
  have records := (recovered_records early).2.2.2.2.1
  have kept : (s.awake cause straps).doubtPaths.ret.console = { s.ret.console with tallies := zeroTallies, recent := [] } :=
    ((doubtPaths_spec early).1.parts .console (by decide)).trans (awake_rest s cause straps .console (by decide))
  rw [← State.startUp_eq, opened, records, kept] at placed
  exact placed

theorem startUp_history : (s.startUp cause straps).ret.history.map (·.settled) = s.ret.history.map (·.settled) := by
  have placed := (places_placeStart (s.awake cause straps).recovered).history
  have opened : (s.awake cause straps).recovered.opened.ret.history = (s.awake cause straps).ret.history :=
    startUp_opened s cause straps .history (by decide)
  rw [← State.startUp_eq, opened, show _ = s.ret.history from awake_keeps s cause straps .history (by decide)] at placed
  exact placed

theorem startUp_printer (p : Fin 6) : ∃ r, (s.startUp cause straps).printer p =
    if p.val + 1 ≤ (s.startUp cause straps).fitted ∧ ((s.startUp cause straps).live.printerItems[p]).enabled = true
    then clearedPrinter.identifying r else { clearedPrinter with statePending := r } := by
  have early := awake_early s cause straps
  have keeps := startUp_keeps s cause straps
  have placed := (places_placeStart (s.awake cause straps).recovered).printer p
  have opened : (s.awake cause straps).recovered.opened.printer p = (s.awake cause straps).recovered.printer p := by
    unfold State.printer
    rw [show _ = (s.awake cause straps).recovered.printers from State.opened_keeps _ .printers (by decide)]
  obtain ⟨r, hr⟩ := recovered_printer early p
  rw [← State.startUp_eq, opened, hr] at placed
  rw [show (s.startUp cause straps).live = _ from keeps .live (by decide),
    show (s.startUp cause straps).fitted = _ from keeps .fitted (by decide)]
  generalize (s.startUp cause straps).printer p = x at placed
  refine ⟨x.statePending, placed.trans ?_⟩
  split <;> rfl

end

theorem WindowRecord.settle_settled (r : WindowRecord) (ready : Bool) : WindowRecord.settled { r.settle with countReady := ready } =
    { r.settled with outstanding := 0, state := if r.state = .closing then .counting else r.state } := by
  unfold WindowRecord.settle WindowRecord.enterCounting WindowRecord.settled
  cases r with
  | mk state => cases state <;> rfl

theorem WindowRecord.settle_counting (r : WindowRecord) (h : r.settle.state = .counting) : r.settle.countReady = true := by
  unfold WindowRecord.settle at h ⊢
  simp only at h ⊢
  split
  · rfl
  next out =>
    rw [if_neg out] at h
    exact absurd (.inr h) out

end Sys2Proof.Machine

open Sys2Proof Sys2Proof.Machine

/-- Settles O6: the four resets are start-ups, one of them with lost records, and start-up is read off stage by stage. -/
theorem resetsStartAfresh : Obligations.ResetsStartAfresh := by
  intro s straps c cause held which source m
  have start : ∃ u : State, exec c s = .next (u.startUp cause straps) ∧ u.flash = s.flash ∧
      (if u.ret.checksumMatches then u.ret.audit else .fault) = (if held && s.ret.checksumMatches then s.ret.audit else .fault) ∧
      (held = true → u = s) := by
    simp only [List.mem_cons, Prod.mk.injEq, List.not_mem_nil, or_false] at which
    rcases which with ⟨rfl, rfl, rfl⟩ | ⟨rfl, rfl, rfl⟩ | ⟨rfl, rfl, rfl⟩ | ⟨rfl, rfl, rfl⟩
    · exact ⟨s, rfl, rfl, rfl, fun _ => rfl⟩
    · exact ⟨s.loseRetained, rfl, rfl, rfl, nofun⟩
    · exact ⟨s, rfl, rfl, rfl, fun _ => rfl⟩
    · exact ⟨s, rfl, rfl, rfl, fun _ => rfl⟩
  obtain ⟨u, next, flash, audit, same⟩ := start
  obtain ⟨pool, tag, office, link, fitted, live, flash', checksum, audit'⟩ := startUp_afresh u cause straps
  have items := takeImage_live (u.clearVolatile cause straps) u.flash.firstGood.2
  rw [← awake_live, ← live] at items
  have good : u.flash.firstGood = (source, m) := by rw [flash]; exact s.flash.firstGood_eq
  have store := startUp_store u cause straps
  obtain ⟨head, attention, fetched⟩ := startUp_notices u cause straps
  have settings := startUp_settings u cause straps
  rw [good] at items store settings
  generalize u.startUp cause straps = t at *
  refine ⟨t, next, pool, tag, office, link, fitted, store, ?_, ?_, ?_, ?_, fun k => ?_, flash'.trans flash, head, attention, fetched,
    checksum, audit'.trans audit⟩
  · rw [items]
  · rw [items]
  · rw [items]
  · rw [items]
  · obtain ⟨threshold, fresh, stays, layout⟩ := settings k
    refine ⟨threshold, fresh, fun kept => ?_, layout⟩
    rw [← same kept]
    exact stays

/-- Settles O7: what start-up leaves of each of the records. -/
theorem startUpSettlesTheRecords : Obligations.StartUpSettlesTheRecords := by
  intro s straps c which
  have start : ∃ cause, exec c s = .next (s.startUp cause straps) := by
    simp only [List.mem_cons, List.not_mem_nil, or_false] at which
    rcases which with rfl | rfl | rfl
    · exact ⟨_, rfl⟩
    · exact ⟨_, rfl⟩
    · exact ⟨_, rfl⟩
  obtain ⟨cause, next⟩ := start
  have whole := startUp_whole s cause straps
  have window := startUp_window s cause straps
  have stock := startUp_stockType s cause straps
  have printer := startUp_printer s cause straps
  refine ⟨_, next, startUp_doubtful s cause straps, path_startUp s cause straps, startUp_packs_settled s cause straps,
    startUp_faults s cause straps, whole .nextFault (by decide), fun w => ?_, fun w counting => ?_, fun k => ?_,
    whole .nextShift (by decide), startUp_history s cause straps, startUp_console s cause straps, fun p => ?_⟩
  · obtain ⟨ready, after, -⟩ := window w
    rw [after]
    exact (s.window w).settle_settled ready
  · obtain ⟨ready, after, waits⟩ := window w
    rw [after] at counting ⊢
    have ready' := (s.window w).settle_counting
    generalize (s.window w).settle = r at *
    have placed := waits (ready' counting)
    rwa [show r.state = .counting from counting] at placed
  · generalize s.startUp cause straps = t at stock ⊢
    obtain ⟨x, pending, same, ⟨calm, loose⟩, after, back, waits⟩ := stock k
    have kept := StockType.of_settled (x.checked_settled (t.totalRemaining k))
    have definition : (x.checked (t.totalRemaining k)).definition = x.definition := by rw [kept]
    have threshold : (x.checked (t.totalRemaining k)).threshold = x.threshold := by rw [kept]
    rw [after]
    split
    next numbered =>
      refine ⟨?_, fun low => waits (calm low)⟩
      rw [threshold]
      rw [definition] at numbered
      exact StockType.checked_notified numbered _
    next unnumbered =>
      obtain ⟨quiet, still⟩ := loose unnumbered
      exact ⟨quiet, by simpa [still] using back⟩
  · obtain ⟨r, after⟩ := printer p
    rw [after]
    split
    · exact ⟨rfl, rfl, rfl, rfl, rfl, rfl, rfl, rfl, rfl, rfl⟩
    · exact ⟨rfl, rfl, rfl, rfl, rfl, rfl, rfl, rfl, rfl, rfl⟩
end

