-- ==== Sys2Proof/Proofs/PortChoice.lean ====
section
/-! O50: what a port sends when it chooses, and when its interval runs out (R30, R37 to R39, R44, R46). -/

namespace Sys2Proof.Machine

theorem saturating_eq_min (limit n : Nat) : saturating limit n = min limit n := by
  unfold saturating
  split <;> omega

theorem othersKept_updAt {α : Type} {n : Nat} (v : Vector α n) (i : Fin n) (f : α → α) : othersKept v (updAt v i f) i :=
  fun j hj => updAt_other v i j f hj

theorem othersKept_refl {α : Type} {n : Nat} (v : Vector α n) (i : Fin n) : othersKept v v i := fun _ _ => rfl

theorem othersKept.trans {α : Type} {n : Nat} {u v w : Vector α n} {i : Fin n} (h : othersKept u v i) (k : othersKept v w i) :
    othersKept u w i := fun j hj => (k j hj).trans (h j hj)

/-! ### Sending (R30) -/

/-- A printer's record once a command without a body is outstanding (R30). -/
def Printer.sending (y : Printer) (n : Byte) (since : Nat) (kind : CommandKind) : Printer :=
  { y with
    nextCommand := n + 1#8
    outstanding := some (n, kind)
    sentSince := min 256 (since + 1)
    sent := some { number := n, kind := kind, body := none } }

section
variable (s : State) (p : Fin 6)

theorem State.send_spec (kind : CommandKind) : (s.send p kind none).printer p =
      (s.printer p).sending (s.printer p).nextCommand (s.printer p).sentSince kind ∧
    othersKept s.printers (s.send p kind none).printers p ∧ s.keepsBut (s.send p kind none) [.printers] := by
  refine ⟨?_, othersKept_updAt _ _ _, s.modPrinter_keeps p _⟩
  unfold State.send Printer.sending
  rw [State.modPrinter_same, saturating_eq_min]

theorem State.sendIdent_spec : (s.sendIdent p).printer p =
      ({ s.printer p with
        identTries := if (s.printer p).state = .starting then min 10 ((s.printer p).identTries + 1) else (s.printer p).identTries } :
          Printer).sending (s.printer p).nextCommand (s.printer p).sentSince .ident ∧
    othersKept s.printers (s.sendIdent p).printers p ∧ s.keepsBut (s.sendIdent p) [.printers] := by
  obtain ⟨record, others, keeps⟩ := State.send_spec (s.modPrinter p fun x => { x with
    identTries := if x.state = .starting then saturating 10 (x.identTries + 1) else x.identTries }) p .ident
  refine ⟨record.trans ?_, (othersKept_updAt _ _ _).trans others, (s.modPrinter_keeps p _).trans keeps⟩
  rw [State.modPrinter_same, saturating_eq_min]

end

/-! ### When no PRINT goes (R7, R38) -/

section
variable {s : State} {p : Fin 6}

theorem State.headCopy_some {j : Job} {c : Nat} (h : s.headCopy p = some (j, c)) : ∃ tag rest,
    (s.printer p).queue = tag :: rest ∧ s.job? tag = some j ∧ j.stop = none ∧ j.nextCopy = some c := by
  unfold State.headCopy at h
  split at h
  · cases h
  next tag rest queue =>
    split at h
    · cases h
    next k found =>
      split at h
      · cases h
      next running =>
        obtain ⟨c', next, same⟩ := Option.map_eq_some_iff.mp h
        cases same
        exact ⟨tag, rest, queue, found, Option.not_isSome_iff_eq_none.mp running, next⟩

/-- What a dispatch met (R38). -/
theorem State.dispatch_some {t : State} (h : s.dispatch p = some t) : s.mayPrint p = true ∧ ∃ j copy s' e side,
    s.headCopy p = some (j, copy) ∧ s.qualifies p j.stockType = true ∧
      s.take p j.stockType (s.intendedEntry p j copy) = some (s', e, side) ∧
      t = (s'.send p .print (some (s'.compose j copy e.serial side))).modJob j.tag (Job.dispatched copy) := by
  unfold State.dispatch at h
  split at h
  next may =>
    refine ⟨may, ?_⟩
    split at h
    · cases h
    next j copy head =>
      split at h
      next fits =>
        split at h
        · cases h
        next s' e side taken => exact ⟨j, copy, s', e, side, head, fits, taken, (Option.some.inj h).symm⟩
      · cases h
  · cases h

/-- What a take met (R7). -/
theorem State.take_some {i : Fin 8} {e e' : InPathEntry} {s' : State} {side : Bin} (h : s.take p i e = some (s', e', side)) :
    (s.path p).length < 2 ∧ s.hasDoubt p = false ∧ ∃ k, s.takeBin p i = some (k, side) ∧ e' = { e with pack := k.id, serial := k.next.getD 0 } ∧
      s' = ((s.modPack k.id Pack.takeOne).modPath p (· ++ [e'])).lowStockCheck i := by
  unfold State.take at h
  split at h
  · cases h
  next free =>
    rw [not_or, Bool.not_eq_true] at free
    refine ⟨Nat.lt_of_not_le free.1, free.2, ?_⟩
    split at h
    · cases h
    next k side' found =>
      cases h
      exact ⟨k, found, rfl, rfl⟩

/-- No dispatch where a condition of R38 fails. -/
theorem State.dispatch_blocked (blocked : (s.printer p).disablePending = true ∨ (s.printer p).lastAcceptance ≠ some .taken ∨
      (s.printer p).lastCondition ≠ some .ready ∨ 1 < (s.path p).length ∨ (s.printer p).timeoutCount ≠ 0 ∨
      (∃ d ∈ s.ret.doubtful, d.printer = p) ∨
      ∀ tag rest j, (s.printer p).queue = tag :: rest → s.job? tag = some j →
        j.stop.isSome = true ∨ .undispatched ∉ j.copyStates ∨ s.qualifies p j.stockType = false ∨
          ∀ side k, s.binPack? p side = some k → ¬ (k.stockType = j.stockType ∧ k.condition = .usable ∧ 0 < k.remaining)) :
    s.dispatch p = none := by
  cases sent : s.dispatch p with
  | none => rfl
  | some t =>
    exfalso
    obtain ⟨may, j, copy, s', e, side, head, fits, taken, -⟩ := State.dispatch_some sent
    obtain ⟨-, certain, k, found, -, -⟩ := State.take_some taken
    obtain ⟨bin, type, usable, left⟩ := takeBin_spec found
    obtain ⟨tag, rest, queue, job, running, next⟩ := State.headCopy_some head
    unfold State.mayPrint at may
    rw [Bool.and_eq_true, decide_eq_true_eq, Bool.not_eq_true'] at may
    obtain ⟨⟨-, acceptance, condition, room, onTime⟩, enabled⟩ := may
    rcases blocked with h | h | h | h | h | ⟨d, hd, here⟩ | h
    · rw [enabled] at h; cases h
    · exact h acceptance
    · exact h condition
    · omega
    · exact h onTime
    · unfold State.hasDoubt at certain
      exact List.any_eq_false.mp certain d hd (decide_eq_true here)
    · rcases h tag rest j queue job with stopped | whole | unfit | empty
      · rw [running] at stopped; cases stopped
      · obtain ⟨i, first, -⟩ := Option.map_eq_some_iff.mp next
        obtain ⟨inside, undispatched, -⟩ := List.findIdx?_eq_some_iff_getElem.mp first
        exact whole ((of_decide_eq_true undispatched) ▸ List.getElem_mem inside)
      · rw [unfit] at fits; cases fits
      · exact empty side k bin ⟨type, usable, left⟩

/-! ### The choice (R37) -/

theorem State.choose_sends {kind : CommandKind} (free : (s.printer p).outstanding = none)
    (clears : kind = .clear → (s.printer p).state = .faulted ∧ s.path p = [] ∧ (s.printer p).confirmPending = true ∧
      (s.printer p).timeoutCount = 0)
    (polls : kind = .poll → (s.printer p).state = .faulted ∧ ¬ (s.path p = [] ∧ (s.printer p).confirmPending = true ∧
        (s.printer p).timeoutCount = 0) ∨ (s.printer p).state = .heatHold ∨
      ((s.printer p).state = .ready ∨ (s.printer p).state = .busy) ∧ s.dispatch p = none)
    (either : kind = .clear ∨ kind = .poll) : s.choose .interval p = s.send p kind none := by
  have waits : s.pollOrWait p .interval = s.send p .poll none := if_pos (.inr rfl)
  unfold State.choose
  simp only
  rw [if_neg (by rw [free]; exact Bool.false_ne_true)]
  rcases either with rfl | rfl
  · obtain ⟨state, confirms⟩ := clears rfl
    rw [state]
    exact if_pos confirms
  · rcases polls rfl with ⟨state, refuses⟩ | state | ⟨state | state, none⟩
    · rw [state]
      exact (if_neg refuses).trans waits
    · rw [state]
      exact waits
    · rw [state]
      simp only [none]
      exact waits
    · rw [state]
      simp only [none]
      exact waits

end

end Sys2Proof.Machine

open Sys2Proof Sys2Proof.Machine

/-- Settles O50: the port's choice at the interval, by the printer's state. -/
theorem intervalsPollClearAndIdentify : Obligations.IntervalsPollClearAndIdentify := by
  intro s p x sends confirms blocked
  have sent : ∀ kind, s.choose .interval p = s.send p kind none → sends (.pollInterval p) kind x := fun kind h =>
    ⟨_, congrArg Host.Outcome.next h, State.send_spec s p kind⟩
  have due : x.outstanding = none → x.state = .starting ∨ x.state = .offline → exec (.identInterval p) s = .next (s.sendIdent p) :=
    fun free state => congrArg Host.Outcome.next (if_pos ⟨by rw [free]; rfl, state⟩)
  have identifies := State.sendIdent_spec s p
  refine ⟨fun quiet => ?_, fun free faulted clears => sent .clear ?_, fun free polls => sent .poll ?_, fun free starting => ?_,
    fun free offline => ?_, fun quiet => ?_⟩
  · refine congrArg Host.Outcome.next (s.choose_quiet .interval p (quiet.imp id fun h => ?_))
    simp only [List.mem_cons, List.not_mem_nil, or_false] at h ⊢
    tauto
  · exact State.choose_sends free (fun _ => ⟨faulted, clears⟩) nofun (.inl rfl)
  · refine State.choose_sends free nofun (fun _ => ?_) (.inr rfl)
    rcases polls with faulted | heat | ⟨state, blocks⟩
    · exact .inl faulted
    · exact .inr (.inl heat)
    · refine .inr (.inr ⟨?_, State.dispatch_blocked blocks⟩)
      simpa using state
  · rw [if_pos starting] at identifies
    exact ⟨_, due free (.inl starting), identifies⟩
  · rw [if_neg (by rw [show (s.printer p).state = .offline from offline]; nofun)] at identifies
    exact ⟨_, due free (.inr offline), identifies⟩
  · refine congrArg Host.Outcome.next (if_neg ?_)
    rintro ⟨free, state⟩
    rcases quiet with waits | other
    · rw [Option.isNone_iff_eq_none] at free
      rw [show x.outstanding = none from free] at waits
      cases waits
    · exact other (by simpa using state)

end

