-- ==== Sys2Proof/Proofs/OtherPorts.lean ====
section
/-! SUPPORT. What the choices of the other ports leave of a port (R37), and which operations leave a free slot free. -/

namespace Sys2Proof.Machine

/-! ### Apart from a port -/

/-- What the other ports' choices leave of a port: its record but for its queue and PRINTER-STATE, its path, the doubtful list and the
fault log but for what waits. -/
structure Apart (p : Fin 6) (s t : State) : Prop where
  printer : (t.printer p).settled = (s.printer p).settled
  path : t.path p = s.path p
  doubtful : t.ret.doubtful = s.ret.doubtful
  faults : t.ret.faults.map (·.settled) = s.ret.faults.map (·.settled)

theorem Apart.refl (p : Fin 6) (s : State) : Apart p s s := ⟨rfl, rfl, rfl, rfl⟩

theorem Apart.trans {p : Fin 6} {s t u : State} (h : Apart p s t) (k : Apart p t u) : Apart p s u :=
  ⟨k.printer.trans h.printer, k.path.trans h.path, k.doubtful.trans h.doubtful, k.faults.trans h.faults⟩

theorem Serves.apart {s t : State} (h : Serves s t) (p : Fin 6) : Apart p s t where
  printer := h.printers p
  path := h.logs.path p
  doubtful := congrArg Stock.doubtful h.stock
  faults := h.faults

theorem apart_modPrinter (s : State) {p q : Fin 6} (hq : p ≠ q) (f : Printer → Printer) : Apart p s (s.modPrinter q f) where
  printer := by rw [State.modPrinter_other _ _ _ _ hq]
  path := rfl
  doubtful := rfl
  faults := rfl

theorem apart_setPrinterState (s : State) {p q : Fin 6} (hq : p ≠ q) (st : PrinterState) : Apart p s (s.setPrinterState q st) := by
  obtain ⟨o, -, serves⟩ := serves_setPrinterState s q st
  exact (apart_modPrinter s hq _).trans (serves.apart p)

theorem apart_syncBusy (s : State) {p q : Fin 6} (hq : p ≠ q) : Apart p s (s.syncBusy q) := by
  unfold State.syncBusy
  split
  · exact apart_setPrinterState s hq _
  · split
    · exact apart_setPrinterState s hq _
    · exact .refl p s

theorem apart_modPath (s : State) {p q : Fin 6} (hq : p ≠ q) (f : List InPathEntry → List InPathEntry) : Apart p s (s.modPath q f) :=
  Apart.trans (t := s.setInPath (updAt s.ret.inPath q f)) ⟨rfl, (s.path_setInPath_updAt q p f).trans (if_neg hq), rfl, rfl⟩
    (apart_syncBusy _ hq)

theorem apart_send (s : State) {p q : Fin 6} (hq : p ≠ q) (kind : CommandKind) (body : Option PrintBody) :
    Apart p s (s.send q kind body) := apart_modPrinter s hq _

theorem apart_dispatch {s t : State} {p q : Fin 6} (hq : p ≠ q) (sent : s.dispatch q = some t) : Apart p s t := by
  obtain ⟨-, j, copy, s', e, side, -, -, taken, rfl⟩ := State.dispatch_some sent
  obtain ⟨-, -, k, -, -, rfl⟩ := State.take_some taken
  have pack : Apart p s (s.modPack k.id Pack.takeOne) := ⟨rfl, rfl, rfl, rfl⟩
  have taken' := (pack.trans (apart_modPath (s.modPack k.id Pack.takeOne) hq (· ++ [e]))).trans
    ((serves_lowStockCheck _ j.stockType).apart p)
  generalize ((s.modPack k.id Pack.takeOne).modPath q (· ++ [e])).lowStockCheck j.stockType = u at taken' ⊢
  have marked : Apart p (u.send q .print (some (u.compose j copy e.serial side)))
      ((u.send q .print (some (u.compose j copy e.serial side))).modJob j.tag (Job.dispatched copy)) :=
    (serves_modJob _ _ (Job.dispatched copy) fun _ => rfl).apart p
  exact (taken'.trans (apart_send u hq _ _)).trans marked

theorem apart_choose (s : State) (trigger : Trigger) {p q : Fin 6} (hq : p ≠ q) : Apart p s (s.choose trigger q) := by
  have waits : Apart p s (s.pollOrWait q trigger) := by
    unfold State.pollOrWait
    split
    · exact apart_send s hq _ _
    · exact .refl p s
  unfold State.choose
  simp only
  split
  · exact .refl p s
  · split
    · exact .refl p s
    · exact .refl p s
    · exact .refl p s
    · exact .refl p s
    · split
      · exact apart_send s hq _ _
      · exact waits
    · exact waits
    · split
      · exact apart_dispatch hq ‹_›
      · exact waits
    · split
      · exact apart_dispatch hq ‹_›
      · exact waits

theorem Apart.quiet {p : Fin 6} {s t : State} (h : Apart p s t) (quiet : s.portQuiet p) : t.portQuiet p := by
  have same := Printer.of_settled h.printer
  unfold State.portQuiet at quiet ⊢
  rw [same]
  exact quiet

/-- A port that sends nothing is left as it is when the ports are woken. -/
theorem apart_wakeAll (s before : State) {p : Fin 6} (quiet : s.portQuiet p) : Apart p s (s.wakeAll before) := by
  unfold State.wakeAll
  generalize allPrinters = l
  induction l generalizing s with
  | nil => exact .refl p s
  | cons q l ih =>
    have one : Apart p s (s.wake before q) := by
      unfold State.wake
      split
      · exact .refl p s
      · by_cases hq : p = q
        · rw [← hq, s.choose_quiet .afresh p quiet]
          exact .refl p s
        · exact apart_choose s .afresh hq
    exact one.trans (ih _ (one.quiet quiet))

/-! ### A free slot -/

/-- A port's free slot stays free. -/
def Idles (p : Fin 6) (s t : State) : Prop := (s.printer p).outstanding = none → (t.printer p).outstanding = none

section
variable {p : Fin 6} {s t u : State}

theorem Idles.refl : Idles p s s := id

theorem Idles.trans (h : Idles p s t) (k : Idles p t u) : Idles p s u := k ∘ h

theorem Serves.idles (h : Serves s t) : Idles p s t := fun free => by
  rw [Printer.of_settled (h.printers p)]
  exact free

theorem idles_of_printers (h : t.printers = s.printers) : Idles p s t := fun free => by
  unfold State.printer at free ⊢
  rw [h, free]

theorem idles_modPrinter (q : Fin 6) (f : Printer → Printer) (h : ∀ x, (f x).outstanding = x.outstanding) :
    Idles p s (s.modPrinter q f) := fun free => by
  rw [State.printer_modPrinter]
  split
  · rw [h, free]
  · exact free

theorem idles_setPrinterState (q : Fin 6) (st : PrinterState) : Idles p s (s.setPrinterState q st) := by
  obtain ⟨o, ho, serves⟩ := serves_setPrinterState s q st
  refine Idles.trans (fun free => ?_) serves.idles
  rw [State.printer_modPrinter]
  split
  next here =>
    subst here
    rcases ho with rfl | rfl
    · exact free
    · rfl
  · exact free

theorem idles_syncBusy (q : Fin 6) : Idles p s (s.syncBusy q) := by
  unfold State.syncBusy
  split
  · exact idles_setPrinterState q _
  · split
    · exact idles_setPrinterState q _
    · exact .refl

theorem idles_dropEntry (q : Fin 6) (e : InPathEntry) : Idles p s (s.dropEntry q e) := by
  have taken : ∀ x, Idles p s ((s.setInPath x).syncBusy q) := fun x =>
    (idles_of_printers (t := s.setInPath x) rfl).trans (idles_syncBusy q)
  exact taken _

theorem idles_addException (id : Nat) (e : ExceptionEntry) : Idles p s (s.addException id e) := by
  have added : Idles p s (s.modPack id (·.addRun e)) := idles_of_printers rfl
  unfold State.addException
  split
  · exact .refl
  · simp only
    split
    · exact added
    · exact added.trans (serves_lowStockCheck _ _).idles

theorem idles_makeDoubtful (q : Fin 6) (e : InPathEntry) : Idles p s (s.makeDoubtful q e) := by
  have listed : ∀ (u : State) x, Idles p u (u.setDoubtful x) := fun u x => idles_of_printers rfl
  have tested : ∀ (u : State) id, Idles p u (u.exhaustTest id) := fun u id => idles_of_printers rfl
  unfold State.makeDoubtful
  exact ((((idles_dropEntry q e).trans (idles_addException _ _)).trans (listed _ _)).trans
    (serves_reportCopy _ q e.tag (Job.doubted e.copy) fun _ => rfl).idles).trans (tested _ _)

theorem idles_makeDoubtful_foldl (es : List InPathEntry) (q : Fin 6) (s : State) :
    Idles p s (es.foldl (fun s e => s.makeDoubtful q e) s) := by
  induction es generalizing s with
  | nil => exact .refl
  | cons e es ih => exact (idles_makeDoubtful q e).trans (ih _)

theorem idles_countFault (q : Fin 6) (c : FaultCode) : Idles p s (s.countFault q c) := idles_modPrinter q _ fun _ => rfl

theorem idles_logEntry (e : FaultEntry) : Idles p s (s.logEntry e) := by
  have listed : ∀ x y, Idles p s ((s.setFaults x).setNextFault y) := fun x y => idles_of_printers rfl
  exact (listed _ _).trans (idles_countFault e.printer e.first.code)

theorem idles_modFault (n : Nat) (f : FaultEntry → FaultEntry) : Idles p s (s.modFault n f) := idles_of_printers rfl

theorem idles_raise (q : Fin 6) (c : FaultCode) (o : Option Occasion) : Idles p s (s.raise q c o) := by
  have opened : ∀ (u : State) (n : Nat), Idles p u (u.modPrinter q fun x => { x with openFault := some n }).arbitrate := fun u n =>
    (idles_modPrinter (s := u) q (fun x => { x with openFault := some n }) fun _ => rfl).trans (serves_arbitrate _).idles
  have logged : ∀ (e : FaultEntry) (n : Nat),
      Idles p s ((s.logEntry e).modPrinter q fun x => { x with openFault := some n }).arbitrate := fun e n =>
    (idles_logEntry e).trans (opened (s.logEntry e) n)
  unfold State.raise
  split
  · exact (logged _ _).trans (idles_setPrinterState q _)
  · simp only
    split
    · exact (idles_countFault q c).trans (idles_modFault _ _)
    · exact idles_modFault _ _

end

end Sys2Proof.Machine
end

