-- ==== Sys2Proof/Proofs/Timeouts.lean ====
section
/-! O51: the reply timers (R39, R40, R44, R46). -/

namespace Sys2Proof.Machine

/-- A printer that has just gone OFFLINE sends nothing. -/
theorem State.portQuiet_of_offline {s : State} {p : Fin 6} (h : (s.printer p).state = .offline) : s.portQuiet p :=
  .inr (by rw [h]; decide)

/-! ### The third expiry (R40) -/

theorem logs_raiseDoubtSince_opened (s : State) (p : Fin 6) (before : Nat) (h : (s.printer p).openFault.isSome = true) :
    ((s.raiseDoubtSince p before).printer p).openFault.isSome = true := by
  unfold State.raiseDoubtSince
  split
  · exact h
  · exact raise_opened s p _ _

theorem idles_raiseDoubtSince {p : Fin 6} {s : State} (q : Fin 6) (before : Nat) : Idles p s (s.raiseDoubtSince q before) := by
  unfold State.raiseDoubtSince
  split
  · exact .refl
  · exact idles_raise q _ _

theorem doubtful_makeDoubtful_foldl (es : List InPathEntry) (s : State) (p : Fin 6) :
    (es.foldl (fun s e => s.makeDoubtful p e) s).ret.doubtful = s.ret.doubtful ++ es.map (doubtfulFrom p) := by
  induction es generalizing s with
  | nil => exact (List.append_nil _).symm
  | cons e es ih =>
    have one : (s.makeDoubtful p e).ret.doubtful = s.ret.doubtful ++ [doubtfulFrom p e] :=
      congrArg Stock.doubtful (stock_makeDoubtful s p e)
    rw [List.foldl_cons, ih, one, List.append_assoc]
    rfl

theorem loseLink_spec {s : State} {p : Fin 6} (free : (s.printer p).outstanding = none) :
    ((s.loseLink p).printer p).state = .offline ∧ ((s.loseLink p).printer p).outstanding = none ∧
      ((s.loseLink p).printer p).timeoutCount = 0 ∧ ((s.loseLink p).printer p).openFault.isSome = true ∧
      (s.loseLink p).path p = [] ∧ (s.loseLink p).ret.doubtful = s.ret.doubtful ++ (s.path p).map (doubtfulFrom p) := by
  have path := path_doubtPath s p p
  have doubtful := doubtful_makeDoubtful_foldl (s.path p) s p
  have free := idles_makeDoubtful_foldl (s.path p) p s free
  unfold State.loseLink
  simp only
  generalize (s.path p).foldl (fun s e => s.makeDoubtful p e) s = a at path doubtful free
  have raised := (logs_raise a p .linkLost none).trans (logs_raiseDoubtSince _ p s.ret.doubtful.length)
  have opened := logs_raiseDoubtSince_opened (a.raise p .linkLost none) p s.ret.doubtful.length (raise_opened a p .linkLost none)
  have free := (idles_raise p .linkLost none).trans (idles_raiseDoubtSince p s.ret.doubtful.length) free
  generalize (a.raise p .linkLost none).raiseDoubtSince p s.ret.doubtful.length = b at raised opened free
  have placed := raised.trans (logs_setPrinterState b p .offline)
  obtain ⟨state, faults⟩ := b.setPrinterState_record p .offline
  have free := idles_setPrinterState p .offline free
  rw [← faults p] at opened
  generalize b.setPrinterState p .offline = c at placed state free opened
  have record : (c.modPrinter p fun x => { x with timeoutCount := 0 }).printer p = { c.printer p with timeoutCount := 0 } :=
    c.modPrinter_same p _
  have apart := apart_wakeAll (c.modPrinter p fun x => { x with timeoutCount := 0 }) s (p := p)
    (State.portQuiet_of_offline (by rw [record]; exact state))
  have after := Printer.of_settled apart.printer
  rw [record] at after
  rw [after]
  refine ⟨state, free, rfl, opened, apart.path.trans ?_, apart.doubtful.trans ?_⟩
  · exact (placed.path p).trans (path.trans (if_pos rfl))
  · exact (congrArg Stock.doubtful placed.stock).trans doubtful

theorem expireReply_offline {s : State} {p : Fin 6} {n : Byte} {kind : CommandKind}
    (waits : (s.printer p).outstanding = some (n, kind)) (other : kind ≠ .ident) (third : (s.printer p).timeoutCount = 2) :
    s.expireReply p = (s.modPrinter p fun x => { x with outstanding := none, timeoutCount := 3 }).loseLink p := by
  unfold State.expireReply
  rw [waits]
  simp only
  rw [if_neg other, third]
  rfl

/-! ### The tenth IDENT (R44, R90, R105) -/

theorem fault?_of_settled {s t : State} (h : t.ret.faults.map (·.settled) = s.ret.faults.map (·.settled)) {n : Nat} {e : FaultEntry}
    (found : s.fault? n = some e) : ∃ f, t.fault? n = some f ∧ f.settled = e.settled := by
  have view : ∀ u : State, (u.fault? n).map (·.settled) = (u.ret.faults.map (·.settled)).find? fun e => decide (e.number = n) := fun u => by
    unfold State.fault?
    rw [List.find?_map]
    rfl
  have same : (t.fault? n).map (·.settled) = some e.settled := by rw [view, h, ← view, found]; rfl
  exact Option.map_eq_some_iff.mp same

/-- A new entry is found under its number. -/
theorem fault?_logEntry (s : State) (e : FaultEntry) (few : s.ret.faults.length ≤ 64) :
    (s.logEntry e).fault? s.freshFaultNumber = some { e with number := s.freshFaultNumber, raisedAt := s.office.clock } := by
  have room : (makeRoom s.ret.faults).length ≤ 64 := by
    unfold makeRoom
    split
    · exact few
    · exact (List.length_eraseP_le).trans few
  have fresh := freeNumber_not_mem ((makeRoom s.ret.faults).map (·.number)) s.ret.nextFault (by rw [List.length_map]; omega)
  show ((makeRoom s.ret.faults ++ [{ e with number := s.freshFaultNumber, raisedAt := s.office.clock }]).find? _) = _
  rw [List.find?_append, List.find?_eq_none.mpr fun x hx => ?_, Option.none_or]
  · simp
  · rw [decide_eq_true_eq]
    rintro same
    exact fresh (List.mem_map.mpr ⟨x, hx, same⟩)

/-- The entry a raise opens (R91, R93). -/
def State.openedEntry (s : State) (p : Fin 6) (c : FaultCode) (o : Option Occasion) : FaultEntry :=
  { (blankEntry p .standing c).of o with number := s.freshFaultNumber, raisedAt := s.office.clock }

/-- A raise with no open entry: the entry opened, the count, and the state entered (R93, R105). -/
theorem raise_opens {s : State} {p : Fin 6} (c : FaultCode) (o : Option Occasion) (free : (s.printer p).openFault = none)
    (few : s.ret.faults.length ≤ 64) :
    (∃ f, (s.raise p c o).fault? s.freshFaultNumber = some f ∧ f.settled = (s.openedEntry p c o).settled) ∧
      ((s.raise p c o).printer p).state = (if c = .linkLost then .offline else .faulted) ∧
      ((s.raise p c o).printer p).openFault = some s.freshFaultNumber ∧
      ((s.raise p c o).printer p).counters =
        updAt (s.printer p).counters (Fin.ofNat 12 c.code) (fun n => saturating 65535 (n + 1)) ∧
      (s.raise p c o).stock = s.stock := by
  have stock := (logs_raise s p c o).stock
  have whole : s.raise p c o = (((s.logEntry ((blankEntry p .standing c).of o)).modPrinter p fun x =>
      { x with openFault := some s.freshFaultNumber }).arbitrate).setPrinterState p (if c = .linkLost then .offline else .faulted) := by
    unfold State.raise
    rw [free]
  have found := fault?_logEntry s ((blankEntry p .standing c).of o) few
  have counted : ((s.logEntry ((blankEntry p .standing c).of o)).printer p).counters =
      updAt (s.printer p).counters (Fin.ofNat 12 c.code) (fun n => saturating 65535 (n + 1)) := by
    have here : ((blankEntry p .standing c).of o).printer = p := by cases o <;> rfl
    have code : ((blankEntry p .standing c).of o).first.code = c := by cases o <;> rfl
    unfold State.logEntry State.countFault
    rw [here, code, State.modPrinter_same]
    rfl
  rw [whole] at stock ⊢
  clear whole
  generalize (s.logEntry ((blankEntry p .standing c).of o)) = a at *
  generalize (if c = .linkLost then PrinterState.offline else .faulted) = st at *
  have opened : (a.modPrinter p fun x => { x with openFault := some s.freshFaultNumber }).printer p =
      { a.printer p with openFault := some s.freshFaultNumber } := a.modPrinter_same p _
  have served := serves_arbitrate (a.modPrinter p fun x => { x with openFault := some s.freshFaultNumber })
  generalize (a.modPrinter p fun x => { x with openFault := some s.freshFaultNumber }).arbitrate = b at *
  have record := Printer.of_settled (served.printers p)
  rw [opened] at record
  obtain ⟨x, -, entered⟩ := serves_setPrinterState b p st
  have record' := Printer.of_settled (entered.printers p)
  rw [State.modPrinter_same, record] at record'
  have log : (b.setPrinterState p st).ret.faults.map (·.settled) = a.ret.faults.map (·.settled) := entered.faults.trans served.faults
  obtain ⟨f, hf, same⟩ := fault?_of_settled log found
  refine ⟨⟨f, hf, same⟩, ?_, ?_, ?_, stock⟩
  · rw [record']
  · rw [record']
  · rw [record', ← counted]

/-- A raise that an open entry gains a code from (R93, R105). -/
theorem raise_gains {s : State} {p : Fin 6} {n : Nat} {f : FaultEntry} (c : FaultCode) (o : Option Occasion)
    (opened : (s.printer p).openFault = some n) (found : s.fault? n = some f) (gains : f.gains c = true) :
    (s.raise p c o).fault? n = some (f.join c) ∧
      (s.raise p c o).printer p = { s.printer p with
        counters := updAt (s.printer p).counters (Fin.ofNat 12 c.code) (fun n => saturating 65535 (n + 1)) } := by
  have number : ∀ e : FaultEntry, (e.join c).number = e.number := fun e => by
    unfold FaultEntry.join
    split
    · rfl
    · split <;> rfl
  unfold State.raise
  rw [opened]
  simp only [found, Option.any_some, gains, if_true]
  refine ⟨?_, s.modPrinter_same p _⟩
  rw [State.fault?_modFault _ _ _ _ number, show (s.countFault p c).fault? n = some f from found, Option.map_some,
    if_pos (State.fault?_some found).2]

theorem State.hasDoubt_iff (s : State) (p : Fin 6) : s.hasDoubt p = true ↔ ∃ d ∈ s.ret.doubtful, d.printer = p := by
  simp [State.hasDoubt]

theorem giveUpIdentifying_spec {s : State} {p : Fin 6} (free : (s.printer p).outstanding = none) (closed : (s.printer p).openFault = none)
    (few : s.ret.faults.length ≤ 64) :
    ((s.giveUpIdentifying p).printer p).state = .offline ∧ ((s.giveUpIdentifying p).printer p).outstanding = none ∧
      ((s.giveUpIdentifying p).printer p).identTries = 0 ∧
      ((s.giveUpIdentifying p).printer p).openFault = some s.freshFaultNumber ∧
      (∃ f, (s.giveUpIdentifying p).fault? s.freshFaultNumber = some f ∧ f.printer = p ∧ f.cls = .standing ∧
        f.first.code = .linkLost ∧ f.later.map (·.code) = if ∃ d ∈ s.ret.doubtful, d.printer = p then [.doubt] else []) ∧
      ((s.giveUpIdentifying p).printer p).counters =
        if ∃ d ∈ s.ret.doubtful, d.printer = p then
          updAt (updAt (s.printer p).counters 8 fun n => saturating 65535 (n + 1)) 9 fun n => saturating 65535 (n + 1)
        else updAt (s.printer p).counters 8 fun n => saturating 65535 (n + 1) := by
  obtain ⟨⟨f, found, entry⟩, state, opened, counters, stock⟩ := raise_opens .linkLost none closed few
  have idle := idles_raise p .linkLost none free
  have doubt : (s.raise p .linkLost none).hasDoubt p = s.hasDoubt p :=
    congrArg (fun x : Stock => x.doubtful.any fun d => decide (d.printer = p)) stock
  have code : f.first.code = .linkLost := congrArg (·.first.code) entry
  have later : f.later = [] := congrArg FaultEntry.later entry
  have cls : f.cls = .standing := congrArg FaultEntry.cls entry
  have here : f.printer = p := congrArg FaultEntry.printer entry
  have gains : f.gains .doubt = true := by
    unfold FaultEntry.gains FaultEntry.lists
    simp [later, code]
  rw [if_pos rfl] at state
  unfold State.giveUpIdentifying
  simp only
  generalize s.raise p .linkLost none = d at *
  have joined : ∃ g, (if d.hasDoubt p then d.raise p .doubt none else d).fault? s.freshFaultNumber = some g ∧ g.printer = p ∧
      g.cls = .standing ∧ g.first.code = .linkLost ∧ g.later.map (·.code) = (if ∃ d ∈ s.ret.doubtful, d.printer = p then [.doubt] else []) ∧
      (if d.hasDoubt p then d.raise p .doubt none else d).printer p = { d.printer p with
        counters := if ∃ d ∈ s.ret.doubtful, d.printer = p then
          updAt (d.printer p).counters 9 fun n => saturating 65535 (n + 1) else (d.printer p).counters } := by
    by_cases h : ∃ d ∈ s.ret.doubtful, d.printer = p
    · rw [if_pos h, if_pos h, if_pos (doubt.trans ((s.hasDoubt_iff p).mpr h))]
      obtain ⟨found', record⟩ := raise_gains .doubt none opened found gains
      refine ⟨_, found', ?_⟩
      have new : ¬ f.lists .doubt = true := by
        unfold FaultEntry.lists
        simp [later, code]
      unfold FaultEntry.join
      rw [if_neg new, if_pos (by rw [later]; decide)]
      exact ⟨here, cls, code, by simp [later, freshCode], record⟩
    · have calm : ¬ d.hasDoubt p = true := fun yes => h ((s.hasDoubt_iff p).mp (doubt.symm.trans yes))
      rw [if_neg h, if_neg h, if_neg calm]
      exact ⟨f, found, here, cls, code, by rw [later]; rfl, rfl⟩
  obtain ⟨g, found', here', cls', code', later', record⟩ := joined
  generalize (if d.hasDoubt p then d.raise p .doubt none else d) = e at found' record ⊢
  have tries : (e.modPrinter p fun x => { x with identTries := 0 }).printer p = { e.printer p with identTries := 0 } := e.modPrinter_same p _
  have apart := apart_wakeAll (e.modPrinter p fun x => { x with identTries := 0 }) s (p := p)
    (State.portQuiet_of_offline (by rw [tries, record]; exact state))
  have after := Printer.of_settled apart.printer
  rw [tries, record] at after
  obtain ⟨k, hk, same⟩ := fault?_of_settled apart.faults (show (e.modPrinter p _).fault? _ = some g from found')
  rw [after]
  refine ⟨state, idle, rfl, opened, ⟨k, hk, ?_, ?_, ?_, ?_⟩, ?_⟩
  · exact (congrArg FaultEntry.printer same).trans here'
  · exact (congrArg FaultEntry.cls same).trans cls'
  · exact (congrArg (fun f : FaultEntry => f.first.code) same).trans code'
  · exact (congrArg (fun f : FaultEntry => f.later.map (·.code)) same).trans later'
  · show (if _ then updAt (d.printer p).counters 9 _ else (d.printer p).counters) = _
    rw [counters]
    rfl

end Sys2Proof.Machine

open Sys2Proof Sys2Proof.Machine

/-- Settles O51: the expiries by their number and by the command outstanding. -/
theorem timeoutsLoseTheLink : Obligations.TimeoutsLoseTheLink := by
  intro s p n kind waits x
  have freed : ∀ m, (s.modPrinter p fun x => { x with outstanding := none, timeoutCount := m }).printer p =
    { s.printer p with outstanding := none, timeoutCount := m } := fun m => s.modPrinter_same p _
  refine ⟨fun other few => ?_, fun other third => ?_, fun ident early => ?_, fun ident starting tenth closed room => ?_, fun ident => ?_,
    fun other => ?_⟩
  · obtain ⟨record, others, keeps⟩ := State.send_spec
      (s.modPrinter p fun x => { x with outstanding := none, timeoutCount := (s.printer p).timeoutCount + 1 }) p .poll
    refine ⟨_, congrArg Host.Outcome.next ?_, record.trans ?_, (othersKept_updAt _ _ _).trans others, (s.modPrinter_keeps p _).trans keeps⟩
    · unfold State.expireReply
      rw [waits]
      simp only
      rw [if_neg other, if_pos (show (s.printer p).timeoutCount + 1 < 3 by exact Nat.succ_lt_succ few)]
      rfl
    · rw [freed]
      rfl
  · have lost := loseLink_spec (s := s.modPrinter p fun x => { x with outstanding := none, timeoutCount := 3 }) (p := p) (by rw [freed])
    exact ⟨_, congrArg Host.Outcome.next (expireReply_offline waits other third), lost⟩
  · refine ⟨_, congrArg Host.Outcome.next ?_, s.modPrinter_same p fun x => { x with outstanding := none }, othersKept_updAt _ _ _,
      s.modPrinter_keeps p _⟩
    unfold State.expireIdent
    rw [waits]
    simp only
    rw [if_pos ident, State.modPrinter_same, if_neg early]
  · have record : (s.modPrinter p fun x => { x with outstanding := none }).printer p = { s.printer p with outstanding := none } :=
      s.modPrinter_same p _
    obtain ⟨state, free, tries, opened, ⟨f, found, here, cls, code, later⟩, counters⟩ := giveUpIdentifying_spec
      (s := s.modPrinter p fun x => { x with outstanding := none }) (p := p) (by rw [record]) (by rw [record]; exact closed) room
    have next : exec (.identTimeout p) s = .next ((s.modPrinter p fun x => { x with outstanding := none }).giveUpIdentifying p) := by
      refine congrArg Host.Outcome.next ?_
      unfold State.expireIdent
      rw [waits]
      simp only
      rw [if_pos ident, State.modPrinter_same, if_pos ⟨starting, tenth⟩]
    refine ⟨_, f, next, state, free, tries, opened, found, here, cls, code, later, ?_, ?_⟩
    · have lost := updAt_same (s.printer p).counters 8 fun n => saturating 65535 (n + 1)
      have apart := fun v : Vector Nat 12 => updAt_other v 9 8 (fun n => saturating 65535 (n + 1)) (by decide)
      rw [counters, record, ← saturating_eq_min]
      split
      · exact (apart _).trans lost
      · exact lost
    · have doubt := fun v : Vector Nat 12 => updAt_same v 9 fun n => saturating 65535 (n + 1)
      have apart := updAt_other (s.printer p).counters 8 9 (fun n => saturating 65535 (n + 1)) (by decide)
      rw [record] at counters
      rw [counters, ← saturating_eq_min]
      by_cases h : ∃ d ∈ s.ret.doubtful, d.printer = p
      · refine (congrArg (·[9]) (if_pos h)).trans (Eq.trans ?_ (if_pos h).symm)
        exact (doubt _).trans (congrArg (fun n => saturating 65535 (n + 1)) apart)
      · exact (congrArg (·[9]) (if_neg h)).trans (Eq.trans apart (if_neg h).symm)
  · refine congrArg Host.Outcome.next ?_
    unfold State.expireReply
    rw [waits]
    exact if_pos ident
  · refine congrArg Host.Outcome.next ?_
    unfold State.expireIdent
    rw [waits]
    exact if_neg other

end

