-- ==== Sys2Proof/Proofs/Waking.lean ====
section
/-! SUPPORT. When the ports stay as they are although a register request wakes them (R37), and what the register's operations change
while the notice queue is full. -/

namespace Sys2Proof.Machine

/-! ### Ports that stay quiet -/

theorem Serves.portsQuiet {s t : State} (h : Serves s t) (quiet : s.portsQuiet) : t.portsQuiet := fun p =>
  (h.apart p).quiet (quiet p)

/-- The dispatch conditions of a port, from what they read (R38). -/
theorem State.dispatchView_same {s t : State} (p : Fin 6) (printers : t.printers = s.printers) (pool : t.pool = s.pool)
    (inPath : t.ret.inPath = s.ret.inPath) (doubtful : t.ret.doubtful = s.ret.doubtful)
    (layouts : ∀ k, (t.layout k).entries = (s.layout k).entries)
    (types : ∀ k, (t.stockType k).definition.striped = (s.stockType k).definition.striped)
    (bins : ∀ side, (t.binPack? p side).map Pack.view = (s.binPack? p side).map Pack.view) : t.dispatchView p = s.dispatchView p := by
  have head : t.headCopy p = s.headCopy p := by simp only [State.headCopy, State.job?, State.printer, printers, pool]
  have fits : ∀ k, t.qualifies p k = s.qualifies p k := fun k => by
    unfold State.qualifies State.printer
    rw [printers, layouts, types]
  simp only [State.dispatchView, head, fits, State.printer, State.path, State.hasDoubt, printers, inPath, doubtful, bins]

/-! ### The records under an id -/

/-- The pack records under an id. -/
def State.under (s : State) (id : Nat) : List Pack := s.ret.packs.filter fun k => decide (k.id = id)

theorem State.pack?_eq_head? (s : State) (id : Nat) : s.pack? id = (s.under id).head? := List.head?_filter.symm

theorem filter_map_other (l : List Pack) (id n : Nat) (f : Pack → Pack) (hf : ∀ k, (f k).id = k.id) (apart : n ≠ id) :
    (l.map fun k => if k.id = n then f k else k).filter (fun k => decide (k.id = id)) = l.filter fun k => decide (k.id = id) := by
  induction l with
  | nil => rfl
  | cons k l ih =>
    rw [List.map_cons]
    by_cases h : k.id = n
    · have out : ¬ k.id = id := by rw [h]; exact apart
      rw [if_pos h, List.filter_cons_of_neg (by rw [hf]; simpa using out), List.filter_cons_of_neg (by simpa using out), ih]
    · rw [if_neg h, List.filter_cons, List.filter_cons, ih]

/-- Packs that are EXHAUSTED are never taken from, so waking the ports leaves their records alone. -/
theorem under_wakeAll (s before : State) (id : Nat) (spent : ∀ k ∈ s.under id, k.condition = .exhausted) :
    (s.wakeAll before).under id = s.under id := by
  have one : ∀ (u : State) trigger p, (∀ k ∈ u.under id, k.condition = .exhausted) → (u.choose trigger p).under id = u.under id := by
    intro u trigger p spent
    rcases choose_cases u trigger p with sent | logs
    · obtain ⟨-, j, copy, s', e, side, -, -, taken, whole⟩ := State.dispatch_some sent
      obtain ⟨k, found, -, -, -, stock⟩ := stock_take u s' p _ _ _ _ taken
      obtain ⟨bin, -, usable, -⟩ := takeBin_spec found
      have packs : (u.choose trigger p).ret.packs = u.ret.packs.map fun x => if x.id = k.id then x.takeOne else x := by
        rw [whole]
        exact congrArg Stock.packs stock
      unfold State.under
      rw [packs]
      refine filter_map_other _ _ _ _ (fun _ => rfl) fun same => ?_
      have mem : k ∈ u.under id := List.mem_filter.mpr ⟨(binPack?_some bin).1, decide_eq_true same⟩
      rw [spent k mem] at usable
      cases usable
    · unfold State.under
      rw [show (u.choose trigger p).ret.packs = u.ret.packs from congrArg Stock.packs logs.stock]
  unfold State.wakeAll
  generalize allPrinters = l
  induction l generalizing s with
  | nil => rfl
  | cons p l ih =>
    have here : (s.wake before p).under id = s.under id := by
      unfold State.wake
      split
      · rfl
      · exact one s _ p spent
    rw [List.foldl_cons, ih _ (by rw [here]; exact spent), here]

/-! ### The register's operations while the queue is full (R166) -/

section
variable {s : State} (full : s.queueFull)
include full

theorem State.addException_full (id : Nat) (e : ExceptionEntry) : s.keepsBut (s.addException id e) [.packs, .stockTypes] := by
  have added : s.keepsBut (s.modPack id (·.addRun e)) [.packs, .stockTypes] := (s.modPack_keeps id _).mono (by decide)
  unfold State.addException
  split
  · exact s.keepsBut_refl _
  · simp only
    split
    · exact added
    · exact added.trans ((State.lowStockCheck_full _ _ (full.carry added (by decide))).mono (by decide))

theorem State.runOut_full (id : Nat) (d : Disposition) (fault : Option Nat) :
    s.keepsBut (s.runOut id d fault) [.packs, .stockTypes] := by
  have rest : ∀ u : State, s.keepsBut u [.packs, .stockTypes] → ∀ k,
      s.keepsBut (((u.modPack id Pack.emptied).exhaustTest id).lowStockCheck k) [.packs, .stockTypes] := fun u hu k => by
    have emptied : s.keepsBut ((u.modPack id Pack.emptied).exhaustTest id) [.packs, .stockTypes] :=
      (hu.trans ((State.modPack_keeps _ _ _).mono (by decide))).trans ((State.modPack_keeps _ _ _).mono (by decide))
    exact emptied.trans ((State.lowStockCheck_full _ _ (full.carry emptied (by decide))).mono (by decide))
  unfold State.runOut
  split
  · exact s.keepsBut_refl _
  · simp only
    split
    · exact rest s (s.keepsBut_refl _) _
    · exact rest _ (State.addException_full full id _) _

end

/-! ### Printers that only wait or lose tags -/

/-- Every printer's record is the same but for its queue and PRINTER-STATE. -/
def State.printersSettled (s t : State) : Prop := ∀ p, (t.printer p).settled = (s.printer p).settled

theorem State.printersSettled.trans {s t u : State} (h : s.printersSettled t) (k : t.printersSettled u) : s.printersSettled u :=
  fun p => (k p).trans (h p)

theorem printersSettled_of_same {s t : State} (h : t.printers = s.printers) : s.printersSettled t := fun p => by
  unfold State.printer
  rw [h]

theorem State.printersSettled.portsQuiet {s t : State} (h : s.printersSettled t) (quiet : s.portsQuiet) : t.portsQuiet := fun p => by
  have here := quiet p
  unfold State.portQuiet at here ⊢
  rw [Printer.of_settled (h p)]
  exact here

theorem printersSettled_addException (s : State) (id : Nat) (e : ExceptionEntry) : s.printersSettled (s.addException id e) := by
  have added : s.printersSettled (s.modPack id (·.addRun e)) := printersSettled_of_same rfl
  unfold State.addException
  split
  · exact fun _ => rfl
  · simp only
    split
    · exact added
    · exact added.trans (serves_lowStockCheck _ _).printers

theorem printersSettled_runOut (s : State) (id : Nat) (d : Disposition) (fault : Option Nat) : s.printersSettled (s.runOut id d fault) := by
  have rest : ∀ (u : State) k, u.printersSettled (((u.modPack id Pack.emptied).exhaustTest id).lowStockCheck k) := fun u k =>
    (printersSettled_of_same (t := (u.modPack id Pack.emptied).exhaustTest id) rfl).trans (serves_lowStockCheck _ _).printers
  unfold State.runOut
  split
  · exact fun _ => rfl
  · simp only
    split
    · exact rest s _
    · exact (printersSettled_addException s id _).trans (rest _ _)

/-- Every stock type's record is the same but for its low-stock flags. -/
def State.typesSettled (s t : State) : Prop := ∀ k, (t.stockType k).settled = (s.stockType k).settled

theorem State.typesSettled.trans {s t u : State} (h : s.typesSettled t) (k : t.typesSettled u) : s.typesSettled u :=
  fun i => (k i).trans (h i)

theorem typesSettled_of_same {s t : State} (h : t.ret.stockTypes = s.ret.stockTypes) : s.typesSettled t := fun k => by
  unfold State.stockType
  rw [h]

theorem State.typesSettled.definition {s t : State} (h : s.typesSettled t) (k : Fin 8) :
    (t.stockType k).definition = (s.stockType k).definition := by
  rw [StockType.of_settled (h k)]

theorem typesSettled_addException (s : State) (id : Nat) (e : ExceptionEntry) : s.typesSettled (s.addException id e) := by
  have added : s.typesSettled (s.modPack id (·.addRun e)) := typesSettled_of_same rfl
  unfold State.addException
  split
  · exact fun _ => rfl
  · simp only
    split
    · exact added
    · exact added.trans (serves_lowStockCheck _ _).stockTypes

theorem typesSettled_runOut (s : State) (id : Nat) (d : Disposition) (fault : Option Nat) : s.typesSettled (s.runOut id d fault) := by
  have rest : ∀ (u : State) k, u.typesSettled (((u.modPack id Pack.emptied).exhaustTest id).lowStockCheck k) := fun u k =>
    (typesSettled_of_same (t := (u.modPack id Pack.emptied).exhaustTest id) rfl).trans (serves_lowStockCheck _ _).stockTypes
  unfold State.runOut
  split
  · exact fun _ => rfl
  · simp only
    split
    · exact rest s _
    · exact (typesSettled_addException s id _).trans (rest _ _)

/-- The packs in the bins are those they were when only packs that lie outside the bins, before and after, change. -/
theorem binPack?_of_map {s t : State} {f : Pack → Pack} {changed : Pack → Prop} [DecidablePred changed]
    (packs : t.ret.packs = s.ret.packs.map fun k => if changed k then f k else k)
    (outside : ∀ k ∈ s.ret.packs, changed k → k.location = .store ∧ (f k).location = .store) (p : Fin 6) (side : Bin) :
    t.binPack? p side = s.binPack? p side := by
  unfold State.binPack?
  rw [packs, List.find?_map]
  have same : s.ret.packs.find? ((fun k => decide (k.location = .bin p side)) ∘ fun k => if changed k then f k else k) =
      s.ret.packs.find? fun k => decide (k.location = .bin p side) := by
    refine List.find?_congr fun k hk => ?_
    by_cases h : changed k
    · obtain ⟨before, after⟩ := outside k hk h
      simp [h, before, after]
    · simp [h]
  rw [same]
  cases found : s.ret.packs.find? fun k => decide (k.location = .bin p side) with
  | none => rfl
  | some k =>
    have location : k.location = .bin p side := by simpa using List.find?_some found
    have unchanged : ¬ changed k := fun h => by
      rw [(outside k (List.mem_of_find?_eq_some found) h).1] at location
      cases location
    rw [Option.map_some, if_neg unchanged]

end Sys2Proof.Machine
end

