-- ==== Sys2Proof/Proofs/WriteOff.lean ====
section
/-! O40: WRITE OFF PACK and RETIRE PACK. -/

namespace Sys2Proof.Machine

/-- A pack with a run added and nothing left (R14, R21), EXHAUSTED (R5). -/
def Pack.ranOut (k : Pack) (run : Option ExceptionEntry) : Pack := ((run.elim k k.addRun).emptied).exhaust

theorem Pack.ranOut_eq (k : Pack) (run : Option ExceptionEntry) : k.ranOut run =
    { k with
      remaining := 0, next := none, condition := .exhausted, location := .store, exceptions := (run.elim k k.addRun).exceptions } := by
  unfold Pack.ranOut
  cases run with
  | none => rfl
  | some e =>
    rw [Option.elim_some, Pack.addRun_fields]
    rfl

theorem Pack.runs_of_exceptions {k j : Pack} (h : k.exceptions = j.exceptions) (d : Disposition) : k.runs d = j.runs d := by
  unfold Pack.runs
  rw [h]

theorem Pack.runs_ranOut (k : Pack) (d : Disposition) (fault : Option Nat) (d' : Disposition) :
    (k.ranOut (k.restRun d fault)).runs d' = k.runs d' + if d' = d then k.remaining else 0 := by
  have same : (k.ranOut (k.restRun d fault)).runs d' = ((k.restRun d fault).elim k k.addRun).runs d' :=
    Pack.runs_of_exceptions (by rw [Pack.ranOut_eq]) d'
  rw [same]
  unfold Pack.restRun
  split
  next none => rw [none, ite_self]; rfl
  · exact k.runs_addRun _ d'

/-- A pack run out, with no blank of it in path: every record under its id is EXHAUSTED into STORE. -/
theorem packs_runOut (s : State) {id : Nat} {x : Pack} (found : s.pack? id = some x) (idle : s.inPathOf id = 0) (d : Disposition)
    (fault : Option Nat) : (s.runOut id d fault).ret.packs =
      s.ret.packs.map fun k => if k.id = id then k.ranOut (x.restRun d fault) else k := by
  have stock := stock_runOut s id d fault
  rw [found, Option.elim_some] at stock
  refine (congrArg Stock.packs stock).trans ?_
  have none : s.stock.inPathOf id = 0 := idle
  have ids : ∀ (k : Pack) e, (k.addRun e).id = k.id := fun k e => by rw [Pack.addRun_fields]
  unfold Stock.runOut Stock.exhaustTest
  cases x.restRun d fault with
  | none =>
    simp only [Option.elim_none, Stock.modPack_packs, List.map_map]
    refine List.map_congr_left fun k _ => ?_
    by_cases h : k.id = id
    · have h' : k.emptied.id = id := h
      simp only [Function.comp_apply, if_pos h, if_pos h']
      exact if_pos ⟨rfl, none⟩
    · simp only [Function.comp_apply, if_neg h]
  | some e =>
    simp only [Option.elim_some, Stock.modPack_packs, List.map_map]
    refine List.map_congr_left fun k _ => ?_
    by_cases h : k.id = id
    · have h' : (k.addRun e).id = id := (ids k e).trans h
      have h'' : (k.addRun e).emptied.id = id := h'
      simp only [Function.comp_apply, if_pos h, if_pos h', if_pos h'']
      exact if_pos ⟨rfl, none⟩
    · simp only [Function.comp_apply, if_neg h]

section
variable {s : State} {id : Nat} {x : Pack} (found : s.pack? id = some x) (idle : s.inPathOf id = 0)
include found idle

theorem pack?_runOut (d : Disposition) (fault : Option Nat) :
    (s.runOut id d fault).pack? id = some (x.ranOut (x.restRun d fault)) := by
  have view := s.pack?_modPack id id (fun k => k.ranOut (x.restRun d fault)) fun k => by rw [Pack.ranOut_eq]
  rw [found, Option.map_some, if_pos (State.pack?_some found).2] at view
  unfold State.pack? at view ⊢
  rw [packs_runOut s found idle]
  exact view

theorem under_runOut (d : Disposition) (fault : Option Nat) :
    ∀ k ∈ (s.runOut id d fault).under id, k.condition = .exhausted := by
  intro k hk
  obtain ⟨mem, same⟩ := List.mem_filter.mp hk
  rw [packs_runOut s found idle, List.mem_map] at mem
  obtain ⟨j, -, rfl⟩ := mem
  split
  · rw [Pack.ranOut_eq]
  next other =>
    rw [if_neg other] at same
    exact absurd (of_decide_eq_true same) other

/-- While the notice queue is full, running out packs in STORE changes no dispatch condition. -/
theorem wakeAll_runOut_stored (d : Disposition) (fault : Option Nat) (full : s.queueFull)
    (stored : ∀ k ∈ s.ret.packs, k.id = id → k.location = .store) : (s.runOut id d fault).wakeAll s = s.runOut id d fault := by
  have keeps := State.runOut_full full id d fault
  have types := typesSettled_runOut s id d fault
  have bins := binPack?_of_map (packs_runOut s found idle d fault) fun k hk same => ⟨stored k hk same, by rw [Pack.ranOut_eq]⟩
  have live : (s.runOut id d fault).live = s.live := keeps .live (by decide)
  refine State.wakeAll_same _ s fun p => .inr (State.dispatchView_same p (keeps .printers (by decide)) (keeps .pool (by decide))
    (keeps .inPath (by decide)) (keeps .doubtful (by decide)) (fun k => ?_) (fun k => ?_) fun side => congrArg _ (bins p side))
  · unfold State.layout
    rw [live]
  · rw [types.definition]

end

theorem State.recentlyIssued_iff (s : State) (id : Nat) : s.recentlyIssued id = true ↔
    (∃ e ∈ s.ret.console.recent, e.pack = id) ∨ ∃ w, ∃ e ∈ (s.window w).recent, e.pack = id := by
  unfold State.recentlyIssued
  simp only [List.any_append, Bool.or_eq_true, List.any_eq_true, decide_eq_true_eq, List.mem_flatMap, allWindows, List.mem_finRange, true_and]
  exact or_congr Iff.rfl ⟨fun ⟨e, ⟨w, he⟩, h⟩ => ⟨w, e, he, h⟩, fun ⟨w, e, he, h⟩ => ⟨e, ⟨w, he⟩, h⟩⟩

theorem State.retirable_iff (s : State) (k : Pack) : s.retirable k = true ↔
    ¬ (k.condition ≠ .exhausted ∨ (∃ e ∈ k.exceptions, e.disposition = .doubtful) ∨
      (∃ e ∈ s.ret.console.recent, e.pack = k.id) ∨ ∃ w, ∃ e ∈ (s.window w).recent, e.pack = k.id) := by
  unfold State.retirable
  rw [← State.recentlyIssued_iff, Bool.and_eq_true, Bool.and_eq_true, decide_eq_true_eq, Bool.not_eq_true', Bool.not_eq_true',
    ← Bool.not_eq_true, ← Bool.not_eq_true, List.any_eq_true]
  simp only [decide_eq_true_eq]
  rw [not_or, not_or, not_not, and_assoc]

theorem numberInRange_iff (n : Nat) : numberInRange n = true ↔ 1 ≤ n ∧ n ≤ 65535 := by
  simp [numberInRange, within]

end Sys2Proof.Machine

open Sys2Proof Sys2Proof.Machine

/-- Settles O40: a pack run out, and a record removed. -/
theorem writeOffAndRetire : Obligations.WriteOffAndRetire := by
  intro s pos id x free holds low high found
  have range := (numberInRange_iff id).mpr ⟨low, high⟩
  have writeOff : exec (.writeOffPack pos id) s = .next (s.judged 0x12 [(decide (x.condition ≠ .exhausted ∧ s.inPathOf id = 0), .state)]
      (((s.runOut id .writtenOff none).wakeAll s).answer .ok 0x12 [])) :=
    (next_of_judged free rfl (by simp [holds, range])).trans (by rw [found])
  have retire : exec (.retirePack pos id) s = .next (s.judged 0x13 [(s.retirable x, .state)] ((s.removePack id).answer .ok 0x13 [])) :=
    (next_of_judged free rfl (by simp [holds, range])).trans (by rw [found])
  have same : x.id = id := (State.pack?_some found).2
  refine ⟨fun refused => ?_, fun alive idle => ?_, fun held => ?_, fun free => ?_⟩
  · refine s.onlyReplies_of_answer _ _ _ _ (writeOff.trans ?_)
    rw [State.judged_failed _ _ _ _ .state]
    rw [show decide (x.condition ≠ .exhausted ∧ s.inPathOf id = 0) = false from decide_eq_false (by tauto)]
    rfl
  · rw [State.judged_passed _ _ _ _ (by simp [alive, idle])] at writeOff
    have gone := pack?_runOut found idle .writtenOff none
    have woken : ((s.runOut id .writtenOff none).wakeAll s).pack? id = some (x.ranOut (x.restRun .writtenOff none)) := by
      rw [State.pack?_eq_head?, under_wakeAll _ s id (under_runOut found idle _ _), ← State.pack?_eq_head?, gone]
    have fields := x.ranOut_eq (x.restRun .writtenOff none)
    have off := x.runs_ranOut .writtenOff none
    have link : s.keepsBut ((s.runOut id .writtenOff none).wakeAll s) handled :=
      ((State.runOut_keeps s id .writtenOff none).mono (by decide)).trans ((State.wakeAll_keeps _ s).mono (by decide))
    have still : s.portsQuiet ∨ (s.queueFull ∧ ∀ k ∈ s.ret.packs, k.id = id → k.location = .store) →
        (∀ k ∈ s.ret.packs, k.id ≠ id → k ∈ ((s.runOut id .writtenOff none).wakeAll s).ret.packs) ∧
          (s.queueFull → s.keepsBut ((s.runOut id .writtenOff none).wakeAll s) [.packs, .stockTypes]) := fun quiet => by
      have same : (s.runOut id .writtenOff none).wakeAll s = s.runOut id .writtenOff none := by
        rcases quiet with quiet | ⟨full, stored⟩
        · exact State.wakeAll_waits _ s ((printersSettled_runOut s id _ _).portsQuiet quiet)
        · exact wakeAll_runOut_stored found idle _ _ full stored
      rw [same]
      refine ⟨fun k hk other => ?_, fun full => State.runOut_full full id _ _⟩
      rw [packs_runOut s found idle]
      exact List.mem_map.mpr ⟨k, hk, if_neg other⟩
    generalize (s.runOut id .writtenOff none).wakeAll s = u at writeOff woken link still
    generalize x.ranOut (x.restRun .writtenOff none) = y at woken fields off
    refine ⟨_, y, writeOff, woken, by rw [fields], by rw [fields], by rw [fields], by rw [fields], off _,
      fun d hd => (off d).trans (congrArg (x.runs d + ·) (if_neg hd)), ?_, (answered link (by decide) .ok 0x12 []).1, fun quiet => ?_⟩
    · rw [fields]
    · obtain ⟨others, parts⟩ := still quiet
      exact ⟨others, fun full => (answered (parts full) (by decide) .ok 0x12 []).2.mono (by decide)⟩
  · refine s.onlyReplies_of_answer _ _ _ _ (retire.trans ?_)
    rw [State.judged_failed _ _ _ _ .state]
    rw [show s.retirable x = false from Bool.eq_false_iff.mpr fun may => (s.retirable_iff x).mp may held]
    rfl
  · rw [State.judged_passed _ _ _ _ (by simp [(s.retirable_iff x).mpr free])] at retire
    obtain ⟨replies, keeps⟩ := answered (s.setPacks_keeps (s.ret.packs.filter fun k => decide (k.id ≠ id))) (by decide) .ok 0x13 []
    exact ⟨_, retire, rfl, replies, keeps.mono (by decide)⟩

end

