-- ==== Sys2Proof/Proofs/LoadMove.lean ====
section
/-! O39: LOAD PACK and MOVE PACK. -/

namespace Sys2Proof.Machine

/-! ### One port woken while the others are quiet -/

theorem State.wake_quiet {s : State} (before : State) {p : Fin 6} (quiet : s.portQuiet p) : s.wake before p = s := by
  unfold State.wake
  rw [s.choose_quiet .afresh p quiet, ite_self]

theorem State.othersQuiet.wake {s : State} {p : Fin 6} (quiet : s.othersQuiet p) (before : State) :
    (s.wake before p).othersQuiet p := by
  unfold State.wake
  split
  · exact quiet
  · exact fun q hq => (apart_choose s .afresh hq).quiet (quiet q hq)

theorem wake_foldl_quiet {s : State} {p : Fin 6} (quiet : s.othersQuiet p) (before : State) (l : List (Fin 6)) (hl : p ∉ l) :
    l.foldl (fun s q => s.wake before q) s = s := by
  induction l with
  | nil => rfl
  | cons q l ih =>
    rw [List.foldl_cons, State.wake_quiet before (quiet q fun same => hl (same ▸ List.mem_cons_self))]
    exact ih fun h => hl (List.mem_cons_of_mem _ h)

/-- While no port but one sends anything, waking the ports wakes that one. -/
theorem State.wakeAll_single {s : State} {p : Fin 6} (quiet : s.othersQuiet p) (before : State) :
    s.wakeAll before = s.wake before p := by
  obtain ⟨l, r, split⟩ := List.append_of_mem (mem_allPrinters p)
  have nodup := allPrinters_nodup
  rw [split] at nodup
  have apart := (List.nodup_middle.mp nodup).notMem
  unfold State.wakeAll
  rw [split, List.foldl_append, List.foldl_cons, wake_foldl_quiet quiet before l fun h => apart (List.mem_append_left r h)]
  exact wake_foldl_quiet (quiet.wake before) before r fun h => apart (List.mem_append_right l h)

theorem State.choose_clear {s : State} {p : Fin 6} (trigger : Trigger) (free : (s.printer p).outstanding = none)
    (state : (s.printer p).state = .faulted) (empty : s.path p = []) (confirm : (s.printer p).confirmPending = true)
    (timeouts : (s.printer p).timeoutCount = 0) : s.choose trigger p = s.send p .clear none := by
  unfold State.choose
  simp only
  rw [if_neg (by rw [free]; exact Bool.false_ne_true), state]
  exact if_pos ⟨empty, confirm, timeouts⟩

/-! ### The low-stock flag (R2) -/

/-- No type's low-notified flag differs. -/
def State.sameNotified (s t : State) : Prop := ∀ k, (t.stockType k).lowNotified = (s.stockType k).lowNotified

theorem State.sameNotified.trans {s t u : State} (h : s.sameNotified t) (k : t.sameNotified u) : s.sameNotified u :=
  fun i => (k i).trans (h i)

theorem sameNotified_of_same {s t : State} (h : t.ret.stockTypes = s.ret.stockTypes) : s.sameNotified t := fun k => by
  unfold State.stockType
  rw [h]

theorem sameNotified_foldl {α : Type} (f : State → α → State) (h : ∀ (s : State) x, s.sameNotified (f s x)) (xs : List α) (s : State) :
    s.sameNotified (xs.foldl f s) := by
  induction xs generalizing s with
  | nil => exact fun _ => rfl
  | cons x xs ih => exact (h s x).trans (ih _)

theorem sameNotified_arbitrate (s : State) : s.sameNotified s.arbitrate := fun k => by
  rw [((places_arbitrate s).stock k).1]

theorem sameNotified_endTest (s : State) (tag : Nat) : s.sameNotified (s.endTest tag) := by
  unfold State.endTest
  split
  · exact fun _ => rfl
  · split
    · exact (sameNotified_of_same rfl).trans (sameNotified_arbitrate _)
    · exact fun _ => rfl

theorem sameNotified_rerouteJob (s : State) (tag : Nat) : s.sameNotified (s.rerouteJob tag) := by
  unfold State.rerouteJob
  split
  · exact fun _ => rfl
  · split
    · exact fun _ => rfl
    · split
      · exact (sameNotified_of_same rfl).trans (sameNotified_endTest _ _)
      · split
        · exact sameNotified_of_same rfl
        · exact sameNotified_endTest s _

theorem sameNotified_passAll (s : State) : s.sameNotified s.passAll := by
  refine sameNotified_foldl _ (fun s p => ?_) _ s
  unfold State.reroutePass
  split
  · exact sameNotified_foldl _ sameNotified_rerouteJob _ s
  · exact fun _ => rfl

/-- After the check, a numbered type is low-notified exactly when its total is below its threshold (R2). -/
theorem lowStockCheck_notified {s : State} {k : Fin 8} (defined : (s.stockType k).definition.defined = true)
    (numbered : (s.stockType k).definition.numbered = true) :
    ((s.lowStockCheck k).stockType k).lowNotified = decide (s.totalRemaining k < (s.stockType k).threshold) := by
  unfold State.lowStockCheck
  simp only
  rw [if_pos (by rw [defined, numbered]; rfl)]
  by_cases low : s.totalRemaining k < (s.stockType k).threshold
  · rw [if_pos low, decide_eq_true low]
    split
    · assumption
    · rw [sameNotified_arbitrate, State.modStockType_same]
  · rw [if_neg low, decide_eq_false low, State.modStockType_same]

/-! ### A pack placed (R19, R20) -/

/-- While no port sends, a pack placed lets jobs be rerouted when it goes into a bin, and nothing else. -/
theorem packPlaced_quiet {s : State} (quiet : s.portsQuiet) (before : State) (l : Location) :
    s.packPlaced before l = if l = .store then s else s.passAll := by
  cases l with
  | store => exact (s.wakeAll_waits before quiet).trans (if_pos rfl).symm
  | bin p side =>
    exact (s.passAll.wakeAll_waits before ((serves_passAll s).portsQuiet quiet)).trans (if_neg nofun).symm

section
variable {s : State} (quiet : s.portsQuiet) (before : State) (l : Location)
include quiet

theorem serves_packPlaced : Serves s (s.packPlaced before l) := by
  rw [packPlaced_quiet quiet]
  split
  · exact .refl s
  · exact serves_passAll s

theorem sameNotified_packPlaced : s.sameNotified (s.packPlaced before l) := by
  rw [packPlaced_quiet quiet]
  split
  · exact fun _ => rfl
  · exact sameNotified_passAll s

theorem packPlaced_full (full : s.queueFull) : s.keepsBut (s.packPlaced before l) moved := by
  rw [packPlaced_quiet quiet]
  split
  · exact s.keepsBut_refl _
  · exact s.passAll_full full

end

/-! ### The fields of a LOAD PACK (R19) -/

theorem locationOf_isSome (n : Nat) : (locationOf n).isSome = true ↔ n ≤ 12 := by
  unfold locationOf printerOf
  split
  · simp [*]
  · split
    · rw [dif_pos (by omega)]
      simp
      omega
    · by_cases h : n ≤ 12
      · rw [dif_pos (by omega)]
        simp [h]
      · rw [dif_neg (by omega)]
        simp [h]

theorem directionOf_isSome (n : Nat) : (directionOf n).isSome = true ↔ n < 2 := by
  rcases n with _ | _ | n
  · exact ⟨fun _ => Nat.zero_lt_two, fun _ => rfl⟩
  · exact ⟨fun _ => Nat.one_lt_two, fun _ => rfl⟩
  · exact ⟨nofun, fun h => absurd h (by omega)⟩

theorem directionOf_code (d : Direction) : directionOf d.code = some d := by cases d <;> rfl

theorem packOf_none {id k first count direction destination : Nat}
    (h : ¬ ((1 ≤ id ∧ id ≤ 65535) ∧ k < 8 ∧ first ≤ 999999999 ∧ (1 ≤ count ∧ count ≤ 2000) ∧ direction < 2 ∧ destination ≤ 12)) :
    packOf id k first count direction destination = none := by
  rw [Option.eq_none_iff_forall_not_mem]
  intro x hx
  unfold packOf at hx
  simp only [Option.bind_eq_bind, Option.mem_def, Option.bind_eq_some_iff] at hx
  obtain ⟨i, type, d, way, l, place, fields⟩ := hx
  split at fields
  next ranges =>
    obtain ⟨ids, serials, counts⟩ := ranges
    refine h ⟨(numberInRange_iff id).mp ids, ?_, of_decide_eq_true serials, of_decide_eq_true counts,
      (directionOf_isSome _).mp (by rw [way]; rfl), (locationOf_isSome _).mp (by rw [place]; rfl)⟩
    by_contra high
    unfold stockOf at type
    rw [dif_neg high] at type
    cases type
  · cases fields

/-- The record of a pack loaded (R19). -/
def Pack.fresh (id first count : Nat) (k : Fin 8) (d : Direction) (l : Location) : Pack :=
  { id := id, stockType := k, first := first, count := count, direction := d, next := some first,
    remaining := count, location := l, condition := .usable, exceptions := [] }

theorem packOf_some {id first count destination : Nat} {l : Location} (k : Fin 8) (d : Direction) (low : 1 ≤ id) (high : id ≤ 65535)
    (serial : first ≤ 999999999) (least : 1 ≤ count) (most : count ≤ 2000) (place : locationOf destination = some l) :
    packOf id k.val first count d.code destination = some (.fresh id first count k d l) := by
  unfold packOf
  rw [stockOf_val, directionOf_code, place]
  exact if_pos ⟨(numberInRange_iff id).mpr ⟨low, high⟩, decide_eq_true serial, decide_eq_true ⟨least, most⟩⟩

/-! ### Refusals in the words of a statement -/

/-- A judged request refuses by its checks said otherwise (R163). -/
theorem refuses_of_judged_iff (s taken : State) (c : Instr) (request : Nat) {checks : List (Bool × ReplyCode)}
    {props : List (Prop × ReplyCode)} (same : List.Forall₂ (fun x y => (x.1 = true ↔ y.1) ∧ x.2 = y.2) checks props)
    (h : exec c s = .next (s.judged request checks taken)) : s.refuses c request props := by
  have eq : (checks.map fun x => (x.1 = true, x.2)) = props := by
    clear h
    induction same with
    | nil => rfl
    | cons here _ ih => rw [List.map_cons, ih, here.2, propext here.1]
  exact eq ▸ s.refuses_of_judged taken c request checks h

theorem Pack.fits_iff {id first count : Nat} {k : Fin 8} {d : Direction} {l : Location} (digits : Nat) (least : 1 ≤ count) :
    (Pack.fresh id first count k d l).fits digits = true ↔
      ∀ n : Int, (Pack.fresh id first count k d l).holdsSerial n → 0 ≤ n ∧ n ≤ 999999999 ∧ n < 10 ^ digits := by
  simp only [Pack.holdsSerial_iff]
  have ordered : (Pack.fresh id first count k d l).range.1 ≤ (Pack.fresh id first count k d l).range.2 := by
    unfold Pack.range Pack.fresh
    cases d <;> simp only <;> omega
  refine decide_eq_true_iff.trans ⟨fun ⟨low, high, digits⟩ n ⟨above, below⟩ => ⟨by omega, by omega, by omega⟩, fun all => ?_⟩
  exact ⟨(all _ ⟨le_rfl, ordered⟩).1, (all _ ⟨ordered, le_rfl⟩).2⟩

theorem pack?_isNone_iff (s : State) (id : Nat) : (s.pack? id).isNone = true ↔ ∀ y ∈ s.ret.packs, y.id ≠ id := by
  unfold State.pack?
  simp

/-! ### A pack created and a pack moved while no port sends -/

section
variable {s : State} (quiet : s.portsQuiet) (x : Pack)
include quiet

theorem serves_createPack : Serves (s.setPacks (s.ret.packs ++ [x])) (s.createPack x) :=
  have served := serves_lowStockCheck (s.setPacks (s.ret.packs ++ [x])) x.stockType
  served.trans (serves_packPlaced (served.portsQuiet quiet) s x.location)

theorem createPack_notified (defined : (s.stockType x.stockType).definition.defined = true)
    (numbered : (s.stockType x.stockType).definition.numbered = true)
    (set : ((s.createPack x).stockType x.stockType).lowNotified = true) :
    (s.createPack x).totalRemaining x.stockType < ((s.createPack x).stockType x.stockType).threshold := by
  have served := serves_lowStockCheck (s.setPacks (s.ret.packs ++ [x])) x.stockType
  have checked := (sameNotified_packPlaced (served.portsQuiet quiet) s x.location x.stockType).symm.trans set
  rw [lowStockCheck_notified (s := s.setPacks (s.ret.packs ++ [x])) defined numbered, decide_eq_true_eq] at checked
  have whole := serves_createPack quiet x
  rw [StockType.of_settled (whole.stockTypes x.stockType)]
  exact (State.totalRemaining_keeps whole.parts (by decide) x.stockType).trans_lt checked

theorem createPack_full (full : s.queueFull) : s.keepsBut (s.createPack x) [.packs, .stockTypes, .printers, .pool] ∧
    (x.location = .store → s.keepsBut (s.createPack x) [.packs, .stockTypes]) := by
  have added := s.setPacks_keeps (s.ret.packs ++ [x])
  have checked : s.keepsBut ((s.setPacks (s.ret.packs ++ [x])).lowStockCheck x.stockType) [.packs, .stockTypes] :=
    (added.mono (by decide)).trans ((State.lowStockCheck_full _ _ (full.carry added (by decide))).mono (by decide))
  have still : ((s.setPacks (s.ret.packs ++ [x])).lowStockCheck x.stockType).portsQuiet := (serves_lowStockCheck _ _).portsQuiet quiet
  refine ⟨(checked.mono (by decide)).trans ((packPlaced_full still s _ (full.carry checked (by decide))).mono (by decide)),
    fun stored => ?_⟩
  unfold State.createPack
  rw [packPlaced_quiet still, if_pos stored]
  exact checked

theorem serves_relocate (l : Location) : Serves (s.modPack x.id fun k => { k with location := l }) (s.relocate x l) :=
  serves_packPlaced (s := s.modPack x.id fun k => { k with location := l }) quiet s l

theorem relocate_full (l : Location) (full : s.queueFull) : s.keepsBut (s.relocate x l) [.packs, .pool, .printers] ∧
    (l = .store → s.keepsBut (s.relocate x l) [.packs]) := by
  have changed := s.modPack_keeps x.id fun k => { k with location := l }
  have still : (s.modPack x.id fun k => { k with location := l }).portsQuiet := quiet
  refine ⟨(changed.mono (by decide)).trans ((packPlaced_full still s l (full.carry changed (by decide))).mono (by decide)),
    fun stored => ?_⟩
  unfold State.relocate
  rw [packPlaced_quiet still, if_pos stored]
  exact changed

end

/-- The pack of a bin moved into STORE leaves the bin empty. -/
theorem binPack?_moved_out {s : State} {x : Pack} {p : Fin 6} {side : Bin}
    (only : ∀ y ∈ s.ret.packs, y.location = .bin p side → y.id = x.id) :
    (s.modPack x.id fun k => { k with location := .store }).binPack? p side = none := by
  refine List.find?_eq_none.mpr fun k hk => ?_
  obtain ⟨y, hy, rfl⟩ := List.mem_map.mp hk
  rw [decide_eq_true_eq]
  split
  · exact nofun
  next other => exact fun here => other (only y hy here)

theorem binPack?_isSome {s : State} {x : Pack} {p : Fin 6} {side : Bin} (mem : x ∈ s.ret.packs) (here : x.location = .bin p side) :
    (s.binPack? p side).isSome = true :=
  List.find?_isSome.mpr ⟨x, mem, decide_eq_true here⟩

/-- A pack moved out of a bin of a FAULTED printer with nothing in path and a pending confirmation lets its port send CLEAR. -/
theorem relocate_clears {s : State} {x : Pack} {p : Fin 6} {side : Bin} (others : s.othersQuiet p) (mem : x ∈ s.ret.packs)
    (here : x.location = .bin p side) (only : ∀ y ∈ s.ret.packs, y.location = .bin p side → y.id = x.id)
    (free : (s.printer p).outstanding = none) (state : (s.printer p).state = .faulted) (empty : s.path p = [])
    (confirm : (s.printer p).confirmPending = true) (timeouts : (s.printer p).timeoutCount = 0) :
    s.relocate x .store = (s.modPack x.id fun k => { k with location := .store }).send p .clear none := by
  have gone := binPack?_moved_out only
  have was := binPack?_isSome mem here
  have differs : (s.modPack x.id fun k => { k with location := .store }).dispatchView p ≠ s.dispatchView p := fun same => by
    have bins : ((s.modPack x.id fun k => { k with location := .store }).binPack? p side).map Pack.view =
        (s.binPack? p side).map Pack.view := by
      cases side
      · exact congrArg DispatchView.binA same
      · exact congrArg DispatchView.binB same
    rw [gone] at bins
    rw [← Option.isSome_map (f := Pack.view), ← bins] at was
    cases was
  refine (State.wakeAll_single (s := s.modPack x.id fun k => { k with location := .store }) others s).trans ?_
  exact (if_neg differs).trans (State.choose_clear .afresh free state empty confirm timeouts)

end Sys2Proof.Machine

open Sys2Proof Sys2Proof.Machine

/-- Settles O39: the pack placed, and the one port that a move can wake. -/
theorem loadAndMovePack : Obligations.LoadAndMovePack := by
  refine ⟨?load, ?move, ?clear, ?loadFields, ?loadRules, ?moveRules⟩
  case load =>
    intro s pos id first count k d destination l free quiet holds audit low high serial least most place x defined numbered fits apart
      room admits
    have checks : judge (s.loadChecks x) = none := (judge_eq_none _).mpr (by
      have new := (pack?_isNone_iff s id).mpr fun y hy => (apart y hy).1
      have clear : s.ret.packs.any x.collides = false := List.any_eq_false.mpr fun y hy => by
        rw [(apart y hy).2]
        exact Bool.false_ne_true
      simp only [State.loadChecks, List.forall_mem_cons, List.not_mem_nil, false_implies, implies_true, and_true]
      exact ⟨by rw [defined, numbered]; rfl, fits, new, by rw [clear]; rfl, decide_eq_true room, admits⟩)
    have next : exec (.loadPack pos id k.val first count d.code destination) s = .next ((s.createPack x).answer .ok 0x10 []) :=
      (next_of_judged free rfl (by simp [holds, audit])).trans (by
        rw [packOf_some k d low high serial least most place]
        exact congrArg _ (State.judged_passed _ _ _ _ checks))
    have whole := serves_createPack quiet x
    have link := ((s.setPacks_keeps (s.ret.packs ++ [x])).mono (by decide)).trans (whole.parts.mono (by decide)) (l := handled)
    have packs : (s.createPack x).ret.packs = s.ret.packs ++ [x] := whole.parts .packs (by decide)
    refine ⟨_, next, packs, (answered link (by decide) .ok 0x10 []).1, createPack_notified quiet x defined numbered,
      fun full stored => ?_, fun full => ?_⟩
    · exact (answered ((createPack_full quiet x full).2 stored) (by decide) .ok 0x10 []).2.mono (by decide)
    · exact (answered (createPack_full quiet x full).1 (by decide) .ok 0x10 []).2.mono (by decide)
  case move =>
    intro s pos id destination x l free quiet holds low high found place alive idle other admits
    obtain ⟨-, same⟩ := State.pack?_some found
    have next : exec (.movePack pos id destination) s = .next ((s.relocate x l).answer .ok 0x11 []) :=
      (next_of_judged free rfl (by simp [holds, (numberInRange_iff id).mpr ⟨low, high⟩])).trans (by
        rw [found]
        unfold State.move
        rw [place]
        exact congrArg _ (State.judged_passed _ _ _ _ (by simp [same, alive, idle, other, admits])))
    have whole := serves_relocate quiet x l
    have link := ((s.modPack_keeps x.id fun k => { k with location := l }).mono (by decide)).trans
      (whole.parts.mono (by decide)) (l := handled)
    have packs : (s.relocate x l).ret.packs = s.ret.packs.map fun k => if k.id = id then { k with location := l } else k := by
      rw [← same]
      exact whole.parts .packs (by decide)
    refine ⟨_, next, packs, (answered link (by decide) .ok 0x11 []).1, fun full stored => ?_, fun full => ?_⟩
    · exact (answered ((relocate_full quiet x l full).2 stored) (by decide) .ok 0x11 []).2.mono (by decide)
    · exact (answered (relocate_full quiet x l full).1 (by decide) .ok 0x11 []).2.mono (by decide)
  case clear =>
    intro s pos id destination x p side free others holds low high found place here alive idle only r slot state empty confirm timeouts
    obtain ⟨mem, same⟩ := State.pack?_some found
    have next : exec (.movePack pos id destination) s = .next ((s.relocate x .store).answer .ok 0x11 []) :=
      (next_of_judged free rfl (by simp [holds, (numberInRange_iff id).mpr ⟨low, high⟩])).trans (by
        rw [found]
        unfold State.move
        rw [place]
        exact congrArg _ (State.judged_passed _ _ _ _ (by simp [same, alive, idle, here, State.admits])))
    rw [relocate_clears others mem here (by rw [same]; exact only) slot state empty confirm timeouts] at next
    obtain ⟨record, rest, keeps⟩ := State.send_spec (s.modPack x.id fun k => { k with location := .store }) p .clear
    obtain ⟨replies, parts⟩ := answered (((s.modPack_keeps x.id fun k => { k with location := .store }).mono (by decide)).trans
      (keeps.mono (by decide)) (l := [.packs, .printers])) (by decide) .ok 0x11 []
    exact ⟨_, next, record, rest, replies, parts.mono (by decide)⟩
  case loadFields =>
    intro s pos id k first count direction destination free holds
    refine ⟨fun lost => onlyReplies_of_judged free rfl (by simp [judge, holds, lost]), fun audit => ⟨fun outside => ?_, fun _ => trivial⟩⟩
    refine s.onlyReplies_of_answer _ _ _ _ ((next_of_judged free rfl (by simp [holds, audit])).trans ?_)
    rw [packOf_none outside]
  case loadRules =>
    intro s pos id first count k d destination l free holds audit low high serial least most place x stock
    refine refuses_of_judged_iff s ((s.createPack x).answer .ok 0x10 []) _ _ (checks := s.loadChecks x) ?_
      ((next_of_judged free rfl (by simp [holds, audit])).trans (by rw [packOf_some k d low high serial least most place]; rfl))
    refine .cons ⟨Bool.and_eq_true_iff, rfl⟩ (.cons ⟨Pack.fits_iff _ least, rfl⟩ (.cons ⟨pack?_isNone_iff s id, rfl⟩
      (.cons ⟨?_, rfl⟩ (.cons ⟨decide_eq_true_iff, rfl⟩ (.cons ⟨s.admits_iff l, rfl⟩ .nil)))))
    rw [Bool.not_eq_true', List.any_eq_false]
    refine forall₂_congr fun y _ => ?_
    rw [Pack.collides_iff_shared, not_and, not_exists]
    exact ⟨fun h same => h same.symm, fun h same => h same.symm⟩
  case moveRules =>
    intro s pos id destination free holds
    refine ⟨fun outside => onlyReplies_of_judged free rfl (by simp [judge, holds, mt (numberInRange_iff id).mp outside]), fun range => ?_⟩
    have next : exec (.movePack pos id destination) s = .next (match s.pack? id with
        | none => s.answer .notFound 0x11 []
        | some k => s.move k destination) :=
      next_of_judged free rfl (by simp [holds, (numberInRange_iff id).mpr range])
    cases found : s.pack? id with
    | none =>
      rw [found] at next
      have unknown : ¬ ∃ y ∈ s.ret.packs, y.id = id := fun ⟨y, hy, same⟩ =>
        (pack?_isNone_iff s id).mp (by rw [found]; rfl) y hy same
      exact ⟨fun _ => s.onlyReplies_of_answer _ _ _ _ next, fun known => absurd known unknown⟩
    | some x =>
      obtain ⟨mem, same⟩ := State.pack?_some found
      rw [found] at next
      refine ⟨fun unknown => absurd ⟨x, mem, same⟩ unknown, fun _ => ?_⟩
      unfold State.move at next
      cases place : locationOf destination with
      | none =>
        rw [place] at next
        have outside : ¬ destination ≤ 12 := fun h => by
          have some := (locationOf_isSome destination).mpr h
          rw [place] at some
          cases some
        exact ⟨fun _ => s.onlyReplies_of_answer _ _ _ _ next, fun within => absurd within outside⟩
      | some l =>
        rw [place] at next
        have within := (locationOf_isSome destination).mp (by rw [place]; rfl)
        refine ⟨fun outside => absurd within outside, fun _ => refuses_of_judged_iff s _ _ _ (.cons ⟨?_, rfl⟩ .nil) next⟩
        rw [Bool.and_eq_true, decide_eq_true_eq, State.admits_iff, same]
        constructor
        · rintro ⟨⟨alive, idle, other⟩, free⟩ y m hy hm
          cases hy
          cases hm
          exact ⟨alive, idle, other, free⟩
        · intro all
          obtain ⟨alive, idle, other, free⟩ := all x l rfl rfl
          exact ⟨⟨alive, idle, other⟩, free⟩

end

