-- ==== Sys2Proof/Proofs/Tallying.lean ====
section
/-! SUPPORT. The tally sets and recent-issues lists of the positions (R125, R128 to R137): what a credit and a spoil do to them, and what
leaves them alone. -/

namespace Sys2Proof.Machine

/-! ### Reading what was written -/

theorem tallies_modTallies (s : State) (pos q : Position) (f : Tallies → Tallies) :
    (s.modTallies pos f).tallies q = if q = pos then f (s.tallies q) else s.tallies q := by
  cases pos with
  | console => cases q <;> rfl
  | window w =>
    cases q with
    | console => rfl
    | window v =>
      simp only [State.tallies, State.modTallies, State.window_modWindow, Position.window.injEq]
      split <;> rfl

theorem tallies_modRecent (s : State) (pos q : Position) (f : List RecentIssue → List RecentIssue) :
    (s.modRecent pos f).tallies q = s.tallies q := by
  cases pos with
  | console => cases q <;> rfl
  | window w =>
    cases q with
    | console => rfl
    | window v =>
      simp only [State.tallies, State.modRecent, State.window_modWindow]
      split <;> rfl

theorem recent_modTallies (s : State) (pos q : Position) (f : Tallies → Tallies) : (s.modTallies pos f).recent q = s.recent q :=
  congrFun (congrArg Stock.recent (stock_modTallies s pos f)) q

theorem recent_modRecent (s : State) (pos q : Position) (f : List RecentIssue → List RecentIssue) :
    (s.modRecent pos f).recent q = if q = pos then f (s.recent q) else s.recent q :=
  congrFun (congrArg Stock.recent (stock_modRecent s pos f)) q

/-! ### What leaves the positions alone -/

/-- No tally set or recent issue changes, nor what a credit reads. -/
structure Untallied (s t : State) : Prop where
  kept : s.talliesKept t
  counted : ∀ pos shift, t.counted pos shift ↔ s.counted pos shift
  live : t.live = s.live

theorem State.talliesKept.trans {s t u : State} (h : s.talliesKept t) (k : t.talliesKept u) : s.talliesKept u := fun q =>
  ⟨(k q).1.trans (h q).1, (k q).2.trans (h q).2⟩

theorem Untallied.refl (s : State) : Untallied s s := ⟨fun _ => ⟨rfl, rfl⟩, fun _ _ => Iff.rfl, rfl⟩

theorem Untallied.trans {s t u : State} (h : Untallied s t) (k : Untallied t u) : Untallied s u :=
  ⟨h.kept.trans k.kept, fun pos shift => (k.counted pos shift).trans (h.counted pos shift), k.live.trans h.live⟩

theorem untallied_of_keeps {s t : State} {l : List Part} (h : s.keepsBut t l) (console : Part.console ∉ l) (windows : Part.windows ∉ l)
    (live : Part.live ∉ l) : Untallied s t where
  kept q := by
    have same : t.ret.console = s.ret.console := h .console console
    have each : t.ret.windows = s.ret.windows := h .windows windows
    cases q <;> simp only [State.tallies, State.recent, State.window, same, each, and_self]
  counted pos shift := by
    have each : t.ret.windows = s.ret.windows := h .windows windows
    unfold State.counted State.window
    rw [each]
  live := h .live live

theorem WindowRecord.follows.closed_iff {r r' : WindowRecord} (h : r.follows r') : r'.state = .closed ↔ r.state = .closed := by
  rcases h.2 with same | ⟨was, now⟩
  · rw [same]
  · rw [was, now]
    decide

theorem Logs.untallied {s t : State} (h : Logs s t) : Untallied s t where
  kept q := by
    cases q with
    | console =>
      simp only [State.tallies, State.recent]
      rw [h.console]
      exact ⟨rfl, rfl⟩
    | window w =>
      simp only [State.tallies, State.recent]
      rw [(h.windows w).1]
      exact ⟨rfl, rfl⟩
  counted pos shift := by
    refine or_congr Iff.rfl (exists_congr fun w => and_congr_right' (and_congr (h.windows w).closed_iff.not ?_))
    rw [(h.windows w).1]
  live := h.parts .live (by decide)

theorem Serves.untallied {s t : State} (h : Serves s t) : Untallied s t := h.logs.untallied

theorem untallied_modPath (s : State) (p : Fin 6) (f : List InPathEntry → List InPathEntry) : Untallied s (s.modPath p f) :=
  (untallied_of_keeps (s.setInPath_keeps _) (by decide) (by decide) (by decide)).trans (logs_syncBusy _ p).untallied

theorem untallied_modPack (s : State) (id : Nat) (f : Pack → Pack) : Untallied s (s.modPack id f) :=
  untallied_of_keeps (s.modPack_keeps id f) (by decide) (by decide) (by decide)

theorem untallied_addException (s : State) (id : Nat) (e : ExceptionEntry) : Untallied s (s.addException id e) := by
  unfold State.addException
  split
  · exact .refl s
  · simp only
    split
    · exact untallied_modPack s id _
    · exact (untallied_modPack s id _).trans (serves_lowStockCheck _ _).untallied

theorem untallied_choose (s : State) (trigger : Trigger) (p : Fin 6) : Untallied s (s.choose trigger p) := by
  rcases choose_cases s trigger p with sent | logs
  · obtain ⟨-, j, copy, s', e, side, -, -, taken, whole⟩ := State.dispatch_some sent
    obtain ⟨-, -, k, -, -, state⟩ := State.take_some taken
    rw [whole]
    have took : Untallied s s' := by
      rw [state]
      exact ((untallied_modPack s _ _).trans (untallied_modPath _ p _)).trans (serves_lowStockCheck _ _).untallied
    exact (took.trans (logs_send _ p _ _).untallied).trans
      (untallied_of_keeps (State.modJob_keeps _ _ _) (by decide) (by decide) (by decide))
  · exact logs.untallied

theorem untallied_foldl {α : Type} (f : State → α → State) (h : ∀ s x, Untallied s (f s x)) (xs : List α) (s : State) :
    Untallied s (xs.foldl f s) := by
  induction xs generalizing s with
  | nil => exact .refl s
  | cons x xs ih => exact (h s x).trans (ih _)

theorem untallied_wakeAll (s before : State) : Untallied s (s.wakeAll before) :=
  untallied_foldl _ (fun s p => by
    unfold State.wake
    split
    · exact .refl s
    · exact untallied_choose s _ p) _ s

/-! ### Positions apart from their tally sets -/

theorem positionsKeptButTallies_refl (s : State) : s.positionsKeptButTallies s := ⟨fun _ => rfl, rfl⟩

theorem State.positionsKeptButTallies.trans {s t u : State} (h : s.positionsKeptButTallies t) (k : t.positionsKeptButTallies u) :
    s.positionsKeptButTallies u :=
  ⟨fun w => by rw [k.1 w, h.1 w], by rw [k.2, h.2]⟩

theorem positionsKeptButTallies_of_keeps {s t : State} {l : List Part} (h : s.keepsBut t l) (console : Part.console ∉ l)
    (windows : Part.windows ∉ l) : s.positionsKeptButTallies t := by
  have same : t.ret.console = s.ret.console := h .console console
  have each : t.ret.windows = s.ret.windows := h .windows windows
  unfold State.positionsKeptButTallies State.window
  rw [same, each]
  exact ⟨fun _ => rfl, rfl⟩

theorem positionsKeptButTallies_modTallies (s : State) (pos : Position) (f : Tallies → Tallies) :
    s.positionsKeptButTallies (s.modTallies pos f) := by
  cases pos with
  | console => exact ⟨fun _ => rfl, rfl⟩
  | window w =>
    refine ⟨fun v => ?_, rfl⟩
    unfold State.modTallies
    rw [State.window_modWindow]
    split <;> rfl

theorem positionsKeptButTallies_modRecent (s : State) (pos : Position) (f : List RecentIssue → List RecentIssue) :
    s.positionsKeptButTallies (s.modRecent pos f) := by
  cases pos with
  | console => exact ⟨fun _ => rfl, rfl⟩
  | window w =>
    refine ⟨fun v => ?_, rfl⟩
    unfold State.modRecent
    rw [State.window_modWindow]
    split <;> rfl

/-! ### Credits and spoils (R134, R136) -/

theorem State.creditable_iff (s : State) (pos : Position) (shift : Nat) : s.creditable pos shift = true ↔ s.counted pos shift := by
  unfold State.creditable State.counted
  cases pos <;> simp

theorem Tallies.moveResidue_eq (t : Tallies) (d : Tender) (r : Int) :
    t.moveResidue d r = { t with residue := if d = .cash then clampResidue (t.residue + r) else t.residue } := by
  unfold Tallies.moveResidue
  split <;> rfl

theorem TenderTally.addSale_eq (y : TenderTally) (amount : Nat) : y.addSale amount = { y with
    sales := min 999999999 (y.sales + amount)
    salesCount := min 65535 (y.salesCount + 1)
    saturated := y.saturated || decide (999999999 < y.sales + amount) } := by
  unfold TenderTally.addSale raiseCount
  rw [saturating_eq_min, saturating_eq_min]
  rfl

theorem State.saleOf_eq (s : State) (d : Tender) (value : Nat) : s.saleOf d value =
    (if d = .cash then roundSale s.live.office.unit value else value,
      if d = .cash then ((if d = .cash then roundSale s.live.office.unit value else value : Nat) : Int) - value else 0) := by
  unfold State.saleOf
  split <;> rfl

theorem Tallies.credit_eq (t : Tallies) (d : Tender) (amount : Nat) (residue : Int) (k : Fin 8) : t.credit d amount residue k = { t with
    tender := t.tender.update d (·.addSale amount)
    residue := if d = .cash then clampResidue (t.residue + residue) else t.residue
    stock := updAt t.stock k fun x => { x with issued := raiseCount x.issued } } := by
  unfold Tallies.credit
  rw [Tallies.moveResidue_eq]
  rfl

/-- What a credit does (R134). -/
theorem credit_spec (s : State) (e : InPathEntry) (k : Fin 8) :
    s.creditsOrDiscards (s.credit e.position e.shift k e.serial e.pack e.value e.tender) e k ∧
      s.positionsKeptButTallies (s.credit e.position e.shift k e.serial e.pack e.value e.tender) := by
  unfold State.credit
  by_cases may : s.creditable e.position e.shift = true
  · have counted := (s.creditable_iff _ _).mp may
    rw [if_pos may]
    simp only
    refine ⟨⟨fun _ => ?_, fun out => absurd counted out, fun q hq => ?_⟩,
      (positionsKeptButTallies_modTallies s _ _).trans (positionsKeptButTallies_modRecent _ _ _)⟩
    · unfold State.credits
      simp only
      rw [tallies_modRecent, tallies_modTallies, if_pos rfl, recent_modRecent, if_pos rfl, recent_modTallies, Tallies.credit_eq,
        State.saleOf_eq]
      refine ⟨?_, ?_, othersKept_updAt _ _ _, rfl⟩
      · rw [funext fun y => TenderTally.addSale_eq y _]
      · rw [updAt_same]
        unfold raiseCount
        rw [saturating_eq_min]
        rfl
    · rw [tallies_modRecent, tallies_modTallies, if_neg hq, recent_modRecent, if_neg hq, recent_modTallies]
      exact ⟨rfl, rfl⟩
  · rw [if_neg may]
    exact ⟨⟨fun counted => absurd ((s.creditable_iff _ _).mpr counted) may, fun _ => ⟨rfl, rfl⟩, fun _ _ => ⟨rfl, rfl⟩⟩,
      positionsKeptButTallies_refl s⟩

/-- What a spoil does (R136). -/
theorem countSpoil_spec (s : State) (e : InPathEntry) (k : Fin 8) :
    s.spoilsOrDiscards (s.countSpoil e.position e.shift k) e k ∧ s.positionsKeptButTallies (s.countSpoil e.position e.shift k) := by
  unfold State.countSpoil
  by_cases may : s.creditable e.position e.shift = true
  · have counted := (s.creditable_iff _ _).mp may
    rw [if_pos may]
    refine ⟨⟨fun _ => ?_, fun out => absurd counted out, recent_modTallies s _ _ _, fun q hq => ?_⟩,
      positionsKeptButTallies_modTallies s _ _⟩
    · rw [tallies_modTallies, if_pos rfl]
      refine ⟨rfl, ?_, othersKept_updAt _ _ _⟩
      unfold Tallies.spoil Tallies.modStock raiseCount
      rw [updAt_same, saturating_eq_min]
      rfl
    · rw [tallies_modTallies, if_neg hq, recent_modTallies]
      exact ⟨rfl, rfl⟩
  · rw [if_neg may]
    exact ⟨⟨fun counted => absurd ((s.creditable_iff _ _).mpr counted) may, fun _ => rfl, rfl, fun _ _ => ⟨rfl, rfl⟩⟩,
      positionsKeptButTallies_refl s⟩

theorem State.talliesKeptBut.carry {s u v t : State} {pos : Position} (h : s.talliesKept u) (c : u.talliesKeptBut v pos)
    (k : v.talliesKept t) : s.talliesKeptBut t pos := fun q hq =>
  ⟨((k q).1.trans (c q hq).1).trans (h q).1, ((k q).2.trans (c q hq).2).trans (h q).2⟩

/-- A credit among steps that leave the positions alone. -/
theorem State.creditsOrDiscards.carry {s u v t : State} {e : InPathEntry} {k : Fin 8} (h : Untallied s u)
    (c : u.creditsOrDiscards v e k) (after : v.talliesKept t) : s.creditsOrDiscards t e k := by
  obtain ⟨credits, discards, others⟩ := c
  obtain ⟨was, wasRecent⟩ := h.kept e.position
  obtain ⟨now, nowRecent⟩ := after e.position
  refine ⟨fun counted => ?_, fun out => ?_, others.carry h.kept after⟩
  · have credits := credits ((h.counted _ _).mpr counted)
    unfold State.credits at credits ⊢
    rw [was, wasRecent, h.live] at credits
    rw [now, nowRecent]
    exact credits
  · obtain ⟨tallies, recent⟩ := discards (mt (h.counted _ _).mp out)
    exact ⟨(now.trans tallies).trans was, (nowRecent.trans recent).trans wasRecent⟩

/-- A spoil among steps that leave the positions alone. -/
theorem State.spoilsOrDiscards.carry {s u v t : State} {e : InPathEntry} {k : Fin 8} (h : Untallied s u)
    (c : u.spoilsOrDiscards v e k) (after : v.talliesKept t) : s.spoilsOrDiscards t e k := by
  obtain ⟨spoils, discards, recent, others⟩ := c
  obtain ⟨was, wasRecent⟩ := h.kept e.position
  obtain ⟨now, nowRecent⟩ := after e.position
  refine ⟨fun counted => ?_, fun out => ?_, (nowRecent.trans recent).trans wasRecent, others.carry h.kept after⟩
  · have spoils := spoils ((h.counted _ _).mpr counted)
    rw [was] at spoils
    rw [now]
    exact spoils
  · exact (now.trans (discards (mt (h.counted _ _).mp out))).trans was

end Sys2Proof.Machine
end

