-- ==== Sys2Proof/Proofs/Void.lean ====
section
/-! O31: VOID TICKET. -/

namespace Sys2Proof.Machine

/-! ### Exception lists and woken ports -/

/-- Every pack read by its id has the exception list it had. -/
def State.sameExceptions (s t : State) : Prop := ∀ id, (t.pack? id).map (·.exceptions) = (s.pack? id).map (·.exceptions)

theorem State.sameExceptions.trans {s t u : State} (h : s.sameExceptions t) (k : t.sameExceptions u) : s.sameExceptions u :=
  fun id => (k id).trans (h id)

theorem sameExceptions_of_packs {s t : State} (h : t.ret.packs = s.ret.packs) : s.sameExceptions t := fun id => by
  unfold State.pack?
  rw [h]

theorem sameExceptions_modPack (s : State) (n : Nat) (f : Pack → Pack) (ids : ∀ k, (f k).id = k.id)
    (kept : ∀ k, (f k).exceptions = k.exceptions) : s.sameExceptions (s.modPack n f) := fun id => by
  rw [s.pack?_modPack n id f ids, Option.map_map]
  congr 1
  funext k
  simp only [Function.comp_apply]
  split
  · exact kept k
  · rfl

theorem sameExceptions_choose (s : State) (trigger : Trigger) (p : Fin 6) : s.sameExceptions (s.choose trigger p) := by
  rcases choose_cases s trigger p with sent | logs
  · obtain ⟨-, j, copy, s', e, side, -, -, taken, whole⟩ := State.dispatch_some sent
    obtain ⟨k, -, -, -, -, stock⟩ := stock_take s s' p _ _ _ _ taken
    refine (sameExceptions_modPack s k.id Pack.takeOne (fun _ => rfl) fun _ => rfl).trans (sameExceptions_of_packs ?_)
    rw [whole]
    exact congrArg Stock.packs stock
  · exact sameExceptions_of_packs (congrArg Stock.packs logs.stock)

theorem sameExceptions_wakeAll (s before : State) : s.sameExceptions (s.wakeAll before) := by
  unfold State.wakeAll
  generalize allPrinters = l
  induction l generalizing s with
  | nil => exact fun _ => rfl
  | cons p l ih =>
    have one : s.sameExceptions (s.wake before p) := by
      unfold State.wake
      split
      · exact fun _ => rfl
      · exact sameExceptions_choose s _ p
    exact one.trans (ih _)

/-! ### A run added to the packs under an id -/

theorem packs_addException (s : State) (id : Nat) (e : ExceptionEntry) :
    (s.addException id e).ret.packs = s.ret.packs.map fun k => if k.id = id then k.addRun e else k :=
  congrArg Stock.packs (stock_addException s id e)

theorem pack?_addRun (s : State) {id : Nat} {x : Pack} (found : s.pack? id = some x) (e : ExceptionEntry) :
    (s.modPack id (·.addRun e)).pack? id = some (x.addRun e) := by
  rw [s.pack?_modPack id id (·.addRun e) fun k => by rw [Pack.addRun_fields], found, Option.map_some,
    if_pos (State.pack?_some found).2]

/-- A run that suspends no pack is the whole of an exception added. -/
theorem addException_quiet {s : State} {id : Nat} {x : Pack} (found : s.pack? id = some x) {e : ExceptionEntry}
    (same : (x.addRun e).condition = x.condition) : s.addException id e = s.modPack id (·.addRun e) := by
  unfold State.addException
  rw [found]
  exact if_pos same

/-- What a take reads of a bin is untouched by a change that keeps it of every pack. -/
theorem binPack?_view (s : State) (id : Nat) (f : Pack → Pack) (location : ∀ k, (f k).location = k.location)
    (view : ∀ k ∈ s.ret.packs, k.id = id → (f k).view = k.view) (p : Fin 6) (side : Bin) :
    ((s.modPack id f).binPack? p side).map Pack.view = (s.binPack? p side).map Pack.view := by
  unfold State.binPack?
  have places : ((fun k : Pack => decide (k.location = .bin p side)) ∘ fun k => if k.id = id then f k else k) =
      fun k => decide (k.location = .bin p side) := by
    funext k
    simp only [Function.comp_apply]
    split
    · rw [location]
    · rfl
  rw [show (s.modPack id f).ret.packs = s.ret.packs.map fun k => if k.id = id then f k else k from rfl, List.find?_map, places]
  cases found : s.ret.packs.find? fun k => decide (k.location = .bin p side) with
  | none => rfl
  | some k =>
    simp only [Option.map_some]
    split
    next same => rw [view k (List.mem_of_find?_eq_some found) same]
    · rfl

theorem Pack.view_addRun {k : Pack} {e : ExceptionEntry} (same : (k.addRun e).condition = k.condition) : (k.addRun e).view = k.view := by
  unfold Pack.view
  rw [same, Pack.addRun_fields]

/-! ### The void (R73, R137) -/

theorem subjectOf_actsOn {pos : Position} {target : Nat} {w : Fin 15} (acts : actsOn pos target w) : subjectOf pos target = some w := by
  rcases acts with rfl | ⟨rfl, rfl⟩
  · rfl
  · exact dif_pos ⟨Nat.le_add_left 1 w.val, w.isLt⟩

/-- What a void does before the ports are woken. -/
def State.voided (s : State) (w : Fin 15) (e : RecentIssue) : State :=
  ((s.addException e.pack (e.voidRun w)).modTallies (.window w) (·.reverse e)).modRecent (.window w) (·.erase e)

theorem voidEntry_eq (s : State) (w : Fin 15) (e : RecentIssue) : s.voidEntry w e = (s.voided w e).wakeAll s := rfl

section
variable (s : State) (w : Fin 15) (e : RecentIssue)

theorem tallies_voided : (s.voided w e).tallies (.window w) = (s.tallies (.window w)).reverse e := by
  unfold State.voided
  rw [tallies_modRecent, tallies_modTallies, if_pos rfl, ((untallied_addException s _ _).kept (.window w)).1]

theorem recent_voided : (s.voided w e).recent (.window w) = (s.recent (.window w)).erase e := by
  unfold State.voided
  rw [recent_modRecent, if_pos rfl, recent_modTallies, ((untallied_addException s _ _).kept (.window w)).2]

theorem packs_voided : (s.voided w e).ret.packs = (s.addException e.pack (e.voidRun w)).ret.packs := by
  unfold State.voided
  rw [show (State.modRecent _ _ _).ret.packs = _ from State.modRecent_keeps _ _ _ .packs (by decide)]
  exact State.modTallies_keeps _ _ _ .packs (by decide)

theorem voided_of_addException {l : List Part} (k : s.keepsBut (s.addException e.pack (e.voidRun w)) l) (hw : Part.windows ∉ l) :
    othersKept s.ret.windows (s.voided w e).ret.windows w ∧ s.keepsBut (s.voided w e) (.windows :: l) := by
  have windows : (s.addException e.pack (e.voidRun w)).ret.windows = s.ret.windows := k .windows hw
  have first := (s.addException e.pack (e.voidRun w)).modWindow_keeps w fun r => { r with tallies := r.tallies.reverse e }
  have second := State.modWindow_keeps ((s.addException e.pack (e.voidRun w)).modTallies (.window w) (·.reverse e)) w
    fun r => { r with recent := r.recent.erase e }
  refine ⟨?_, (k.mono (List.subset_cons_self _ _)).trans ((first.trans second).mono (by simp))⟩
  rw [← windows]
  exact (othersKept_updAt _ w _).trans (othersKept_updAt _ w _)

end

theorem PerTender.update_congr {α : Type} (t : PerTender α) (d : Tender) {f g : α → α} (same : f (t.get d) = g (t.get d)) :
    t.update d f = t.update d g := by
  cases d <;> simpa only [PerTender.update, PerTender.get, PerTender.mk.injEq, and_true, true_and] using same

theorem Tallies.reverse_eq (t : Tallies) (e : RecentIssue) : t.reverse e = { t with
    tender := t.tender.update e.tender (·.reverseSale e.credited)
    residue := if e.tender = .cash then clampResidue (t.residue - e.residue) else t.residue
    stock := updAt t.stock e.stockType fun x => { x with issued := x.issued - 1, voided := raiseCount x.voided } } := by
  unfold Tallies.reverse
  rw [Tallies.moveResidue_eq]
  rfl

/-- Waking the ports sends nothing while they are quiet, and nothing either where the run suspends no pack. -/
theorem wakeAll_voided {s : State} {w : Fin 15} {e : RecentIssue} {x : Pack} (found : s.pack? e.pack = some x)
    (calm : s.portsQuiet ∨ ∀ y ∈ s.ret.packs, y.id = e.pack → (y.addRun (e.voidRun w)).condition = y.condition) :
    (s.voided w e).wakeAll s = s.voided w e := by
  rcases calm with quiet | kept
  · refine State.wakeAll_waits _ s (((printersSettled_addException s e.pack (e.voidRun w)).trans ?_).portsQuiet quiet)
    exact printersSettled_of_same rfl
  · obtain ⟨mem, same⟩ := State.pack?_some found
    have added := addException_quiet found (kept x mem same)
    refine State.wakeAll_same _ s fun p => .inr ?_
    have packs : (s.voided w e).ret.packs = (s.modPack e.pack (·.addRun (e.voidRun w))).ret.packs := by rw [packs_voided, added]
    have keeps : s.keepsBut (s.voided w e) [.windows, .packs] :=
      (voided_of_addException s w e (by rw [added]; exact s.modPack_keeps _ _) (by decide)).2
    have live : (s.voided w e).live = s.live := keeps .live (by decide)
    have types : (s.voided w e).ret.stockTypes = s.ret.stockTypes := keeps .stockTypes (by decide)
    refine State.dispatchView_same p (keeps .printers (by decide)) (keeps .pool (by decide)) (keeps .inPath (by decide))
      (keeps .doubtful (by decide)) (fun k => by unfold State.layout; rw [live]) (fun k => by unfold State.stockType; rw [types])
      fun side => ?_
    refine Eq.trans ?_ (binPack?_view s e.pack (·.addRun (e.voidRun w)) (fun k => by rw [Pack.addRun_fields])
      (fun k hk same => Pack.view_addRun (kept k hk same)) p side)
    unfold State.binPack?
    rw [packs]

end Sys2Proof.Machine

open Sys2Proof Sys2Proof.Machine

/-- Settles O31: the run, the reversal and the entry removed, before the ports are woken. -/
theorem voidTicketReversesTheCredit : Obligations.VoidTicketReversesTheCredit := by
  intro s pos target serial w k e x free acts high may running entry found run room old line amount
  have named := List.find?_some entry
  rw [decide_eq_true_eq] at named
  obtain ⟨same, type⟩ := named
  have grade : s.mayVoid pos = true := by
    rcases may with rfl | held
    · rfl
    · cases pos
      · rfl
      · exact held
  have canVoid : s.canVoid w e = true := by
    unfold State.canVoid
    rw [found]
    exact Bool.or_eq_true_iff.mpr (room.imp id decide_eq_true)
  have next : exec (.voidTicket pos serial k.val target) s = .next
      (((s.voided w e).wakeAll s).answer .ok 0x04 (be 4 serial ++ be 1 e.tender.code ++ be 3 amount)) := by
    have taken : exec (.voidTicket pos serial k.val target) s = s.taken (.voidTicket pos serial k.val target)
        (s.judged 0x04 [(serialInRange serial, .range), (s.mayVoid pos, .grade)] (s.void w serial k)) := by
      change execVoidTicket pos serial k.val target s = _
      unfold execVoidTicket
      rw [stockOf_val, subjectOf_actsOn acts]
    refine (next_of_judged free taken (by simp [grade, serialInRange, high])).trans (congrArg _ ?_)
    unfold State.void
    rw [State.judged_passed _ _ _ _ ((judge_eq_none _).mpr (by simpa using running)), show s.recentEntry w serial k = some e from entry]
    simp only
    rw [State.judged_passed _ _ _ _ ((judge_eq_none _).mpr (by simp [canVoid])), voidEntry_eq, same]
    rfl
  have tallies : ((s.voided w e).wakeAll s).tallies (.window w) = old.reverse e :=
    ((untallied_wakeAll _ s).kept (.window w)).1.trans (tallies_voided s w e)
  have recent : ((s.voided w e).wakeAll s).recent (.window w) = (s.window w).recent.erase e :=
    ((untallied_wakeAll _ s).kept (.window w)).2.trans (recent_voided s w e)
  have pack : (s.voided w e).pack? e.pack = some (x.addRun run) := by
    refine Eq.trans ?_ (pack?_addRun s found (e.voidRun w))
    unfold State.pack?
    rw [packs_voided, packs_addException]
    rfl
  have exceptions : (((s.voided w e).wakeAll s).pack? e.pack).map (·.exceptions) = some (x.addRun run).exceptions := by
    rw [sameExceptions_wakeAll _ s e.pack, pack]
    rfl
  have link : s.keepsBut ((s.voided w e).wakeAll s) handled :=
    (((s.addException_keeps e.pack (e.voidRun w)).trans ((State.modTallies_keeps _ _ _).mono (by decide))).trans
      ((State.modRecent_keeps _ _ _).mono (by decide))).trans (State.wakeAll_keeps _ s)
  have calm := fun quiet => wakeAll_voided (w := w) found quiet
  have full := fun (full : s.queueFull) => voided_of_addException s w e (State.addException_full full e.pack (e.voidRun w)) (by decide)
  generalize (s.voided w e).wakeAll s = t at next tallies recent exceptions link calm
  rw [Tallies.reverse_eq] at tallies
  have tallies : (t.window w).tallies = _ := tallies
  refine ⟨_, next, recent, ?_, ?_, ?_, ?_, ?_, ?_, exceptions, (answered link (by decide) .ok 0x04 _).1, fun quiet => ?_⟩
  · refine (congrArg Tallies.tender tallies).trans ?_
    simp only
    refine PerTender.update_congr old.tender e.tender ?_
    rfl
  · exact congrArg Tallies.residue tallies
  · exact (congrArg Tallies.lifts tallies).trans rfl
  · exact (congrArg Tallies.liftsCount tallies).trans rfl
  · refine (congrArg (fun x : Tallies => x.stock[k]) tallies).trans ?_
    simp only
    rw [type, updAt_same, ← saturating_eq_min]
    rfl
  · exact (congrArg Tallies.stock tallies) ▸ type ▸ othersKept_updAt _ _ _
  · have calm := calm quiet
    subst calm
    refine ⟨pack, fun hf => ?_⟩
    obtain ⟨others, keeps⟩ := full hf
    exact ⟨others, (answered keeps (by decide) .ok 0x04 _).2.mono (by decide)⟩

end

