-- ==== Sys2Proof/Proofs/Settling.lean ====
section
/-! SUPPORT. What follows a ruling: DOUBT met and the clearing test made (R16, R95, R96), and the ports woken (R37). -/

namespace Sys2Proof.Machine

/-! ### The codes of the fault entries -/

/-- The number and the codes of a fault entry, with their marks. -/
def FaultEntry.marked (e : FaultEntry) : Nat × CodeMarks × List CodeMarks := (e.number, e.first, e.later)

/-- No code of a fault entry, nor a mark of it, differs. -/
def State.sameCodes (s t : State) : Prop := t.ret.faults.map (·.marked) = s.ret.faults.map (·.marked)

theorem State.sameCodes.trans {s t u : State} (h : s.sameCodes t) (k : t.sameCodes u) : s.sameCodes u := Eq.trans k h

theorem sameCodes_of_settled {s t : State} (h : t.ret.faults.map (·.settled) = s.ret.faults.map (·.settled)) : s.sameCodes t := by
  have factor : ∀ l : List FaultEntry, l.map (·.marked) = (l.map (·.settled)).map (·.marked) := fun l => by rw [List.map_map]; rfl
  unfold State.sameCodes
  rw [factor, h, ← factor]

theorem Apart.sameCodes {s t : State} {p : Fin 6} (h : Apart p s t) : s.sameCodes t := sameCodes_of_settled h.faults

theorem sameCodes_modFault (s : State) (n : Nat) (f : FaultEntry → FaultEntry) (h : ∀ e, (f e).marked = e.marked) :
    s.sameCodes (s.modFault n f) := by
  unfold State.sameCodes
  rw [show (s.modFault n f).ret.faults = s.ret.faults.map fun e => if e.number = n then f e else e from rfl, List.map_map]
  refine List.map_congr_left fun e _ => ?_
  simp only [Function.comp_apply]
  split
  · exact h e
  · rfl

theorem State.sameCodes.fault? {s t : State} (h : s.sameCodes t) {n : Nat} {e : FaultEntry} (found : s.fault? n = some e) :
    ∃ f, t.fault? n = some f ∧ f.first = e.first ∧ f.later = e.later := by
  have view : ∀ u : State, (u.fault? n).map (·.marked) = (u.ret.faults.map (·.marked)).find? fun e => decide (e.1 = n) := fun u => by
    unfold State.fault?
    rw [List.find?_map]
    rfl
  have same : (t.fault? n).map (·.marked) = some e.marked := by rw [view, show _ = _ from h, ← view, found]; rfl
  obtain ⟨f, hf, marks⟩ := Option.map_eq_some_iff.mp same
  unfold FaultEntry.marked at marks
  rw [Prod.mk.injEq, Prod.mk.injEq] at marks
  exact ⟨f, hf, marks.2.1, marks.2.2⟩

theorem exists_other (p : Fin 6) : ∃ q : Fin 6, q ≠ p := exists_ne p

theorem sameCodes_setPrinterState (s : State) (p : Fin 6) (st : PrinterState) : s.sameCodes (s.setPrinterState p st) := by
  obtain ⟨q, hq⟩ := exists_other p
  exact (apart_setPrinterState s hq st).sameCodes

theorem sameCodes_leaveFaulted (s : State) (p : Fin 6) : s.sameCodes (s.leaveFaulted p) := by
  unfold State.leaveFaulted
  split
  · exact sameCodes_setPrinterState (s.modPrinter p fun x => { x with disablePending := false }) p .disabled
  · split
    · exact sameCodes_setPrinterState s p _
    · split <;> exact sameCodes_setPrinterState s p _

theorem sameCodes_entryCleared (s : State) (p : Fin 6) (e : FaultEntry) : s.sameCodes (s.entryCleared p e) := by
  have placed : ∀ u : State, u.sameCodes (if (u.printer p).state = .faulted then u.leaveFaulted p else u) := fun u => by
    split
    · exact sameCodes_leaveFaulted u p
    · rfl
  exact placed (s.modPrinter p fun x => { x with
    openFault := none
    confirmPending := false
    spoilCount := if e.lists .repeatedSpoil then 0 else x.spoilCount })

theorem sameCodes_clearingTest (s : State) (p : Fin 6) (answered : Bool) : s.sameCodes (s.clearingTest p answered) := by
  unfold State.clearingTest
  split
  · rfl
  next e _ =>
    split
    · have cleared : s.sameCodes (s.modFault e.number (·.clear .met s.office.clock)).arbitrate :=
        (sameCodes_modFault s e.number (·.clear .met s.office.clock) fun _ => rfl).trans
          (sameCodes_of_settled (serves_arbitrate _).faults)
      exact cleared.trans (sameCodes_entryCleared _ p e)
    · rfl

theorem sameCodes_wakeAll (s before : State) : s.sameCodes (s.wakeAll before) := by
  unfold State.wakeAll
  generalize allPrinters = l
  induction l generalizing s with
  | nil => rfl
  | cons p l ih =>
    have one : s.sameCodes (s.wake before p) := by
      unfold State.wake
      split
      · rfl
      · obtain ⟨q, hq⟩ := exists_other p
        exact (apart_choose s .afresh hq).sameCodes
    exact one.trans (ih _)

/-! ### Ports that stay quiet as their entry clears -/

theorem setPrinterState_outstanding (s : State) (p : Fin 6) {st : PrinterState} (keeps : st.dropsCommand = false) :
    ((s.setPrinterState p st).printer p).outstanding = (s.printer p).outstanding := by
  unfold State.setPrinterState
  simp only [keeps]
  split
  · rfl
  · split
    · rw [State.modPrinter_same]
    · have lost : ∀ t : State, Serves t (if st.losesJobs then t.losePrinter p else t) := fun t => by
        split
        · exact serves_losePrinter t p
        · exact .refl t
      have pass : ∀ t : State, Serves t (if st = .ready then t.passAll else t.reroutePass p) := fun t => by
        split
        · exact serves_passAll t
        · exact serves_reroutePass t p
      have whole := (serves_arbitrate (s.modPrinter p fun x =>
        { x with state := st, statePending := true, outstanding := x.outstanding })).trans ((lost _).trans (pass _))
      refine (congrArg Printer.outstanding (Printer.of_settled (whole.printers p))).trans ?_
      rw [State.modPrinter_same]

theorem portQuiet_setPrinterState {s : State} {p : Fin 6} {st : PrinterState}
    (h : (s.printer p).outstanding.isSome = true ∧ st.dropsCommand = false ∨ st = .disabled) : (s.setPrinterState p st).portQuiet p := by
  rcases h with ⟨busy, keeps⟩ | rfl
  · exact .inl (by rw [setPrinterState_outstanding s p keeps]; exact busy)
  · exact .inr (by rw [(s.setPrinterState_record p .disabled).1]; decide)

theorem portQuiet_leaveFaulted {s : State} {p : Fin 6} (busy : (s.printer p).outstanding.isSome = true) :
    (s.leaveFaulted p).portQuiet p := by
  unfold State.leaveFaulted
  split
  · exact portQuiet_setPrinterState (.inr rfl)
  · split
    · exact portQuiet_setPrinterState (.inl ⟨busy, rfl⟩)
    · split <;> exact portQuiet_setPrinterState (.inl ⟨busy, rfl⟩)

theorem apart_leaveFaulted (s : State) {p q : Fin 6} (hq : p ≠ q) : Apart p s (s.leaveFaulted q) := by
  unfold State.leaveFaulted
  split
  · exact (apart_modPrinter s hq fun x => { x with disablePending := false }).trans (apart_setPrinterState _ hq _)
  · split
    · exact apart_setPrinterState s hq _
    · split <;> exact apart_setPrinterState s hq _

theorem portsQuiet_leaveFaulted {s : State} (quiet : s.portsQuiet) {p : Fin 6} (faulted : (s.printer p).state = .faulted) :
    (s.leaveFaulted p).portsQuiet := fun q => by
  by_cases hq : q = p
  · subst hq
    rcases quiet q with busy | idle
    · exact portQuiet_leaveFaulted busy
    · rw [faulted] at idle
      exact absurd idle (by decide)
  · exact (apart_leaveFaulted s hq).quiet (quiet q)

theorem portsQuiet_modPrinter {s : State} (quiet : s.portsQuiet) (p : Fin 6) (f : Printer → Printer)
    (state : ∀ x, (f x).state = x.state) (outstanding : ∀ x, (f x).outstanding = x.outstanding) : (s.modPrinter p f).portsQuiet := fun q => by
  have here := quiet q
  unfold State.portQuiet at here ⊢
  rw [State.printer_modPrinter]
  split
  · rw [state, outstanding]
    exact here
  · exact here

theorem portsQuiet_placed {s : State} (quiet : s.portsQuiet) (p : Fin 6) :
    (if (s.printer p).state = .faulted then s.leaveFaulted p else s).portsQuiet := by
  split
  next faulted => exact portsQuiet_leaveFaulted quiet faulted
  · exact quiet

theorem portsQuiet_entryCleared {s : State} (quiet : s.portsQuiet) (p : Fin 6) (e : FaultEntry) : (s.entryCleared p e).portsQuiet :=
  portsQuiet_placed (portsQuiet_modPrinter quiet p (fun x => { x with
    openFault := none
    confirmPending := false
    spoilCount := if e.lists .repeatedSpoil then 0 else x.spoilCount }) (fun _ => rfl) fun _ => rfl) p

theorem portsQuiet_clearingTest {s : State} (quiet : s.portsQuiet) (p : Fin 6) (answered : Bool) :
    (s.clearingTest p answered).portsQuiet := by
  unfold State.clearingTest
  split
  · exact quiet
  next e _ =>
    split
    · exact portsQuiet_entryCleared
        ((serves_arbitrate (s.modFault e.number (·.clear .met s.office.clock))).portsQuiet quiet) p e
    · exact quiet

theorem portsQuiet_markCodes {s : State} (quiet : s.portsQuiet) (p : Fin 6) (f : CodeMarks → CodeMarks) : (s.markCodes p f).portsQuiet := by
  unfold State.markCodes
  split
  · exact quiet
  · exact quiet

/-! ### After a ruling (R16) -/

theorem portsQuiet_settleDoubt {s : State} (quiet : s.portsQuiet) (d : DoubtfulEntry) : (s.settleDoubt d).portsQuiet := by
  unfold State.settleDoubt
  split
  · exact quiet
  · exact portsQuiet_clearingTest (portsQuiet_markCodes quiet _ _) _ _

theorem markCodes_full (s : State) (p : Fin 6) (f : CodeMarks → CodeMarks) : s.keepsBut (s.markCodes p f) [.faults] := by
  unfold State.markCodes
  split
  · exact s.keepsBut_refl _
  · exact s.modFault_keeps _ _

theorem settleDoubt_full {s : State} (full : s.queueFull) (d : DoubtfulEntry) :
    s.keepsBut (s.settleDoubt d) [.faults, .printers, .pool] := by
  have marked := (markCodes_full s d.printer (·.meet .doubt)).mono (by decide : _ ⊆ [Part.faults, .printers, .pool])
  unfold State.settleDoubt
  split
  · exact s.keepsBut_refl _
  · exact marked.trans (State.clearingTest_full _ _ _ (full.carry marked (by decide)))

theorem CodeMarks.meet_met {m : CodeMarks} {c : FaultCode} (h : (m.meet c).code = c) : (m.meet c).met = true := by
  unfold CodeMarks.meet at h ⊢
  split
  · rfl
  next other =>
    rw [if_neg other] at h
    exact absurd h other

/-- The last ruling on a printer's blanks meets the DOUBT of its open entry. -/
theorem settleDoubt_meets {s : State} {d : DoubtfulEntry} (last : s.hasDoubt d.printer = false) {m : Nat} {f : FaultEntry}
    (opened : (s.printer d.printer).openFault = some m) (found : s.fault? m = some f) :
    ∃ g, (s.settleDoubt d).fault? m = some g ∧ ∀ c ∈ g.first :: g.later, c.code = .doubt → c.met = true := by
  have marked : (s.markCodes d.printer (·.meet .doubt)).fault? m = some (f.mapMarks (·.meet .doubt)) := by
    unfold State.markCodes
    rw [opened]
    refine (s.fault?_modFault m m (·.mapMarks (·.meet .doubt)) fun _ => rfl).trans ?_
    rw [found, Option.map_some, if_pos (State.fault?_some found).2]
  unfold State.settleDoubt
  rw [if_neg (by rw [last]; exact Bool.false_ne_true)]
  obtain ⟨g, hg, first, later⟩ := (sameCodes_clearingTest _ d.printer false).fault? marked
  refine ⟨g, hg, fun c hc => ?_⟩
  rw [first, later, show (f.mapMarks (·.meet .doubt)).first :: (f.mapMarks (·.meet .doubt)).later =
    (f.first :: f.later).map (·.meet .doubt) from rfl] at hc
  obtain ⟨c, -, rfl⟩ := List.mem_map.mp hc
  exact CodeMarks.meet_met

theorem doubtful_wakeAll (s before : State) : (s.wakeAll before).ret.doubtful = s.ret.doubtful := by
  unfold State.wakeAll
  generalize allPrinters = l
  induction l generalizing s with
  | nil => rfl
  | cons p l ih =>
    have one : (s.wake before p).ret.doubtful = s.ret.doubtful := by
      unfold State.wake
      split
      · rfl
      · obtain ⟨q, hq⟩ := exists_other p
        exact (apart_choose s .afresh hq).doubtful
    exact (ih _).trans one

end Sys2Proof.Machine
end

