-- ==== Sys2Proof/Proofs/Resolve.lean ====
section
/-! O41: RESOLVE DOUBTFUL. -/

namespace Sys2Proof.Machine

/-- What a ruling on a doubtful blank does besides its pack and its own position (R16). -/
def State.settles (s t : State) (d : DoubtfulEntry) : Prop :=
  t.ret.doubtful = s.ret.doubtful.erase d ∧
    (∀ q, q ≠ d.position → t.tallies q = s.tallies q ∧ t.recent q = s.recent q) ∧
    ((∀ e ∈ s.ret.doubtful.erase d, e.printer ≠ d.printer) → ∀ m f, (s.printer d.printer).openFault = some m →
      s.fault? m = some f → ∃ g, t.fault? m = some g ∧ ∀ c ∈ g.first :: g.later, c.code = .doubt → c.met = true) ∧
    s.replies t .ok 0x16 [] ∧
    (s.portsQuiet → s.queueFull → s.positionsKeptButTallies t ∧
      s.keepsBut t [.packs, .doubtful, .console, .windows, .faults, .printers, .pool, .link])

section
variable {s v : State} {d : DoubtfulEntry} (parts : s.keepsBut v [.packs, .doubtful, .console, .windows])
include parts

theorem wakeAll_settled (quiet : s.portsQuiet) : (v.settleDoubt d).wakeAll s = v.settleDoubt d :=
  State.wakeAll_waits _ s (portsQuiet_settleDoubt (quiet.carry parts (by decide)) d)

theorem settles_of_ruled (doubtful : v.ret.doubtful = s.ret.doubtful.erase d) (others : s.talliesKeptBut v d.position)
    (positions : s.positionsKeptButTallies v) : s.settles (((v.settleDoubt d).wakeAll s).answer .ok 0x16 []) d := by
  have untallied := (logs_settleDoubt v d).untallied.trans (untallied_wakeAll _ s)
  have list : ((v.settleDoubt d).wakeAll s).ret.doubtful = v.ret.doubtful :=
    (doubtful_wakeAll _ s).trans (congrArg Stock.doubtful (logs_settleDoubt v d).stock)
  have link : s.keepsBut ((v.settleDoubt d).wakeAll s) handled :=
    (parts.mono (by decide)).trans (((logs_settleDoubt v d).parts.mono (by decide)).trans (State.wakeAll_keeps _ s))
  have met : v.hasDoubt d.printer = false → ∀ m f, (s.printer d.printer).openFault = some m → s.fault? m = some f →
      ∃ g, ((v.settleDoubt d).wakeAll s).fault? m = some g ∧ ∀ c ∈ g.first :: g.later, c.code = .doubt → c.met = true := by
    intro last m f opened found
    have printers : v.printers = s.printers := parts .printers (by decide)
    have faults : v.ret.faults = s.ret.faults := parts .faults (by decide)
    obtain ⟨g, hg, marks⟩ := settleDoubt_meets last (m := m) (f := f) (by unfold State.printer; rw [printers]; exact opened)
      (by unfold State.fault?; rw [faults]; exact found)
    obtain ⟨g', hg', first, later⟩ := (sameCodes_wakeAll (v.settleDoubt d) s).fault? hg
    exact ⟨g', hg', by rw [first, later]; exact marks⟩
  have frame : s.portsQuiet → s.queueFull → s.positionsKeptButTallies ((v.settleDoubt d).wakeAll s) ∧
      s.keepsBut ((v.settleDoubt d).wakeAll s) [.packs, .doubtful, .console, .windows, .faults, .printers, .pool] := fun quiet full => by
    rw [wakeAll_settled parts quiet]
    have settled := settleDoubt_full (full.carry parts (by decide)) d
    exact ⟨positions.trans (positionsKeptButTallies_of_keeps settled (by decide) (by decide)),
      (parts.mono (by decide)).trans (settled.mono (by decide))⟩
  generalize (v.settleDoubt d).wakeAll s = t at untallied list link met frame
  refine ⟨list.trans doubtful, fun q hq => ?_, fun last => met ?_, (answered link (by decide) .ok 0x16 []).1, fun quiet full => ?_⟩
  · exact ⟨(untallied.kept q).1.trans (others q hq).1, (untallied.kept q).2.trans (others q hq).2⟩
  · rw [← Bool.not_eq_true, State.hasDoubt_iff, doubtful]
    exact fun ⟨e, he, here⟩ => last e he here
  · obtain ⟨positions, keeps⟩ := frame quiet full
    exact ⟨positions, (answered keeps (by decide) .ok 0x16 []).2.mono (by decide)⟩

end

/-- The pack records and the doubtful list once a doubtful blank is ruled on. -/
def State.ruled (s : State) (d : DoubtfulEntry) (f : Pack → Pack) : State :=
  (s.modPack d.pack f).setDoubtful (s.ret.doubtful.erase d)

/-- The blank of a doubtful entry as the sale it was to be (R16, R134). -/
def DoubtfulEntry.sale (d : DoubtfulEntry) : InPathEntry where
  pack := d.pack
  serial := d.serial
  tag := d.tag
  copy := 0
  position := d.position
  shift := d.shift
  value := d.value
  tender := d.tender
  command := 0

theorem ruled_keeps (s : State) (d : DoubtfulEntry) (f : Pack → Pack) : s.keepsBut (s.ruled d f) [.packs, .doubtful] :=
  ((s.modPack_keeps d.pack f).mono (by decide)).trans ((State.setDoubtful_keeps _ _).mono (by decide))

theorem untallied_ruled (s : State) (d : DoubtfulEntry) (f : Pack → Pack) : Untallied s (s.ruled d f) :=
  untallied_of_keeps (ruled_keeps s d f) (by decide) (by decide) (by decide)

/-- What a ruling leaves of the pack. -/
theorem packs_settled {s v : State} {d : DoubtfulEntry} {x : Pack} {f : Pack → Pack} (ids : ∀ k, (f k).id = k.id)
    (found : s.pack? d.pack = some x) (parts : s.keepsBut v [.packs, .doubtful, .console, .windows])
    (packs : v.ret.packs = s.ret.packs.map fun k => if k.id = d.pack then f k else k) :
    (((v.settleDoubt d).wakeAll s).pack? d.pack).map (·.exceptions) = some (f x).exceptions ∧
      (s.portsQuiet → ((v.settleDoubt d).wakeAll s).ret.packs = s.ret.packs.map fun k => if k.id = d.pack then f k else k) := by
  have settled : (v.settleDoubt d).ret.packs = v.ret.packs := congrArg Stock.packs (logs_settleDoubt v d).stock
  refine ⟨?_, fun quiet => ?_⟩
  · have now : v.pack? d.pack = some (f x) := by
      have changed := s.pack?_modPack d.pack d.pack f ids
      rw [found, Option.map_some, if_pos (State.pack?_some found).2] at changed
      refine Eq.trans ?_ changed
      unfold State.pack?
      rw [packs]
      rfl
    rw [sameExceptions_wakeAll _ s d.pack, sameExceptions_of_packs settled d.pack, now]
    rfl
  · rw [wakeAll_settled parts quiet, settled, packs]

/-- A ruling: the record and the list, then what `v` adds to the positions, DOUBT and the ports. -/
theorem ruling_spec {s v : State} {d : DoubtfulEntry} {x : Pack} {f : Pack → Pack} (ids : ∀ k, (f k).id = k.id)
    (found : s.pack? d.pack = some x) (counts : (s.ruled d f).keepsBut v [.console, .windows])
    (others : (s.ruled d f).talliesKeptBut v d.position) (positions : (s.ruled d f).positionsKeptButTallies v) :
    s.settles (((v.settleDoubt d).wakeAll s).answer .ok 0x16 []) d ∧
      v.talliesKept ((v.settleDoubt d).wakeAll s) ∧
      (((v.settleDoubt d).wakeAll s).pack? d.pack).map (·.exceptions) = some (f x).exceptions ∧
      (s.portsQuiet → ((v.settleDoubt d).wakeAll s).ret.packs = s.ret.packs.map fun k => if k.id = d.pack then f k else k) := by
  have ruled := ruled_keeps s d f
  have parts : s.keepsBut v [.packs, .doubtful, .console, .windows] := (ruled.mono (by decide)).trans (counts.mono (by decide))
  have doubtful : v.ret.doubtful = s.ret.doubtful.erase d := counts .doubtful (by decide)
  have packs : v.ret.packs = s.ret.packs.map fun k => if k.id = d.pack then f k else k := counts .packs (by decide)
  refine ⟨settles_of_ruled parts doubtful (others.carry (untallied_ruled s d f).kept fun _ => ⟨rfl, rfl⟩)
    ((positionsKeptButTallies_of_keeps ruled (by decide) (by decide)).trans positions),
    ((logs_settleDoubt v d).untallied.trans (untallied_wakeAll _ s)).kept, packs_settled ids found parts packs⟩

/-- A pack without the DOUBTFUL entry of a serial (R16). -/
def Pack.issueDoubt (k : Pack) (serial : Nat) : Pack := { k with exceptions := k.exceptions.eraseP (·.doubts serial) }

theorem resolveIssued_eq {s : State} {d : DoubtfulEntry} {x : Pack} (found : s.pack? d.pack = some x) : s.resolveIssued d =
    ((s.ruled d (·.issueDoubt d.serial)).credit d.position d.shift x.stockType d.serial d.pack d.value d.tender).settleDoubt d := by
  unfold State.resolveIssued State.typeOf
  rw [found]
  rfl

theorem Pack.spoilDoubt_eq (k : Pack) (serial : Nat) : k.spoilDoubt serial = { k with
    exceptions := k.exceptions.map fun e =>
      if e.disposition = .doubtful ∧ e.first = serial then { e with disposition := .spoiled } else e } := by
  simp only [Pack.spoilDoubt, ExceptionEntry.doubts, decide_eq_true_eq]

theorem resolveSpoiled_eq {s : State} {d : DoubtfulEntry} {x : Pack} (found : s.pack? d.pack = some x) : s.resolveSpoiled d =
    ((s.ruled d (·.spoilDoubt d.serial)).countSpoil d.position d.shift x.stockType).settleDoubt d := by
  unfold State.resolveSpoiled State.typeOf
  rw [found]
  rfl

theorem State.mayIssueDoubt_iff (s : State) (d : DoubtfulEntry) : s.mayIssueDoubt d = true ↔
    ∀ w, d.position = .window w → (s.window w).state ∈ [.open, .suspended] ∧ (s.window w).shift = some d.shift := by
  unfold State.mayIssueDoubt
  cases d.position with
  | console => simp
  | window w => simp

end Sys2Proof.Machine

open Sys2Proof Sys2Proof.Machine

/-- Settles O41: the pack's entry, the credit or the spoil, and then DOUBT and the ports. -/
theorem resolveDoubtfulRule : Obligations.ResolveDoubtfulRule := by
  refine ⟨?ruling, ?refusals⟩
  case ruling =>
    intro s pos id serial d x free holds low high within listed found old settled
    have named := List.find?_some listed
    rw [decide_eq_true_eq] at named
    obtain ⟨pack, blank⟩ := named
    subst pack blank
    have range := (numberInRange_iff d.pack).mpr ⟨low, high⟩
    have type : s.typeOf d.pack = some x.stockType := by unfold State.typeOf; rw [found]; rfl
    have issued : exec (.resolveDoubtfulIssued pos d.pack d.serial 0) s =
        .next (s.judged 0x16 [(s.mayIssueDoubt d, .state)] (((s.resolveIssued d).wakeAll s).answer .ok 0x16 [])) :=
      (next_of_judged free rfl (by simp [State.resolveChecks, holds, range, serialInRange, within])).trans
        (by rw [show s.doubtful? d.pack d.serial = some d from listed])
    refine ⟨fun w here closed => ?_, fun running => ?_, ?_⟩
    · refine s.onlyReplies_of_answer _ _ _ _ (issued.trans (congrArg _ (State.judged_failed _ _ _ _ .state ?_)))
      rw [show s.mayIssueDoubt d = false from Bool.eq_false_iff.mpr fun may => closed ((s.mayIssueDoubt_iff d).mp may w here)]
      rfl
    · intro amount gained left
      rw [State.judged_passed _ _ _ _ ((judge_eq_none _).mpr (by simp [(s.mayIssueDoubt_iff d).mpr running])), resolveIssued_eq found] at issued
      have counted : s.counted d.position d.shift := by
        cases here : d.position with
        | console => exact .inl rfl
        | window w =>
          obtain ⟨state, own⟩ := running w here
          exact .inr ⟨w, rfl, fun closed => by rw [closed] at state; simp at state, own⟩
      obtain ⟨credited, positions⟩ := credit_spec (s.ruled d (·.issueDoubt d.serial)) d.sale x.stockType
      obtain ⟨settles, kept, exceptions, packs⟩ := ruling_spec (f := (·.issueDoubt d.serial)) (fun _ => rfl) found
        (State.credit_keeps _ d.position d.shift x.stockType d.serial d.pack d.value d.tender) credited.2.2 positions
      obtain ⟨credits, -, -⟩ := credited.carry (untallied_ruled s d (·.issueDoubt d.serial)) kept
      generalize (State.settleDoubt _ d).wakeAll s = t at issued settles exceptions packs credits
      obtain ⟨tallies, stock, others, recent⟩ := credits counted
      exact ⟨_, issued, settles, exceptions, packs, tallies, stock, others, recent⟩
    · have spoiled : exec (.resolveDoubtfulSpoiled pos d.pack d.serial) s = .next (((s.resolveSpoiled d).wakeAll s).answer .ok 0x16 []) :=
        (next_of_judged free rfl (by simp [State.resolveChecks, holds, range, serialInRange, within])).trans
          (by rw [show s.doubtful? d.pack d.serial = some d from listed])
      rw [resolveSpoiled_eq found] at spoiled
      obtain ⟨counted, positions⟩ := countSpoil_spec (s.ruled d (·.spoilDoubt d.serial)) d.sale x.stockType
      obtain ⟨settles, kept, exceptions, packs⟩ := ruling_spec (f := (·.spoilDoubt d.serial)) (fun _ => rfl) found
        (State.countSpoil_keeps _ d.position d.shift x.stockType) counted.2.2.2 positions
      obtain ⟨spoils, discards, recent, -⟩ := counted.carry (untallied_ruled s d (·.spoilDoubt d.serial)) kept
      generalize (State.settleDoubt _ d).wakeAll s = t at spoiled settles exceptions packs spoils discards recent
      simp only [Pack.spoilDoubt_eq] at exceptions packs
      exact ⟨_, spoiled, settles, exceptions, packs, spoils, discards, recent⟩
  case refusals =>
    intro s pos id serial free holds low high within
    have range := (numberInRange_iff id).mpr ⟨low, high⟩
    refine ⟨fun ruling more => onlyReplies_of_judged free rfl ?_, fun certain => ?_⟩
    · have other : ¬ ruling = 0 := by omega
      simp [State.resolveChecks, holds, range, serialInRange, within, other, judge]
    · have none : s.doubtful? id serial = none := List.find?_eq_none.mpr fun d hd => by simpa using certain d hd
      refine ⟨s.onlyReplies_of_answer _ _ _ _ ((next_of_judged free rfl ?_).trans (by rw [none])),
        s.onlyReplies_of_answer _ _ _ _ ((next_of_judged free rfl ?_).trans (by rw [none]))⟩ <;>
      simp [State.resolveChecks, holds, range, serialInRange, within]

end

