-- ==== Sys2Proof/Proofs/BarrenPorts.lean ====
section
/-! SUPPORT. Ports that have nothing to print (R38): woken, they send a POLL or CLEAR at most, and change their own record alone. -/

namespace Sys2Proof.Machine

/-! ### The jobs the arbiter leaves -/

/-- A job read by its tag is the one it was, or is gone. -/
def State.losesJobs (s t : State) : Prop := ∀ tag, t.job? tag = s.job? tag ∨ t.job? tag = none

theorem State.losesJobs.trans {s t u : State} (h : s.losesJobs t) (k : t.losesJobs u) : s.losesJobs u := fun tag => by
  rcases k tag with same | gone
  · rw [same]
    exact h tag
  · exact .inr gone

theorem losesJobs_of_pool {s t : State} (h : t.pool = s.pool) : s.losesJobs t := fun tag => .inl (by unfold State.job?; rw [h])

theorem losesJobs_releaseJob (s : State) (j : Job) : s.losesJobs (s.releaseJob j) := by
  have pool : (s.releaseJob j).pool = s.pool.filter fun k => decide (k.tag ≠ j.tag) := by
    have counted : ∀ u : State, (u.modOutstanding j.position (· - 1)).pool = u.pool := fun u =>
      State.modOutstanding_keeps u j.position (· - 1) .pool (by decide)
    unfold State.releaseJob
    simp only
    split
    · exact counted _
    · split
      · exact counted _
      · exact counted _
  intro tag
  unfold State.job?
  rw [pool, List.find?_filter]
  by_cases same : tag = j.tag
  · refine .inr (List.find?_eq_none.mpr fun k _ => ?_)
    rw [same]
    simp
  · refine .inl (List.find?_congr fun k _ => ?_)
    by_cases h : k.tag = tag
    · simp [h, same]
    · simp [h]

theorem losesJobs_fillPlaces (fuel : Nat) (s : State) : s.losesJobs (fillPlaces fuel s) := by
  induction fuel generalizing s with
  | zero => exact losesJobs_of_pool rfl
  | succ fuel ih =>
    simp only [fillPlaces]
    split
    · split
      · exact losesJobs_of_pool rfl
      next x _ =>
        have one : s.losesJobs ((s.pushNotice (s.noticeOf x)).settlePlaced x) := by
          cases x with
          | job j => exact losesJobs_releaseJob (s.pushNotice _) j
          | fault e => exact losesJobs_of_pool rfl
          | countReady w => exact losesJobs_of_pool rfl
          | shiftEnd r => exact losesJobs_of_pool rfl
          | printer p => exact losesJobs_of_pool rfl
          | stockType k => exact losesJobs_of_pool rfl
          | store r => exact losesJobs_of_pool rfl
        exact one.trans (ih _)
    · exact losesJobs_of_pool rfl

theorem losesJobs_arbitrate (s : State) : s.losesJobs s.arbitrate := by
  unfold State.arbitrate
  split
  · exact losesJobs_fillPlaces _ s
  · exact losesJobs_of_pool rfl

/-! ### Barren ports -/

/-- A port has no next copy, or neither bin holds a pack for it. -/
def State.barren (s : State) (p : Fin 6) : Prop :=
  ∀ j copy, s.headCopy p = some (j, copy) → ∀ side k, s.binPack? p side = some k → k.stockType ≠ j.stockType

theorem State.barren.dispatch {s : State} {p : Fin 6} (h : s.barren p) : s.dispatch p = none := by
  cases sent : s.dispatch p with
  | none => rfl
  | some t =>
    obtain ⟨-, j, copy, s', e, side, head, -, taken, -⟩ := State.dispatch_some sent
    obtain ⟨-, -, k, found, -, -⟩ := State.take_some taken
    obtain ⟨bin, type, -, -⟩ := takeBin_spec found
    exact absurd type (h j copy head side k bin)

/-- A choice without a dispatch sends a command without a body, or nothing. -/
theorem State.choose_unsent {s : State} {p : Fin 6} (none : s.dispatch p = .none) (trigger : Trigger) :
    s.choose trigger p = s ∨ ∃ kind, s.choose trigger p = s.send p kind .none := by
  have waits : s.pollOrWait p trigger = s ∨ ∃ kind, s.pollOrWait p trigger = s.send p kind .none := by
    unfold State.pollOrWait
    split
    · exact .inr ⟨.poll, rfl⟩
    · exact .inl rfl
  unfold State.choose
  simp only
  split
  · exact .inl rfl
  · split
    · exact .inl rfl
    · exact .inl rfl
    · exact .inl rfl
    · exact .inl rfl
    · split
      · exact .inr ⟨.clear, rfl⟩
      · exact waits
    · exact waits
    · simp only [none]
      exact waits
    · simp only [none]
      exact waits

/-- What a wake of another port leaves of a port's dispatch conditions. -/
theorem send_leaves (s : State) {p q : Fin 6} (hq : q ≠ p) (kind : CommandKind) :
    (s.send p kind none).dispatchView q = s.dispatchView q ∧ (s.barren q → (s.send p kind none).barren q) := by
  have printer : (s.send p kind none).printer q = s.printer q := s.modPrinter_other p q _ hq
  have head : (s.send p kind none).headCopy q = s.headCopy q := by
    unfold State.headCopy State.job?
    rw [printer]
    rfl
  have fits : ∀ k, (s.send p kind none).qualifies q k = s.qualifies q k := fun k => by
    unfold State.qualifies
    rw [printer]
    rfl
  refine ⟨?_, fun barren j copy hj => ?_⟩
  · unfold State.dispatchView
    rw [printer, head]
    simp only [fits]
    rfl
  · rw [head] at hj
    exact barren j copy hj

/-- The ports woken while those whose conditions have changed are barren: nothing but printer records changes. -/
theorem wakeAll_barren (s before : State) (h : ∀ p, s.dispatchView p = before.dispatchView p ∨ s.barren p) :
    s.keepsBut (s.wakeAll before) [.printers] := by
  have key : ∀ (l : List (Fin 6)) (u : State), l.Nodup → (∀ p ∈ l, u.dispatchView p = before.dispatchView p ∨ u.barren p) →
      u.keepsBut (l.foldl (fun s p => s.wake before p) u) [.printers] := by
    intro l
    induction l with
    | nil => exact fun u _ _ => u.keepsBut_refl _
    | cons p l ih =>
      intro u distinct all
      obtain ⟨apart, rest⟩ := List.nodup_cons.mp distinct
      have one : u.wake before p = u ∨ ∃ kind, u.wake before p = u.send p kind none := by
        unfold State.wake
        split
        · exact .inl rfl
        next changed =>
          exact State.choose_unsent ((all p List.mem_cons_self).resolve_left changed).dispatch .afresh
      rw [List.foldl_cons]
      rcases one with same | ⟨kind, sent⟩
      · rw [same]
        exact ih u rest fun q hq => all q (List.mem_cons_of_mem p hq)
      · rw [sent]
        have kept : u.keepsBut (u.send p kind none) [.printers] := u.modPrinter_keeps p _
        refine kept.trans (ih _ rest fun q hq => ?_)
        have other : q ≠ p := fun same => apart (same ▸ hq)
        obtain ⟨view, barren⟩ := send_leaves u other kind
        rw [view]
        exact (all q (List.mem_cons_of_mem p hq)).imp id barren
  exact key allPrinters s allPrinters_nodup fun p _ => h p

/-- While jobs are lost at most, a port's next copy is the one it was, or none. -/
theorem State.losesJobs.headCopy {s t : State} (h : s.losesJobs t) {p : Fin 6} (queue : (t.printer p).queue = (s.printer p).queue) :
    t.headCopy p = s.headCopy p ∨ t.headCopy p = none := by
  unfold State.headCopy
  rw [queue]
  split
  · exact .inl rfl
  next tag _ _ =>
    rcases h tag with same | gone
    · rw [same]
      exact .inl rfl
    · rw [gone]
      exact .inr rfl

/-- A port's dispatch conditions, when its next copy is the one it was and its printer qualifies for it as it did. -/
theorem State.dispatchView_of_head {s t : State} {p : Fin 6} (printer : (t.printer p).settled = (s.printer p).settled)
    (queue : (t.printer p).queue = (s.printer p).queue) (head : t.headCopy p = s.headCopy p)
    (fits : ∀ j copy, s.headCopy p = some (j, copy) → t.qualifies p j.stockType = s.qualifies p j.stockType)
    (inPath : t.ret.inPath = s.ret.inPath) (doubtful : t.ret.doubtful = s.ret.doubtful) (packs : t.ret.packs = s.ret.packs) :
    t.dispatchView p = s.dispatchView p := by
  have record := Printer.of_settled printer
  rw [queue] at record
  have qualifies : ((s.headCopy p).any fun c => t.qualifies p c.1.stockType) = (s.headCopy p).any fun c => s.qualifies p c.1.stockType := by
    cases h : s.headCopy p with
    | none => rfl
    | some c => exact fits c.1 c.2 h
  unfold State.dispatchView
  rw [record, head, qualifies]
  simp only [State.path, State.hasDoubt, State.binPack?, inPath, doubtful, packs]

/-! ### The low-stock check and the ports -/

theorem lowStockCheck_cases (s : State) (k : Fin 8) : s.lowStockCheck k = s ∨
    ∃ f, s.lowStockCheck k = s.modStockType k f ∨ s.lowStockCheck k = (s.modStockType k f).arbitrate := by
  unfold State.lowStockCheck
  simp only
  split
  · split
    · split
      · exact .inl rfl
      · exact .inr ⟨_, .inr rfl⟩
    · exact .inr ⟨_, .inl rfl⟩
  · exact .inl rfl

theorem losesJobs_lowStockCheck (s : State) (k : Fin 8) : s.losesJobs (s.lowStockCheck k) := by
  rcases lowStockCheck_cases s k with same | ⟨f, marked | placed⟩
  · exact losesJobs_of_pool (by rw [same])
  · exact losesJobs_of_pool (by rw [marked]; rfl)
  · rw [placed]
    exact (losesJobs_of_pool rfl).trans (losesJobs_arbitrate (s.modStockType k f))

theorem queue_lowStockCheck (s : State) (k : Fin 8) (p : Fin 6) : ((s.lowStockCheck k).printer p).queue = (s.printer p).queue := by
  rcases lowStockCheck_cases s k with same | ⟨f, marked | placed⟩
  · rw [same]
  · rw [marked]
    rfl
  · rw [placed, (places_arbitrate (s.modStockType k f)).printer p]
    rfl

end Sys2Proof.Machine
end

