-- ==== Sys2Proof/Proofs/StockTypeItem.lean ====
section
/-! O16: WRITE SETTING of a STOCK TYPE. -/

namespace Sys2Proof.Machine

/-- The state once the record of a stock type is replaced, and its layout checked again if its definition changed, before the low-stock
check (R176). -/
def State.retyped (s : State) (k : Fin 8) (d : StockDefinition) (threshold : Nat) : State :=
  if (s.stockType k).definition = d then s.modStockType k fun x => { x with threshold := threshold }
  else (s.modStockType k fun x => { x with definition := d, threshold := threshold, lowNotified := false }).recheckLayout k

theorem writeStockType_eq (s : State) (k : Fin 8) (d : StockDefinition) (threshold : Nat) :
    s.writeStockType k d threshold = (s.retyped k d threshold).lowStockCheck k := by
  unfold State.writeStockType State.retyped
  split <;> rfl

section
variable (s : State) (k : Fin 8) (d : StockDefinition) (threshold : Nat)

theorem retyped_keeps : s.keepsBut (s.retyped k d threshold) [.stockTypes, .live] := by
  unfold State.retyped
  split
  · exact (s.modStockType_keeps k _).mono (by decide)
  · exact ((s.modStockType_keeps k _).mono (by decide)).trans ((State.storeLayout_keeps _ k _).mono (by decide))

theorem retyped_record : ((s.retyped k d threshold).stockType k).definition = d ∧
    ((s.retyped k d threshold).stockType k).threshold = threshold := by
  have stored : ∀ (u : State) entries, (u.storeLayout k entries).stockType k = u.stockType k := fun _ _ => rfl
  unfold State.retyped State.recheckLayout
  split
  next same => rw [State.modStockType_same]; exact ⟨same, rfl⟩
  · rw [stored, State.modStockType_same]
    exact ⟨rfl, rfl⟩

theorem retyped_others : othersKept s.ret.stockTypes (s.retyped k d threshold).ret.stockTypes k := by
  unfold State.retyped
  split
  · exact othersKept_updAt _ _ _
  · exact othersKept_updAt _ _ _

theorem retyped_definition (l : Fin 8) (h : l ≠ k ∨ (s.stockType k).definition = d) :
    ((s.retyped k d threshold).stockType l).definition = (s.stockType l).definition := by
  by_cases hl : l = k
  · subst hl
    rw [(retyped_record s l d threshold).1, h.resolve_left (absurd rfl)]
  · exact congrArg StockType.definition (retyped_others s k d threshold l hl)

theorem retyped_entries (l : Fin 8) : ((s.retyped k d threshold).layout l).entries = (s.layout l).entries := by
  unfold State.retyped
  split
  · rfl
  · unfold State.recheckLayout
    rw [State.layout_storeLayout]
    split
    next same => rw [same]; rfl
    · rfl

theorem retyped_invalid (changed : (s.stockType k).definition ≠ d) :
    ((s.retyped k d threshold).layout k).invalid = combinedCheck d (s.layout k).entries := by
  unfold State.retyped State.recheckLayout
  rw [if_neg changed, State.layout_storeLayout, if_pos rfl]
  simp only
  rw [State.modStockType_same]
  rfl

theorem retyped_live (same : (s.stockType k).definition = d) : (s.retyped k d threshold).live = s.live := by
  unfold State.retyped
  rw [if_pos same]
  rfl

theorem retyped_layouts : othersKept s.live.layouts (s.retyped k d threshold).live.layouts k := by
  unfold State.retyped
  split
  · exact fun _ _ => rfl
  · exact fun l hl => Vector.getElem_set_ne k.isLt l.isLt fun same => hl (Fin.ext same.symm)

end

section
variable {s : State} {k : Fin 8} {d : StockDefinition} {threshold : Nat}

theorem serves_retyped : Serves (s.retyped k d threshold) (s.writeStockType k d threshold) := by
  rw [writeStockType_eq]
  exact serves_lowStockCheck _ k

theorem writeStockType_qualifies (p : Fin 6) (l : Fin 8) (h : l ≠ k ∨ (s.stockType k).definition = d) :
    (s.writeStockType k d threshold).qualifies p l = s.qualifies p l := by
  have served := serves_retyped (s := s) (k := k) (d := d) (threshold := threshold)
  have keeps := retyped_keeps s k d threshold
  have live : (s.writeStockType k d threshold).live = (s.retyped k d threshold).live := served.parts .live (by decide)
  have printers : (s.retyped k d threshold).printers = s.printers := keeps .printers (by decide)
  have identity : ((s.writeStockType k d threshold).printer p).identity = (s.printer p).identity := by
    rw [Printer.of_settled (served.printers p)]
    unfold State.printer
    rw [printers]
  have entries : ((s.writeStockType k d threshold).layout l).entries = (s.layout l).entries := by
    rw [← retyped_entries s k d threshold l]
    unfold State.layout
    rw [live]
  have definition : ((s.writeStockType k d threshold).stockType l).definition = (s.stockType l).definition := by
    rw [StockType.of_settled (served.stockTypes l)]
    exact retyped_definition s k d threshold l h
  unfold State.qualifies
  rw [identity, entries, definition]

theorem writeStockType_head (p : Fin 6) : (s.writeStockType k d threshold).headCopy p = s.headCopy p ∨
    (s.writeStockType k d threshold).headCopy p = none := by
  have keeps := retyped_keeps s k d threshold
  have printers : (s.retyped k d threshold).printers = s.printers := keeps .printers (by decide)
  rw [writeStockType_eq]
  refine State.losesJobs.headCopy ((losesJobs_of_pool (keeps .pool (by decide))).trans (losesJobs_lowStockCheck _ k)) ?_
  rw [queue_lowStockCheck]
  unfold State.printer
  rw [printers]

theorem writeStockType_view (p : Fin 6) (head : (s.writeStockType k d threshold).headCopy p = s.headCopy p)
    (fits : ∀ j copy, s.headCopy p = some (j, copy) → j.stockType ≠ k ∨ (s.stockType k).definition = d) :
    (s.writeStockType k d threshold).dispatchView p = s.dispatchView p := by
  have keeps := retyped_keeps s k d threshold
  have served := serves_retyped (s := s) (k := k) (d := d) (threshold := threshold)
  have printers : (s.retyped k d threshold).printers = s.printers := keeps .printers (by decide)
  have record : (s.retyped k d threshold).printer p = s.printer p := by unfold State.printer; rw [printers]
  have stock : (s.writeStockType k d threshold).stock = (s.retyped k d threshold).stock := served.stock
  refine State.dispatchView_of_head ?_ ?_ head (fun j copy hj => writeStockType_qualifies p j.stockType (fits j copy hj)) ?_ ?_ ?_
  · rw [served.printers p, record]
  · rw [writeStockType_eq, queue_lowStockCheck, record]
  · exact (congrArg Stock.inPath stock).trans (keeps .inPath (by decide))
  · exact (congrArg Stock.doubtful stock).trans (keeps .doubtful (by decide))
  · exact (congrArg Stock.packs stock).trans (keeps .packs (by decide))

/-- No port has a pack to take from for the first time: a definition changes only where no pack is of the type. -/
theorem wakeAll_writeStockType (allowed : (∀ x ∈ s.ret.packs, x.stockType ≠ k) ∨ (s.stockType k).definition = d) :
    (s.writeStockType k d threshold).keepsBut ((s.writeStockType k d threshold).wakeAll s) [.printers] := by
  have packs : (s.writeStockType k d threshold).ret.packs = s.ret.packs :=
    (congrArg Stock.packs (serves_retyped (s := s) (k := k) (d := d) (threshold := threshold)).stock).trans
      (retyped_keeps s k d threshold .packs (by decide))
  refine wakeAll_barren _ s fun p => ?_
  rcases writeStockType_head (s := s) (k := k) (d := d) (threshold := threshold) p with head | none
  · by_cases fits : ∀ j copy, s.headCopy p = some (j, copy) → j.stockType ≠ k ∨ (s.stockType k).definition = d
    · exact .inl (writeStockType_view p head fits)
    · refine .inr fun j copy hj side x bin same => ?_
      obtain ⟨mem, -⟩ := binPack?_some bin
      rw [packs] at mem
      refine fits fun j' copy' hj' => ?_
      rw [head, hj', Option.some.injEq, Prod.mk.injEq] at hj
      obtain ⟨rfl, -⟩ := hj
      exact allowed.imp (fun empty => by rw [← same]; exact empty x mem) id
  · exact .inr fun j copy hj => by rw [none] at hj; cases hj

theorem writeStockType_record : ((s.writeStockType k d threshold).stockType k).definition = d ∧
    ((s.writeStockType k d threshold).stockType k).threshold = threshold := by
  rw [StockType.of_settled (serves_retyped.stockTypes k)]
  exact retyped_record s k d threshold

theorem writeStockType_notified (defined : d.defined = true) (numbered : d.numbered = true) :
    ((s.writeStockType k d threshold).stockType k).lowNotified = true ↔ s.totalRemaining k < threshold := by
  obtain ⟨definition, limit⟩ := retyped_record s k d threshold
  rw [writeStockType_eq, lowStockCheck_notified (by rw [definition]; exact defined) (by rw [definition]; exact numbered),
    decide_eq_true_eq, limit, State.totalRemaining_keeps (retyped_keeps s k d threshold) (by decide)]

theorem writeStockType_live : (s.writeStockType k d threshold).live = (s.retyped k d threshold).live :=
  serves_retyped.parts .live (by decide)

theorem lowStockCheck_others_full (full : s.queueFull) : othersKept s.ret.stockTypes (s.lowStockCheck k).ret.stockTypes k := by
  rcases lowStockCheck_cases s k with same | ⟨f, marked | placed⟩
  · rw [same]
    exact othersKept_refl _ _
  · rw [marked]
    exact othersKept_updAt _ _ _
  · rw [placed, State.arbitrate_full _ (full.carry (s.modStockType_keeps k f) (by decide))]
    exact othersKept_updAt _ _ _

theorem writeStockType_full (full : s.queueFull) : s.keepsBut (s.writeStockType k d threshold) [.stockTypes, .live] ∧
    othersKept s.ret.stockTypes (s.writeStockType k d threshold).ret.stockTypes k := by
  have keeps := retyped_keeps s k d threshold
  have still := full.carry keeps (by decide)
  rw [writeStockType_eq]
  exact ⟨keeps.trans ((State.lowStockCheck_full _ k still).mono (by decide)),
    (retyped_others s k d threshold).trans (lowStockCheck_others_full still)⟩

/-- No port is woken while none sends, or the definition stays, or no job is of the type. -/
theorem wakeAll_writeStockType_full (full : s.queueFull)
    (calm : s.portsQuiet ∨ (s.stockType k).definition = d ∨ ∀ j ∈ s.pool, j.stockType ≠ k) :
    (s.writeStockType k d threshold).wakeAll s = s.writeStockType k d threshold := by
  have keeps := (writeStockType_full (k := k) (d := d) (threshold := threshold) full).1
  rcases calm with quiet | calm
  · exact State.wakeAll_waits _ s (quiet.carry keeps (by decide))
  · refine State.wakeAll_same _ s fun p => .inr (writeStockType_view p ?_ fun j copy hj => ?_)
    · unfold State.headCopy State.printer State.job?
      rw [show (s.writeStockType k d threshold).printers = s.printers from keeps .printers (by decide),
        show (s.writeStockType k d threshold).pool = s.pool from keeps .pool (by decide)]
    · obtain ⟨tag, rest, -, job, -, -⟩ := State.headCopy_some hj
      exact calm.symm.imp (fun none => none j (State.job?_some job).1) id

end

theorem flagOf_ite (b : Bool) : flagOf (if b then 1 else 0) = some b := by cases b <;> rfl

end Sys2Proof.Machine

open Sys2Proof Sys2Proof.Machine

/-- Settles O16: the record replaced, its low-stock check, and ports that are barren or see no change. -/
theorem stockTypeWrite : Obligations.StockTypeWrite := by
  intro s pos k defined numbered striped digits threshold free holds idle six nine within d c
  have fields : definitionOf (if defined then 1 else 0) (if numbered then 1 else 0) (if striped then 1 else 0) digits = some d := by
    unfold definitionOf
    rw [flagOf_ite, flagOf_ite, flagOf_ite]
    exact if_pos ⟨six, nine⟩
  have next : exec c s = .next (s.judged 0x41
      [(decide (threshold ≤ 9999), .range), (decide ((s.stockType k).definition = d) || !s.hasPacks k, .state)]
      (((s.writeStockType k d threshold).wakeAll s).answer .ok 0x41 [])) :=
    (next_of_judged free rfl (by simp [State.writeChecks, holds, idle, stockOf_val])).trans (by rw [stockOf_val, fields])
  refine ⟨fun held differs => ?_, fun allowed => ?_⟩
  · refine s.onlyReplies_of_answer _ _ _ _ (next.trans (congrArg _ (State.judged_failed _ _ _ _ .state ?_)))
    have packs : s.hasPacks k = true := by
      obtain ⟨x, hx, type⟩ := held
      exact List.any_eq_true.mpr ⟨x, hx, decide_eq_true type⟩
    simp [judge, within, differs, packs]
  · have passes : ∀ x ∈ [(decide (threshold ≤ 9999), ReplyCode.range),
        (decide ((s.stockType k).definition = d) || !s.hasPacks k, .state)], x.1 = true := by
      refine List.forall_mem_cons.mpr ⟨decide_eq_true within, List.forall_mem_singleton.mpr ?_⟩
      rw [Bool.or_eq_true, decide_eq_true_eq, Bool.not_eq_true']
      exact allowed.symm.imp id fun none => List.any_eq_false.mpr fun x hx => by simpa using none x hx
    rw [State.judged_passed _ _ _ _ ((judge_eq_none _).mpr passes)] at next
    have woken := wakeAll_writeStockType (threshold := threshold) allowed
    have live := (writeStockType_live (s := s) (k := k) (d := d) (threshold := threshold))
    have record := writeStockType_record (s := s) (k := k) (d := d) (threshold := threshold)
    have notified := writeStockType_notified (s := s) (k := k) (d := d) (threshold := threshold)
    have served := serves_retyped (s := s) (k := k) (d := d) (threshold := threshold)
    have link : s.keepsBut (s.writeStockType k d threshold) (.live :: handled) :=
      ((retyped_keeps s k d threshold).mono (by decide)).trans (served.parts.mono (by decide))
    have full := fun hf => writeStockType_full (s := s) (k := k) (d := d) (threshold := threshold) hf
    have calm := fun hf => wakeAll_writeStockType_full (s := s) (k := k) (d := d) (threshold := threshold) hf
    generalize s.writeStockType k d threshold = w at next woken live record notified link full calm
    generalize w.wakeAll s = v at next woken calm
    have types : v.ret.stockTypes = w.ret.stockTypes := woken .stockTypes (by decide)
    have settings : v.live = (s.retyped k d threshold).live := (woken .live (by decide)).trans live
    have type : v.stockType k = w.stockType k := by unfold State.stockType; rw [types]
    have layout : v.layout k = (s.retyped k d threshold).layout k := by unfold State.layout; rw [settings]
    have replies := (answered (link.trans (woken.mono (by decide))) (by decide) .ok 0x41 []).1
    refine ⟨v.answer .ok 0x41 [], next, ?_, ?_, fun hd hn => ?_, ?_, fun changed => ?_, fun same => ?_, replies, fun hf => ?_⟩
    · exact (congrArg StockType.definition type).trans record.1
    · exact (congrArg StockType.threshold type).trans record.2
    · rw [← notified hd hn, ← type]
      exact Iff.rfl
    · exact (congrArg Layout.entries layout).trans (retyped_entries s k d threshold k)
    · exact (congrArg Layout.invalid layout).trans (retyped_invalid s k d threshold changed)
    · exact settings.trans (retyped_live s k d threshold same)
    · obtain ⟨keeps, others⟩ := full hf
      refine ⟨types ▸ others, settings ▸ retyped_layouts s k d threshold, ?_, fun quiet => ?_⟩
      · exact (answered ((keeps.mono (by decide)).trans (woken.mono (by decide)) (l := [.stockTypes, .live, .printers])) (by decide)
          .ok 0x41 []).2.mono (by decide)
      · rw [calm hf quiet]
        exact (answered keeps (by decide) .ok 0x41 []).2.mono (by decide)

end

