-- ==== Sys2Proof/Proofs/Items.lean ====
section
/-! SUPPORT. What the ports' choices leave of the settings, the stock types and the store (R37), and of everything else while the notice
queue is full. -/

namespace Sys2Proof.Machine

/-- No setting, definition or threshold differs, and of the store at most that its result waits. -/
structure SameItems (s t : State) : Prop where
  types : s.typesSettled t
  live : t.live = s.live
  store : t.store = { s.store with donePending := t.store.donePending }

theorem SameItems.refl (s : State) : SameItems s s := ⟨fun _ => rfl, rfl, rfl⟩

theorem SameItems.trans {s t u : State} (h : SameItems s t) (k : SameItems t u) : SameItems s u where
  types := h.types.trans k.types
  live := k.live.trans h.live
  store := by rw [k.store, h.store]

theorem Serves.sameItems {s t : State} (h : Serves s t) : SameItems s t where
  types := h.stockTypes
  live := h.parts .live (by decide)
  store := h.store

theorem sameItems_of_keeps {s t : State} {l : List Part} (h : s.keepsBut t l) (types : Part.stockTypes ∉ l) (live : Part.live ∉ l)
    (store : Part.store ∉ l) : SameItems s t where
  types := typesSettled_of_same (h .stockTypes types)
  live := h .live live
  store := by rw [show t.store = s.store from h .store store]

theorem sameItems_setPrinterState (s : State) (p : Fin 6) (st : PrinterState) : SameItems s (s.setPrinterState p st) := by
  obtain ⟨o, -, entered⟩ := serves_setPrinterState s p st
  exact (sameItems_of_keeps (s.modPrinter_keeps p _) (by decide) (by decide) (by decide)).trans entered.sameItems

theorem sameItems_modPath (s : State) (p : Fin 6) (f : List InPathEntry → List InPathEntry) : SameItems s (s.modPath p f) := by
  refine (sameItems_of_keeps (s.setInPath_keeps (updAt s.ret.inPath p f)) (by decide) (by decide) (by decide)).trans ?_
  unfold State.modPath State.syncBusy
  split
  · exact sameItems_setPrinterState _ p _
  · split
    · exact sameItems_setPrinterState _ p _
    · exact .refl _

theorem sameItems_send (s : State) (p : Fin 6) (kind : CommandKind) (body : Option PrintBody) : SameItems s (s.send p kind body) :=
  sameItems_of_keeps (s.modPrinter_keeps p _) (by decide) (by decide) (by decide)

theorem sameItems_dispatch {s t : State} {p : Fin 6} (sent : s.dispatch p = some t) : SameItems s t := by
  obtain ⟨-, j, copy, s', e, side, -, -, taken, whole⟩ := State.dispatch_some sent
  obtain ⟨-, -, k, -, -, took⟩ := State.take_some taken
  have pack := sameItems_of_keeps (s.modPack_keeps k.id Pack.takeOne) (by decide) (by decide) (by decide)
  have taken : SameItems s s' := by
    rw [took]
    exact (pack.trans (sameItems_modPath _ p _)).trans (serves_lowStockCheck _ _).sameItems
  rw [whole]
  exact (taken.trans (sameItems_send s' p _ _)).trans
    (sameItems_of_keeps (State.modJob_keeps _ j.tag _) (by decide) (by decide) (by decide))

/-- A choice is a dispatch, or sends a command without a body, or nothing. -/
theorem choose_dispatches (s : State) (trigger : Trigger) (p : Fin 6) : s.dispatch p = some (s.choose trigger p) ∨
    s.choose trigger p = s ∨ ∃ kind, s.choose trigger p = s.send p kind none := by
  cases sent : s.dispatch p with
  | none => exact .inr (State.choose_unsent sent trigger)
  | some t =>
    obtain ⟨may, -⟩ := State.dispatch_some sent
    by_cases busy : (s.printer p).outstanding.isSome = true
    · exact .inr (.inl (s.choose_waits trigger p busy))
    · unfold State.mayPrint at may
      rw [Bool.and_eq_true, decide_eq_true_eq] at may
      obtain ⟨⟨state, -⟩, -⟩ := may
      refine .inl (congrArg some ?_)
      unfold State.choose
      simp only
      rw [if_neg busy]
      rcases state with state | state <;>
      · rw [state]
        simp only [sent]

theorem sameItems_choose (s : State) (trigger : Trigger) (p : Fin 6) : SameItems s (s.choose trigger p) := by
  rcases choose_dispatches s trigger p with sent | same | ⟨kind, sent⟩
  · exact sameItems_dispatch sent
  · rw [same]
    exact .refl s
  · rw [sent]
    exact sameItems_send s p kind none

theorem sameItems_wakeAll (s before : State) : SameItems s (s.wakeAll before) := by
  unfold State.wakeAll
  generalize allPrinters = l
  induction l generalizing s with
  | nil => exact .refl s
  | cons p l ih =>
    have one : SameItems s (s.wake before p) := by
      unfold State.wake
      split
      · exact .refl s
      · exact sameItems_choose s _ p
    exact one.trans (ih _)

/-! ### While the notice queue is full -/

section
variable {s : State} (full : s.queueFull)
include full

theorem State.modPath_full (p : Fin 6) (f : List InPathEntry → List InPathEntry) :
    s.keepsBut (s.modPath p f) [.inPath, .printers, .pool] := by
  have path := s.setInPath_keeps (updAt s.ret.inPath p f)
  exact (path.mono (by decide)).trans ((State.syncBusy_full _ p (full.carry path (by decide))).mono (by decide))

theorem State.dispatch_full {t : State} {p : Fin 6} (sent : s.dispatch p = some t) :
    s.keepsBut t [.packs, .inPath, .printers, .pool, .stockTypes] := by
  obtain ⟨-, j, copy, s', e, side, -, -, taken, whole⟩ := State.dispatch_some sent
  obtain ⟨-, -, k, -, -, took⟩ := State.take_some taken
  have pack := s.modPack_keeps k.id Pack.takeOne
  have path : s.keepsBut ((s.modPack k.id Pack.takeOne).modPath p (· ++ [e])) [.packs, .inPath, .printers, .pool, .stockTypes] :=
    (pack.mono (by decide)).trans ((State.modPath_full (full.carry pack (by decide)) p _).mono (by decide))
  have took : s.keepsBut s' [.packs, .inPath, .printers, .pool, .stockTypes] := by
    rw [took]
    exact path.trans ((State.lowStockCheck_full _ _ (full.carry path (by decide))).mono (by decide))
  rw [whole]
  exact (took.trans ((s'.modPrinter_keeps p _).mono (by decide))).trans ((State.modJob_keeps _ j.tag _).mono (by decide))

theorem State.choose_full (trigger : Trigger) (p : Fin 6) :
    s.keepsBut (s.choose trigger p) [.packs, .inPath, .printers, .pool, .stockTypes] := by
  rcases choose_dispatches s trigger p with sent | same | ⟨kind, sent⟩
  · exact State.dispatch_full full sent
  · rw [same]
    exact s.keepsBut_refl _
  · rw [sent]
    exact (s.modPrinter_keeps p _).mono (by decide)

theorem State.wakeAll_full (before : State) : s.keepsBut (s.wakeAll before) [.packs, .inPath, .printers, .pool, .stockTypes] := by
  refine keepsBut_foldl_full (fun s p => State.wake s before p) _ (by decide) (fun s p full => ?_) allPrinters s full
  unfold State.wake
  split
  · exact s.keepsBut_refl _
  · exact State.choose_full full .afresh p

theorem State.lowStockAll_full : s.keepsBut s.lowStockAll [.stockTypes] :=
  keepsBut_foldl_full State.lowStockCheck _ (by decide) State.lowStockCheck_full allTypes s full

end

end Sys2Proof.Machine
end

