-- ==== Sys2Proof/Proofs/StoreEnds.lean ====
section
/-! O19: the ends of the store operations. -/

namespace Sys2Proof.Machine

/-! ### A result recorded (R178) -/

section
variable (s : State) (r : StoreResult)

theorem storeDone_store : (s.storeDone r).store =
    { s.store with running := none, donePending := (s.storeDone r).store.donePending, lastResult := some r } :=
  (serves_arbitrate (s.setStore { s.store with running := none, donePending := true, lastResult := some r })).store

theorem storeDone_same : (s.storeDone r).flash = s.flash ∧ (s.storeDone r).live = s.live ∧ s.typesSettled (s.storeDone r) := by
  have served := serves_arbitrate (s.setStore { s.store with running := none, donePending := true, lastResult := some r })
  exact ⟨served.parts .flash (by decide), served.parts .live (by decide), served.stockTypes⟩

theorem storeDone_full (full : s.queueFull) : (s.storeDone r).store.donePending = true ∧ s.keepsBut (s.storeDone r) [.store] := by
  have same : s.storeDone r = s.setStore { s.store with running := none, donePending := true, lastResult := some r } :=
    State.arbitrate_full _ (full.carry (s.setStore_keeps _) (by decide))
  rw [same]
  exact ⟨rfl, s.setStore_keeps _⟩

end

/-! ### A write (R178, R180) -/

/-- The state once a write has been read back. -/
def State.readBack (s : State) (a : Area) (m : SettingsImage) (good : Bool) : State :=
  if good then s.setFlash (s.flash.write a (some m)) else s

theorem writeDone_spec (s : State) (kind : StoreKind) (a : Area) (m : SettingsImage) (good : Bool) :
    (s.writeDone kind a m good).flash = (if good then s.flash.write a (some m) else s.flash) ∧
      (s.writeDone kind a m good).store = { s.store with
        running := none
        donePending := (s.writeDone kind a m good).store.donePending
        lastResult := some { kind := kind, area := a, good := good, officeCode := if good then some m.office.code else none } } ∧
      (s.writeDone kind a m good).live = s.live ∧
      (s.queueFull → (s.writeDone kind a m good).store.donePending = true ∧ s.keepsBut (s.writeDone kind a m good) [.store, .flash]) := by
  have base : s.keepsBut (s.readBack a m good) [.flash] ∧
      (s.readBack a m good).flash = (if good then s.flash.write a (some m) else s.flash) := by
    unfold State.readBack
    cases good
    · exact ⟨s.keepsBut_refl _, rfl⟩
    · exact ⟨s.setFlash_keeps _, rfl⟩
  obtain ⟨keeps, flash⟩ := base
  obtain ⟨flash', live', -⟩ := storeDone_same (s.readBack a m good)
    { kind := kind, area := a, good := good, officeCode := if good then some m.office.code else none }
  have store := storeDone_store (s.readBack a m good)
    { kind := kind, area := a, good := good, officeCode := if good then some m.office.code else none }
  rw [show (s.readBack a m good).store = s.store from keeps .store (by decide)] at store
  refine ⟨flash'.trans flash, store, live'.trans (keeps .live (by decide)), fun full => ?_⟩
  obtain ⟨pending, parts⟩ := storeDone_full (s.readBack a m good)
    { kind := kind, area := a, good := good, officeCode := if good then some m.office.code else none } (full.carry keeps (by decide))
  exact ⟨pending, (keeps.mono (by decide)).trans (parts.mono (by decide))⟩

/-! ### A load (R179) -/

/-- The result of a load of a good area. -/
def SettingsImage.loaded (m : SettingsImage) (a : Area) : StoreResult :=
  { kind := .load, area := a, good := true, officeCode := some m.office.code }

/-- What a load does once the items are taken, before the ports are woken. -/
def State.sourced (s : State) (a : Area) (r : StoreResult) : State :=
  (s.lowStockAll.setStore { s.lowStockAll.store with source := a }).storeDone r

section
variable (s : State) (a : Area) (r : StoreResult)

theorem sourced_same : (s.sourced a r).live = s.live ∧ s.typesSettled (s.sourced a r) ∧ (s.sourced a r).store = { s.store with
    running := none, source := a, lastResult := some r, donePending := (s.sourced a r).store.donePending } := by
  have checked := serves_lowStockAll s
  have base : ∀ u : State, Serves s u → (u.setStore { u.store with source := a }).live = s.live ∧
      s.typesSettled (u.setStore { u.store with source := a }) ∧ (u.setStore { u.store with source := a }).store =
        { s.store with source := a, donePending := u.store.donePending } := fun u h =>
    ⟨h.parts .live (by decide), h.stockTypes, by rw [State.setStore_store, h.store]⟩
  obtain ⟨live, types, store⟩ := base s.lowStockAll checked
  unfold State.sourced
  generalize s.lowStockAll.setStore { s.lowStockAll.store with source := a } = v at live types store
  obtain ⟨-, live', types'⟩ := storeDone_same v r
  have store' := storeDone_store v r
  rw [store] at store'
  exact ⟨live'.trans live, types.trans types', store'⟩

theorem sourced_full (full : s.queueFull) : (s.sourced a r).store.donePending = true ∧
    s.keepsBut (s.sourced a r) [.stockTypes, .store] := by
  have checked := State.lowStockAll_full full
  unfold State.sourced
  generalize s.lowStockAll = u at checked
  have set : s.keepsBut (u.setStore { u.store with source := a }) [.stockTypes, .store] :=
    (checked.mono (by decide)).trans ((State.setStore_keeps _ _).mono (by decide))
  obtain ⟨pending, parts⟩ := storeDone_full _ r (full.carry set (by decide))
  exact ⟨pending, set.trans (parts.mono (by decide))⟩

end

theorem loadDone_good {s : State} {a : Area} {m : SettingsImage} (read : s.flash.read a = some m) :
    s.loadDone a = (s.takeImage m).sourced a (m.loaded a) := by
  unfold State.loadDone
  rw [read]
  simp only [State.loadImage, State.sourced, SettingsImage.loaded]

theorem loadDone_bad {s : State} {a : Area} (read : s.flash.read a = none) :
    s.loadDone a = s.storeDone { kind := .load, area := a, good := false, officeCode := none } := by
  unfold State.loadDone
  rw [read]

/-- The store is no dispatch condition. -/
theorem wakeAll_store {s t : State} (keeps : s.keepsBut t [.store]) : t.wakeAll s = t :=
  State.wakeAll_same t s fun p => .inr (State.dispatchView_congr s t p (keeps .printers (by decide)) (keeps .inPath (by decide))
    (keeps .packs (by decide)) (keeps .doubtful (by decide)) (keeps .pool (by decide))
    (congrArg LiveSettings.layouts (keeps .live (by decide))) (keeps .stockTypes (by decide)))

/-- While the queue is full, settings change no dispatch condition where no job stands in the pool. -/
theorem wakeAll_settings {s t : State} (keeps : s.keepsBut t [.live, .stockTypes, .store]) (calm : s.portsQuiet ∨ s.pool = []) :
    t.wakeAll s = t := by
  rcases calm with quiet | empty
  · exact State.wakeAll_waits t s (quiet.carry keeps (by decide))
  · have printers : t.printers = s.printers := keeps .printers (by decide)
    have none : ∀ (u : State) (p : Fin 6), u.pool = [] → u.headCopy p = .none := fun u p h => by
      unfold State.headCopy State.job?
      rw [h]
      split <;> rfl
    have head : ∀ p, s.headCopy p = .none := fun p => none s p empty
    refine State.wakeAll_same t s fun p => .inr (State.dispatchView_of_head ?_ ?_ ?_ (fun j copy hj => ?_)
      (keeps .inPath (by decide)) (keeps .doubtful (by decide)) (keeps .packs (by decide)))
    · unfold State.printer; rw [printers]
    · unfold State.printer; rw [printers]
    · rw [head p, none t p ((keeps .pool (by decide)).trans empty)]
    · rw [head p] at hj; cases hj

theorem StockType.load_items (x : StockType) (held : Bool) (item : StockDefinition × Nat) : (x.load held item).threshold = item.2 ∧
    (x.load held item).definition = if held then x.definition else item.1 := by
  unfold StockType.load
  cases held <;> exact ⟨rfl, rfl⟩

end Sys2Proof.Machine

open Sys2Proof Sys2Proof.Machine

/-- Settles O19: the area written, the items taken, and the result recorded. -/
theorem storeOperationsEnd : Obligations.StoreOperationsEnd := by
  refine ⟨?save, ?restore, ?bad, ?load, ?idle, ?good⟩
  case save =>
    intro s a m good running
    have next : exec (.saveComplete good) s = .next (s.writeDone .save a m good) := by
      change execSaveComplete good s = _
      unfold execSaveComplete
      rw [running]
    exact ⟨_, next, writeDone_spec s .save a m good⟩
  case restore =>
    intro s a good running
    have next : exec (.restoreComplete good) s = .next (s.restoreDone a good) := by
      change execRestoreComplete good s = _
      unfold execRestoreComplete
      rw [running]
    unfold State.restoreDone at next
    cases factory : s.flash.factory with
    | none =>
      rw [factory] at next
      obtain ⟨flash, live, -⟩ := storeDone_same s { kind := .restore, area := a, good := false, officeCode := none }
      have store := storeDone_store s { kind := .restore, area := a, good := false, officeCode := none }
      have full := storeDone_full s { kind := .restore, area := a, good := false, officeCode := none }
      refine ⟨_, next, flash, store.trans ?_, nofun, live, fun hf => ⟨(full hf).1, (full hf).2.mono (by decide)⟩⟩
      cases good <;> rfl
    | some m =>
      rw [factory] at next
      obtain ⟨flash, store, live, full⟩ := writeDone_spec s .restore a m good
      refine ⟨_, next, flash, store.trans ?_, fun holds read => ?_, live, full⟩
      · cases good <;> rfl
      · cases holds
        rw [store, read]
        rfl
  case bad =>
    intro s a running read
    have next : exec .loadComplete s =
        .next ((s.storeDone { kind := .load, area := a, good := false, officeCode := none }).wakeAll s) := by
      change execLoadComplete s = _
      unfold execLoadComplete
      rw [running, ← loadDone_bad read]
    obtain ⟨-, live, -⟩ := storeDone_same s { kind := .load, area := a, good := false, officeCode := none }
    have store := storeDone_store s { kind := .load, area := a, good := false, officeCode := none }
    have full := storeDone_full s { kind := .load, area := a, good := false, officeCode := none }
    generalize s.storeDone { kind := .load, area := a, good := false, officeCode := none } = u at next live store full
    have woken := sameItems_wakeAll u s
    have items := woken.store
    rw [store] at items
    refine ⟨_, next, woken.live.trans live, by rw [items], by rw [items], by rw [items], fun hf => ?_⟩
    obtain ⟨pending, parts⟩ := full hf
    rw [wakeAll_store parts]
    exact ⟨pending, parts⟩
  case load =>
    intro s a m running read
    have next : exec .loadComplete s = .next (((s.takeImage m).sourced a (m.loaded a)).wakeAll s) := by
      change execLoadComplete s = _
      unfold execLoadComplete
      rw [running, ← loadDone_good read]
    obtain ⟨live, types, store⟩ := sourced_same (s.takeImage m) a (m.loaded a)
    have taken := takeImage_keeps s m
    rw [show (s.takeImage m).store = s.store from taken .store (by decide)] at store
    have full : s.queueFull → ((s.takeImage m).sourced a (m.loaded a)).store.donePending = true ∧
        s.keepsBut ((s.takeImage m).sourced a (m.loaded a)) [.live, .stockTypes, .store] := fun hf => by
      obtain ⟨pending, parts⟩ := sourced_full (s.takeImage m) a (m.loaded a) (hf.carry taken (by decide))
      exact ⟨pending, (taken.mono (by decide)).trans (parts.mono (by decide))⟩
    have items := takeImage_live s m
    have type := takeImage_stockType s m
    have layout := takeImage_layout s m
    generalize s.takeImage m = i at next live types store full items type layout
    generalize i.sourced a (m.loaded a) = u at next live types store full
    have woken := sameItems_wakeAll u s
    have record : ∀ k, ((u.wakeAll s).stockType k).settled = (i.stockType k).settled := types.trans woken.types
    have settings : (u.wakeAll s).live = i.live := woken.live.trans live
    have result := woken.store
    rw [store] at result
    have after : s.queueFull → u.keepsBut (u.wakeAll s) [.packs, .inPath, .printers, .pool, .stockTypes] := fun hf =>
      State.wakeAll_full (hf.carry (full hf).2 (by decide)) s
    have calm := fun hf => wakeAll_settings (full hf).2
    generalize u.wakeAll s = t at next record settings result after calm
    have fields : ∀ k, (t.stockType k).threshold = m.stockTypes[k].2 ∧ (t.stockType k).definition =
        (if s.hasPacks k then (s.stockType k).definition else m.stockTypes[k].1) := fun k => by
      have loaded := (s.stockType k).load_items (s.hasPacks k) m.stockTypes[k]
      rw [← type k] at loaded
      have same := StockType.of_settled (record k)
      rw [same]
      exact loaded
    have table : ∀ k, t.layout k = i.layout k := fun k => by unfold State.layout; rw [settings]
    refine ⟨_, next, by rw [settings, items], by rw [settings, items], by rw [settings, items], by rw [settings, items],
      fun k => ⟨(fields k).1, (fields k).2, ?_, ?_⟩, by rw [result], by rw [result], by rw [result]; rfl, fun hf => ?_⟩
    · rw [table, layout]
      rfl
    · rw [table, layout, StockType.of_settled (record k)]
    · obtain ⟨pending, parts⟩ := full hf
      have store : t.store = u.store := after hf .store (by decide)
      refine ⟨?_, (parts.mono (by decide)).trans ((after hf).mono (by decide)), fun quiet => ?_⟩
      · rw [store]
        exact pending
      · rw [calm hf quiet]
        exact parts
  case idle =>
    intro s good running
    refine ⟨?_, ?_, ?_⟩
    · change execSaveComplete good s = _
      unfold execSaveComplete
      rw [running]
    · change execLoadComplete s = _
      unfold execLoadComplete
      rw [running]
    · change execRestoreComplete good s = _
      unfold execRestoreComplete
      rw [running]
  case good =>
    intro a m
    unfold FlashArea.good
    rw [Option.filter_eq_some_iff, decide_eq_true_eq]
    rfl

end

