-- ==== Sys2Proof/Proofs/Tickets.lean ====
section
/-! SUPPORT. What the ticket composer writes (R83 to R89): numbers in decimal, fields filled to their width, and the print lines as a
stable sort of the fields by row and column. -/

namespace Sys2Proof.Machine

/-! ### Numbers (R85, R86) -/

/-- A number in decimal, as the library writes it. -/
def decimalText (n : Nat) : List Byte := (Nat.toDigits 10 n).map fun c => BitVec.ofNat 8 c.toNat

theorem digitChar_toNat (d : Nat) (h : d < 10) : d.digitChar.toNat = 0x30 + d := by
  interval_cases d <;> rfl

theorem decimal_eq {fuel n : Nat} (h : n < 10 ^ (fuel + 1)) : decimal fuel n = decimalText n := by
  induction fuel generalizing n with
  | zero =>
    have small : n < 10 := h
    unfold decimalText decimal
    rw [Nat.toDigits_of_lt_base small, List.map_singleton, digitChar_toNat n small, Nat.mod_eq_of_lt small]
  | succ fuel ih =>
    unfold decimal
    split
    next small =>
      unfold decimalText
      rw [Nat.toDigits_of_lt_base small, List.map_singleton, digitChar_toNat n small]
    next large =>
      have shorter : n / 10 < 10 ^ (fuel + 1) := Nat.div_lt_of_lt_mul (by rw [pow_succ] at h; omega)
      rw [ih shorter]
      unfold decimalText
      rw [Nat.toDigits_of_base_le (by decide) (Nat.le_of_not_lt large), List.map_append, List.map_singleton,
        digitChar_toNat _ (Nat.mod_lt n (by decide))]

theorem decimal_nine {n : Nat} (h : n ≤ 999999999) : decimal 9 n = decimalText n := decimal_eq (by omega)

theorem zeroPadded_eq (w : Nat) {n : Nat} (h : n ≤ 999999999) :
    zeroPadded w n = List.replicate (w - (decimalText n).length) 0x30#8 ++ decimalText n := by
  unfold zeroPadded padFront
  rw [decimal_nine h]

theorem fitNumber_eq (w : Nat) (text : List Byte) : fitNumber w text =
    if w < text.length then List.replicate w 0x2A#8 else List.replicate (w - text.length) 0x20#8 ++ text := by
  unfold fitNumber padFront
  by_cases h : text.length ≤ w
  · rw [if_pos h, if_neg (by omega)]
  · rw [if_neg h, if_pos (by omega)]

theorem valueText_eq {v : Nat} (h : v ≤ 999999) : valueText v =
    decimalText (v / 100) ++ [0x2E#8] ++ (List.replicate (2 - (decimalText (v % 100)).length) 0x30#8 ++ decimalText (v % 100)) := by
  unfold valueText
  rw [decimal_nine (by omega), zeroPadded_eq 2 (by omega)]

/-! ### Segments of a row (R88) -/

theorem filterMap_sublist {α : Type} {f : α → Option α} (h : ∀ x y, f x = some y → y = x) (l : List α) : (l.filterMap f).Sublist l := by
  induction l with
  | nil => exact .slnil
  | cons x l ih =>
    rw [List.filterMap_cons]
    split
    · exact ih.cons x
    next y some =>
      rw [h x y some]
      exact ih.cons_cons x

theorem insertSegment_perm (g : Segment) (l : List Segment) : (insertSegment g l).Perm (g :: l) := by
  induction l with
  | nil => rfl
  | cons h rest ih =>
    unfold insertSegment
    split
    · rfl
    · exact (ih.cons h).trans (List.Perm.swap g h rest)

theorem insertSegment_sorted (g : Segment) {l : List Segment} (sorted : l.Pairwise (·.column ≤ ·.column)) :
    (insertSegment g l).Pairwise (·.column ≤ ·.column) := by
  induction l with
  | nil => exact List.pairwise_singleton _ g
  | cons h rest ih =>
    obtain ⟨first, others⟩ := List.pairwise_cons.mp sorted
    unfold insertSegment
    split
    next below =>
      refine List.pairwise_cons.mpr ⟨fun x hx => ?_, sorted⟩
      rcases List.mem_cons.mp hx with rfl | hx
      · exact below.le
      · exact below.le.trans (first x hx)
    next above =>
      refine List.pairwise_cons.mpr ⟨fun x hx => ?_, ih others⟩
      rcases List.mem_cons.mp ((insertSegment_perm g rest).mem_iff.mp hx) with rfl | hx
      · exact Nat.le_of_not_lt above
      · exact first x hx

/-- A segment inserted comes after those of its column. -/
theorem insertSegment_filter (g : Segment) {l : List Segment} (sorted : l.Pairwise (·.column ≤ ·.column)) (c : Nat) :
    (insertSegment g l).filter (fun x => decide (x.column = c)) =
      l.filter (fun x => decide (x.column = c)) ++ [g].filter (fun x => decide (x.column = c)) := by
  induction l with
  | nil => rfl
  | cons h rest ih =>
    obtain ⟨first, others⟩ := List.pairwise_cons.mp sorted
    unfold insertSegment
    split
    next below =>
      by_cases hc : g.column = c
      · have none : (h :: rest).filter (fun x => decide (x.column = c)) = [] := List.filter_eq_nil_iff.mpr fun x hx => by
          have above : g.column < x.column := (List.mem_cons.mp hx).elim (fun e => e ▸ below) fun hx => below.trans_le (first x hx)
          simp only [decide_eq_true_eq]
          omega
        rw [List.filter_cons, none]
        simp [hc]
      · simp [hc]
    next above =>
      rw [List.filter_cons (x := h), ih others, List.filter_cons (x := h)]
      split <;> rfl

/-- Insertion one after another sorts by column and keeps the order within a column. -/
theorem insertSegments_spec (gs : List Segment) {l : List Segment} (sorted : l.Pairwise (·.column ≤ ·.column)) :
    (gs.foldl (fun acc g => insertSegment g acc) l).Pairwise (·.column ≤ ·.column) ∧
      (gs.foldl (fun acc g => insertSegment g acc) l).Perm (gs.reverse ++ l) ∧
      ∀ c, (gs.foldl (fun acc g => insertSegment g acc) l).filter (fun x => decide (x.column = c)) =
        l.filter (fun x => decide (x.column = c)) ++ gs.filter (fun x => decide (x.column = c)) := by
  induction gs generalizing l with
  | nil => exact ⟨sorted, .refl _, fun c => (List.append_nil _).symm⟩
  | cons g gs ih =>
    obtain ⟨ordered, perm, filter⟩ := ih (insertSegment_sorted g sorted)
    rw [List.foldl_cons]
    refine ⟨ordered, perm.trans ?_, fun c => ?_⟩
    · rw [List.reverse_cons, List.append_assoc, List.singleton_append]
      exact (insertSegment_perm g l).append_left _
    · rw [filter c, insertSegment_filter g sorted, List.append_assoc, ← List.filter_append, List.singleton_append]

/-- The segment of a field (R88). -/
def Ticket.segment (k : Ticket) (f : FieldEntry) : Segment := { column := f.column, size := f.size, text := k.fill f }

section
variable (k : Ticket)

theorem Ticket.segments_eq (row : Nat) : k.segments row =
    ((k.layout.filter fun f => decide (f.row = row)).map k.segment).foldl (fun acc g => insertSegment g acc) [] := rfl

theorem Ticket.segments_spec (row : Nat) : (k.segments row).Pairwise (·.column ≤ ·.column) ∧
    (∀ c, (k.segments row).filter (fun g => decide (g.column = c)) =
      (k.layout.filter fun f => decide (f.row = row ∧ f.column = c)).map k.segment) ∧
    (k.segments row = [] ↔ ∀ f ∈ k.layout, f.row ≠ row) := by
  obtain ⟨ordered, perm, filter⟩ := insertSegments_spec ((k.layout.filter fun f => decide (f.row = row)).map k.segment)
    (l := []) List.Pairwise.nil
  rw [← Ticket.segments_eq] at ordered perm
  rw [← Ticket.segments_eq] at filter
  refine ⟨ordered, fun c => (filter c).trans ?_, ?_⟩
  · rw [List.filter_nil, List.nil_append, List.filter_map, List.filter_filter]
    congr 2
    funext f
    simp only [Function.comp_apply, Ticket.segment, Bool.decide_and]
    exact Bool.and_comm _ _
  · have same : k.segments row = [] ↔ (k.layout.filter fun f => decide (f.row = row)).map k.segment = [] := by
      constructor
      · intro none
        rw [none, List.append_nil] at perm
        exact List.reverse_eq_nil_iff.mp perm.symm.eq_nil
      · intro none
        rw [Ticket.segments_eq, none]
        rfl
    rw [same, List.map_eq_nil_iff, List.filter_eq_nil_iff]
    simp

/-! ### Lines (R88) -/

theorem Ticket.mem_lines (l : PrintLine) : l ∈ k.lines ↔ l.row < 16 ∧ l.segments = k.segments l.row ∧ k.segments l.row ≠ [] := by
  unfold Ticket.lines
  rw [List.mem_filterMap]
  constructor
  · rintro ⟨row, hrow, line⟩
    split at line
    · cases line
    next g rest segments =>
      cases line
      exact ⟨List.mem_range.mp hrow, segments.symm, by rw [segments]; exact nofun⟩
  · rintro ⟨inside, segments, some⟩
    refine ⟨l.row, List.mem_range.mpr inside, ?_⟩
    split
    next none => exact absurd none some
    next g rest h =>
      rw [← h, ← segments]

theorem Ticket.lines_rows : (k.lines.map (·.row)).Pairwise (· < ·) := by
  refine List.Pairwise.sublist ?_ (List.pairwise_lt_range (n := 16))
  unfold Ticket.lines
  rw [List.map_filterMap]
  refine filterMap_sublist (fun row r line => ?_) _
  split at line
  · cases line
  · exact (Option.some.inj line).symm

theorem Ticket.row_mem_lines (row : Nat) (h : row ≤ 15) : row ∈ k.lines.map (·.row) ↔ ∃ f ∈ k.layout, f.row = row := by
  have none := (k.segments_spec row).2.2
  rw [List.mem_map]
  constructor
  · rintro ⟨l, hl, rfl⟩
    obtain ⟨-, -, some⟩ := (k.mem_lines l).mp hl
    by_contra out
    push Not at out
    exact some (none.mpr out)
  · rintro ⟨f, hf, here⟩
    exact ⟨{ row := row, segments := k.segments row }, (k.mem_lines _).mpr
      ⟨Nat.lt_succ_of_le h, rfl, fun empty => none.mp empty f hf here⟩, rfl⟩

end

end Sys2Proof.Machine
end

