-- ==== Sys2Proof/Proofs/Dispatches.lean ====
section
/-! O49: a PRINT dispatched, and what its ticket carries. -/

namespace Sys2Proof.Machine

/-! ### What a dispatch finds (R7, R38) -/

section
variable {s : State} {p : Fin 6}

theorem State.mayPrint_of (state : (s.printer p).state = .ready ∨ (s.printer p).state = .busy)
    (acceptance : (s.printer p).lastAcceptance = some .taken) (condition : (s.printer p).lastCondition = some .ready)
    (room : (s.path p).length ≤ 1) (timeouts : (s.printer p).timeoutCount = 0) (enabled : (s.printer p).disablePending = false) :
    s.mayPrint p = true := by
  unfold State.mayPrint
  rw [Bool.and_eq_true, decide_eq_true_eq, enabled]
  exact ⟨⟨state, acceptance, condition, room, timeouts⟩, rfl⟩

theorem State.headCopy_of {j : Job} {rest : List Nat} {i : Nat} (queue : (s.printer p).queue = j.tag :: rest)
    (found : s.job? j.tag = some j) (running : j.stop = none)
    (next : j.copyStates.findIdx? (fun c => decide (c = .undispatched)) = some i) : s.headCopy p = some (j, i + 1) := by
  unfold State.headCopy Job.nextCopy
  rw [queue]
  simp only [found, running, next]
  rfl

/-- The bin with the fewer blanks left, bin A at a tie (R7). -/
theorem State.takeBin_of {x : Pack} {side other : Bin} {k : Fin 8} (apart : side ≠ other) (here : s.binPack? p side = some x)
    (fits : x.takeable k = true)
    (fewer : ∀ y, s.binPack? p other = some y → y.takeable k = true → x.remaining < y.remaining ∨ (x.remaining = y.remaining ∧ side = .a)) :
    s.takeBin p k = some (x, side) := by
  have mine : (s.binPack? p side).filter (·.takeable k) = some x := by rw [here, Option.filter_some, if_pos fits]
  have theirs : (s.binPack? p other).filter (·.takeable k) = none ∨ ∃ y, (s.binPack? p other).filter (·.takeable k) = some y ∧
      (x.remaining < y.remaining ∨ (x.remaining = y.remaining ∧ side = .a)) := by
    cases h : (s.binPack? p other).filter (·.takeable k) with
    | none => exact .inl rfl
    | some y =>
      obtain ⟨bin, takes⟩ := Option.filter_eq_some_iff.mp h
      exact .inr ⟨y, rfl, fewer y bin takes⟩
  unfold State.takeBin
  cases side <;> cases other
  · exact absurd rfl apart
  · rcases theirs with none | ⟨y, some, less⟩
    · rw [mine, none]
    · rw [mine, some]
      exact if_neg (by omega)
  · rcases theirs with none | ⟨y, some, less⟩
    · rw [mine, none]
    · rw [mine, some]
      refine if_pos ?_
      rcases less with less | ⟨-, wrong⟩
      · exact less
      · cases wrong
  · exact absurd rfl apart

/-- READY and BUSY with a blank in path: BUSY (R29). -/
theorem State.syncBusy_busy (state : (s.printer p).state = .ready ∨ (s.printer p).state = .busy) (some : s.path p ≠ []) :
    s.syncBusy p = s.modPrinter p fun x => { x with state := .busy } := by
  unfold State.syncBusy
  rcases state with state | state
  · rw [if_pos ⟨state, some⟩]
    unfold State.setPrinterState
    simp only [state]
    rfl
  · rw [if_neg (by rw [state]; exact fun h => absurd h.1 (by decide)), if_neg fun h => some h.2]
    refine Eq.symm ((s.modPrinter_congr p (g := fun x => x) ?_).trans (s.modPrinter_id p))
    show ({ s.printer p with state := .busy } : Printer) = _
    rw [← state]

end

/-- What the composer writes does not read the packs, the paths, the printers or the pool (R83). -/
theorem State.compose_congr {s t : State} (keeps : s.keepsBut t [.packs, .inPath, .printers, .pool, .stockTypes]) (types : s.typesSettled t)
    (j : Job) (copy serial : Nat) (side : Bin) : t.compose j copy serial side = s.compose j copy serial side := by
  have ticket : t.ticket j copy serial = s.ticket j copy serial := by
    unfold State.ticket State.layout State.window
    rw [types.definition, show t.live = s.live from keeps .live (by decide), show t.office = s.office from keeps .office (by decide),
      show t.ret.windows = s.ret.windows from keeps .windows (by decide)]
  unfold State.compose
  rw [ticket]

/-- What a take leaves while the notice queue is full (R7, R29). -/
theorem State.take_of {s : State} {p : Fin 6} {k : Fin 8} {e : InPathEntry} {x : Pack} {n : Nat} {side : Bin} (full : s.queueFull)
    (state : (s.printer p).state = .ready ∨ (s.printer p).state = .busy) (room : (s.path p).length ≤ 1)
    (certain : ∀ d ∈ s.ret.doubtful, d.printer ≠ p) (found : s.takeBin p k = some (x, side)) (first : x.next = some n) :
    ∃ t, s.take p k e = some (t, { e with pack := x.id, serial := n }, side) ∧
      t.path p = s.path p ++ [{ e with pack := x.id, serial := n }] ∧ othersKept s.ret.inPath t.ret.inPath p ∧
      t.ret.packs = s.ret.packs.map (fun k => if k.id = x.id then k.takeOne else k) ∧
      t.printer p = { s.printer p with state := .busy } ∧ othersKept s.printers t.printers p ∧ s.typesSettled t ∧
      s.keepsBut t [.packs, .inPath, .printers, .stockTypes] := by
  have doubt : s.hasDoubt p = false := by
    rw [← Bool.not_eq_true, State.hasDoubt_iff]
    exact fun ⟨d, hd, here⟩ => certain d hd here
  obtain ⟨entry, here⟩ : ∃ entry : InPathEntry, entry = { e with pack := x.id, serial := n } := ⟨_, rfl⟩
  rw [← here]
  have taken : s.take p k e = some (((s.modPack x.id Pack.takeOne).modPath p (· ++ [entry])).lowStockCheck k, entry, side) := by
    unfold State.take
    rw [if_neg (by rw [doubt]; exact not_or.mpr ⟨Nat.not_le.mpr (Nat.lt_succ_of_le room), Bool.false_ne_true⟩), found]
    simp only [first, Option.getD_some, here]
  have path : ((s.modPack x.id Pack.takeOne).setInPath (updAt s.ret.inPath p (· ++ [entry]))).path p = s.path p ++ [entry] :=
    updAt_same s.ret.inPath p (· ++ [entry])
  have moved : (s.modPack x.id Pack.takeOne).modPath p (· ++ [entry]) =
      ((s.modPack x.id Pack.takeOne).setInPath (updAt s.ret.inPath p (· ++ [entry]))).modPrinter p fun x => { x with state := .busy } :=
    State.syncBusy_busy (s := (s.modPack x.id Pack.takeOne).setInPath (updAt s.ret.inPath p (· ++ [entry]))) state
      (by rw [path]; exact List.append_ne_nil_of_right_ne_nil _ (List.cons_ne_nil _ _))
  have base : s.keepsBut ((s.modPack x.id Pack.takeOne).setInPath (updAt s.ret.inPath p (· ++ [entry]))) [.packs, .inPath] :=
    ((s.modPack_keeps _ _).mono (by decide)).trans ((State.setInPath_keeps _ _).mono (by decide))
  have others : othersKept s.ret.inPath
      ((s.modPack x.id Pack.takeOne).setInPath (updAt s.ret.inPath p (· ++ [entry]))).ret.inPath p := othersKept_updAt _ _ _
  have packs : ((s.modPack x.id Pack.takeOne).setInPath (updAt s.ret.inPath p (· ++ [entry]))).ret.packs =
      s.ret.packs.map fun k => if k.id = x.id then k.takeOne else k := rfl
  rw [moved] at taken
  generalize (s.modPack x.id Pack.takeOne).setInPath (updAt s.ret.inPath p (· ++ [entry])) = u at taken path base others packs
  have printers : u.printers = s.printers := base .printers (by decide)
  have busy := u.modPrinter_keeps p fun x => { x with state := .busy }
  have record : (u.modPrinter p fun x => { x with state := .busy }).printer p = { s.printer p with state := .busy } := by
    rw [State.modPrinter_same]
    unfold State.printer
    rw [printers]
  have rest : othersKept s.printers (u.modPrinter p fun x => { x with state := .busy }).printers p := by
    rw [← printers]
    exact othersKept_updAt _ _ _
  have checked := State.lowStockCheck_full (u.modPrinter p fun x => { x with state := .busy }) k
    ((full.carry base (by decide)).carry busy (by decide))
  have types := (serves_lowStockCheck (u.modPrinter p fun x => { x with state := .busy }) k).stockTypes
  have kept : s.typesSettled (u.modPrinter p fun x => { x with state := .busy }) := typesSettled_of_same (base .stockTypes (by decide))
  have whole : s.keepsBut (u.modPrinter p fun x => { x with state := .busy }) [.packs, .inPath, .printers] :=
    (base.mono (by decide)).trans (busy.mono (by decide))
  have same : (u.modPrinter p fun x => { x with state := .busy }).ret.inPath = u.ret.inPath := rfl
  have samePacks : (u.modPrinter p fun x => { x with state := .busy }).ret.packs = u.ret.packs := rfl
  generalize (u.modPrinter p fun x => { x with state := .busy }) = v at taken record rest checked types kept whole same samePacks
  have inPath : (v.lowStockCheck k).ret.inPath = u.ret.inPath := (checked .inPath (by decide)).trans same
  have printers' : (v.lowStockCheck k).printers = v.printers := checked .printers (by decide)
  refine ⟨_, taken, ?_, inPath ▸ others, ((checked .packs (by decide)).trans samePacks).trans packs, ?_, printers' ▸ rest,
    kept.trans types, (whole.mono (by decide)).trans (checked.mono (by decide))⟩
  · unfold State.path at path ⊢
    rw [inPath]
    exact path
  · unfold State.printer at record ⊢
    rw [printers']
    exact record

theorem State.choose_dispatched {s t : State} {p : Fin 6} (free : (s.printer p).outstanding = none) (sent : s.dispatch p = some t)
    (trigger : Trigger) : s.choose trigger p = t := by
  have idle : ¬ (s.printer p).outstanding.isSome = true := by rw [free]; exact Bool.false_ne_true
  have may := (State.dispatch_some sent).1
  unfold State.mayPrint at may
  rw [Bool.and_eq_true, decide_eq_true_eq] at may
  obtain ⟨⟨state, -⟩, -⟩ := may
  unfold State.choose
  simp only
  rw [if_neg idle]
  rcases state with state | state
  · rw [state]
    simp only [sent]
  · rw [state]
    simp only [sent]

end Sys2Proof.Machine

open Sys2Proof Sys2Proof.Machine

/-- Settles O49: the take, the command and the job's copy, and the composer's text. -/
theorem dispatchTakesABlank : Obligations.DispatchTakesABlank := by
  refine ⟨?dispatch, ?ticket⟩
  case dispatch =>
    intro s p j i rest x n side other full r slot state acceptance condition room timeouts enabled queue found running next fits certain
      apart bin takeable first fewer
    have may := State.mayPrint_of state acceptance condition room timeouts enabled
    have head := State.headCopy_of queue found running next
    obtain ⟨t, taken, path, others, packs, record, rest, types, keeps⟩ := State.take_of (e := s.intendedEntry p j (i + 1)) full state room
      certain (State.takeBin_of apart bin takeable fewer) first
    have sent : s.dispatch p = some ((t.send p .print (some (t.compose j (i + 1) n side))).modJob j.tag (Job.dispatched (i + 1))) := by
      unfold State.dispatch
      rw [if_pos may, head]
      simp only [fits, taken, if_true]
    have chosen : exec (.pollInterval p) s =
        .next ((t.send p .print (some (t.compose j (i + 1) n side))).modJob j.tag (Job.dispatched (i + 1))) :=
      congrArg Host.Outcome.next (State.choose_dispatched slot sent .interval)
    rw [State.compose_congr (keeps.mono (by decide)) types] at chosen
    have command : (t.send p .print (some (s.compose j (i + 1) n side))).printer p = { t.printer p with
        nextCommand := (t.printer p).nextCommand + 1#8
        outstanding := some ((t.printer p).nextCommand, .print)
        sentSince := min 256 ((t.printer p).sentSince + 1)
        sent := some { number := (t.printer p).nextCommand, kind := .print, body := some (s.compose j (i + 1) n side) } } := by
      unfold State.send
      rw [State.modPrinter_same, saturating_eq_min]
    rw [record] at command
    have apart : othersKept s.printers (t.send p .print (some (s.compose j (i + 1) n side))).printers p :=
      rest.trans (othersKept_updAt _ _ _)
    have kept : t.keepsBut (t.send p .print (some (s.compose j (i + 1) n side))) [.printers] := t.modPrinter_keeps p _
    have pool : t.pool = s.pool := keeps .pool (by decide)
    have paths : ((t.send p .print (some (s.compose j (i + 1) n side))).modJob j.tag (Job.dispatched (i + 1))).ret = t.ret := rfl
    have jobs : ((t.send p .print (some (s.compose j (i + 1) n side))).modJob j.tag (Job.dispatched (i + 1))).pool =
        t.pool.map fun k => if k.tag = j.tag then k.dispatched (i + 1) else k := rfl
    have marked := (t.send p .print (some (s.compose j (i + 1) n side))).modJob_keeps j.tag (Job.dispatched (i + 1))
    have whole := ((keeps.mono (by decide)).trans (kept.mono (by decide))).trans (marked.mono (by decide))
      (l := [.stockTypes, .packs, .inPath, .printers, .pool])
    generalize t.send p .print (some (s.compose j (i + 1) n side)) = v at chosen command apart paths jobs whole
    refine ⟨_, chosen, ?_, ?_, ?_, command, apart, ?_, whole⟩
    · exact (congrArg (fun r : Retained => r.inPath[p]) paths).trans path
    · exact paths ▸ others
    · exact (congrArg Retained.packs paths).trans packs
    · rw [jobs, pool]
      rfl
  case ticket =>
    intro s j copy serial side type fields clerk few copies high value staff decimal zeros check words number filled segment body
    have fill : ∀ f, filled f = (s.ticket j copy serial).fill f := fun f => by
      have place : j.position.number ≤ 999999999 := by cases j.position <;> simp only [Position.number] <;> omega
      have code : (s.ticket j copy serial).check ≤ 999999999 :=
        (Nat.mod_lt _ (by decide : 0 < 97)).le.trans (by decide)
      have holder : (s.ticket j copy serial).clerk.getD 0 = clerk := by
        simp only [State.ticket, clerk]
        cases j.position <;> rfl
      cases kind : f.kind with
      | text slot => simp only [filled, Ticket.fill, kind]; rfl
      | date => simp only [filled, Ticket.fill, kind]; rfl
      | serial =>
        simp only [filled, Ticket.fill, kind]
        rw [fitNumber_eq, zeroPadded_eq _ (n := (s.ticket j copy serial).serial) high]
        rfl
      | value =>
        simp only [filled, Ticket.fill, kind]
        rw [fitNumber_eq, valueText_eq (v := (s.ticket j copy serial).job.value) value]
        rfl
      | position =>
        simp only [filled, Ticket.fill, kind]
        rw [fitNumber_eq, zeroPadded_eq _ (n := (s.ticket j copy serial).job.position.number) place]
        rfl
      | clerk =>
        simp only [filled, Ticket.fill, kind]
        rw [holder, fitNumber_eq, zeroPadded_eq _ (staff.trans (by decide))]
        rfl
      | check =>
        simp only [filled, Ticket.fill, kind]
        rw [fitNumber_eq, zeroPadded_eq _ code]
        rfl
      | copy =>
        simp only [filled, Ticket.fill, kind]
        rw [fitNumber_eq, decimal_nine (n := (s.ticket j copy serial).copy) (few.trans (by decide)),
          decimal_nine (n := (s.ticket j copy serial).job.copies) (copies.trans (by decide))]
        rfl
    have segments : ∀ f, segment f = (s.ticket j copy serial).segment f := fun f => by
      unfold Ticket.segment
      rw [← fill]
    refine ⟨rfl, Ticket.lines_rows _, fun row low => Ticket.row_mem_lines _ row low, fun l hl => ?_, ?_⟩
    · obtain ⟨-, here, -⟩ := (Ticket.mem_lines _ l).mp hl
      obtain ⟨ordered, columns, -⟩ := Ticket.segments_spec (s.ticket j copy serial) l.row
      rw [here, funext segments]
      exact ⟨ordered, columns⟩
    · rw [funext fill]
      rfl

end

