-- ==== Sys2Proof/Proofs/Reads.lean ====
section
/-! O11: the reading requests. -/

namespace Sys2Proof.Machine

section
variable {s : State} {c i : Instr} {request : Nat} {code : ReplyCode} {body : List Byte} (free : s.lineFree = true)
include free

/-- A request that only answers, on a free line. -/
theorem onlyReplies_of_taken (h : exec c s = s.taken i (s.answer code request body)) : s.onlyReplies c code request body :=
  s.onlyReplies_of_answer c code request body (h.trans (s.taken_free _ i free))

/-- A request that only answers once its checks pass, on a free line. -/
theorem onlyReplies_of_passed {checks : List (Bool × ReplyCode)} {taken : State}
    (h : exec c s = s.taken i (s.judged request checks taken)) (passes : ∀ x ∈ checks, x.1 = true)
    (answers : taken = s.answer code request body) : s.onlyReplies c code request body :=
  s.onlyReplies_of_answer c code request body (answers ▸ next_of_judged free h passes)

end

theorem numberInRange_out {n : Nat} (h : n = 0 ∨ 65535 < n) : numberInRange n = false := by
  rw [Bool.eq_false_iff, ne_eq, numberInRange_iff]
  omega

/-- READ SHIFT of a number that names a record (R156). -/
theorem readShift_taken (s : State) (pos : Position) {n : Nat} (some : n ≠ 0) : exec (.readShift pos n) s =
    s.taken (.readShift pos n) (s.judged 0x3A [(numberInRange n, .range)]
      ((s.record? n).elim (s.answer .notFound 0x3A []) fun r => s.answer .ok 0x3A r.bytes)) := by
  change execReadShift pos n s = _
  unfold execReadShift
  rw [if_neg some]
  cases s.record? n <;> rfl

theorem identityBody_eq (s : State) : s.identityBody = identityBytes s Config.revision := by
  unfold State.identityBody identityBytes bFlag
  cases s.office.clock <;> rfl

theorem ofNumber_window (w : Fin 15) : Position.ofNumber (w.val + 1) = some (.window w) := by
  unfold Position.ofNumber
  rw [if_neg (Nat.succ_ne_zero _)]
  exact dif_pos w.isLt

end Sys2Proof.Machine

open Sys2Proof Sys2Proof.Machine

/-- Settles O11: each request answers, once its operands are in range. -/
theorem readsAnswerAndChangeNothing : Obligations.ReadsAnswerAndChangeNothing := by
  intro s pos free
  refine ⟨fun n a b outside => ?range, fun tag part j low high parts found => ?job, ?notice, fun packId index k low high slots found => ?pack,
    fun type location start types locations low high => ?packs, fun type location start => ?doubtful, fun p => ?printer,
    fun first selection high selections known => ?faults, fun part index parts slots => ?console,
    fun w part index parts slots => ?window, ?history, fun n r low high found => ?shift, fun item index body known => ?setting,
    fun k => ?layout, ?identify⟩
  case range =>
    have out := numberInRange_out outside
    refine ⟨onlyReplies_of_judged free rfl (by simp [judge, out]), onlyReplies_of_judged free rfl (by simp [judge, out]),
      onlyReplies_of_judged free rfl (by simp [judge, out]), fun some => ⟨onlyReplies_of_judged free rfl ?_, ?_⟩⟩
    · have high : ¬ n ≤ 65535 := by omega
      simp [judge, high]
    · exact onlyReplies_of_judged free (readShift_taken s pos some) (by simp [judge, out])
  case job =>
    refine onlyReplies_of_passed free rfl (by simp [(numberInRange_iff tag).mpr ⟨low, high⟩, parts]) (by rw [found])
  case notice => exact onlyReplies_of_taken free rfl
  case pack =>
    exact onlyReplies_of_passed free rfl (by simp [(numberInRange_iff packId).mpr ⟨low, high⟩, slots]) (by rw [found])
  case packs =>
    exact onlyReplies_of_passed free rfl (by simp [(numberInRange_iff start).mpr ⟨low, high⟩, types, locations, anyFilter]) rfl
  case doubtful => exact onlyReplies_of_taken free rfl
  case printer =>
    refine onlyReplies_of_taken (i := .readPrinter pos (p.val + 1)) free ?_
    change execReadPrinter pos (p.val + 1) s = _
    unfold execReadPrinter
    rw [printerOf_val]
  case faults =>
    refine onlyReplies_of_passed free rfl (List.forall_mem_cons.mpr ⟨decide_eq_true ⟨high, selections⟩, List.forall_mem_singleton.mpr ?_⟩) rfl
    rw [Bool.or_eq_true, decide_eq_true_eq]
    exact known
  case console => exact onlyReplies_of_passed free rfl (by simp [parts, slots]) rfl
  case window =>
    refine onlyReplies_of_passed (i := .readPosition pos (w.val + 1) part index) (checks := [(decide (part ≤ 3 ∧ index ≤ 15), .range)])
      free ?_ ?_ rfl
    · change execReadPosition pos (w.val + 1) part index s = _
      unfold execReadPosition
      rw [ofNumber_window]
    · simp [parts, slots]
  case history => exact onlyReplies_of_taken free rfl
  case shift =>
    exact onlyReplies_of_passed free (readShift_taken s pos (Nat.pos_iff_ne_zero.mp low))
      (by simp [(numberInRange_iff n).mpr ⟨low, high⟩]) (by rw [found]; rfl)
  case setting =>
    refine onlyReplies_of_taken (i := .readSetting pos item index) free ?_
    change execReadSetting pos item index s = _
    unfold execReadSetting
    rw [known]
  case layout =>
    refine onlyReplies_of_taken (i := .readSettingLayout pos k.val) free ?_
    change execReadSettingLayout pos k.val s = _
    unfold execReadSettingLayout
    rw [stockOf_val]
  case identify => exact onlyReplies_of_taken (i := .identify pos) free (congrArg (fun b => s.taken _ (s.answer .ok 0x4E b)) (identityBody_eq s))

end

