-- ==== Sys2Proof/Proofs/JobsKept.lean ====
section
/-! SUPPORT. What the scheduler leaves of the jobs' copies while the notice queue is full (R54, R65, R67 to R69), and what a copy report
makes of a job (R61 to R64). -/

namespace Sys2Proof.Machine

/-! ### A job as the scheduler leaves it -/

/-- The copies of a job and what was issued and spoiled of it are the same, an ended job stays as it ended, and (in the strict sense) a
job with a copy in path is not touched. -/
structure Job.KeptAs (strict : Bool) (j k : Job) : Prop where
  copies : k.copyStates = j.copyStates
  serials : k.serials = j.serials
  blanks : k.blanksSpoiled = j.blanksSpoiled
  spoils : k.spoilCount = j.spoilCount
  ended : j.state = .ended → k.state = .ended ∧ k.outcome = j.outcome ∧ k.reason = j.reason
  inPath : strict = true → j.anyInPath = true → k = j

theorem Job.KeptAs.refl (strict : Bool) (j : Job) : j.KeptAs strict j := ⟨rfl, rfl, rfl, rfl, fun h => ⟨h, rfl, rfl⟩, fun _ _ => rfl⟩

theorem Job.KeptAs.trans {strict : Bool} {i j k : Job} (h : i.KeptAs strict j) (g : j.KeptAs strict k) : i.KeptAs strict k where
  copies := g.copies.trans h.copies
  serials := g.serials.trans h.serials
  blanks := g.blanks.trans h.blanks
  spoils := g.spoils.trans h.spoils
  ended past := by
    obtain ⟨past', outcome, reason⟩ := h.ended past
    obtain ⟨past'', outcome', reason'⟩ := g.ended past'
    exact ⟨past'', outcome'.trans outcome, reason'.trans reason⟩
  inPath only path := by
    have same := h.inPath only path
    exact (g.inPath only (same ▸ path)).trans same

/-- Every job is found under its tag, as the scheduler leaves it. -/
def State.jobsKept (strict : Bool) (s t : State) : Prop := ∀ tag j, s.job? tag = some j → ∃ k, t.job? tag = some k ∧ j.KeptAs strict k

section
variable {strict : Bool} {s t u : State}

theorem State.jobsKept.trans (h : s.jobsKept strict t) (k : t.jobsKept strict u) : s.jobsKept strict u := fun tag j found => by
  obtain ⟨i, hi, kept⟩ := h tag j found
  obtain ⟨l, hl, kept'⟩ := k tag i hi
  exact ⟨l, hl, kept.trans kept'⟩

theorem jobsKept_of_pool (h : t.pool = s.pool) : s.jobsKept strict t := fun tag j found =>
  ⟨j, by unfold State.job? at found ⊢; rw [h]; exact found, .refl strict j⟩

theorem jobsKept_refl (s : State) : s.jobsKept strict s := jobsKept_of_pool rfl

theorem jobsKept_modJob {tag : Nat} {j : Job} {f : Job → Job} (ids : ∀ j, (f j).tag = j.tag) (found : s.job? tag = some j)
    (kept : j.KeptAs strict (f j)) : s.jobsKept strict (s.modJob tag f) := fun tag' i found' => by
  rw [State.job?_modJob s tag tag' f ids, found', Option.map_some]
  by_cases same : i.tag = tag
  · rw [if_pos same]
    have here : tag' = tag := (State.job?_some found').2.symm.trans same
    subst here
    rw [found, Option.some.injEq] at found'
    subst found'
    exact ⟨_, rfl, kept⟩
  · rw [if_neg same]
    exact ⟨i, rfl, .refl strict i⟩

end

/-! ### The end of a job (R65) -/

/-- A pool whose job under a tag has been taken to the tail. -/
theorem find?_to_tail (pool : List Job) (j e : Job) (same : e.tag = j.tag) (tag : Nat) :
    ((pool.filter fun k => decide (k.tag ≠ j.tag)) ++ [e]).find? (fun k => decide (k.tag = tag)) =
      if tag = j.tag then some e else pool.find? fun k => decide (k.tag = tag) := by
  rw [List.find?_append, List.find?_filter]
  by_cases here : tag = j.tag
  · rw [if_pos here, List.find?_eq_none.mpr fun k _ => by rw [here]; simp, Option.none_or]
    simp [same, here]
  · rw [if_neg here]
    have rest : pool.find? (fun k => decide (decide (k.tag ≠ j.tag) = true ∧ decide (k.tag = tag) = true)) =
        pool.find? fun k => decide (k.tag = tag) := List.find?_congr fun k _ => by
      by_cases h : k.tag = tag
      · simp [h, here]
      · simp [h]
    rw [rest]
    have apart : ¬ e.tag = tag := fun h => here (h.symm.trans same)
    simp [apart]

theorem Job.KeptAs.end_of {strict : Bool} {j : Job} (must : j.mustEnd = true) : j.KeptAs strict j.end := by
  unfold Job.mustEnd at must
  rw [Bool.and_eq_true, Bool.and_eq_true, decide_eq_true_eq, Bool.not_eq_true'] at must
  obtain ⟨⟨running, idle⟩, -⟩ := must
  exact ⟨rfl, rfl, rfl, rfl, fun past => absurd past running, fun _ path => by rw [idle] at path; cases path⟩

section
variable {strict : Bool} {s : State} (full : s.queueFull)
include full

theorem job?_endJob (j : Job) (tag : Nat) : (s.endJob j).job? tag = if tag = j.tag then some j.end else s.job? tag := by
  have pool : (s.endJob j).pool = (s.pool.filter fun k => decide (k.tag ≠ j.tag)) ++ [j.end] := by
    have kept : s.keepsBut ((s.leaveQueue j.assigned j.tag).setPool ((s.pool.filter fun k => decide (k.tag ≠ j.tag)) ++ [j.end]))
        [.printers, .pool] := ((s.leaveQueue_keeps _ _).mono (by decide)).trans ((State.setPool_keeps _ _).mono (by decide))
    unfold State.endJob
    rw [State.arbitrate_full _ (full.carry kept (by decide))]
    rfl
  unfold State.job?
  rw [pool]
  exact find?_to_tail s.pool j j.end rfl tag

/-- The job under a tag after its end test. -/
theorem job?_endTest {tag : Nat} {j : Job} (found : s.job? tag = some j) :
    (s.endTest tag).job? tag = some (if j.mustEnd then j.end else j) := by
  unfold State.endTest
  rw [found]
  simp only
  split
  · rw [job?_endJob full, if_pos (State.job?_some found).2.symm]
  · exact found

theorem jobsKept_endTest (tag : Nat) : s.jobsKept strict (s.endTest tag) := by
  unfold State.endTest
  split
  · exact jobsKept_refl s
  next j found =>
    split
    next must =>
      intro tag' i found'
      rw [job?_endJob full]
      split
      next same =>
        have here : tag' = tag := same.trans (State.job?_some found).2
        subst here
        rw [found, Option.some.injEq] at found'
        subst found'
        exact ⟨_, rfl, Job.KeptAs.end_of must⟩
      · exact ⟨i, found', .refl strict i⟩
    · exact jobsKept_refl s

end

/-! ### Rerouting and lost printers (R67 to R69) -/

theorem jobsKept_foldl {strict : Bool} {α : Type} (f : State → α → State) (l : List Part) (hn : Part.notices ∉ l)
    (keeps : ∀ (s : State) (x : α), s.queueFull → s.keepsBut (f s x) l)
    (kept : ∀ (s : State) (x : α), s.queueFull → s.jobsKept strict (f s x)) (xs : List α) (s : State) (full : s.queueFull) :
    s.jobsKept strict (xs.foldl f s) := by
  induction xs generalizing s with
  | nil => exact jobsKept_refl s
  | cons x xs ih => exact (kept s x full).trans (ih (f s x) (full.carry (keeps s x full) hn))

section
variable {strict : Bool} {s : State} (full : s.queueFull)
include full

theorem jobsKept_rerouteJob (tag : Nat) : s.jobsKept strict (s.rerouteJob tag) := by
  unfold State.rerouteJob
  split
  · exact jobsKept_refl s
  next j found =>
    split
    · exact jobsKept_refl s
    next movable =>
      rw [Bool.or_eq_true, not_or, Bool.not_eq_true, Bool.not_eq_true] at movable
      split
      · have marked : s.jobsKept strict (s.modJob tag fun k => { k with stop := some .routeLimit, rerouteCount := 4 }) :=
          jobsKept_modJob (fun _ => rfl) found ⟨rfl, rfl, rfl, rfl, fun past => ⟨past, rfl, rfl⟩,
            fun _ path => by rw [movable.2] at path; cases path⟩
        exact marked.trans (jobsKept_endTest (full.carry (s.modJob_keeps _ _) (by decide)) tag)
      · split
        next winner _ =>
          have tag' := (State.job?_some found).2
          refine (jobsKept_of_pool (t := (s.leaveQueue j.assigned j.tag).joinQueue winner j.tag) rfl).trans ?_
          exact jobsKept_modJob (fun _ => rfl) (j := j) (tag' ▸ found) ⟨rfl, rfl, rfl, rfl, fun past => ⟨past, rfl, rfl⟩,
            fun _ path => by rw [movable.2] at path; cases path⟩
        · exact jobsKept_endTest full tag

theorem jobsKept_reroutePass (p : Fin 6) : s.jobsKept strict (s.reroutePass p) := by
  unfold State.reroutePass
  split
  · exact jobsKept_foldl State.rerouteJob moved (by decide) State.rerouteJob_full (fun s x h => jobsKept_rerouteJob h x) _ s full
  · exact jobsKept_refl s

theorem jobsKept_passAll : s.jobsKept strict s.passAll :=
  jobsKept_foldl State.reroutePass moved (by decide) State.reroutePass_full (fun s x h => jobsKept_reroutePass h x) _ s full

theorem jobsKept_losePrinter (p : Fin 6) : s.jobsKept false (s.losePrinter p) := by
  unfold State.losePrinter
  refine jobsKept_foldl _ moved (by decide) (fun s tag full => ?_) (fun s tag full => ?_) _ s full
  · split
    · exact s.keepsBut_refl _
    · split
      · exact s.endTest_after _ _ full
      · exact s.keepsBut_refl _
  · split
    · exact jobsKept_refl s
    next j found =>
      split
      · have marked : s.jobsKept false (s.modJob tag (·.stopWith .printerLost)) :=
          jobsKept_modJob (fun _ => rfl) found ⟨rfl, rfl, rfl, rfl, fun past => ⟨past, rfl, rfl⟩, nofun⟩
        exact marked.trans (jobsKept_endTest (full.carry (s.modJob_keeps _ _) (by decide)) tag)
      · exact jobsKept_refl s

theorem jobsKept_setPrinterState (p : Fin 6) (st : PrinterState) (stays : strict = true → st.losesJobs = false) :
    s.jobsKept strict (s.setPrinterState p st) := by
  have lose : ∀ t : State, t.queueFull → t.jobsKept strict (if st.losesJobs then t.losePrinter p else t) ∧
      t.keepsBut (if st.losesJobs then t.losePrinter p else t) moved := fun t ht => by
    split
    next loses =>
      cases strict with
      | true => rw [stays rfl] at loses; cases loses
      | false => exact ⟨jobsKept_losePrinter ht p, t.losePrinter_full p ht⟩
    · exact ⟨jobsKept_refl t, t.keepsBut_refl _⟩
  have pass : ∀ t : State, t.queueFull → t.jobsKept strict (if st = .ready then t.passAll else t.reroutePass p) := fun t ht => by
    split
    · exact jobsKept_passAll ht
    · exact jobsKept_reroutePass ht p
  unfold State.setPrinterState
  simp only
  split
  · exact jobsKept_refl s
  · split
    · exact jobsKept_of_pool rfl
    · rw [State.arbitrate_full _ (full.carry (s.modPrinter_keeps p _) (by decide))]
      obtain ⟨lost, keeps⟩ := lose _ (full.carry (s.modPrinter_keeps p fun x => { x with
        state := st, statePending := true, outstanding := if st.dropsCommand then none else x.outstanding }) (by decide))
      exact ((jobsKept_of_pool rfl).trans lost).trans (pass _ ((full.carry (s.modPrinter_keeps p fun x => { x with
        state := st, statePending := true, outstanding := if st.dropsCommand then none else x.outstanding }) (by decide)).carry
        keeps (by decide)))

theorem jobsKept_syncBusy (p : Fin 6) : s.jobsKept strict (s.syncBusy p) := by
  unfold State.syncBusy
  split
  · exact jobsKept_setPrinterState full p _ fun _ => rfl
  · split
    · exact jobsKept_setPrinterState full p _ fun _ => rfl
    · exact jobsKept_refl s

theorem jobsKept_modPath (p : Fin 6) (f : List InPathEntry → List InPathEntry) : s.jobsKept strict (s.modPath p f) :=
  (jobsKept_of_pool rfl).trans (jobsKept_syncBusy (full.carry (s.setInPath_keeps (updAt s.ret.inPath p f)) (by decide)) p)

/-! ### A copy report (R61 to R64) -/

/-- What a copy report makes of its job, and that every other job is kept. -/
theorem reportCopy_spec (p : Fin 6) {tag : Nat} {j : Job} {f : Job → Job} (ids : ∀ j, (f j).tag = j.tag)
    (found : s.job? tag = some j) :
    (∃ k, (s.reportCopy p tag f).job? tag = some k ∧ (f j).KeptAs strict k ∧ ((f j).mustEnd = true →
      k.state = .ended ∧ k.outcome = some (f j).verdict.1 ∧ k.reason = (f j).verdict.2)) ∧
      ∀ tag' i, tag' ≠ tag → s.job? tag' = some i → ∃ k, (s.reportCopy p tag f).job? tag' = some k ∧ i.KeptAs strict k := by
  have changed : (s.modJob tag f).job? tag = some (f j) := by
    rw [State.job?_modJob s tag tag f ids, found, Option.map_some, if_pos (State.job?_some found).2]
  have others : ∀ tag' i, tag' ≠ tag → s.job? tag' = some i → (s.modJob tag f).job? tag' = some i := fun tag' i apart found' => by
    rw [State.job?_modJob s tag tag' f ids, found', Option.map_some, if_neg fun same => apart ((State.job?_some found').2.symm.trans same)]
  have full' := full.carry (s.modJob_keeps tag f) (by decide)
  have tested := job?_endTest full' changed
  have kept := jobsKept_endTest (strict := strict) full' tag
  have full'' := full'.carry (State.endTest_full _ tag full') (by decide)
  have rest : ((s.modJob tag f).endTest tag).jobsKept strict (s.reportCopy p tag f) := by
    unfold State.reportCopy
    rw [found]
    simp only
    split
    · exact jobsKept_refl _
    · exact jobsKept_reroutePass full'' p
  refine ⟨?_, fun tag' i apart found' => kept.trans rest tag' i (others tag' i apart found')⟩
  obtain ⟨k, hk, keptAs⟩ := rest tag _ tested
  refine ⟨k, hk, ?_, fun must => ?_⟩
  · by_cases must : (f j).mustEnd = true
    · rw [if_pos must] at keptAs
      exact (Job.KeptAs.end_of must).trans keptAs
    · rw [if_neg must] at keptAs
      exact keptAs
  · rw [if_pos must] at keptAs
    exact keptAs.ended rfl

end

end Sys2Proof.Machine
end

