-- ==== Sys2Proof/Proofs/RegisterMoves.lean ====
section
/-! SUPPORT. What settling the blanks of one port's path leaves of the printers and of the rest, while the notice queue is full. -/

namespace Sys2Proof.Machine

/-! ### The printers -/

/-- Of the other printers no more differs than queues and pending flags. -/
def Aside (p : Fin 6) (s t : State) : Prop := ∀ q, q ≠ p → (t.printer q).settled = (s.printer q).settled

/-- Of the printers no more differs than queues and pending flags, and whether a printer is READY or BUSY. -/
structure Steady (p : Fin 6) (s t : State) : Prop where
  aside : Aside p s t
  record : (t.printer p).settled = { (s.printer p).settled with state := (t.printer p).state }
  state : (t.printer p).state = (s.printer p).state ∨
    (s.printer p).state ∈ [.ready, .busy] ∧ (t.printer p).state ∈ [PrinterState.ready, .busy]

section
variable {p : Fin 6} {s t u : State}

theorem Aside.refl (p : Fin 6) (s : State) : Aside p s s := fun _ _ => rfl

theorem Aside.trans (h : Aside p s t) (k : Aside p t u) : Aside p s u := fun q hq => (k q hq).trans (h q hq)

theorem Aside.othersQuiet (h : Aside p s t) (quiet : s.othersQuiet p) : t.othersQuiet p := fun q hq => by
  have same := Printer.of_settled (h q hq)
  have calm := quiet q hq
  unfold State.portQuiet at calm ⊢
  rw [same]
  exact calm

theorem aside_modPrinter (s : State) (p : Fin 6) (f : Printer → Printer) : Aside p s (s.modPrinter p f) := fun q hq => by
  rw [s.modPrinter_other p q f hq]

theorem aside_setPrinterState (s : State) (p : Fin 6) (st : PrinterState) : Aside p s (s.setPrinterState p st) := fun _ hq =>
  (apart_setPrinterState s hq st).printer

theorem Serves.aside (h : Serves s t) (p : Fin 6) : Aside p s t := fun q _ => h.printers q

theorem Steady.refl (p : Fin 6) (s : State) : Steady p s s := ⟨.refl p s, rfl, .inl rfl⟩

theorem Steady.trans (h : Steady p s t) (k : Steady p t u) : Steady p s u where
  aside := h.aside.trans k.aside
  record := by rw [k.record, h.record]
  state := by
    rcases k.state with same | ⟨was, now⟩
    · rw [same]
      exact h.state
    · rcases h.state with same | ⟨first, -⟩
      · exact .inr ⟨same ▸ was, now⟩
      · exact .inr ⟨first, now⟩

theorem Serves.steady (h : Serves s t) (p : Fin 6) : Steady p s t where
  aside := h.aside p
  record := by
    have state : (t.printer p).state = (s.printer p).state := (congrArg Printer.state (h.printers p) :)
    rw [h.printers p, state]
    rfl
  state := .inl (congrArg Printer.state (h.printers p) :)

theorem steady_of_printers (h : t.printers = s.printers) (p : Fin 6) : Steady p s t := by
  have same : t.printer = s.printer := by unfold State.printer; rw [h]
  refine ⟨fun q _ => by rw [same], ?_, .inl (by rw [same])⟩
  rw [same]
  rfl

/-- A steady record but for state, queue and pending flag. -/
theorem Steady.printer (h : Steady p s t) : t.printer p = { s.printer p with
    state := (t.printer p).state
    queue := (t.printer p).queue
    statePending := (t.printer p).statePending } := by
  have same : { s.printer p with state := (t.printer p).state, queue := [], statePending := false } =
    ({ t.printer p with queue := [], statePending := false } : Printer) := h.record.symm
  calc t.printer p = { ({ t.printer p with queue := [], statePending := false } : Printer) with
        queue := (t.printer p).queue
        statePending := (t.printer p).statePending } := rfl
    _ = _ := by rw [← same]

/-- A FAULTED printer stays FAULTED. -/
theorem Steady.faulted (h : Steady p s t) (was : (s.printer p).state = .faulted) : (t.printer p).state = .faulted := by
  rcases h.state with same | ⟨not, -⟩
  · exact same.trans was
  · rw [was] at not
    exact absurd not (by decide)

theorem steady_syncBusy (s : State) (p : Fin 6) : Steady p s (s.syncBusy p) := by
  have swap : ∀ st : PrinterState, (s.printer p).state ∈ [.ready, .busy] → st ∈ [PrinterState.ready, .busy] →
      Steady p s (s.setPrinterState p st) := fun st was now => by
    have plain : s.setPrinterState p st = s ∨ s.setPrinterState p st = s.modPrinter p fun x => { x with state := st } := by
      simp only [List.mem_cons, List.not_mem_nil, or_false] at was now
      unfold State.setPrinterState
      rcases was with was | was <;> rcases now with rfl | rfl <;> simp [was]
    rcases plain with same | changed
    · rw [same]
      exact .refl p s
    · rw [changed]
      refine ⟨aside_modPrinter s p _, ?_, .inr ⟨was, ?_⟩⟩
      · rw [State.modPrinter_same]
        rfl
      · rw [State.modPrinter_same]
        exact now
  unfold State.syncBusy
  split
  next ready => exact swap .busy (by rw [ready.1]; decide) (by decide)
  · split
    next busy => exact swap .ready (by rw [busy.1]; decide) (by decide)
    · exact .refl p s

theorem steady_modPath (s : State) (p : Fin 6) (f : List InPathEntry → List InPathEntry) : Steady p s (s.modPath p f) :=
  (steady_of_printers (s := s) (t := s.setInPath (updAt s.ret.inPath p f)) rfl p).trans (steady_syncBusy _ p)

end

/-! ### The register -/

/-- What moves in the register can change. -/
def stocked : List Part := [.stockTypes, .packs, .doubtful, .inPath, .printers, .pool]

/-- A move in the register that concerns the blanks in path of one port. -/
structure Moves (p : Fin 6) (s t : State) : Prop where
  steady : Steady p s t
  parts : s.keepsBut t stocked
  paths : othersKept s.ret.inPath t.ret.inPath p

section
variable {p : Fin 6} {s t u : State}

theorem Moves.refl (p : Fin 6) (s : State) : Moves p s s := ⟨.refl p s, s.keepsBut_refl _, othersKept_refl _ _⟩

theorem Moves.trans (h : Moves p s t) (k : Moves p t u) : Moves p s u :=
  ⟨h.steady.trans k.steady, h.parts.trans k.parts, h.paths.trans k.paths⟩

theorem Moves.full (h : Moves p s t) (full : s.queueFull) : t.queueFull := full.carry h.parts (by decide)

theorem Moves.untallied (h : Moves p s t) : Untallied s t := untallied_of_keeps h.parts (by decide) (by decide) (by decide)

theorem Moves.positions (h : Moves p s t) : s.positionsKeptButTallies t :=
  positionsKeptButTallies_of_keeps h.parts (by decide) (by decide)

theorem Moves.faults (h : Moves p s t) : t.ret.faults = s.ret.faults := h.parts .faults (by decide)

theorem Moves.openFault (h : Moves p s t) : (t.printer p).openFault = (s.printer p).openFault := by rw [h.steady.printer]

theorem moves_foldl {α : Type} (f : State → α → State) (h : ∀ (s : State) (x : α), s.queueFull → Moves p s (f s x)) (xs : List α)
    (s : State) (full : s.queueFull) : Moves p s (xs.foldl f s) := by
  induction xs generalizing s with
  | nil => exact .refl p s
  | cons x xs ih => exact (h s x full).trans (ih (f s x) ((h s x full).full full))

theorem moves_of_keeps (h : s.keepsBut t [.stockTypes, .packs, .doubtful]) (p : Fin 6) : Moves p s t where
  steady := steady_of_printers (h .printers (by decide)) p
  parts := h.mono (by decide)
  paths := by
    rw [show t.ret.inPath = s.ret.inPath from h .inPath (by decide)]
    exact othersKept_refl _ _

theorem moves_modPack (s : State) (p : Fin 6) (id : Nat) (f : Pack → Pack) : Moves p s (s.modPack id f) :=
  moves_of_keeps ((s.modPack_keeps id f).mono (by decide)) p

theorem moves_exhaustTest (s : State) (p : Fin 6) (id : Nat) : Moves p s (s.exhaustTest id) := moves_modPack s p id _

theorem moves_setDoubtful (s : State) (p : Fin 6) (l : List DoubtfulEntry) : Moves p s (s.setDoubtful l) :=
  moves_of_keeps ((s.setDoubtful_keeps l).mono (by decide)) p

end

section
variable {s : State} (full : s.queueFull)
include full

theorem moves_dropEntry (p : Fin 6) (e : InPathEntry) : Moves p s (s.dropEntry p e) where
  steady := steady_modPath s p _
  parts := (State.modPath_full full p _).mono (by decide)
  paths := by
    have path : (s.dropEntry p e).ret.inPath = updAt s.ret.inPath p (withoutBlank e.pack e.serial) :=
      congrArg Stock.inPath (stock_dropEntry s p e)
    rw [path]
    exact othersKept_updAt _ _ _

theorem moves_addException (p : Fin 6) (id : Nat) (e : ExceptionEntry) : Moves p s (s.addException id e) :=
  moves_of_keeps ((State.addException_full full id e).mono (by decide)) p

theorem moves_lowStockOf (p : Fin 6) (id : Nat) : Moves p s (s.lowStockOf id) := by
  unfold State.lowStockOf
  split
  · exact .refl p s
  · exact moves_of_keeps ((s.lowStockCheck_full _ full).mono (by decide)) p

theorem moves_reportCopy (p : Fin 6) (tag : Nat) (f : Job → Job) (ids : ∀ j, (f j).tag = j.tag) :
    Moves p s (s.reportCopy p tag f) where
  steady := (serves_reportCopy s p tag f ids).steady p
  parts := (s.reportCopy_full p tag f full).mono (by decide)
  paths := by
    rw [show (s.reportCopy p tag f).ret.inPath = s.ret.inPath from s.reportCopy_full p tag f full .inPath (by decide)]
    exact othersKept_refl _ _

theorem moves_runOut (p : Fin 6) (id : Nat) (d : Disposition) (fault : Option Nat) : Moves p s (s.runOut id d fault) :=
  moves_of_keeps ((State.runOut_full full id d fault).mono (by decide)) p

/-- A blank made DOUBTFUL up to the report of its copy. -/
def State.doubtedBlank (s : State) (p : Fin 6) (e : InPathEntry) : State :=
  let u := (s.dropEntry p e).addException e.pack (doubtRun e (s.printer p).openFault)
  u.setDoubtful (u.ret.doubtful ++ [doubtfulFrom p e])

omit full in
theorem makeDoubtful_eq (p : Fin 6) (e : InPathEntry) :
    s.makeDoubtful p e = ((s.doubtedBlank p e).reportCopy p e.tag (Job.doubted e.copy)).exhaustTest e.pack := rfl

theorem moves_doubtedBlank (p : Fin 6) (e : InPathEntry) : Moves p s (s.doubtedBlank p e) := by
  have dropped := moves_dropEntry full p e
  exact (dropped.trans (moves_addException (dropped.full full) p _ _)).trans (moves_setDoubtful _ p _)

theorem moves_makeDoubtful (p : Fin 6) (e : InPathEntry) : Moves p s (s.makeDoubtful p e) := by
  have doubted := moves_doubtedBlank full p e
  rw [makeDoubtful_eq]
  exact (doubted.trans (moves_reportCopy (doubted.full full) p e.tag (Job.doubted e.copy) fun _ => rfl)).trans (moves_exhaustTest _ p _)

/-- A blank put back up to the report of its copy. -/
def State.restoredBlank (s : State) (p : Fin 6) (e : InPathEntry) : State :=
  ((s.dropEntry p e).modPack e.pack (·.putBack e.serial)).lowStockOf e.pack

theorem moves_restoredBlank (p : Fin 6) (e : InPathEntry) : Moves p s (s.restoredBlank p e) := by
  have dropped := (moves_dropEntry full p e).trans (moves_modPack _ p e.pack (·.putBack e.serial))
  exact dropped.trans (moves_lowStockOf (dropped.full full) p _)

theorem moves_returnBlank (p : Fin 6) (e : InPathEntry) : Moves p s (s.returnBlank p e) := by
  unfold State.returnBlank
  split
  · split
    · have restored := moves_restoredBlank full p e
      exact restored.trans (moves_reportCopy (restored.full full) p e.tag (Job.returned e.copy) fun _ => rfl)
    · exact moves_foldl _ (fun _ x full => moves_makeDoubtful full p x) _ s full
  · exact .refl p s

end

end Sys2Proof.Machine
end

