-- ==== Sys2Proof/Proofs/Aftermath.lean ====
section
/-! SUPPORT. What a port's raises, samples, clearings and placings leave, while the notice queue is full (R33 to R36, R41 to R43, R93 to
R96): the register, the positions and the jobs' copies, and of the printer's record what its last reply left in it. -/

namespace Sys2Proof.Machine

/-- The number of the next command, and what the last reply left in a printer's record (R34). -/
def Printer.heads (x : Printer) : Byte × Option Byte × Option Acceptance × Option Condition × Nat :=
  (x.nextCommand, x.reference, x.lastAcceptance, x.lastCondition, x.timeoutCount)

/-- What can change beside the printer's own record. -/
structure Beside (p : Fin 6) (strict : Bool) (s t : State) : Prop where
  aside : Aside p s t
  parts : s.keepsBut t [.faults, .nextFault, .printers, .pool]
  jobs : s.jobsKept strict t
  command : (t.printer p).nextCommand = (s.printer p).nextCommand

/-- And the printer's record keeps what its last reply left, and its spoil count unless that is cleared. -/
structure Aftermath (p : Fin 6) (strict : Bool) (s t : State) : Prop extends Beside p strict s t where
  heads : (t.printer p).heads = (s.printer p).heads
  spoil : (t.printer p).spoilCount = (s.printer p).spoilCount ∨ (t.printer p).spoilCount = 0

section
variable {p : Fin 6} {strict : Bool} {s t u : State}

theorem Beside.refl (p : Fin 6) (strict : Bool) (s : State) : Beside p strict s s :=
  ⟨.refl p s, s.keepsBut_refl _, jobsKept_refl s, rfl⟩

theorem Beside.trans (h : Beside p strict s t) (k : Beside p strict t u) : Beside p strict s u :=
  ⟨h.aside.trans k.aside, h.parts.trans k.parts, h.jobs.trans k.jobs, k.command.trans h.command⟩

theorem Aftermath.refl (p : Fin 6) (strict : Bool) (s : State) : Aftermath p strict s s := ⟨.refl p strict s, rfl, .inl rfl⟩

theorem Aftermath.trans (h : Aftermath p strict s t) (k : Aftermath p strict t u) : Aftermath p strict s u where
  toBeside := h.toBeside.trans k.toBeside
  heads := k.heads.trans h.heads
  spoil := by
    rcases k.spoil with same | clear
    · rw [same]
      exact h.spoil
    · exact .inr clear

theorem Beside.full (h : Beside p strict s t) (full : s.queueFull) : t.queueFull := full.carry h.parts (by decide)

theorem Beside.path (h : Beside p strict s t) (q : Fin 6) : t.path q = s.path q :=
  congrArg (fun x : Vector (List InPathEntry) 6 => x[q]) (h.parts .inPath (by decide))

theorem Beside.untallied (h : Beside p strict s t) : Untallied s t :=
  untallied_of_keeps h.parts (by decide) (by decide) (by decide)

theorem Aftermath.arbitrate (h : Aftermath p strict s t) (full : s.queueFull) : Aftermath p strict s t.arbitrate := by
  rw [State.arbitrate_full t (h.full full)]
  exact h

/-! ### The steps -/

theorem beside_modPrinter (s : State) (p : Fin 6) (strict : Bool) (f : Printer → Printer)
    (command : (f (s.printer p)).nextCommand = (s.printer p).nextCommand) : Beside p strict s (s.modPrinter p f) where
  aside := aside_modPrinter s p f
  parts := (s.modPrinter_keeps p f).mono (by decide)
  jobs := jobsKept_of_pool rfl
  command := by rw [State.modPrinter_same, command]

theorem aftermath_modPrinter (s : State) (p : Fin 6) (strict : Bool) (f : Printer → Printer)
    (heads : (f (s.printer p)).heads = (s.printer p).heads)
    (spoil : (f (s.printer p)).spoilCount = (s.printer p).spoilCount ∨ (f (s.printer p)).spoilCount = 0) :
    Aftermath p strict s (s.modPrinter p f) where
  toBeside := beside_modPrinter s p strict f (congrArg Prod.fst heads :)
  heads := by rw [State.modPrinter_same, heads]
  spoil := by rw [State.modPrinter_same]; exact spoil

theorem aftermath_modFault (s : State) (p : Fin 6) (strict : Bool) (n : Nat) (f : FaultEntry → FaultEntry) :
    Aftermath p strict s (s.modFault n f) :=
  ⟨⟨fun _ _ => rfl, (s.modFault_keeps n f).mono (by decide), jobsKept_of_pool rfl, rfl⟩, rfl, .inl rfl⟩

theorem aftermath_countFault (s : State) (p : Fin 6) (strict : Bool) (c : FaultCode) : Aftermath p strict s (s.countFault p c) :=
  aftermath_modPrinter s p strict _ rfl (.inl rfl)

theorem aftermath_logEntry (s : State) (p : Fin 6) (strict : Bool) (e : FaultEntry) (here : e.printer = p) :
    Aftermath p strict s (s.logEntry e) := by
  subst here
  have listed : ∀ x y, Aftermath e.printer strict s ((s.setFaults x).setNextFault y) := fun x y =>
    ⟨⟨fun _ _ => rfl, ((s.setFaults_keeps x).mono (by decide)).trans ((State.setNextFault_keeps _ y).mono (by decide)),
      jobsKept_of_pool rfl, rfl⟩, rfl, .inl rfl⟩
  exact (listed _ _).trans (aftermath_countFault _ e.printer strict e.first.code)

end

section
variable {p : Fin 6} {strict : Bool} {s : State} (full : s.queueFull)
include full

theorem aftermath_setPrinterState (st : PrinterState) (stays : strict = true → st.losesJobs = false) :
    Aftermath p strict s (s.setPrinterState p st) := by
  obtain ⟨o, -, entered⟩ := serves_setPrinterState s p st
  have record := Printer.of_settled (entered.printers p)
  rw [State.modPrinter_same] at record
  refine ⟨⟨aside_setPrinterState s p st, (s.setPrinterState_full p st full).mono (by decide), jobsKept_setPrinterState full p st stays,
    ?_⟩, ?_, .inl ?_⟩ <;> rw [record]
  rfl

/-! ### Raises (R93, R100) -/

theorem aftermath_raise (c : FaultCode) (other : c ≠ .linkLost) (o : Option Occasion) : Aftermath p strict s (s.raise p c o) := by
  unfold State.raise
  split
  · have here : ((blankEntry p .standing c).of o).printer = p := by cases o <;> rfl
    have opened := ((aftermath_logEntry s p strict _ here).trans (aftermath_modPrinter (s.logEntry _) p strict
      (fun x => { x with openFault := some s.freshFaultNumber }) rfl (.inl rfl))).arbitrate full
    exact opened.trans (aftermath_setPrinterState (opened.full full) _ fun _ => by rw [if_neg other]; rfl)
  · simp only
    split
    · exact (aftermath_countFault s p strict c).trans (aftermath_modFault _ p strict _ _)
    · exact aftermath_modFault s p strict _ _

theorem aftermath_logTransient (c : FaultCode) (o : Occasion) : Aftermath p strict s (s.logTransient p c o) :=
  (aftermath_logEntry s p strict _ rfl).arbitrate full

theorem beside_countConsecutive (e : InPathEntry) : Beside p strict s (s.countConsecutive p e) := by
  have counted := beside_modPrinter s p strict (fun x => { x with spoilCount := saturating 3 ((s.printer p).spoilCount + 1) }) rfl
  unfold State.countConsecutive
  simp only
  split
  · exact counted.trans (aftermath_raise (counted.full full) .repeatedSpoil (by decide) _).toBeside
  · exact counted

theorem aftermath_raiseSpoil (cause : SpoilCause) (e : InPathEntry) : Aftermath p strict s (s.raiseSpoil p cause e).1 := by
  cases cause with
  | misfeed => exact aftermath_logTransient full .misfeed e.occasion
  | stripe => exact aftermath_logTransient full .stripe e.occasion
  | jam => exact aftermath_raise full .jam (by decide) _
  | cutter => exact aftermath_raise full .cutter (by decide) _

theorem beside_raiseOutcome (o : PrintOutcome) (e : InPathEntry) : Beside p strict s (s.raiseOutcome p o e).1 := by
  cases o with
  | done => exact beside_modPrinter s p strict _ rfl
  | spoiled cause =>
    have raised := aftermath_raiseSpoil (p := p) (strict := strict) full cause e
    exact raised.toBeside.trans (beside_countConsecutive (raised.full full) e)
  | notFed => exact .refl p strict s
  | binEmpty => exact (aftermath_logTransient full .binEmpty e.occasion).toBeside

/-! ### The reply's record, sample and condition (R34, R35, R41 to R43) -/

omit full in
theorem aftermath_markCodes (f : CodeMarks → CodeMarks) : Aftermath p strict s (s.markCodes p f) := by
  unfold State.markCodes
  split
  · exact .refl p strict s
  · exact aftermath_modFault s p strict _ _

theorem aftermath_takeSample (n : Nat) : Aftermath p strict s (s.takeSample p n) := by
  have sampled : ∀ x : Printer, (x.takeSample n).heads = x.heads ∧ (x.takeSample n).spoilCount = x.spoilCount := fun x => by
    unfold Printer.takeSample
    split <;> exact ⟨rfl, rfl⟩
  unfold State.takeSample
  split
  · have forced : Aftermath p strict s (s.modPrinter p fun x => { x with
        average := some sensorMarker
        sensorFailed := true
        limits := some (s.heatLimits p) }) := aftermath_modPrinter s p strict _ rfl (.inl rfl)
    exact forced.trans (aftermath_raise (forced.full full) .sensorFail (by decide) none)
  · split
    · have taken : Aftermath p strict s (s.modPrinter p fun x => { x.takeSample n with limits := some (s.heatLimits p) }) :=
        aftermath_modPrinter s p strict _ (sampled _).1 (.inl (sampled _).2)
      simp only
      split
      · exact taken.trans (aftermath_markCodes _)
      · exact taken
    · exact .refl p strict s

theorem aftermath_compareHeat : Aftermath p strict s (s.compareHeat p) := by
  have heat : Aftermath p strict s (if (s.printer p).tooHot then s.setPrinterState p .heatHold else s) := by
    split
    · exact aftermath_setPrinterState full _ fun _ => rfl
    · exact .refl p strict s
  have cool : Aftermath p strict s
      (if (s.printer p).cooled then s.setPrinterState p (if s.path p = [] then .ready else .busy) else s) := by
    split
    · exact aftermath_setPrinterState full _ fun _ => by split <;> rfl
    · exact .refl p strict s
  unfold State.compareHeat
  split
  · exact heat
  · exact heat
  · exact cool
  all_goals exact .refl p strict s

theorem aftermath_takeCondition (c : Condition) : Aftermath p strict s (s.takeCondition p c) := by
  unfold State.takeCondition
  cases c with
  | ready => exact aftermath_markCodes _
  | jam => exact aftermath_raise full .jam (by decide) none
  | cutter => exact aftermath_raise full .cutter (by decide) none
  | coverOpen => exact aftermath_raise full .coverOpen (by decide) none
  | headHot => exact aftermath_raise full .headHot (by decide) none

/-! ### Clearing and placing (R36, R49, R96) -/

/-- A printer is disabled only while nothing is in path. -/
theorem aftermath_completeDisable (stays : strict = true → s.path p ≠ []) (idle : s.path p = []) :
    Aftermath p strict s (s.completeDisable p) := by
  have cleared : Aftermath p strict s (s.modPrinter p fun x => { x with disablePending := false }) :=
    aftermath_modPrinter s p strict _ rfl (.inl rfl)
  exact cleared.trans (aftermath_setPrinterState (cleared.full full) .disabled fun only => absurd idle (stays only))

theorem aftermath_leaveFaulted (stays : strict = true → s.path p ≠ []) : Aftermath p strict s (s.leaveFaulted p) := by
  unfold State.leaveFaulted
  split
  next both => exact aftermath_completeDisable full stays both.2
  · split
    · exact aftermath_setPrinterState full _ fun _ => rfl
    · split <;> exact aftermath_setPrinterState full _ fun _ => rfl

theorem aftermath_entryCleared (stays : strict = true → s.path p ≠ []) (e : FaultEntry) :
    Aftermath p strict s (s.entryCleared p e) := by
  have placed : ∀ u : State, u.queueFull → (strict = true → u.path p ≠ []) →
      Aftermath p strict u (if (u.printer p).state = .faulted then u.leaveFaulted p else u) := fun u full stays => by
    split
    · exact aftermath_leaveFaulted full stays
    · exact .refl p strict u
  have closed : Aftermath p strict s (s.modPrinter p fun x => { x with
      openFault := none
      confirmPending := false
      spoilCount := if e.lists .repeatedSpoil then 0 else x.spoilCount }) :=
    aftermath_modPrinter s p strict _ rfl (by
      simp only
      split
      · exact .inr rfl
      · exact .inl rfl)
  exact closed.trans (placed _ (closed.full full) stays)

theorem aftermath_clearingTest (stays : strict = true → s.path p ≠ []) (answered : Bool) :
    Aftermath p strict s (s.clearingTest p answered) := by
  unfold State.clearingTest
  split
  · exact .refl p strict s
  next e _ =>
    split
    · have cleared : Aftermath p strict s (s.modFault e.number (·.clear .met s.office.clock)).arbitrate :=
        (aftermath_modFault s p strict _ _).arbitrate full
      exact cleared.trans (aftermath_entryCleared (cleared.full full) (fun only => by rw [cleared.path]; exact stays only) e)
    · exact .refl p strict s

theorem aftermath_finishDisable (stays : strict = true → s.path p ≠ []) : Aftermath p strict s (s.finishDisable p) := by
  unfold State.finishDisable
  simp only
  split
  next all => exact aftermath_completeDisable full stays all.2.1
  · exact .refl p strict s

end

/-! ### The whole of it -/

/-- A CLEAR answered TAKEN confirms (R34, R99). -/
def State.confirmedIf (s : State) (p : Fin 6) (confirms : Prop) [Decidable confirms] : State := if confirms then s.confirmed p else s

/-- What a reply does after the settlement and its record, up to the port's next choice (R34 to R36, R41 to R43, R49, R95, R96). -/
def State.concluded (s : State) (p : Fin 6) (kind : CommandKind) (r : PrinterReply) : State :=
  (((((s.confirmedIf p (kind = .clear ∧ r.acceptance = .taken)).takeSample p r.temperature).compareHeat p).takeCondition p
    r.condition).clearingTest p false).finishDisable p

/-- The record of a reply taken (R34). -/
def State.recorded (s : State) (p : Fin 6) (n : Byte) (r : PrinterReply) : State :=
  s.modPrinter p fun x => { x.record n r x.bins with lastCondition := some r.condition }

theorem aftermath_concluded {p : Fin 6} {strict : Bool} {s : State} (full : s.queueFull) (stays : strict = true → s.path p ≠ [])
    (kind : CommandKind) (r : PrinterReply) : Aftermath p strict s (s.concluded p kind r) := by
  have confirm : Aftermath p strict s (s.confirmedIf p (kind = .clear ∧ r.acceptance = .taken)) := by
    unfold State.confirmedIf
    split
    · exact (aftermath_modPrinter s p strict (fun x => { x with confirmPending := false, spoilCount := 0 }) rfl (.inr rfl)).trans
        (aftermath_markCodes _)
    · exact .refl p strict s
  unfold State.concluded
  generalize s.confirmedIf p (kind = .clear ∧ r.acceptance = .taken) = a at confirm ⊢
  have sampled := confirm.trans (aftermath_takeSample (confirm.full full) r.temperature)
  generalize a.takeSample p r.temperature = b at sampled ⊢
  have compared := sampled.trans (aftermath_compareHeat (sampled.full full))
  generalize b.compareHeat p = c at compared ⊢
  have conditioned := compared.trans (aftermath_takeCondition (compared.full full) r.condition)
  generalize c.takeCondition p r.condition = d at conditioned ⊢
  have cleared := conditioned.trans (aftermath_clearingTest (conditioned.full full)
    (fun only => by rw [conditioned.path]; exact stays only) false)
  generalize d.clearingTest p false = e at cleared ⊢
  exact cleared.trans (aftermath_finishDisable (cleared.full full) fun only => by rw [cleared.path]; exact stays only)

end Sys2Proof.Machine
end

