-- ==== Sys2Proof/Proofs/ReplyEnding.lean ====
section
/-! SUPPORT. A reply to a PRINT, a POLL or a CLEAR after its settlement, down to the port's next choice, while the notice queue is full
and no other port sends (R34 to R38). -/

namespace Sys2Proof.Machine

/-! ### A job as a port's choice leaves it -/

/-- What a job has had issued and spoiled is the same, it ends no differently, and only a copy that awaited its dispatch has moved. -/
structure Job.Onward (j k : Job) : Prop where
  serials : k.serials = j.serials
  blanks : k.blanksSpoiled = j.blanksSpoiled
  spoils : k.spoilCount = j.spoilCount
  ended : j.state = .ended → k.state = .ended ∧ k.outcome = j.outcome ∧ k.reason = j.reason
  copies : ∀ (i : Nat) (c : CopyState), j.copyStates[i]? = some c → c ≠ .undispatched → k.copyStates[i]? = some c

theorem Job.Onward.trans {i j k : Job} (h : i.Onward j) (g : j.Onward k) : i.Onward k where
  serials := g.serials.trans h.serials
  blanks := g.blanks.trans h.blanks
  spoils := g.spoils.trans h.spoils
  ended past := by
    obtain ⟨past', outcome, reason⟩ := h.ended past
    obtain ⟨past'', outcome', reason'⟩ := g.ended past'
    exact ⟨past'', outcome'.trans outcome, reason'.trans reason⟩
  copies i c here out := g.copies i c (h.copies i c here out) out

theorem Job.KeptAs.onward {strict : Bool} {j k : Job} (h : j.KeptAs strict k) : j.Onward k :=
  ⟨h.serials, h.blanks, h.spoils, h.ended, fun i c here _ => by rw [h.copies]; exact here⟩

/-- Every job is found under its tag, and has gone no further than a dispatch. -/
def State.jobsOnward (s t : State) : Prop := ∀ tag j, s.job? tag = some j → ∃ k, t.job? tag = some k ∧ j.Onward k

theorem State.jobsOnward.trans {s t u : State} (h : s.jobsOnward t) (k : t.jobsOnward u) : s.jobsOnward u := fun tag j found => by
  obtain ⟨i, hi, on⟩ := h tag j found
  obtain ⟨l, hl, on'⟩ := k tag i hi
  exact ⟨l, hl, on.trans on'⟩

theorem State.jobsKept.onward {s t : State} {strict : Bool} (h : s.jobsKept strict t) : s.jobsOnward t := fun tag j found => by
  obtain ⟨k, hk, kept⟩ := h tag j found
  exact ⟨k, hk, kept.onward⟩

/-- The next copy of a job awaits its dispatch. -/
theorem Job.nextCopy_some {j : Job} {copy : Nat} (next : j.nextCopy = some copy) : j.copyStates[copy - 1]? = some .undispatched := by
  unfold Job.nextCopy at next
  obtain ⟨i, found, rfl⟩ := Option.map_eq_some_iff.mp next
  rw [List.findIdx?_eq_some_iff_getElem] at found
  obtain ⟨inside, here, -⟩ := found
  rw [Nat.add_sub_cancel, List.getElem?_eq_getElem inside, of_decide_eq_true here]

theorem Job.dispatched_onward {j : Job} {copy : Nat} (next : j.copyStates[copy - 1]? = some .undispatched) : j.Onward (j.dispatched copy) where
  serials := rfl
  blanks := rfl
  spoils := rfl
  ended past := ⟨(if_neg (by rw [past]; decide)).trans past, rfl, rfl⟩
  copies i c here out := by
    show (j.copyStates.set (copy - 1) CopyState.inPath)[i]? = _
    have apart : copy - 1 ≠ i := by
      rintro rfl
      rw [next, Option.some.injEq] at here
      exact out here.symm
    rw [List.getElem?_set_ne apart, here]

/-! ### The port's choice (R37, R38) -/

/-- The part of a printer's record that no command sent changes, but for the number of the next command. -/
def Printer.lasting (x : Printer) : Option Byte × Option Acceptance × Option Condition × Nat × Nat × Option Nat × Vector Nat 12 :=
  (x.reference, x.lastAcceptance, x.lastCondition, x.timeoutCount, x.spoilCount, x.openFault, x.counters)

/-- What a port's choice comes to: a PRINT for one more blank, or nothing but a command without one. -/
structure Chooses (p : Fin 6) (s t : State) : Prop where
  parts : s.keepsBut t [.packs, .inPath, .printers, .pool, .stockTypes]
  paths : othersKept s.ret.inPath t.ret.inPath p
  exceptions : s.sameExceptions t
  jobs : s.jobsOnward t
  lasting : (t.printer p).lasting = (s.printer p).lasting
  path : t.path p = s.path p ∧ t.ret.packs = s.ret.packs ∧ t.pool = s.pool ∧ (t.printer p).state = (s.printer p).state ∨
    ∃ f, t.path p = s.path p ++ [f] ∧ f.command = (s.printer p).nextCommand ∧ s.hasDoubt p = false ∧
      (s.printer p).lastAcceptance = some .taken ∧ (s.printer p).state ∈ [PrinterState.ready, .busy]
  spent : ∀ id, (∀ k ∈ s.ret.packs, k.id = id → k.condition ≠ .usable) → t.pack? id = s.pack? id

theorem chooses_refl (p : Fin 6) (s : State) : Chooses p s s where
  parts := s.keepsBut_refl _
  paths := othersKept_refl _ _
  exceptions := fun _ => rfl
  jobs := (jobsKept_refl (strict := true) s).onward
  lasting := rfl
  path := .inl ⟨rfl, rfl, rfl, rfl⟩
  spent := fun _ _ => rfl

theorem chooses_send (p : Fin 6) (s : State) (kind : CommandKind) (body : Option PrintBody) : Chooses p s (s.send p kind body) where
  parts := (s.modPrinter_keeps p _).mono (by decide)
  paths := othersKept_refl _ _
  exceptions := fun _ => rfl
  jobs := (jobsKept_of_pool (strict := true) rfl).onward
  lasting := by unfold State.send; rw [State.modPrinter_same]; rfl
  path := .inl ⟨rfl, rfl, rfl, by unfold State.send; rw [State.modPrinter_same]⟩
  spent := fun _ _ => rfl

theorem chooses_dispatch {s t : State} {p : Fin 6} (full : s.queueFull) (sent : s.dispatch p = some t) : Chooses p s t := by
  have parts := State.dispatch_full full sent
  have exceptions : s.sameExceptions t := by
    obtain ⟨-, j, copy, s', e, side, -, -, taken, whole⟩ := State.dispatch_some sent
    obtain ⟨k, -, -, -, -, stock⟩ := stock_take s s' p _ _ _ _ taken
    refine (sameExceptions_modPack s k.id Pack.takeOne (fun _ => rfl) fun _ => rfl).trans (sameExceptions_of_packs ?_)
    rw [whole]
    exact congrArg Stock.packs stock
  obtain ⟨may, j, copy, s', e, side, head, -, taken, whole⟩ := State.dispatch_some sent
  obtain ⟨tag, rest, -, found, -, next⟩ := State.headCopy_some head
  obtain ⟨-, certain, k, bin, entry, took⟩ := State.take_some taken
  unfold State.mayPrint at may
  rw [Bool.and_eq_true, decide_eq_true_eq] at may
  obtain ⟨⟨state, acceptance, -, -, -⟩, -⟩ := may
  have pack := moves_modPack s p k.id Pack.takeOne
  have moved : Steady p s s' ∧ s.jobsKept true s' ∧ s'.stock = (s.stock.modPack k.id Pack.takeOne).modPath p (· ++ [e]) := by
    have path := steady_modPath (s.modPack k.id Pack.takeOne) p (· ++ [e])
    have keeps := State.modPath_full (pack.full full) p (· ++ [e])
    have jobs := jobsKept_modPath (strict := true) (pack.full full) p (· ++ [e])
    have stock : ((s.modPack k.id Pack.takeOne).modPath p (· ++ [e])).stock = _ := stock_modPath _ p _
    rw [took]
    generalize (s.modPack k.id Pack.takeOne).modPath p (· ++ [e]) = u at path keeps jobs stock ⊢
    have checked := u.lowStockCheck_full j.stockType ((pack.full full).carry keeps (by decide))
    exact ⟨(pack.steady.trans path).trans ((serves_lowStockCheck u j.stockType).steady p),
      (State.jobsKept.trans (jobsKept_of_pool rfl) jobs).trans (jobsKept_of_pool (checked .pool (by decide))),
      (stock_lowStockCheck u _).trans stock⟩
  obtain ⟨steady, jobs, stock⟩ := moved
  have packs : t.ret.packs = s.ret.packs.map fun x => if x.id = k.id then x.takeOne else x := by
    rw [whole]
    exact congrArg Stock.packs stock
  have inPath : t.ret.inPath = updAt s.ret.inPath p (· ++ [e]) := by
    rw [whole]
    exact congrArg Stock.inPath stock
  have path : t.path p = s.path p ++ [e] := (congrArg (fun x : Vector (List InPathEntry) 6 => x[p]) inPath).trans (updAt_same _ p _)
  refine ⟨parts, ?_, exceptions, fun tag' i found' => ?_, ?_, .inr ⟨e, path, ?_, certain, acceptance, ?_⟩, fun id none => ?_⟩
  · rw [inPath]
    exact othersKept_updAt _ _ _
  · obtain ⟨i', hi, kept⟩ := jobs tag' i found'
    have later : t.job? tag' = (s'.job? tag').map fun x => if x.tag = j.tag then x.dispatched copy else x := by
      rw [whole]
      exact State.job?_modJob (s'.send p .print (some (s'.compose j copy e.serial side))) j.tag tag' (Job.dispatched copy) fun _ => rfl
    rw [later, hi, Option.map_some]
    refine ⟨_, rfl, kept.onward.trans ?_⟩
    split
    next same =>
      have tags : tag' = tag := (State.job?_some hi).2.symm.trans (same.trans (State.job?_some found).2)
      subst tags
      rw [found, Option.some.injEq] at found'
      subst found'
      exact Job.dispatched_onward (by rw [kept.copies]; exact Job.nextCopy_some next)
    · exact (Job.KeptAs.refl true i').onward
  · have sentRecord : t.printer p = (s'.send p .print (some (s'.compose j copy e.serial side))).printer p := by
      rw [whole]
      rfl
    rw [sentRecord]
    unfold State.send
    rw [State.modPrinter_same]
    show (s'.printer p).lasting = _
    rw [steady.printer]
    rfl
  · rw [entry]
    rfl
  · rcases state with state | state <;> rw [state] <;> decide
  · obtain ⟨there, -, usable, -⟩ := takeBin_spec bin
    have apart : k.id ≠ id := fun same => none k (binPack?_some there).1 same usable
    have view : t.pack? id = (s.modPack k.id Pack.takeOne).pack? id := by
      unfold State.pack?
      rw [packs]
      rfl
    rw [view, s.pack?_modPack k.id id Pack.takeOne fun _ => rfl]
    cases here : s.pack? id with
    | none => rfl
    | some x =>
      rw [Option.map_some, if_neg fun same => apart (same.symm.trans (State.pack?_some here).2)]

theorem chooses_choose {s : State} (full : s.queueFull) (p : Fin 6) : Chooses p s (s.choose .afresh p) := by
  rcases choose_dispatches s .afresh p with sent | same | ⟨kind, sent⟩
  · exact chooses_dispatch full sent
  · rw [same]
    exact chooses_refl p s
  · rw [sent]
    exact chooses_send p s kind none

/-- A port that has chosen chooses nothing more. -/
theorem choose_choose (s : State) (p : Fin 6) : (s.choose .afresh p).choose .afresh p = s.choose .afresh p := by
  have waits : ∀ t : State, (t.printer p).outstanding.isSome = true → t.choose .afresh p = t := fun t =>
    State.choose_waits t .afresh p
  have sends : ∀ (t : State) kind body, ((t.send p kind body).printer p).outstanding.isSome = true := fun t kind body => by
    unfold State.send
    rw [State.modPrinter_same]
    rfl
  rcases choose_dispatches s .afresh p with sent | same | ⟨kind, sent⟩
  · obtain ⟨-, j, copy, s', e, side, -, -, -, whole⟩ := State.dispatch_some sent
    refine waits _ ?_
    rw [whole]
    exact sends s' .print _
  · rw [same, same]
  · rw [sent]
    exact waits _ (sends s kind none)

/-! ### The whole reply -/

/-- The state a reply is settled in: the slot is free (R32). -/
def State.settledBy (s : State) (p : Fin 6) (n : Byte) (kind : CommandKind) (r : PrinterReply) : State :=
  (s.modPrinter p fun x => { x with outstanding := none }).applySettlement p r.outcome (settle (s.path p) n kind r)

/-- What follows the settlement of a reply (R34 to R37). -/
def State.endReply (s : State) (p : Fin 6) (n : Byte) (kind : CommandKind) (r : PrinterReply) : State :=
  ((s.recorded p n r).concluded p kind r).choose .afresh p

/-- A reply the port accepts, while no other port sends (R31). -/
theorem exec_printerReply {s : State} {p : Fin 6} {r : PrinterReply} {n ref : Byte} {kind : CommandKind}
    (quiet : s.othersQuiet p) (waits : (s.printer p).outstanding = some (n, kind)) (other : kind ≠ .ident) (answers : r.answers = n)
    (reference : (s.printer p).reference = some ref) (window : (r.outcomeOf - ref).toNat < (n - ref).toNat)
    (aside : Aside p s (s.settledBy p n kind r)) (settledFull : (s.settledBy p n kind r).queueFull) :
    exec (.printerReply p r) s = .next ((s.settledBy p n kind r).endReply p n kind r) := by
  have accepts : s.receiveReply p r = s.acceptReply p n kind r := by
    unfold State.receiveReply State.answered
    rw [waits]
    simp only
    rw [if_pos answers]
    simp only
    rw [if_pos ⟨other, by rw [reference]; exact decide_eq_true (.inr window)⟩]
  have whole : s.acceptReply p n kind r = ((s.settledBy p n kind r).endReply p n kind r).wakeAll s := by
    unfold State.acceptReply State.endReply State.concluded State.confirmedIf State.recorded State.takeAcceptance State.settledBy
    rfl
  have ended : Aside p (s.settledBy p n kind r) (((s.settledBy p n kind r).recorded p n r).concluded p kind r) := by
    have record : Beside p false (s.settledBy p n kind r) ((s.settledBy p n kind r).recorded p n r) :=
      beside_modPrinter _ p false _ rfl
    exact record.aside.trans (aftermath_concluded (strict := false) (record.full settledFull) nofun kind r).aside
  have calm := (aside.trans ended).othersQuiet quiet
  have calm' : ((s.settledBy p n kind r).endReply p n kind r).othersQuiet p := fun q hq =>
    (apart_choose _ .afresh hq).quiet (calm q hq)
  have still : ((s.settledBy p n kind r).endReply p n kind r).wakeAll s = (s.settledBy p n kind r).endReply p n kind r := by
    rw [State.wakeAll_single calm']
    unfold State.wake
    split
    · rfl
    · exact choose_choose _ p
  exact congrArg Host.Outcome.next (accepts.trans (whole.trans still))

/-- What the end of a reply leaves of the state the settlement made. -/
structure Ending (p : Fin 6) (n : Byte) (r : PrinterReply) (strict : Bool) (v u t : State) : Prop where
  parts : u.keepsBut t [.packs, .inPath, .stockTypes, .faults, .nextFault, .printers, .pool]
  paths : othersKept u.ret.inPath t.ret.inPath p
  exceptions : u.sameExceptions t
  jobs : u.jobsOnward t
  record : (t.printer p).reference = some n ∧ (t.printer p).lastAcceptance = some r.acceptance ∧
    (t.printer p).lastCondition = some r.condition ∧ (t.printer p).timeoutCount = 0
  spoil : (u.printer p).spoilCount = 0 → (t.printer p).spoilCount = 0
  path : t.path p = u.path p ∧ t.ret.packs = u.ret.packs ∧ u.jobsKept strict t ∧ (t.printer p).state = (v.printer p).state ∨
    ∃ f, t.path p = u.path p ++ [f] ∧ f.command = (u.printer p).nextCommand ∧ u.hasDoubt p = false ∧ r.acceptance = .taken ∧
      (v.printer p).state ∈ [PrinterState.ready, .busy]
  spent : ∀ id, (∀ k ∈ u.ret.packs, k.id = id → k.condition ≠ .usable) → t.pack? id = u.pack? id
  chosen : Chooses p v t

theorem ending_of {p : Fin 6} {strict : Bool} {u : State} (full : u.queueFull) (stays : strict = true → u.path p ≠ []) (n : Byte)
    (kind : CommandKind) (r : PrinterReply) :
    Ending p n r strict ((u.recorded p n r).concluded p kind r) u (u.endReply p n kind r) := by
  have record : Beside p strict u (u.recorded p n r) := beside_modPrinter u p strict _ rfl
  have heads : ((u.recorded p n r).printer p).heads = ((u.printer p).nextCommand, some n, some r.acceptance, some r.condition, 0) := by
    unfold State.recorded
    rw [State.modPrinter_same]
    rfl
  have spoil : ((u.recorded p n r).printer p).spoilCount = (u.printer p).spoilCount := by
    unfold State.recorded
    rw [State.modPrinter_same]
    rfl
  have after := aftermath_concluded (p := p) (strict := strict) (record.full full) (fun only => by rw [record.path]; exact stays only) kind r
  unfold State.endReply
  generalize u.recorded p n r = a at record heads spoil after
  generalize a.concluded p kind r = v at after ⊢
  have beside := record.trans after.toBeside
  have chosen := chooses_choose (beside.full full) p
  generalize v.choose .afresh p = t at chosen ⊢
  have headed := after.heads.trans heads
  unfold Printer.heads at headed
  simp only [Prod.mk.injEq] at headed
  obtain ⟨command, reference, acceptance, condition, timeouts⟩ := headed
  have lasting := chosen.lasting
  unfold Printer.lasting at lasting
  simp only [Prod.mk.injEq] at lasting
  obtain ⟨reference', acceptance', condition', timeouts', spoil', -, -⟩ := lasting
  have inPath : v.ret.inPath = u.ret.inPath := beside.parts .inPath (by decide)
  have packs : v.ret.packs = u.ret.packs := beside.parts .packs (by decide)
  refine ⟨(beside.parts.mono (by decide)).trans (chosen.parts.mono (by decide)), inPath ▸ chosen.paths,
    (sameExceptions_of_packs packs).trans chosen.exceptions, beside.jobs.onward.trans chosen.jobs,
    ⟨reference'.trans reference, acceptance'.trans acceptance, condition'.trans condition, timeouts'.trans timeouts⟩, fun zero => ?_, ?_,
    fun id none => ?_, chosen⟩
  · rw [spoil']
    rcases after.spoil with same | clear
    · rw [same, spoil, zero]
    · exact clear
  · rcases chosen.path with ⟨path, same, pool, state⟩ | ⟨f, path, number, certain, taken, state⟩
    · exact .inl ⟨path.trans (beside.path p), same.trans packs, beside.jobs.trans (jobsKept_of_pool pool), state⟩
    · refine .inr ⟨f, ?_, number.trans command, ?_, ?_, state⟩
      · rw [path, beside.path p]
      · rw [← certain]
        unfold State.hasDoubt
        rw [show v.ret.doubtful = u.ret.doubtful from beside.parts .doubtful (by decide)]
      · rw [acceptance, Option.some.injEq] at taken
        exact taken
  · rw [chosen.spent id (by rw [packs]; exact none)]
    unfold State.pack?
    rw [packs]

end Sys2Proof.Machine
end

