-- ==== Sys2Proof/Proofs/Outcomes.lean ====
section
/-! SUPPORT. What each outcome of a blank in path comes to, while the notice queue is full (R8, R11 to R15): the path, the pack, the
tallies of its position and the copy of its job. -/

namespace Sys2Proof.Machine

/-! ### Copy reports (R61 to R64) -/

/-- A report of a copy, which leaves a job's tag and what ends it. -/
structure Job.Reporting (f : Job → Job) : Prop where
  tag : ∀ j, (f j).tag = j.tag
  kept : ∀ j k : Job, j.KeptAs true k → (f j).KeptAs false (f k)

theorem reporting_issued (copy serial : Nat) : Job.Reporting (Job.issued copy serial) :=
  ⟨fun _ => rfl, fun _ _ h => ⟨congrArg (·.set (copy - 1) .issued) h.copies, congrArg (· ++ [serial]) h.serials, h.blanks, h.spoils,
    h.ended, nofun⟩⟩

theorem reporting_spoiled (copy : Nat) : Job.Reporting (Job.spoiled copy) :=
  ⟨fun _ => rfl, fun _ _ h => ⟨congrArg (·.set (copy - 1) .undispatched) h.copies, h.serials, congrArg (· + 1) h.blanks,
    congrArg (fun n => saturating 3 (n + 1)) h.spoils, h.ended, nofun⟩⟩

theorem reporting_returned (copy : Nat) : Job.Reporting (Job.returned copy) :=
  ⟨fun _ => rfl, fun _ _ h => ⟨congrArg (·.set (copy - 1) .undispatched) h.copies, h.serials, h.blanks, h.spoils, h.ended, nofun⟩⟩

theorem reporting_doubted (copy : Nat) : Job.Reporting (Job.doubted copy) :=
  ⟨fun _ => rfl, fun _ _ h => ⟨congrArg (·.set (copy - 1) .doubtful) h.copies, h.serials, h.blanks, h.spoils, h.ended, nofun⟩⟩

/-- What one copy report leaves of the jobs. -/
structure Reports (tag : Nat) (f : Job → Job) (s t : State) : Prop where
  job : ∀ j, s.job? tag = some j → ∃ k, t.job? tag = some k ∧ (f j).KeptAs false k ∧ (j.anyInPath = true → (f j).mustEnd = true →
    k.state = .ended ∧ k.outcome = some (f j).verdict.1 ∧ k.reason = (f j).verdict.2)
  others : ∀ other i, other ≠ tag → s.job? other = some i → ∃ k, t.job? other = some k ∧ i.KeptAs false k

theorem Job.KeptAs.weaken {strict : Bool} {j k : Job} (h : j.KeptAs strict k) : j.KeptAs false k :=
  ⟨h.copies, h.serials, h.blanks, h.spoils, h.ended, nofun⟩

theorem reports_of {s u t : State} {p : Fin 6} {tag : Nat} {f : Job → Job} (full : u.queueFull) (before : s.jobsKept true u)
    (reporting : Job.Reporting f) (pool : t.pool = (u.reportCopy p tag f).pool) : Reports tag f s t := by
  have view : ∀ n, t.job? n = (u.reportCopy p tag f).job? n := fun n => by
    unfold State.job?
    rw [pool]
  refine ⟨fun j found => ?_, fun other i apart found => ?_⟩
  · obtain ⟨j', found', kept⟩ := before tag j found
    obtain ⟨k, hk, kept', ends⟩ := (reportCopy_spec (strict := false) full p reporting.tag found').1
    refine ⟨k, (view tag).trans hk, (reporting.kept j j' kept).trans kept', fun path must => ?_⟩
    have same := kept.inPath rfl path
    subst same
    exact ends must
  · obtain ⟨i', found', kept⟩ := before other i found
    have rest : ∃ k, (u.reportCopy p tag f).job? other = some k ∧ i'.KeptAs false k := by
      cases here : u.job? tag with
      | none =>
        refine ⟨i', ?_, .refl false i'⟩
        unfold State.reportCopy
        rw [here]
        exact found'
      | some j => exact (reportCopy_spec (strict := false) full p reporting.tag here).2 other i' apart found'
    obtain ⟨k, hk, kept'⟩ := rest
    exact ⟨k, (view other).trans hk, kept.weaken.trans kept'⟩

/-! ### The state of one copy -/

/-- The state of the copy of an entry's job. -/
def State.copyAt (s : State) (e : InPathEntry) : Option CopyState := (s.job? e.tag).bind fun j => j.copyStates[e.copy - 1]?

section
variable {s t u : State} {e : InPathEntry} {c : CopyState}

theorem State.copyAt_iff : s.copyAt e = some c ↔ ∃ k, s.job? e.tag = some k ∧ k.copyStates[e.copy - 1]? = some c := Option.bind_eq_some_iff

theorem State.jobsKept.copyAt {strict : Bool} (h : s.jobsKept strict t) (here : s.copyAt e = some c) : t.copyAt e = some c := by
  obtain ⟨j, found, at'⟩ := State.copyAt_iff.mp here
  obtain ⟨k, hk, kept⟩ := h e.tag j found
  exact State.copyAt_iff.mpr ⟨k, hk, by rw [kept.copies]; exact at'⟩

theorem State.jobsOnward.copyAt (h : s.jobsOnward t) (here : s.copyAt e = some c) (out : c ≠ .undispatched) : t.copyAt e = some c := by
  obtain ⟨j, found, at'⟩ := State.copyAt_iff.mp here
  obtain ⟨k, hk, on⟩ := h e.tag j found
  exact State.copyAt_iff.mpr ⟨k, hk, on.copies _ _ at' out⟩

/-- The copy reported is in the state reported. -/
theorem Reports.copyAt {f : Job → Job} {new : CopyState} (h : Reports e.tag f s t) (here : s.copyAt e = some c)
    (sets : ∀ j, (f j).copyStates = j.copyStates.set (e.copy - 1) new) : t.copyAt e = some new := by
  obtain ⟨j, found, at'⟩ := State.copyAt_iff.mp here
  obtain ⟨k, hk, kept, -⟩ := h.job j found
  refine State.copyAt_iff.mpr ⟨k, hk, ?_⟩
  rw [kept.copies, sets]
  exact List.getElem?_set_self (List.getElem?_eq_some_iff.mp at').1

/-- Every other copy is in the state it was in. -/
theorem Reports.copyAt_other {f : Job → Job} {new : CopyState} {a : InPathEntry} (h : Reports a.tag f s t) (here : s.copyAt e = some c)
    (sets : ∀ j, (f j).copyStates = j.copyStates.set (a.copy - 1) new) (apart : a.tag = e.tag → a.copy - 1 ≠ e.copy - 1) :
    t.copyAt e = some c := by
  obtain ⟨j, found, at'⟩ := State.copyAt_iff.mp here
  by_cases same : e.tag = a.tag
  · obtain ⟨k, hk, kept, -⟩ := h.job j (same ▸ found)
    refine State.copyAt_iff.mpr ⟨k, by rw [same]; exact hk, ?_⟩
    rw [kept.copies, sets, List.getElem?_set_ne (apart same.symm)]
    exact at'
  · obtain ⟨k, hk, kept⟩ := h.others e.tag j same found
    exact State.copyAt_iff.mpr ⟨k, hk, by rw [kept.copies]; exact at'⟩

end

/-! ### What the outcomes can change -/

/-- What settling a reply does in the register and the positions. -/
structure Settles (p : Fin 6) (s t : State) : Prop where
  steady : Steady p s t
  parts : s.keepsBut t (.console :: .windows :: stocked)
  paths : othersKept s.ret.inPath t.ret.inPath p
  positions : s.positionsKeptButTallies t

section
variable {p : Fin 6} {s t u : State}

theorem Moves.settles (h : Moves p s t) : Settles p s t := ⟨h.steady, h.parts.mono (by decide), h.paths, h.positions⟩

theorem Settles.trans (h : Settles p s t) (k : Settles p t u) : Settles p s u :=
  ⟨h.steady.trans k.steady, h.parts.trans k.parts, h.paths.trans k.paths, h.positions.trans k.positions⟩

theorem Settles.full (h : Settles p s t) (full : s.queueFull) : t.queueFull := full.carry h.parts (by decide)

theorem settles_credit (s : State) (p : Fin 6) (e : InPathEntry) (k : Fin 8) :
    Settles p s (s.credit e.position e.shift k e.serial e.pack e.value e.tender) := by
  have keeps := s.credit_keeps e.position e.shift k e.serial e.pack e.value e.tender
  refine ⟨steady_of_printers (keeps .printers (by decide)) p, keeps.mono (by decide), ?_, (credit_spec s e k).2⟩
  rw [show (s.credit e.position e.shift k e.serial e.pack e.value e.tender).ret.inPath = s.ret.inPath from keeps .inPath (by decide)]
  exact othersKept_refl _ _

theorem settles_countSpoil (s : State) (p : Fin 6) (e : InPathEntry) (k : Fin 8) :
    Settles p s (s.countSpoil e.position e.shift k) := by
  have keeps := s.countSpoil_keeps e.position e.shift k
  refine ⟨steady_of_printers (keeps .printers (by decide)) p, keeps.mono (by decide), ?_, (countSpoil_spec s e k).2⟩
  rw [show (s.countSpoil e.position e.shift k).ret.inPath = s.ret.inPath from keeps .inPath (by decide)]
  exact othersKept_refl _ _

end

theorem withoutBlank_keeps {l : List InPathEntry} {pack serial : Nat} (h : ∀ x ∈ l, ¬ (x.pack = pack ∧ x.serial = serial)) :
    withoutBlank pack serial l = l := List.filter_eq_self.mpr fun x hx => decide_eq_true (h x hx)

theorem withoutBlank_cons {e : InPathEntry} {l : List InPathEntry} (h : ∀ x ∈ l, ¬ (x.pack = e.pack ∧ x.serial = e.serial)) :
    withoutBlank e.pack e.serial (e :: l) = l := by
  have gone : withoutBlank e.pack e.serial (e :: l) = withoutBlank e.pack e.serial l := List.filter_cons_of_neg (by simp)
  exact gone.trans (withoutBlank_keeps h)

theorem State.path_of_stock {t : State} {x : Stock} (h : t.stock = x) (p : Fin 6) : t.path p = x.inPath[p] := by
  rw [← h]
  rfl

/-! ### DONE and SPOILED (R11, R12) -/

section
variable {s : State} (full : s.queueFull) {p : Fin 6} {e : InPathEntry} {x : Pack} (found : s.pack? e.pack = some x)
include full found

/-- An issued blank (R11). -/
theorem issueBlank_spec : Settles p s (s.issueBlank p e) ∧ s.creditsOrDiscards (s.issueBlank p e) e x.stockType ∧
    (s.issueBlank p e).path p = withoutBlank e.pack e.serial (s.path p) ∧ (s.issueBlank p e).ret.doubtful = s.ret.doubtful ∧
    Reports e.tag (Job.issued e.copy e.serial) s (s.issueBlank p e) := by
  have stock := stock_issueBlank s p e
  have whole : s.issueBlank p e =
      (((s.dropEntry p e).credit e.position e.shift x.stockType e.serial e.pack e.value e.tender).reportCopy p e.tag
        (Job.issued e.copy e.serial)).exhaustTest e.pack := by
    unfold State.issueBlank
    rw [found]
    rfl
  rw [whole] at stock ⊢
  have dropped := moves_dropEntry full p e
  have jobs : s.jobsKept true (s.dropEntry p e) := jobsKept_modPath full p _
  generalize s.dropEntry p e = a at dropped jobs stock ⊢
  have credited := settles_credit a p e x.stockType
  obtain ⟨credits, -⟩ := credit_spec a e x.stockType
  have pool : (a.credit e.position e.shift x.stockType e.serial e.pack e.value e.tender).pool = a.pool :=
    a.credit_keeps _ _ _ _ _ _ _ .pool (by decide)
  generalize a.credit e.position e.shift x.stockType e.serial e.pack e.value e.tender = b at credited credits pool stock ⊢
  have settled := dropped.settles.trans credited
  have reported := moves_reportCopy (settled.full full) p e.tag (Job.issued e.copy e.serial) fun _ => rfl
  have reports : Reports e.tag (Job.issued e.copy e.serial) s
      ((b.reportCopy p e.tag (Job.issued e.copy e.serial)).exhaustTest e.pack) :=
    reports_of (settled.full full) (jobs.trans (jobsKept_of_pool pool)) (reporting_issued e.copy e.serial) (p := p) rfl
  have after := reported.trans (moves_exhaustTest _ p e.pack)
  refine ⟨settled.trans after.settles, credits.carry dropped.untallied after.untallied.kept, ?_, ?_, reports⟩
  · rcases stock with same | ⟨_, -, -, same⟩ <;> exact (State.path_of_stock same p).trans (updAt_same _ p _)
  · rcases stock with same | ⟨_, -, -, same⟩ <;> exact congrArg Stock.doubtful same

/-- A spoiled blank (R12). -/
theorem spoilBlank_spec (fault : Nat) : Settles p s (s.spoilBlank p e fault) ∧
    s.spoilsOrDiscards (s.spoilBlank p e fault) e x.stockType ∧
    (s.spoilBlank p e fault).path p = withoutBlank e.pack e.serial (s.path p) ∧
    (s.spoilBlank p e fault).ret.doubtful = s.ret.doubtful ∧ Reports e.tag (Job.spoiled e.copy) s (s.spoilBlank p e fault) := by
  have stock := stock_spoilBlank s p e fault
  have whole : s.spoilBlank p e fault =
      ((((s.dropEntry p e).addException e.pack {
        first := e.serial
        run := 1
        disposition := .spoiled
        position := some e.position
        fault := some fault }).countSpoil e.position e.shift x.stockType).reportCopy p e.tag (Job.spoiled e.copy)).exhaustTest e.pack := by
    unfold State.spoilBlank
    rw [found]
    rfl
  rw [whole] at stock ⊢
  have dropped := moves_dropEntry full p e
  have jobs : s.jobsKept true (s.dropEntry p e) := jobsKept_modPath full p _
  have added := moves_addException (dropped.full full) p e.pack {
        first := e.serial
        run := 1
        disposition := .spoiled
        position := some e.position
        fault := some fault }
  have jobs := jobs.trans (jobsKept_of_pool (State.addException_full (dropped.full full) e.pack {
        first := e.serial
        run := 1
        disposition := .spoiled
        position := some e.position
        fault := some fault } .pool (by decide)))
  generalize (s.dropEntry p e).addException e.pack _ = a at added jobs stock ⊢
  have moved := dropped.trans added
  have counted := settles_countSpoil a p e x.stockType
  obtain ⟨spoils, -⟩ := countSpoil_spec a e x.stockType
  have pool : (a.countSpoil e.position e.shift x.stockType).pool = a.pool := a.countSpoil_keeps _ _ _ .pool (by decide)
  generalize a.countSpoil e.position e.shift x.stockType = b at counted spoils pool stock ⊢
  have settled := moved.settles.trans counted
  have reported := moves_reportCopy (settled.full full) p e.tag (Job.spoiled e.copy) fun _ => rfl
  have reports : Reports e.tag (Job.spoiled e.copy) s ((b.reportCopy p e.tag (Job.spoiled e.copy)).exhaustTest e.pack) :=
    reports_of (settled.full full) (jobs.trans (jobsKept_of_pool pool)) (reporting_spoiled e.copy) (p := p) rfl
  have after := reported.trans (moves_exhaustTest _ p e.pack)
  refine ⟨settled.trans after.settles, spoils.carry moved.untallied after.untallied.kept, ?_, congrArg Stock.doubtful stock, reports⟩
  exact (State.path_of_stock stock p).trans (updAt_same _ p _)

end

end Sys2Proof.Machine
end

