-- ==== Sys2Proof/Proofs/Done.lean ====
section
/-! O53: a DONE outcome. -/

namespace Sys2Proof.Machine

/-! ### Ages and settlements (R31, R32) -/

theorem commandAge_inj {n a b : Byte} : commandAge n a = commandAge n b ↔ a = b := by
  unfold commandAge
  constructor
  · intro h
    bv_omega
  · rintro rfl
    rfl

theorem commandAge_self (n : Byte) : commandAge n n = 0 := by
  unfold commandAge
  rw [BitVec.sub_self]
  rfl

theorem commandAge_eq_zero {n c : Byte} : commandAge n c = 0 ↔ c = n := by rw [← commandAge_self n, commandAge_inj]

/-- The command a reply reports on is older than the one it answers (R31). -/
theorem reported_older {n ref c : Byte} (window : (c - ref).toNat < (n - ref).toNat) : 0 < commandAge n c := by
  refine Nat.pos_of_ne_zero fun zero => ?_
  rw [commandAge_eq_zero] at zero
  rw [zero] at window
  exact lt_irrefl _ window

/-- No DOUBT is raised while no blank has become doubtful (R32). -/
theorem raiseDoubtSince_none {s : State} (p : Fin 6) {before : Nat} (h : s.ret.doubtful.length = before) :
    s.raiseDoubtSince p before = s := by
  unfold State.raiseDoubtSince
  rw [← h, List.drop_length]

/-- A settlement of one outcome and nothing else. -/
theorem applySettlement_outcome (s : State) (p : Fin 6) (o : PrintOutcome) (e : InPathEntry) :
    s.applySettlement p o ⟨[], some e, []⟩ =
      ((s.raiseOutcome p o e).1.applyOutcome p o (s.raiseOutcome p o e).2 e).raiseDoubtSince p s.ret.doubtful.length := rfl

/-- The oldest blank reported on, and none later than the command answered, which the printer took (R32, R38). -/
theorem settle_oldest {n : Byte} {kind : CommandKind} {r : PrinterReply} {e : InPathEntry} {later : List InPathEntry}
    (older : 0 < commandAge n r.outcomeOf) (command : e.command = r.outcomeOf) (handed : r.outcome ≠ .notFed)
    (stay : ∀ f ∈ later, f.command = n ∧ r.acceptance = .taken) : settle (e :: later) n kind r = ⟨[], some e, []⟩ := by
  have age : commandAge n e.command = commandAge n r.outcomeOf := by rw [command]
  have zero : ∀ f ∈ later, commandAge n f.command = 0 := fun f hf => commandAge_eq_zero.mpr (stay f hf).1
  unfold settle
  simp only [Settlement.mk.injEq]
  refine ⟨List.filter_eq_nil_iff.mpr fun f hf => ?_, ?_, List.filter_eq_nil_iff.mpr fun f hf => ?_⟩
  · rcases List.mem_cons.mp hf with rfl | hf
    · simp [age]
    · simp [zero f hf]
  · rw [if_pos (decide_eq_true handed)]
    exact List.find?_cons_of_pos (decide_eq_true age)
  · rcases List.mem_cons.mp hf with rfl | hf
    · simp [age, handed]
      omega
    · simp [zero f hf, older.ne, (stay f hf).2]

/-- A frame without a part that is seen to be the same. -/
theorem State.keepsBut.without {s t : State} {l l' : List Part} (h : s.keepsBut t l) (a : Part) (same : a.same s t)
    (rest : ∀ b ∈ l, b = a ∨ b ∈ l') : s.keepsBut t l' := fun b hb => by
  by_cases here : b = a
  · rw [here]
    exact same
  · exact h b fun inside => (rest b inside).elim here hb

end Sys2Proof.Machine

open Sys2Proof Sys2Proof.Machine

/-- Settles O53: the oldest blank alone is settled, and issued. -/
theorem doneIssuesTheBlank : Obligations.DoneIssuesTheBlank := by
  intro s p r n ref kind e later x j full quiet waits other answers reference window path command outcome stay found job
  have older := reported_older window
  have settled : settle (s.path p) n kind r = ⟨[], some e, []⟩ := by
    rw [path]
    exact settle_oldest older command (by rw [outcome]; decide) fun f hf => ⟨(stay f hf).1, (stay f hf).2.1⟩
  have freed : Beside p true s ((s.modPrinter p fun x => { x with outstanding := none }).modPrinter p fun x => { x with spoilCount := 0 }) :=
    (beside_modPrinter s p true (fun x => { x with outstanding := none }) rfl).trans (beside_modPrinter _ p true _ rfl)
  have zero : (((s.modPrinter p fun x => { x with outstanding := none }).modPrinter p fun x => { x with spoilCount := 0 }).printer
      p).spoilCount = 0 := by rw [State.modPrinter_same]
  have keeps : s.keepsBut ((s.modPrinter p fun x => { x with outstanding := none }).modPrinter p fun x => { x with spoilCount := 0 })
      [.printers] := (s.modPrinter_keeps p _).trans (State.modPrinter_keeps _ p _)
  have whole : s.settledBy p n kind r = (((s.modPrinter p fun x => { x with outstanding := none }).modPrinter p fun x =>
      { x with spoilCount := 0 }).issueBlank p e).raiseDoubtSince p s.ret.doubtful.length := by
    unfold State.settledBy
    rw [settled, applySettlement_outcome, outcome]
    rfl
  generalize ((s.modPrinter p fun x => { x with outstanding := none }).modPrinter p fun x => { x with spoilCount := 0 }) = a at *
  have path' : a.path p = e :: later := (freed.path p).trans path
  have doubtful : a.ret.doubtful = s.ret.doubtful := keeps .doubtful (by decide)
  obtain ⟨settles, credits, left, same, reports⟩ := issueBlank_spec (freed.full full) (p := p) (e := e) (x := x) (by
    unfold State.pack? at found ⊢
    rw [show a.ret.packs = s.ret.packs from keeps .packs (by decide)]
    exact found)
  generalize a.issueBlank p e = u at whole settles credits left same reports
  rw [raiseDoubtSince_none p (congrArg List.length (same.trans doubtful))] at whole
  have full' := settles.full (freed.full full)
  have ran := exec_printerReply quiet waits other answers reference window
    (by rw [whole]; exact freed.aside.trans settles.steady.aside) (by rw [whole]; exact full')
  rw [whole] at ran
  have ending := ending_of (p := p) (strict := false) full' nofun n kind r
  generalize (u.recorded p n r).concluded p kind r = v at ending
  generalize u.endReply p n kind r = t at ending ran
  have quietly : u.talliesKept t := (untallied_of_keeps ending.parts (by decide) (by decide) (by decide)).kept
  rw [path', withoutBlank_cons fun f hf => (stay f hf).2.2] at left
  obtain ⟨job', found', kept, -⟩ := reports.job j (by
    unfold State.job? at job ⊢
    rw [show a.pool = s.pool from keeps .pool (by decide)]
    exact job)
  obtain ⟨k, hk, onward⟩ := ending.jobs e.tag job' found'
  obtain ⟨reference', acceptance', condition', timeouts'⟩ := ending.record
  have inPath : a.ret.inPath = s.ret.inPath := keeps .inPath (by decide)
  refine ⟨t, ran, credits.carry freed.untallied quietly, ?_, ?_, inPath ▸ settles.paths.trans ending.paths,
    ⟨k, hk, onward.serials.trans kept.serials⟩, reference', acceptance', condition', timeouts', ending.spoil ?_, ?_⟩
  · exact ((positionsKeptButTallies_of_keeps keeps (by decide) (by decide)).trans settles.positions).trans
      (positionsKeptButTallies_of_keeps ending.parts (by decide) (by decide))
  · rcases ending.path with ⟨kept, -⟩ | ⟨f, more, number, -⟩
    · exact .inl (kept.trans left)
    · refine .inr ⟨f, by rw [more, left], ?_⟩
      rw [number, settles.steady.printer]
      exact freed.command
  · rw [settles.steady.printer]
    exact zero
  · exact (((keeps.mono (by decide)).trans (settles.parts.mono (by decide))).trans (ending.parts.mono (by decide))
      (l := [.doubtful, .stockTypes, .packs, .inPath, .console, .windows, .faults, .nextFault, .printers, .pool])).without .doubtful
      ((show t.ret.doubtful = u.ret.doubtful from ending.parts .doubtful (by decide)).trans (same.trans doubtful)) (by decide)
end

