-- ==== Sys2Proof/Proofs/HeldEntries.lean ====
section
/-! SUPPORT. A fault entry that a reply has logged and nothing in the same reply can meet (R91 to R96, R100, R104), and the OPEN entry a
printer's record names. -/

namespace Sys2Proof.Machine

/-! ### Entries held -/

/-- An entry as it was logged, but for marks of its codes that leave its first code unmet, and whether its notice waits. -/
structure FaultEntry.Tracks (g f : FaultEntry) : Prop where
  same : f = { g with first := f.first, later := f.later, pending := f.pending }
  code : f.first.code = g.first.code
  unmet : f.first.met = false
  unconfirmed : f.first.confirmed = false

/-- The log holds an entry under its number, and no other under that number. -/
structure State.Holds (s : State) (g : FaultEntry) : Prop where
  there : ∃ f ∈ s.ret.faults, f.number = g.number
  only : ∀ f ∈ s.ret.faults, f.number = g.number → g.Tracks f

/-- The log has room for every entry that the rest of a reply can open. -/
def State.roomy (s : State) (p : Fin 6) : Prop := s.ret.faults.length + (if (s.printer p).openFault = none then 1 else 0) ≤ 63

section
variable {s t : State} {p : Fin 6} {g : FaultEntry}

theorem State.Holds.entry (h : s.Holds g) : ∃ f ∈ s.ret.faults, f.number = g.number ∧ g.Tracks f := by
  obtain ⟨f, inside, number⟩ := h.there
  exact ⟨f, inside, number, h.only f inside number⟩

theorem holds_of_settled (same : t.ret.faults.map (·.settled) = s.ret.faults.map (·.settled)) (h : s.Holds g) : t.Holds g := by
  have find : ∀ a b : State, b.ret.faults.map (·.settled) = a.ret.faults.map (·.settled) → ∀ f ∈ a.ret.faults,
      ∃ f' ∈ b.ret.faults, f'.settled = f.settled := fun a b same f inside => by
    have there : f.settled ∈ b.ret.faults.map (·.settled) := by
      rw [same]
      exact List.mem_map_of_mem inside
    exact List.mem_map.mp there
  refine ⟨?_, fun f inside number => ?_⟩
  · obtain ⟨f, inside, number⟩ := h.there
    obtain ⟨f', inside', settled⟩ := find s t same f inside
    exact ⟨f', inside', (congrArg FaultEntry.number settled :).trans number⟩
  · obtain ⟨f', inside', settled⟩ := find t s same.symm f inside
    have tracks := h.only f' inside' ((congrArg FaultEntry.number settled :).trans number)
    have first : f'.first = f.first := (congrArg FaultEntry.first settled :)
    have whole : f = { f' with pending := f.pending } :=
      (congrArg (fun e : FaultEntry => { e with pending := f.pending }) settled.symm :)
    refine ⟨?_, first ▸ tracks.code, first ▸ tracks.unmet, first ▸ tracks.unconfirmed⟩
    rw [whole, tracks.same]

theorem holds_of_faults (same : t.ret.faults = s.ret.faults) (h : s.Holds g) : t.Holds g := holds_of_settled (by rw [same]) h

theorem holds_modFault {g' : FaultEntry} (n : Nat) (f : FaultEntry → FaultEntry) (number : ∀ e, (f e).number = e.number)
    (same : g'.number = g.number) (tracks : ∀ e, g.Tracks e → g'.Tracks (if e.number = n then f e else e)) (h : s.Holds g) :
    (s.modFault n f).Holds g' := by
  have faults : (s.modFault n f).ret.faults = s.ret.faults.map fun e => if e.number = n then f e else e := rfl
  have numbers : ∀ e : FaultEntry, (if e.number = n then f e else e).number = e.number := fun e => by
    split
    · exact number e
    · rfl
  constructor
  · obtain ⟨e, inside, at'⟩ := h.there
    refine ⟨if e.number = n then f e else e, ?_, (numbers e).trans (at'.trans same.symm)⟩
    rw [faults]
    exact List.mem_map.mpr ⟨e, inside, rfl⟩
  · intro e inside at'
    rw [faults] at inside
    obtain ⟨e', inside', rfl⟩ := List.mem_map.mp inside
    exact tracks e' (h.only e' inside' ((numbers e').symm.trans (at'.trans same)))

/-- The number of a new entry is no other's while there is room. -/
theorem freshFaultNumber_new (few : s.ret.faults.length < 64) : ∀ f ∈ s.ret.faults, f.number ≠ s.freshFaultNumber := fun f inside same => by
  have room : makeRoom s.ret.faults = s.ret.faults := if_pos few
  have fresh := freeNumber_not_mem ((makeRoom s.ret.faults).map (·.number)) s.ret.nextFault (by
    rw [room, List.length_map]
    omega)
  exact fresh (List.mem_map.mpr ⟨f, by rw [room]; exact inside, same⟩)

theorem faults_logEntry (few : s.ret.faults.length < 64) (e : FaultEntry) : (s.logEntry e).ret.faults =
    s.ret.faults ++ [{ e with number := s.freshFaultNumber, raisedAt := s.office.clock }] := by
  have room : makeRoom s.ret.faults = s.ret.faults := if_pos few
  show makeRoom s.ret.faults ++ _ = _
  rw [room]

theorem holds_logEntry (few : s.ret.faults.length < 64) (e : FaultEntry) (h : s.Holds g) : (s.logEntry e).Holds g := by
  obtain ⟨f, inside, number⟩ := h.there
  refine ⟨⟨f, ?_, number⟩, fun f' inside' number' => ?_⟩
  · rw [faults_logEntry few]
    exact List.mem_append_left _ inside
  · rw [faults_logEntry few, List.mem_append, List.mem_singleton] at inside'
    rcases inside' with old | rfl
    · exact h.only f' old number'
    · exact absurd (number.trans number'.symm) (freshFaultNumber_new few f inside)

/-- A new entry is held. -/
theorem holds_logged (few : s.ret.faults.length < 64) (e : FaultEntry) (unmet : e.first.met = false)
    (unconfirmed : e.first.confirmed = false) :
    (s.logEntry e).Holds { e with number := s.freshFaultNumber, raisedAt := s.office.clock } := by
  refine ⟨⟨_, ?_, rfl⟩, fun f inside number => ?_⟩
  · rw [faults_logEntry few]
    exact List.mem_append_right _ (List.mem_singleton_self _)
  · rw [faults_logEntry few, List.mem_append, List.mem_singleton] at inside
    rcases inside with old | rfl
    · exact absurd number (freshFaultNumber_new few f old)
    · exact ⟨rfl, rfl, unmet, unconfirmed⟩

end

/-! ### Marks (R93, R95) -/

theorem FaultEntry.Tracks.mapMarks {g e : FaultEntry} (h : g.Tracks e) (f : CodeMarks → CodeMarks) (code : (f e.first).code = e.first.code)
    (unmet : (f e.first).met = false) (unconfirmed : (f e.first).confirmed = false) : g.Tracks (e.mapMarks f) where
  same := by
    unfold FaultEntry.mapMarks
    rw [h.same]
  code := code.trans h.code
  unmet := unmet
  unconfirmed := unconfirmed

theorem FaultEntry.Tracks.join {g e : FaultEntry} (h : g.Tracks e) (c : FaultCode) : g.Tracks (e.join c) := by
  unfold FaultEntry.join
  split
  · refine h.mapMarks _ ?_ ?_ ?_
    · split
      next same => exact same.symm
      · rfl
    · split
      · rfl
      · exact h.unmet
    · split
      · rfl
      · exact h.unconfirmed
  · split
    · refine ⟨?_, h.code, h.unmet, h.unconfirmed⟩
      rw [h.same]
    · exact h

/-- The codes that neither a READY report nor a valid sample meets unless they are confirmed (R95). -/
def FaultCode.stays (c : FaultCode) : Prop := c ∉ [FaultCode.coverOpen, .headHot, .sensorFail]

theorem FaultEntry.Tracks.ready {g e : FaultEntry} (h : g.Tracks e) (stays : g.first.code.stays) :
    g.Tracks (e.mapMarks CodeMarks.ready) := by
  have code := h.code
  have unmet := h.unmet
  have unconfirmed := h.unconfirmed
  have firm : e.first.ready.met = false ∧ e.first.ready.confirmed = false := by
    unfold FaultCode.stays at stays
    rw [← code] at stays
    unfold CodeMarks.ready
    split <;> simp_all
  exact h.mapMarks _ (CodeMarks.ready_code _) firm.1 firm.2

theorem FaultEntry.Tracks.meet {g e : FaultEntry} (h : g.Tracks e) (stays : g.first.code.stays) :
    g.Tracks (e.mapMarks (·.meet .sensorFail)) := by
  have apart : ¬ e.first.code = .sensorFail := fun same => by
    unfold FaultCode.stays at stays
    rw [← h.code, same] at stays
    exact stays (by decide)
  have same : e.first.meet .sensorFail = e.first := if_neg apart
  exact h.mapMarks _ (by rw [same]) (by rw [same]; exact h.unmet) (by rw [same]; exact h.unconfirmed)

/-! ### The steps of a reply -/

/-- What a step keeps of an entry held and of the OPEN entry the printer's record names. -/
structure Upholds (p : Fin 6) (g : FaultEntry) (s t : State) : Prop where
  held : s.roomy p → s.Holds g → t.roomy p ∧ t.Holds g
  opened : ∀ m, (s.printer p).openFault = some m → (t.printer p).openFault = some m
  faulted : (s.printer p).openFault.isSome = true → (s.printer p).state = .faulted → (t.printer p).state = .faulted

section
variable {p : Fin 6} {g : FaultEntry} {s t u : State}

theorem Upholds.refl (p : Fin 6) (g : FaultEntry) (s : State) : Upholds p g s s := ⟨fun h k => ⟨h, k⟩, fun _ => id, fun _ => id⟩

theorem Upholds.trans (h : Upholds p g s t) (k : Upholds p g t u) : Upholds p g s u where
  held room holds := (fun ⟨room, holds⟩ => k.held room holds) (h.held room holds)
  opened m was := k.opened m (h.opened m was)
  faulted opened was := by
    obtain ⟨m, named⟩ := Option.isSome_iff_exists.mp opened
    exact k.faulted (Option.isSome_iff_exists.mpr ⟨m, h.opened m named⟩) (h.faulted opened was)

/-- A step that leaves the log but for what waits, and the entry named. -/
theorem upholds_of_settled (log : t.ret.faults.map (·.settled) = s.ret.faults.map (·.settled))
    (opened : (t.printer p).openFault = (s.printer p).openFault)
    (faulted : (s.printer p).openFault.isSome = true → (s.printer p).state = .faulted → (t.printer p).state = .faulted) :
    Upholds p g s t where
  held room holds := by
    have length : t.ret.faults.length = s.ret.faults.length := by
      have := congrArg List.length log
      rwa [List.length_map, List.length_map] at this
    refine ⟨?_, holds_of_settled log holds⟩
    unfold State.roomy at room ⊢
    rw [length, opened]
    exact room
  opened m was := opened.trans was
  faulted := faulted

theorem upholds_modPrinter (s : State) (p : Fin 6) (g : FaultEntry) (f : Printer → Printer)
    (opened : (f (s.printer p)).openFault = (s.printer p).openFault) (state : (f (s.printer p)).state = (s.printer p).state) :
    Upholds p g s (s.modPrinter p f) :=
  upholds_of_settled rfl (by rw [State.modPrinter_same, opened]) fun _ was => by rw [State.modPrinter_same, state, was]

theorem Settles.upholds (h : Settles p s t) (g : FaultEntry) : Upholds p g s t :=
  upholds_of_settled (by rw [show t.ret.faults = s.ret.faults from h.parts .faults (by decide)]) (by rw [h.steady.printer])
    fun _ was => h.steady.faulted was

theorem upholds_modFault (s : State) (p : Fin 6) (n : Nat) (f : FaultEntry → FaultEntry) (number : ∀ e, (f e).number = e.number)
    (tracks : ∀ e, g.Tracks e → g.Tracks (f e)) : Upholds p g s (s.modFault n f) where
  held room holds := by
    refine ⟨?_, holds_modFault n f number rfl (fun e h => ?_) holds⟩
    · unfold State.roomy at room ⊢
      rw [show (s.modFault n f).ret.faults.length = s.ret.faults.length from List.length_map _]
      exact room
    · split
      · exact tracks e h
      · exact h
  opened _ := id
  faulted _ := id

theorem FaultEntry.number_join (e : FaultEntry) (c : FaultCode) : (e.join c).number = e.number := by
  unfold FaultEntry.join
  split
  · rfl
  · split <;> rfl

theorem upholds_setPrinterState (s : State) (p : Fin 6) (g : FaultEntry) (st : PrinterState)
    (stays : (s.printer p).openFault.isSome = true → (s.printer p).state = .faulted → st = .faulted) :
    Upholds p g s (s.setPrinterState p st) := by
  obtain ⟨state, opened⟩ := s.setPrinterState_record p st
  obtain ⟨o, -, entered⟩ := serves_setPrinterState s p st
  exact upholds_of_settled entered.faults (opened p) fun named was => state.trans (stays named was)

theorem State.roomy.few (h : s.roomy p) : s.ret.faults.length < 64 := by
  unfold State.roomy at h
  omega

/-- A raise with no OPEN entry, step by step. -/
theorem raise_none (c : FaultCode) (o : Option Occasion) (free : (s.printer p).openFault = none) :
    s.raise p c o = (((s.logEntry ((blankEntry p .standing c).of o)).modPrinter p fun x =>
      { x with openFault := some s.freshFaultNumber }).arbitrate).setPrinterState p (if c = .linkLost then .offline else .faulted) := by
  unfold State.raise
  rw [free]

/-- The log after a raise with no OPEN entry. -/
theorem raise_none_faults (c : FaultCode) (o : Option Occasion) (free : (s.printer p).openFault = none) :
    (s.raise p c o).ret.faults.map (·.settled) = (s.logEntry ((blankEntry p .standing c).of o)).ret.faults.map (·.settled) := by
  rw [raise_none c o free]
  generalize (s.logEntry ((blankEntry p .standing c).of o)) = a
  have served := serves_arbitrate (a.modPrinter p fun x => { x with openFault := some s.freshFaultNumber })
  obtain ⟨x, -, entered⟩ := serves_setPrinterState
    (a.modPrinter p fun x => { x with openFault := some s.freshFaultNumber }).arbitrate p (if c = .linkLost then .offline else .faulted)
  exact entered.faults.trans served.faults

theorem raise_none_record (c : FaultCode) (o : Option Occasion) (free : (s.printer p).openFault = none) :
    ((s.raise p c o).printer p).openFault = some s.freshFaultNumber ∧
      ((s.raise p c o).printer p).state = if c = .linkLost then .offline else .faulted := by
  rw [raise_none c o free]
  generalize (s.logEntry ((blankEntry p .standing c).of o)) = a
  have served := serves_arbitrate (a.modPrinter p fun x => { x with openFault := some s.freshFaultNumber })
  have named : ((a.modPrinter p fun x => { x with openFault := some s.freshFaultNumber }).arbitrate.printer p).openFault =
      some s.freshFaultNumber := by
    have record := Printer.of_settled (served.printers p)
    rw [State.modPrinter_same] at record
    rw [record]
  generalize (a.modPrinter p fun x => { x with openFault := some s.freshFaultNumber }).arbitrate = b at named
  obtain ⟨state, opened⟩ := b.setPrinterState_record p (if c = .linkLost then .offline else .faulted)
  exact ⟨(opened p).trans named, state⟩

theorem upholds_raise (s : State) (p : Fin 6) (g : FaultEntry) (c : FaultCode) (o : Option Occasion) : Upholds p g s (s.raise p c o) := by
  cases named : (s.printer p).openFault with
  | some n =>
    have counted : ∀ u : State, Upholds p g u (u.countFault p c) := fun u => upholds_modPrinter u p g _ rfl rfl
    have joined : ∀ u : State, Upholds p g u (u.modFault n (·.join c)) := fun u =>
      upholds_modFault u p n _ (fun e => e.number_join c) fun e h => h.join c
    unfold State.raise
    rw [named]
    simp only
    split
    · exact (counted s).trans (joined _)
    · exact joined s
  | none =>
    refine ⟨fun room holds => ?_, fun m was => ?_, fun some => ?_⟩
    · have few := room.few
      have log := raise_none_faults c o named
      refine ⟨?_, holds_of_settled log (holds_logEntry few _ holds)⟩
      have length := congrArg List.length log
      rw [List.length_map, List.length_map, faults_logEntry few, List.length_append, List.length_singleton] at length
      unfold State.roomy at room ⊢
      rw [if_pos named] at room
      rw [length, if_neg (by rw [(raise_none_record c o named).1]; exact Option.some_ne_none _)]
      exact room
    · rw [named] at was
      cases was
    · rw [named] at some
      cases some

theorem upholds_markCodes (s : State) (p : Fin 6) (f : CodeMarks → CodeMarks) (tracks : ∀ e, g.Tracks e → g.Tracks (e.mapMarks f)) :
    Upholds p g s (s.markCodes p f) := by
  unfold State.markCodes
  split
  · exact .refl p g s
  · exact upholds_modFault s p _ _ (fun _ => rfl) tracks

theorem upholds_takeSample (stays : g.first.code.stays) (s : State) (p : Fin 6) (n : Nat) : Upholds p g s (s.takeSample p n) := by
  unfold State.takeSample
  split
  · exact (upholds_modPrinter s p g _ rfl rfl).trans (upholds_raise _ p g _ _)
  · split
    · have sampled : Upholds p g s (s.modPrinter p fun x => { x.takeSample n with limits := some (s.heatLimits p) }) := by
        obtain ⟨opened, state⟩ := (s.printer p).takeSample_record n
        exact upholds_modPrinter s p g _ opened state
      simp only
      split
      · exact sampled.trans (upholds_markCodes _ p _ fun e h => h.meet stays)
      · exact sampled
    · exact .refl p g s

theorem upholds_compareHeat (s : State) (p : Fin 6) (g : FaultEntry) : Upholds p g s (s.compareHeat p) := by
  have enter : ∀ st, (s.printer p).state ≠ .faulted → Upholds p g s (s.setPrinterState p st) := fun st other =>
    upholds_setPrinterState s p g st fun _ was => absurd was other
  have heat : (s.printer p).state ≠ .faulted → Upholds p g s (if (s.printer p).tooHot then s.setPrinterState p .heatHold else s) :=
    fun other => by
      split
      · exact enter _ other
      · exact .refl p g s
  unfold State.compareHeat
  split
  next here => exact heat (by rw [here]; decide)
  next here => exact heat (by rw [here]; decide)
  next here =>
    split
    · exact enter _ (by rw [here]; decide)
    · exact .refl p g s
  all_goals exact .refl p g s

theorem upholds_takeCondition (stays : g.first.code.stays) (s : State) (p : Fin 6) (c : Condition) :
    Upholds p g s (s.takeCondition p c) := by
  unfold State.takeCondition
  split
  · exact upholds_raise s p g _ none
  · exact upholds_markCodes s p _ fun e h => h.ready stays

/-! ### Clearing (R96) -/

/-- An entry held is not cleared. -/
theorem State.Holds.not_met (h : s.Holds g) {e : FaultEntry} (found : (s.printer p).openFault.bind s.fault? = some e)
    (same : e.number = g.number) : e.allMet = false := by
  obtain ⟨n, -, found⟩ := Option.bind_eq_some_iff.mp found
  have unmet := (h.only e (State.fault?_some found).1 same).unmet
  unfold FaultEntry.allMet
  rw [List.all_cons, unmet, Bool.false_and]

/-- The clearing test changes nothing while the entry named is held. -/
theorem clearingTest_held (holds : s.Holds g) (named : (s.printer p).openFault = some g.number) (answered : Bool) :
    s.clearingTest p answered = s := by
  unfold State.clearingTest
  split
  · rfl
  next e found =>
    have number : e.number = g.number := by
      obtain ⟨n, named', found⟩ := Option.bind_eq_some_iff.mp found
      rw [named, Option.some.injEq] at named'
      exact (State.fault?_some found).2.trans named'.symm
    rw [holds.not_met found number]
    rfl

/-- Nor while the printer has a doubtful blank (R94). -/
theorem clearingTest_doubt (doubt : s.hasDoubt p = true) (answered : Bool) : s.clearingTest p answered = s := by
  have held : s.holdsCondition p answered = true := by
    unfold State.holdsCondition
    rw [doubt]
    simp
  unfold State.clearingTest
  rw [held]
  split
  · rfl
  · simp

theorem holds_clearingTest (h : s.Holds g) (p : Fin 6) (answered : Bool) : (s.clearingTest p answered).Holds g := by
  have place : ∀ u : State, u.Holds g → (if (u.printer p).state = .faulted then u.leaveFaulted p else u).Holds g := fun u hu => by
    have entered : ∀ v : State, v.ret.faults = u.ret.faults → ∀ st, (v.setPrinterState p st).Holds g := fun v same st => by
      obtain ⟨o, -, entered⟩ := serves_setPrinterState v p st
      exact holds_of_settled entered.faults (holds_of_faults (t := v.modPrinter p _) same hu)
    split
    · unfold State.leaveFaulted
      split
      · exact entered (u.modPrinter p fun x => { x with disablePending := false }) rfl _
      · split
        · exact entered u rfl _
        · split <;> exact entered u rfl _
    · exact hu
  unfold State.clearingTest
  split
  · exact h
  next e found =>
    split
    next clears =>
      rw [Bool.and_eq_true] at clears
      have apart : e.number ≠ g.number := fun same => by
        rw [h.not_met found same] at clears
        exact Bool.false_ne_true clears.1
      have cleared : (s.modFault e.number (·.clear .met s.office.clock)).Holds g :=
        holds_modFault _ _ (fun _ => rfl) rfl (fun f tracks => by
          rw [if_neg fun same => apart (same.symm.trans (congrArg FaultEntry.number tracks.same :))]
          exact tracks) h
      have after := holds_of_settled (serves_arbitrate (s.modFault e.number (·.clear .met s.office.clock))).faults cleared
      generalize (s.modFault e.number (·.clear .met s.office.clock)).arbitrate = b at after
      exact place (b.modPrinter p fun x => { x with
        openFault := none
        confirmPending := false
        spoilCount := if e.lists .repeatedSpoil then 0 else x.spoilCount }) (holds_of_faults (s := b) rfl after)
    · exact h

/-- A disable is not completed in FAULTED, and touches no entry (R49). -/
theorem upholds_finishDisable (s : State) (p : Fin 6) (g : FaultEntry) : Upholds p g s (s.finishDisable p) := by
  unfold State.finishDisable
  simp only
  split
  next all =>
    obtain ⟨-, -, state⟩ := all
    have record := s.modPrinter_same p fun x => { x with disablePending := false }
    refine (upholds_modPrinter s p g (fun x => { x with disablePending := false }) rfl rfl).trans
      (upholds_setPrinterState _ p g _ fun _ was => ?_)
    rw [record] at was
    rcases state with state | state <;> rw [state] at was <;> cases was
  · exact .refl p g s

end

end Sys2Proof.Machine
end

