-- ==== Sys2Proof/Proofs/HeldToTheEnd.lean ====
section
/-! SUPPORT. What the rest of a reply to a PRINT or a POLL leaves of the entries its settlement logged, of the OPEN entry and of the
printer's state (R35, R36, R93 to R96). -/

namespace Sys2Proof.Machine

/-- A reply after its record and up to the clearing test (R34, R35, R41 to R43). -/
def State.examined (s : State) (p : Fin 6) (kind : CommandKind) (r : PrinterReply) : State :=
  (((s.confirmedIf p (kind = .clear ∧ r.acceptance = .taken)).takeSample p r.temperature).compareHeat p).takeCondition p r.condition

theorem concluded_eq (s : State) (p : Fin 6) (kind : CommandKind) (r : PrinterReply) :
    s.concluded p kind r = ((s.examined p kind r).clearingTest p false).finishDisable p := rfl

section
variable {p : Fin 6} {g : FaultEntry} {s u : State} {kind : CommandKind} {r : PrinterReply}

theorem confirmedIf_other (other : kind ≠ .clear) : s.confirmedIf p (kind = .clear ∧ r.acceptance = .taken) = s :=
  if_neg fun both => other both.1

theorem upholds_examined (stays : g.first.code.stays) (other : kind ≠ .clear) : Upholds p g s (s.examined p kind r) := by
  unfold State.examined
  rw [confirmedIf_other other]
  exact ((upholds_takeSample stays s p _).trans (upholds_compareHeat _ p g)).trans (upholds_takeCondition stays _ p _)

/-- An entry held stays held. -/
theorem holds_concluded (stays : g.first.code.stays) (other : kind ≠ .clear) (room : s.roomy p) (holds : s.Holds g) :
    (s.concluded p kind r).Holds g := by
  obtain ⟨-, held⟩ := (upholds_examined (r := r) stays other).held room holds
  have cleared := holds_clearingTest held p false
  rw [concluded_eq]
  generalize (s.examined p kind r).clearingTest p false = a at cleared ⊢
  have disabled : ∀ st, ((a.modPrinter p fun x => { x with disablePending := false }).setPrinterState p st).Holds g := fun st => by
    obtain ⟨o, -, entered⟩ := serves_setPrinterState (a.modPrinter p fun x => { x with disablePending := false }) p st
    exact holds_of_settled entered.faults (holds_of_faults (s := a) rfl cleared)
  unfold State.finishDisable
  simp only
  split
  · exact disabled .disabled
  · exact cleared

/-- In FAULTED no disable is completed. -/
theorem finishDisable_faulted (state : (s.printer p).state = .faulted) : s.finishDisable p = s := by
  unfold State.finishDisable
  simp only
  rw [if_neg]
  rintro ⟨-, -, ready | heat⟩
  · rw [state] at ready
    cases ready
  · rw [state] at heat
    cases heat

/-- The entry that holds a printer FAULTED is not cleared while it is held. -/
theorem stands_concluded (stays : g.first.code.stays) (other : kind ≠ .clear) (room : s.roomy p) (holds : s.Holds g)
    (named : (s.printer p).openFault = some g.number) (state : (s.printer p).state = .faulted) :
    s.concluded p kind r = s.examined p kind r ∧ (s.concluded p kind r).Holds g ∧
      ((s.concluded p kind r).printer p).openFault = some g.number ∧ ((s.concluded p kind r).printer p).state = .faulted := by
  have upholds := upholds_examined (p := p) (s := s) (r := r) stays other
  obtain ⟨-, held⟩ := upholds.held room holds
  have named' := upholds.opened _ named
  have state' := upholds.faulted (by rw [named]; rfl) state
  have same : s.concluded p kind r = s.examined p kind r := by
    rw [concluded_eq, clearingTest_held held named', finishDisable_faulted state']
  rw [same]
  exact ⟨rfl, held, named', state'⟩

/-- Nor is any entry while the printer has a doubtful blank (R94). -/
theorem doubt_concluded (full : s.queueFull) (other : kind ≠ .clear) (doubt : s.hasDoubt p = true) {m : Nat}
    (named : (s.printer p).openFault = some m) : ((s.concluded p kind r).printer p).openFault = some m := by
  have stays : (blankEntry p .standing .doubt).first.code.stays :=
    (by decide : FaultCode.doubt ∉ [FaultCode.coverOpen, .headHot, .sensorFail])
  have upholds := upholds_examined (p := p) (s := s) (r := r) stays other
  have named' := upholds.opened m named
  have doubt' : (s.examined p kind r).hasDoubt p = true := by
    have beside : Beside p false s (s.examined p kind r) := by
      unfold State.examined
      rw [confirmedIf_other other]
      have sampled : Aftermath p false s (s.takeSample p r.temperature) := aftermath_takeSample full _
      have compared := sampled.trans (aftermath_compareHeat (sampled.full full))
      exact (compared.trans (aftermath_takeCondition (compared.full full) r.condition)).toBeside
    unfold State.hasDoubt at doubt ⊢
    rw [show (s.examined p kind r).ret.doubtful = s.ret.doubtful from beside.parts .doubtful (by decide)]
    exact doubt
  rw [concluded_eq, clearingTest_doubt doubt']
  exact (upholds_finishDisable _ p (blankEntry p .standing .doubt)).opened m named'

/-! ### The spoil count (R101) -/

theorem spoil_setPrinterState (s : State) (p : Fin 6) (st : PrinterState) :
    ((s.setPrinterState p st).printer p).spoilCount = (s.printer p).spoilCount ∧
      ((s.setPrinterState p st).printer p).counters = (s.printer p).counters := by
  obtain ⟨o, -, entered⟩ := serves_setPrinterState s p st
  have record := Printer.of_settled (entered.printers p)
  rw [State.modPrinter_same] at record
  rw [record]
  exact ⟨rfl, rfl⟩

theorem spoil_raise (s : State) (p : Fin 6) (c : FaultCode) (o : Option Occasion) :
    ((s.raise p c o).printer p).spoilCount = (s.printer p).spoilCount := by
  have counted : ((s.countFault p c).printer p).spoilCount = (s.printer p).spoilCount := by
    unfold State.countFault
    rw [State.modPrinter_same]
  cases named : (s.printer p).openFault with
  | some n =>
    unfold State.raise
    rw [named]
    simp only
    split
    · exact counted
    · rfl
  | none =>
    rw [raise_none c o named]
    have logged : ((s.logEntry ((blankEntry p .standing c).of o)).printer p).spoilCount = (s.printer p).spoilCount := by
      have here : ((blankEntry p .standing c).of o).printer = p := by cases o <;> rfl
      unfold State.logEntry State.countFault
      rw [here, State.modPrinter_same]
      rfl
    generalize s.logEntry ((blankEntry p .standing c).of o) = a at logged
    have served := serves_arbitrate (a.modPrinter p fun x => { x with openFault := some s.freshFaultNumber })
    have record := Printer.of_settled (served.printers p)
    rw [State.modPrinter_same] at record
    rw [(spoil_setPrinterState _ p _).1, record]
    exact logged

theorem spoil_takeSample (s : State) (p : Fin 6) (n : Nat) :
    ((s.takeSample p n).printer p).spoilCount = (s.printer p).spoilCount := by
  have marked : ∀ (u : State) f, ((u.markCodes p f).printer p) = u.printer p := fun u f => by
    unfold State.markCodes
    split <;> rfl
  have sampled : ((s.modPrinter p fun x => { x.takeSample n with limits := some (s.heatLimits p) }).printer p).spoilCount =
      (s.printer p).spoilCount := by
    rw [State.modPrinter_same]
    unfold Printer.takeSample
    split <;> rfl
  unfold State.takeSample
  split
  · rw [spoil_raise, State.modPrinter_same]
  · split
    · simp only
      split
      · rw [marked]
        exact sampled
      · exact sampled
    · rfl

theorem spoil_compareHeat (s : State) (p : Fin 6) : ((s.compareHeat p).printer p).spoilCount = (s.printer p).spoilCount := by
  have heat : ((if (s.printer p).tooHot then s.setPrinterState p .heatHold else s).printer p).spoilCount = (s.printer p).spoilCount := by
    split
    · exact (spoil_setPrinterState s p _).1
    · rfl
  unfold State.compareHeat
  split
  · exact heat
  · exact heat
  · split
    · exact (spoil_setPrinterState s p _).1
    · rfl
  all_goals rfl

theorem spoil_examined (other : kind ≠ .clear) : ((s.examined p kind r).printer p).spoilCount = (s.printer p).spoilCount := by
  have conditioned : ∀ u : State, ((u.takeCondition p r.condition).printer p).spoilCount = (u.printer p).spoilCount := fun u => by
    unfold State.takeCondition
    split
    · exact spoil_raise u p _ none
    · unfold State.markCodes
      split <;> rfl
  unfold State.examined
  rw [confirmedIf_other other, conditioned, spoil_compareHeat, spoil_takeSample]

/-! ### The end of the reply -/

theorem upholds_recorded (s : State) (p : Fin 6) (g : FaultEntry) (n : Byte) (r : PrinterReply) : Upholds p g s (s.recorded p n r) :=
  upholds_modPrinter s p g _ rfl rfl

variable {strict : Bool} {n : Byte} {t : State}

/-- An entry the settlement logged stays held to the end. -/
theorem Ending.holds (h : Ending p n r strict ((u.recorded p n r).concluded p kind r) u t) (stays : g.first.code.stays)
    (other : kind ≠ .clear) (room : u.roomy p) (holds : u.Holds g) : t.Holds g := by
  obtain ⟨room', holds'⟩ := (upholds_recorded u p g n r).held room holds
  exact holds_of_faults (h.chosen.parts .faults (by decide)) (holds_concluded stays other room' holds')

/-- An entry the settlement opened holds the printer FAULTED to the end, and nothing is dispatched. -/
theorem Ending.stands (h : Ending p n r strict ((u.recorded p n r).concluded p kind r) u t) (stays : g.first.code.stays)
    (other : kind ≠ .clear) (room : u.roomy p) (holds : u.Holds g) (named : (u.printer p).openFault = some g.number)
    (state : (u.printer p).state = .faulted) :
    t.Holds g ∧ (t.printer p).openFault = some g.number ∧ (t.printer p).state = .faulted ∧ t.path p = u.path p ∧
      (t.printer p).spoilCount = (u.printer p).spoilCount := by
  have upholds := upholds_recorded u p g n r
  obtain ⟨room', holds'⟩ := upholds.held room holds
  have spoil : ((u.recorded p n r).printer p).spoilCount = (u.printer p).spoilCount := by
    unfold State.recorded
    rw [State.modPrinter_same]
    rfl
  obtain ⟨same, held, named', state'⟩ := stands_concluded (r := r) stays other room' holds' (upholds.opened _ named)
    (upholds.faulted (by rw [named]; rfl) state)
  have lasting := h.chosen.lasting
  unfold Printer.lasting at lasting
  simp only [Prod.mk.injEq] at lasting
  obtain ⟨-, -, -, -, spoil', opened', -⟩ := lasting
  rw [same] at spoil'
  have quiet : ((u.recorded p n r).concluded p kind r |>.printer p).state ∉ [PrinterState.ready, .busy] := by rw [state']; decide
  rcases h.path with ⟨path, -, -, kept⟩ | ⟨-, -, -, -, -, sends⟩
  · exact ⟨holds_of_faults (h.chosen.parts .faults (by decide)) held, opened'.trans named', kept.trans state', path,
      spoil'.trans ((spoil_examined other).trans spoil)⟩
  · exact absurd sends quiet

/-- A printer with a doubtful blank keeps its OPEN entry to the end, and nothing is dispatched. -/
theorem Ending.doubt (h : Ending p n r strict ((u.recorded p n r).concluded p kind r) u t) (full : u.queueFull) (other : kind ≠ .clear)
    (doubt : u.hasDoubt p = true) (named : (u.printer p).openFault.isSome = true) :
    (t.printer p).openFault.isSome = true ∧ t.path p = u.path p ∧ t.ret.packs = u.ret.packs ∧ u.jobsKept strict t := by
  obtain ⟨m, named⟩ := Option.isSome_iff_exists.mp named
  have opened := doubt_concluded (s := u.recorded p n r) (r := r) ((beside_modPrinter u p false _ rfl).full full) other doubt
    ((upholds_recorded u p (blankEntry p .standing .doubt) n r).opened m named)
  have lasting := h.chosen.lasting
  unfold Printer.lasting at lasting
  simp only [Prod.mk.injEq] at lasting
  obtain ⟨-, -, -, -, -, opened', -⟩ := lasting
  refine ⟨by rw [opened', opened]; rfl, ?_⟩
  rcases h.path with ⟨path, packs, jobs, -⟩ | ⟨-, -, -, certain, -⟩
  · exact ⟨path, packs, jobs⟩
  · rw [certain] at doubt
    cases doubt

/-! ### A reply without a fault -/

/-- A READY reply with a valid sample touches no entry and no counter of a printer without an OPEN entry, while a blank is in path. -/
theorem concluded_clean (full : s.queueFull) (other : kind ≠ .clear) (free : (s.printer p).openFault = none) (ready : r.condition = .ready)
    (low : 1 ≤ r.temperature) (high : r.temperature ≤ 1022) (path : s.path p ≠ []) :
    ((s.concluded p kind r).printer p).openFault = none ∧
      ((s.concluded p kind r).printer p).counters = (s.printer p).counters ∧
      ((s.concluded p kind r).printer p).spoilCount = (s.printer p).spoilCount ∧
      (s.concluded p kind r).ret.faults = s.ret.faults := by
  have unmarked : ∀ (u : State) f, (u.printer p).openFault = none → u.markCodes p f = u := fun u f h => by
    unfold State.markCodes
    rw [h]
  have valid : ¬ (r.temperature = 0 ∨ r.temperature = 1023) := by omega
  have sampled : s.takeSample p r.temperature =
      s.modPrinter p fun x => { x.takeSample r.temperature with limits := some (s.heatLimits p) } := by
    have named : ((s.modPrinter p fun x => { x.takeSample r.temperature with limits := some (s.heatLimits p) }).printer p).openFault =
        none := by
      rw [State.modPrinter_same]
      exact ((s.printer p).takeSample_record _).1.trans free
    unfold State.takeSample
    rw [if_neg valid, if_pos (by omega)]
    simp only
    split
    · exact unmarked _ _ named
    · rfl
  have record : ((s.takeSample p r.temperature).printer p).openFault = none ∧
      ((s.takeSample p r.temperature).printer p).counters = (s.printer p).counters := by
    rw [sampled, State.modPrinter_same]
    refine ⟨((s.printer p).takeSample_record _).1.trans free, ?_⟩
    unfold Printer.takeSample
    split <;> rfl
  have spoil := spoil_takeSample s p r.temperature
  have log : (s.takeSample p r.temperature).ret.faults = s.ret.faults := by rw [sampled]; rfl
  have same : (s.takeSample p r.temperature).path p = s.path p := by rw [sampled]; rfl
  have full' : (s.takeSample p r.temperature).queueFull := by rw [sampled]; exact full
  have compared : ∀ a : State, a.queueFull → (a.printer p).openFault = none → ((a.compareHeat p).printer p).openFault = none ∧
      ((a.compareHeat p).printer p).counters = (a.printer p).counters ∧
      (a.compareHeat p).ret.faults = a.ret.faults ∧ (a.compareHeat p).path p = a.path p := fun a full none => by
    have entered : ∀ st, ((a.setPrinterState p st).printer p).openFault = .none ∧
        ((a.setPrinterState p st).printer p).counters = (a.printer p).counters ∧
        (a.setPrinterState p st).ret.faults = a.ret.faults ∧
        (a.setPrinterState p st).path p = a.path p := fun st => by
      exact ⟨((a.setPrinterState_record p st).2 p).trans none, (spoil_setPrinterState a p st).2,
        a.setPrinterState_full p st full .faults (by decide), (logs_setPrinterState a p st).path p⟩
    have heat : ((if (a.printer p).tooHot then a.setPrinterState p .heatHold else a).printer p).openFault = .none ∧
        ((if (a.printer p).tooHot then a.setPrinterState p .heatHold else a).printer p).counters = (a.printer p).counters ∧
        (if (a.printer p).tooHot then a.setPrinterState p .heatHold else a).ret.faults = a.ret.faults ∧
        (if (a.printer p).tooHot then a.setPrinterState p .heatHold else a).path p = a.path p := by
      split
      · exact entered _
      · exact ⟨none, rfl, rfl, rfl⟩
    unfold State.compareHeat
    split
    · exact heat
    · exact heat
    · split
      · exact entered _
      · exact ⟨none, rfl, rfl, rfl⟩
    all_goals exact ⟨none, rfl, rfl, rfl⟩
  obtain ⟨free', counters', log', path'⟩ := compared _ full' record.1
  have spoil' := spoil_compareHeat (s.takeSample p r.temperature) p
  have whole : s.concluded p kind r = (s.takeSample p r.temperature).compareHeat p := by
    have conditioned : ((s.takeSample p r.temperature).compareHeat p).takeCondition p r.condition =
        (s.takeSample p r.temperature).compareHeat p := by
      unfold State.takeCondition
      rw [ready]
      exact unmarked _ _ free'
    unfold State.concluded
    rw [confirmedIf_other other, conditioned]
    generalize (s.takeSample p r.temperature).compareHeat p = b at free' path'
    have untested : b.clearingTest p false = b := by
      unfold State.clearingTest
      rw [free']
      rfl
    rw [untested]
    unfold State.finishDisable
    simp only
    rw [if_neg]
    rintro ⟨-, empty, -⟩
    exact path (same.symm.trans (path'.symm.trans empty))
  rw [whole]
  exact ⟨free', counters'.trans record.2, spoil'.trans spoil, log'.trans log⟩

end

end Sys2Proof.Machine
end

