-- ==== Sys2Proof/Proofs/Returns.lean ====
section
/-! SUPPORT. Blanks made DOUBTFUL and blanks returned, while the notice queue is full (R8, R14, R15): what becomes of their packs, and of
their jobs' copies. -/

namespace Sys2Proof.Machine

/-! ### The packs by their ids -/

/-- The pack record under an id. -/
def Stock.pack? (x : Stock) (id : Nat) : Option Pack := x.packs.find? fun k => decide (k.id = id)

theorem State.pack?_stock (s : State) (id : Nat) : s.pack? id = s.stock.pack? id := rfl

theorem Stock.pack?_modPack (x : Stock) (n id : Nat) (f : Pack → Pack) (ids : ∀ k, (f k).id = k.id) :
    (x.modPack n f).pack? id = (x.pack? id).map fun k => if k.id = n then f k else k := find?_map_of_key Pack.id n id f ids x.packs

/-- What a take and a return read of a pack (R7, R8). -/
def Pack.takes (k : Pack) : Nat × Option Nat × Option Nat × Fin 8 := (k.remaining, k.next, k.lastTaken, k.stockType)

section
variable {α : Type} (view : Pack → α)

theorem Stock.pack?_modPack_view (x : Stock) (n id : Nat) (f : Pack → Pack) (ids : ∀ k, (f k).id = k.id) (kept : ∀ k, view (f k) = view k) :
    ((x.modPack n f).pack? id).map view = (x.pack? id).map view := by
  rw [x.pack?_modPack n id f ids, Option.map_map]
  congr 1
  funext k
  simp only [Function.comp_apply]
  split
  · exact kept k
  · rfl

theorem Stock.pack?_exhaustTest_view (x : Stock) (n id : Nat) (kept : ∀ k, view k.exhaust = view k) :
    ((x.exhaustTest n).pack? id).map view = (x.pack? id).map view := by
  refine x.pack?_modPack_view view n id _ (fun k => ?_) fun k => ?_
  · split <;> rfl
  · split
    · exact kept k
    · rfl

end

theorem Pack.takes_addRun (k : Pack) (e : ExceptionEntry) : (k.addRun e).takes = k.takes := by
  rw [Pack.addRun_fields]
  rfl

theorem Pack.id_addRun (k : Pack) (e : ExceptionEntry) : (k.addRun e).id = k.id := by rw [Pack.addRun_fields]

theorem Pack.exceptions_doubt (k : Pack) (e : InPathEntry) (fault : Option Nat) :
    (k.addRun (doubtRun e fault)).exceptions = k.exceptions ++ [doubtRun e fault] := by
  unfold Pack.addRun
  rw [k.merges_doubtful (doubtRun e fault) rfl]
  rfl

theorem takes_issueBlank (s : State) (p : Fin 6) (e : InPathEntry) (id : Nat) :
    ((s.issueBlank p e).pack? id).map Pack.takes = (s.pack? id).map Pack.takes := by
  rw [State.pack?_stock]
  rcases stock_issueBlank s p e with stock | ⟨r, -, -, stock⟩ <;> rw [stock] <;>
    exact Stock.pack?_exhaustTest_view Pack.takes _ e.pack id fun _ => rfl

theorem takes_spoilBlank (s : State) (p : Fin 6) (e : InPathEntry) (fault id : Nat) :
    ((s.spoilBlank p e fault).pack? id).map Pack.takes = (s.pack? id).map Pack.takes := by
  rw [State.pack?_stock, stock_spoilBlank, Stock.pack?_exhaustTest_view Pack.takes _ _ _ fun _ => rfl]
  exact Stock.pack?_modPack_view Pack.takes (s.stock.drop p e) e.pack id _ (fun k => k.id_addRun _) fun k => k.takes_addRun _

theorem takes_makeDoubtful (s : State) (p : Fin 6) (e : InPathEntry) (id : Nat) :
    ((s.makeDoubtful p e).pack? id).map Pack.takes = (s.pack? id).map Pack.takes := by
  rw [State.pack?_stock, stock_makeDoubtful]
  unfold Stock.makeDoubtful
  rw [Stock.pack?_exhaustTest_view Pack.takes _ _ _ fun _ => rfl]
  exact Stock.pack?_modPack_view Pack.takes (s.stock.drop p e) e.pack id _ (fun k => k.id_addRun _) fun k => k.takes_addRun _

theorem exceptions_issueBlank (s : State) (p : Fin 6) (e : InPathEntry) : s.sameExceptions (s.issueBlank p e) := fun id => by
  rw [State.pack?_stock]
  rcases stock_issueBlank s p e with stock | ⟨r, -, -, stock⟩ <;> rw [stock] <;>
    exact Stock.pack?_exhaustTest_view Pack.exceptions _ e.pack id fun _ => rfl

/-- The exceptions a spoiled blank leaves (R12). -/
theorem exceptions_spoilBlank {s : State} {e : InPathEntry} {x : Pack} (found : s.pack? e.pack = some x) (p : Fin 6) (fault : Nat) :
    ((s.spoilBlank p e fault).pack? e.pack).map (·.exceptions) = some (x.addRun {
      first := e.serial
      run := 1
      disposition := .spoiled
      position := some e.position
      fault := some fault }).exceptions := by
  rw [State.pack?_stock, stock_spoilBlank, Stock.pack?_exhaustTest_view Pack.exceptions _ _ _ fun _ => rfl,
    Stock.pack?_modPack _ _ _ _ fun k => k.id_addRun _, show (s.stock.drop p e).pack? e.pack = some x from found, Option.map_some,
    if_pos (State.pack?_some found).2]
  rfl

/-- The exceptions a blank made DOUBTFUL leaves (R15). -/
theorem exceptions_makeDoubtful (s : State) (p : Fin 6) (e : InPathEntry) (id : Nat) :
    ((s.makeDoubtful p e).pack? id).map (·.exceptions) = (s.pack? id).map fun k => k.exceptions ++
      ([e].filter fun f => decide (f.pack = id)).map (doubtRun · (s.printer p).openFault) := by
  rw [State.pack?_stock, stock_makeDoubtful]
  unfold Stock.makeDoubtful
  rw [Stock.pack?_exhaustTest_view Pack.exceptions _ _ _ fun _ => rfl]
  show (((s.stock.drop p e).modPack e.pack (·.addRun (doubtRun e (s.printer p).openFault))).pack? id).map _ = _
  rw [Stock.pack?_modPack _ _ _ _ fun k => k.id_addRun _, Option.map_map, show (s.stock.drop p e).pack? id = s.pack? id from rfl]
  cases found : s.pack? id with
  | none => rfl
  | some k =>
    have same := (State.pack?_some found).2
    rw [Option.map_some, Option.map_some, Function.comp_apply, same]
    by_cases here : id = e.pack
    · have one : [e].filter (fun f => decide (f.pack = id)) = [e] := List.filter_cons_of_pos (decide_eq_true here.symm)
      rw [if_pos here, Pack.exceptions_doubt, one]
      rfl
    · have none : [e].filter (fun f => decide (f.pack = id)) = [] := List.filter_cons_of_neg (by simpa using Ne.symm here)
      rw [if_neg here, none]
      exact (congrArg some (List.append_nil _)).symm

theorem exceptions_makeDoubtful_foldl {p : Fin 6} (es : List InPathEntry) {s : State} (full : s.queueFull) (id : Nat) :
    ((es.foldl (fun s e => s.makeDoubtful p e) s).pack? id).map (·.exceptions) = (s.pack? id).map fun k => k.exceptions ++
      (es.filter fun f => decide (f.pack = id)).map (doubtRun · (s.printer p).openFault) := by
  induction es generalizing s with
  | nil => simp
  | cons e es ih =>
    have moves := moves_makeDoubtful full p e
    have first := exceptions_makeDoubtful s p e id
    rw [List.foldl_cons, ih (moves.full full), moves.openFault]
    cases found : s.pack? id with
    | none =>
      rw [found, Option.map_none, Option.map_eq_none_iff] at first
      rw [first]
      rfl
    | some k =>
      rw [found, Option.map_some, Option.map_eq_some_iff] at first
      obtain ⟨k', found', same⟩ := first
      rw [found', Option.map_some, Option.map_some, same, List.append_assoc, ← List.map_append, ← List.filter_append]
      rfl

/-! ### Blanks made DOUBTFUL -/

section
variable {s : State} (full : s.queueFull) (p : Fin 6)
include full

theorem jobsKept_dropEntry (e : InPathEntry) : s.jobsKept true (s.dropEntry p e) := jobsKept_modPath full p _

theorem reports_makeDoubtful (e : InPathEntry) : Reports e.tag (Job.doubted e.copy) s (s.makeDoubtful p e) := by
  have dropped := moves_dropEntry full p e
  have jobs := jobsKept_dropEntry full p e
  have added := State.addException_full (dropped.full full) e.pack (doubtRun e (s.printer p).openFault)
  have doubted := moves_doubtedBlank full p e
  refine reports_of (doubted.full full) ?_ (reporting_doubted e.copy) (p := p) rfl
  exact jobs.trans (jobsKept_of_pool (added .pool (by decide)))

omit full in
theorem path_makeDoubtful_same (e : InPathEntry) : (s.makeDoubtful p e).path p = withoutBlank e.pack e.serial (s.path p) :=
  (State.path_of_stock (stock_makeDoubtful s p e) p).trans (updAt_same _ p _)

end

/-! ### Blanks returned -/

section
variable {s : State} (full : s.queueFull) {p : Fin 6} {e : InPathEntry} {x : Pack}
include full

omit full in
theorem stillInPath_of_mem {s : State} {p : Fin 6} {e : InPathEntry} (here : e ∈ s.path p) : s.stillInPath p e = true :=
  List.any_eq_true.mpr ⟨e, here, decide_eq_true ⟨rfl, rfl⟩⟩

/-- The most recently taken blank of its pack, returned (R8). -/
theorem returnBlank_spec (here : e ∈ s.path p) (found : s.pack? e.pack = some x) (last : x.lastTaken = some e.serial) :
    (s.returnBlank p e).path p = withoutBlank e.pack e.serial (s.path p) ∧ (s.returnBlank p e).ret.doubtful = s.ret.doubtful ∧
      (s.returnBlank p e).pack? e.pack = some (x.putBack e.serial) ∧ s.sameExceptions (s.returnBlank p e) ∧
      Reports e.tag (Job.returned e.copy) s (s.returnBlank p e) := by
  have latest : ((s.pack? e.pack).any fun k => decide (k.lastTaken = some e.serial)) = true := by
    rw [found]
    exact decide_eq_true last
  have stock := stock_returnBlank_last s p e latest
  rw [if_pos (stillInPath_of_mem here)] at stock
  have whole : s.returnBlank p e = (s.restoredBlank p e).reportCopy p e.tag (Job.returned e.copy) := by
    unfold State.returnBlank
    rw [if_pos (stillInPath_of_mem here), if_pos latest]
    rfl
  have packs : ∀ id, (s.returnBlank p e).pack? id = (s.pack? id).map fun k => if k.id = e.pack then k.putBack e.serial else k := fun id => by
    rw [State.pack?_stock, stock]
    exact Stock.pack?_modPack (s.stock.drop p e) e.pack id (·.putBack e.serial) fun _ => rfl
  refine ⟨(State.path_of_stock stock p).trans (updAt_same _ p _), congrArg Stock.doubtful stock, ?_, fun id => ?_, ?_⟩
  · rw [packs, found, Option.map_some, if_pos (State.pack?_some found).2]
  · rw [packs, Option.map_map]
    congr 1
    funext k
    simp only [Function.comp_apply]
    split <;> rfl
  · have restored := moves_restoredBlank full p e
    have dropped := moves_dropEntry full p e
    have checked : s.jobsKept true (s.restoredBlank p e) := by
      have jobs := (jobsKept_dropEntry full p e).trans
        (jobsKept_of_pool (t := (s.dropEntry p e).modPack e.pack (·.putBack e.serial)) rfl)
      have put := (dropped.trans (moves_modPack _ p e.pack (·.putBack e.serial))).full full
      unfold State.restoredBlank
      generalize (s.dropEntry p e).modPack e.pack (·.putBack e.serial) = a at jobs put
      refine jobs.trans (jobsKept_of_pool ?_)
      unfold State.lowStockOf
      split
      · rfl
      · exact a.lowStockCheck_full _ put .pool (by decide)
    exact reports_of (restored.full full) checked (reporting_returned e.copy) (p := p) (by rw [whole])

omit full in
/-- A blank that is not the most recently taken one of its pack is made DOUBTFUL with every later one (R8). -/
theorem returnBlank_doubts (here : e ∈ s.path p) (found : s.pack? e.pack = some x) (last : x.lastTaken ≠ some e.serial) :
    s.returnBlank p e = (fromEntry (s.path p) e).foldl (fun s x => s.makeDoubtful p x) s := by
  unfold State.returnBlank
  rw [if_pos (stillInPath_of_mem here), if_neg]
  rw [found]
  exact fun same => last (of_decide_eq_true same)

omit full in
/-- A blank off the path is not returned again (R34). -/
theorem returnBlank_gone (gone : ∀ x ∈ s.path p, ¬ (x.pack = e.pack ∧ x.serial = e.serial)) : s.returnBlank p e = s := by
  unfold State.returnBlank
  rw [if_neg]
  intro here
  obtain ⟨x, inside, same⟩ := List.any_eq_true.mp here
  exact gone x inside (of_decide_eq_true same)

end

end Sys2Proof.Machine
end

