-- ==== Sys2Proof/Proofs/ReplyFrame.lean ====
section
/-! SUPPORT. The entries the port logs for an outcome (R33, R100, R101), and a reply to a PRINT or a POLL from its settlement to its
end, with what its statements frame. -/

namespace Sys2Proof.Machine

/-! ### Entries logged -/

/-- A transient entry as it is logged (R100). -/
def State.transientEntry (s : State) (p : Fin 6) (c : FaultCode) (o : Occasion) : FaultEntry :=
  { (blankEntry p .transient c).of (some o) with
    cleared := true
    cause := some .transient
    clearedAt := s.office.clock
    number := s.freshFaultNumber
    raisedAt := s.office.clock }

/-- An entry held, the OPEN one of a printer, which is FAULTED. -/
structure State.Stands (s : State) (p : Fin 6) (g : FaultEntry) : Prop where
  holds : s.Holds g
  named : (s.printer p).openFault = some g.number
  state : (s.printer p).state = .faulted

section
variable {s t : State} {p : Fin 6} {g : FaultEntry} {c : FaultCode}

theorem Upholds.stands (h : Upholds p g s t) (room : s.roomy p) (stands : s.Stands p g) : t.Stands p g :=
  ⟨(h.held room stands.holds).2, h.opened _ stands.named, h.faulted (by rw [stands.named]; rfl) stands.state⟩

/-- What a transient entry held shows. -/
theorem State.Holds.transient {w : State} {o : Occasion} {m : Option Nat}
    (h : t.Holds { w.transientEntry p c o with missingRun := m }) :
    ∃ f ∈ t.ret.faults, f.number = w.freshFaultNumber ∧ f.printer = p ∧ f.cls = .transient ∧ f.first.code = c ∧ f.cleared = true ∧
      f.cause = some .transient ∧ f.tag = some o.tag ∧ f.serial = some o.serial ∧ f.pack = some o.pack ∧
      f.position = some o.position ∧ f.missingRun = m := by
  obtain ⟨f, inside, number, tracks⟩ := h.entry
  refine ⟨f, inside, number, ?_, ?_, tracks.code, ?_, ?_, ?_, ?_, ?_, ?_, ?_⟩ <;> rw [tracks.same] <;> rfl

/-- What an opened entry held shows. -/
theorem State.Holds.opened {w : State} {o : Occasion} (h : t.Holds (w.openedEntry p c (some o))) :
    ∃ f ∈ t.ret.faults, f.number = w.freshFaultNumber ∧ f.printer = p ∧ f.cls = .standing ∧ f.first.code = c ∧ f.first.met = false ∧
      f.cleared = false ∧ f.tag = some o.tag ∧ f.serial = some o.serial ∧ f.pack = some o.pack ∧ f.position = some o.position := by
  obtain ⟨f, inside, number, tracks⟩ := h.entry
  refine ⟨f, inside, number, ?_, ?_, tracks.code, tracks.unmet, ?_, ?_, ?_, ?_, ?_⟩ <;> rw [tracks.same] <;> rfl

theorem roomy_of_few (few : s.ret.faults.length ≤ 62) (p : Fin 6) : s.roomy p := by
  unfold State.roomy
  split <;> omega

/-- A raise with no OPEN entry opens one (R93). -/
theorem raise_stands (c : FaultCode) (other : c ≠ .linkLost) (o : Option Occasion) (free : (s.printer p).openFault = none)
    (room : s.roomy p) : (s.raise p c o).Stands p (s.openedEntry p c o) ∧ (s.raise p c o).roomy p := by
  have log := raise_none_faults c o free
  obtain ⟨named, state⟩ := raise_none_record c o free
  have marks : ((blankEntry p .standing c).of o).first = freshCode c := by cases o <;> rfl
  have logged := holds_logged room.few ((blankEntry p .standing c).of o) (by rw [marks]; rfl) (by rw [marks]; rfl)
  rw [if_neg other] at state
  refine ⟨⟨holds_of_settled log logged, named, state⟩, ?_⟩
  have length := congrArg List.length log
  rw [List.length_map, List.length_map, faults_logEntry room.few, List.length_append, List.length_singleton] at length
  unfold State.roomy at room ⊢
  rw [if_pos free] at room
  rw [length, if_neg (by rw [named]; exact Option.some_ne_none _)]
  exact room

/-- What a transient raise leaves (R100). -/
theorem logTransient_spec (few : s.ret.faults.length < 64) (c : FaultCode) (o : Occasion) :
    (s.logTransient p c o).Holds (s.transientEntry p c o) ∧
      (s.logTransient p c o).ret.faults.length = s.ret.faults.length + 1 ∧
      ((s.logTransient p c o).printer p).openFault = (s.printer p).openFault ∧
      ((s.logTransient p c o).printer p).spoilCount = (s.printer p).spoilCount := by
  have logged := holds_logged few { (blankEntry p .transient c).of (some o) with
    cleared := true
    cause := some .transient
    clearedAt := s.office.clock } rfl rfl
  have faults := faults_logEntry few { (blankEntry p .transient c).of (some o) with
    cleared := true
    cause := some .transient
    clearedAt := s.office.clock }
  have record : ((s.logEntry { (blankEntry p .transient c).of (some o) with
      cleared := true
      cause := some .transient
      clearedAt := s.office.clock }).printer p).openFault = (s.printer p).openFault ∧
      ((s.logEntry { (blankEntry p .transient c).of (some o) with
        cleared := true
        cause := some .transient
        clearedAt := s.office.clock }).printer p).spoilCount = (s.printer p).spoilCount := by
    unfold State.logEntry State.countFault
    rw [show ((blankEntry p .transient c).of (some o)).printer = p from rfl, State.modPrinter_same]
    exact ⟨rfl, rfl⟩
  unfold State.logTransient
  generalize s.logEntry _ = a at logged faults record ⊢
  have served := serves_arbitrate a
  have printer := Printer.of_settled (served.printers p)
  have length := congrArg List.length served.faults
  rw [List.length_map, List.length_map, faults, List.length_append] at length
  refine ⟨holds_of_settled served.faults logged, length, ?_, ?_⟩
  · rw [printer]
    exact record.1
  · rw [printer]
    exact record.2

/-- The entry a printer's record names after a raise. -/
theorem raise_named (s : State) (p : Fin 6) (c : FaultCode) (o : Option Occasion) :
    ((s.raise p c o).printer p).openFault = some ((s.printer p).openFault.getD s.freshFaultNumber) := by
  cases named : (s.printer p).openFault with
  | none => exact (raise_none_record c o named).1
  | some m => exact (upholds_raise s p (blankEntry p .standing c) c o).opened m named

/-! ### The port's raises for a spoil (R33, R101) -/

theorem countConsecutive_upholds (s : State) (p : Fin 6) (g : FaultEntry) (e : InPathEntry) :
    Upholds p g s (s.countConsecutive p e) := by
  have counted := upholds_modPrinter s p g (fun x => { x with spoilCount := saturating 3 ((s.printer p).spoilCount + 1) }) rfl rfl
  unfold State.countConsecutive
  simp only
  split
  · exact counted.trans (upholds_raise _ p g _ _)
  · exact counted

/-- The third spoil in a row with no OPEN entry. -/
theorem countConsecutive_third (e : InPathEntry) (free : (s.printer p).openFault = none) (second : (s.printer p).spoilCount = 2)
    (room : s.roomy p) : ∃ w : State, (s.countConsecutive p e).Stands p (w.openedEntry p .repeatedSpoil (some e.occasion)) ∧
      (s.countConsecutive p e).roomy p ∧ ((s.countConsecutive p e).printer p).spoilCount = 3 := by
  have counted := upholds_modPrinter s p (blankEntry p .standing .doubt)
    (fun x => { x with spoilCount := saturating 3 ((s.printer p).spoilCount + 1) }) rfl rfl
  have record := s.modPrinter_same p (fun x => { x with spoilCount := saturating 3 ((s.printer p).spoilCount + 1) })
  have third : s.countConsecutive p e = (s.modPrinter p fun x => { x with
      spoilCount := saturating 3 ((s.printer p).spoilCount + 1) }).raise p .repeatedSpoil (some e.occasion) := by
    unfold State.countConsecutive
    rw [if_pos (by rw [second])]
  have room' : (s.modPrinter p fun x => { x with spoilCount := saturating 3 ((s.printer p).spoilCount + 1) }).roomy p := by
    unfold State.roomy at room ⊢
    rw [record]
    exact room
  rw [third]
  generalize (s.modPrinter p fun x => { x with spoilCount := saturating 3 ((s.printer p).spoilCount + 1) }) = a at record room'
  obtain ⟨stands, room''⟩ := raise_stands (s := a) (p := p) .repeatedSpoil (by decide) (some e.occasion) (by rw [record]; exact free) room'
  refine ⟨a, stands, room'', ?_⟩
  rw [spoil_raise, record]
  show saturating 3 ((s.printer p).spoilCount + 1) = 3
  rw [second]
  rfl

theorem countConsecutive_room (s : State) (p : Fin 6) (e : InPathEntry) (few : s.ret.faults.length ≤ 61) :
    (s.countConsecutive p e).roomy p := by
  have raised : ∀ a : State, a.ret.faults.length ≤ 61 → (a.raise p .repeatedSpoil (some e.occasion)).roomy p := fun a few => by
    cases free : (a.printer p).openFault with
    | none => exact (raise_stands .repeatedSpoil (by decide) _ free (roomy_of_few (by omega) p)).2
    | some n =>
      refine roomy_of_few ?_ p
      have length : (a.raise p .repeatedSpoil (some e.occasion)).ret.faults.length = a.ret.faults.length := by
        unfold State.raise
        rw [free]
        simp only
        split <;> exact List.length_map _
      omega
  unfold State.countConsecutive
  simp only
  split
  · exact raised _ few
  · exact roomy_of_few (by show s.ret.faults.length ≤ 62; omega) p

/-! ### From the settlement to the end -/

/-- What a settlement can change, with its raises. -/
structure Grows (p : Fin 6) (s t : State) : Prop where
  aside : Aside p s t
  parts : s.keepsBut t [.stockTypes, .packs, .doubtful, .inPath, .console, .windows, .faults, .nextFault, .printers, .pool]
  paths : othersKept s.ret.inPath t.ret.inPath p
  positions : s.positionsKeptButTallies t
  command : (t.printer p).nextCommand = (s.printer p).nextCommand

theorem Grows.trans {u : State} (h : Grows p s t) (k : Grows p t u) : Grows p s u :=
  ⟨h.aside.trans k.aside, h.parts.trans k.parts, h.paths.trans k.paths, h.positions.trans k.positions, k.command.trans h.command⟩

theorem Beside.grows {strict : Bool} (h : Beside p strict s t) : Grows p s t where
  aside := h.aside
  parts := h.parts.mono (by decide)
  paths := by
    rw [show t.ret.inPath = s.ret.inPath from h.parts .inPath (by decide)]
    exact othersKept_refl _ _
  positions := positionsKeptButTallies_of_keeps h.parts (by decide) (by decide)
  command := h.command

theorem Settles.grows (h : Settles p s t) : Grows p s t :=
  ⟨h.steady.aside, h.parts.mono (by decide), h.paths, h.positions, by rw [h.steady.printer]⟩

theorem Grows.full (h : Grows p s t) (full : s.queueFull) : t.queueFull := full.carry h.parts (by decide)

/-- The frame of a settled reply: positions apart from tally sets, the other paths, this one's with at most one blank more, and the parts
a reply never reaches. -/
def State.framed (s : State) (p : Fin 6) (rest : List InPathEntry) (t : State) : Prop :=
  s.positionsKeptButTallies t ∧ othersKept s.ret.inPath t.ret.inPath p ∧
    (t.path p = rest ∨ ∃ f, t.path p = rest ++ [f] ∧ f.command = (s.printer p).nextCommand) ∧
    s.keepsBut t [.stockTypes, .packs, .doubtful, .inPath, .console, .windows, .faults, .nextFault, .printers, .pool]

theorem Grows.framed {n : Byte} {r : PrinterReply} {strict : Bool} {u v : State} (h : Grows p s u) {rest : List InPathEntry}
    (path : u.path p = rest) (ending : Ending p n r strict v u t) : s.framed p rest t := by
  refine ⟨h.positions.trans (positionsKeptButTallies_of_keeps ending.parts (by decide) (by decide)), h.paths.trans ending.paths, ?_,
    h.parts.trans (ending.parts.mono (by decide))⟩
  rcases ending.path with ⟨same, -⟩ | ⟨f, more, number, -⟩
  · exact .inl (same.trans path)
  · exact .inr ⟨f, by rw [more, path], number.trans h.command⟩

/-- A reply that answers the PRINT or POLL outstanding and reports on a command of the window, with room in the log. -/
structure State.Replying (s : State) (p : Fin 6) (r : PrinterReply) (n ref : Byte) (kind : CommandKind) : Prop where
  full : s.queueFull
  quiet : s.othersQuiet p
  room : s.ret.faults.length ≤ 60
  waits : (s.printer p).outstanding = some (n, kind)
  kind : kind = .print ∨ kind = .poll
  answers : r.answers = n
  reference : (s.printer p).reference = some ref
  window : (r.outcomeOf - ref).toNat < (n - ref).toNat

/-- The slot freed. -/
def State.freed (s : State) (p : Fin 6) : State := s.modPrinter p fun x => { x with outstanding := none }

theorem beside_freed (s : State) (p : Fin 6) (strict : Bool) : Beside p strict s (s.freed p) := beside_modPrinter s p strict _ rfl

theorem freed_printer (s : State) (p : Fin 6) : (s.freed p).printer p = { s.printer p with outstanding := none } := s.modPrinter_same p _

section
variable {r : PrinterReply} {n ref : Byte} {kind : CommandKind} (h : s.Replying p r n ref kind)
include h

theorem State.Replying.not_clear : kind ≠ .clear := by rcases h.kind with same | same <;> rw [same] <;> decide

theorem State.Replying.older : 0 < commandAge n r.outcomeOf := reported_older h.window

/-- The reply runs from its settlement to its end. -/
theorem State.Replying.run {u : State} (strict : Bool) (settled : s.settledBy p n kind r = u) (grows : Grows p s u)
    (stays : strict = true → u.path p ≠ []) : ∃ t, exec (.printerReply p r) s = .next t ∧
      Ending p n r strict ((u.recorded p n r).concluded p kind r) u t := by
  have ran := exec_printerReply h.quiet h.waits (by rcases h.kind with same | same <;> rw [same] <;> decide) h.answers h.reference h.window
    (by rw [settled]; exact grows.aside) (by rw [settled]; exact grows.full h.full)
  rw [settled] at ran
  exact ⟨_, ran, ending_of (grows.full h.full) stays n kind r⟩

/-- The end of a settlement that made blanks DOUBTFUL, the first of them `a` (R32, R93, R94). -/
theorem State.Replying.doubted {w : State} {a : InPathEntry} {ds : List DoubtfulEntry}
    (settled : s.settledBy p n kind r = w.raiseDoubtSince p s.ret.doubtful.length) (grows : Grows p s w)
    (doubtful : w.ret.doubtful = s.ret.doubtful ++ doubtfulFrom p a :: ds) (log : w.ret.faults = s.ret.faults)
    (named : (w.printer p).openFault = (s.printer p).openFault) :
    ∃ t, exec (.printerReply p r) s = .next t ∧ t.ret.doubtful = w.ret.doubtful ∧ t.path p = w.path p ∧ t.ret.packs = w.ret.packs ∧
      w.jobsKept false t ∧ w.talliesKept t ∧ s.framed p (w.path p) t ∧ (t.printer p).openFault.isSome = true ∧
      ((s.printer p).openFault = none → (t.printer p).state = .faulted ∧ ∃ f ∈ t.ret.faults, (t.printer p).openFault = some f.number ∧
        f.printer = p ∧ f.cls = .standing ∧ f.first.code = .doubt ∧ f.first.met = false ∧ f.cleared = false ∧ f.tag = some a.tag ∧
        f.serial = some a.serial ∧ f.pack = some a.pack ∧ f.position = some a.position) := by
  have raise : w.raiseDoubtSince p s.ret.doubtful.length = w.raise p .doubt (some a.occasion) := by
    unfold State.raiseDoubtSince
    rw [doubtful, List.drop_left]
    rfl
  rw [raise] at settled
  have raised : Beside p false w (w.raise p .doubt (some a.occasion)) :=
    (aftermath_raise (grows.full h.full) .doubt (by decide) _).toBeside
  have opened := raise_opened w p .doubt (some a.occasion)
  have doubt : (w.raise p .doubt (some a.occasion)).hasDoubt p = true := by
    rw [State.hasDoubt_iff, show (w.raise p .doubt (some a.occasion)).ret.doubtful = w.ret.doubtful from raised.parts .doubtful (by decide),
      doubtful]
    exact ⟨doubtfulFrom p a, List.mem_append_right _ List.mem_cons_self, rfl⟩
  have room : w.roomy p := roomy_of_few (by rw [log]; have := h.room; omega) p
  have stands : (s.printer p).openFault = none → (w.raise p .doubt (some a.occasion)).Stands p (w.openedEntry p .doubt (some a.occasion)) ∧
      (w.raise p .doubt (some a.occasion)).roomy p := fun free => raise_stands .doubt (by decide) _ (named.trans free) room
  generalize w.raise p .doubt (some a.occasion) = u at *
  obtain ⟨t, ran, ending⟩ := h.run false settled (grows.trans raised.grows) nofun
  obtain ⟨some, path, packs, jobs⟩ := ending.doubt (raised.full (grows.full h.full)) h.not_clear doubt opened
  have quietly : w.talliesKept t :=
    raised.untallied.kept.trans (untallied_of_keeps ending.parts (by decide) (by decide) (by decide)).kept
  refine ⟨t, ran, (show t.ret.doubtful = u.ret.doubtful from ending.parts .doubtful (by decide)).trans (raised.parts .doubtful (by decide)),
    path.trans (raised.path p), packs.trans (raised.parts .packs (by decide)), raised.jobs.trans jobs, quietly,
    (grows.trans raised.grows).framed (raised.path p) ending, some, fun free => ?_⟩
  obtain ⟨stands, room⟩ := stands free
  obtain ⟨holds, named, state, -, -⟩ := ending.stands (by
    show FaultCode.doubt ∉ [FaultCode.coverOpen, .headHot, .sensorFail]
    decide) h.not_clear room stands.holds stands.named stands.state
  obtain ⟨f, inside, number, facts⟩ := holds.opened
  exact ⟨state, f, inside, by rw [named, number]; rfl, facts⟩

end

end

end Sys2Proof.Machine
end

