-- ==== Sys2Proof/Proofs/Verdicts.lean ====
section
/-! SUPPORT. What a reply says of each blank in path (R32, R34), and what the port logs and opens for a spoil (R33, R100, R101). -/

namespace Sys2Proof.Machine

/-! ### What a reply says of a blank -/

/-- The blank's outcome rode on a reply that was lost. -/
def replyLoses (r : PrinterReply) (n : Byte) (x : InPathEntry) : Bool :=
  decide (commandAge n r.outcomeOf < commandAge n x.command)

/-- The reply tells the blank's outcome. -/
def replyTells (r : PrinterReply) (n : Byte) (x : InPathEntry) : Bool :=
  decide (commandAge n x.command = commandAge n r.outcomeOf ∧ r.outcome ≠ .notFed)

/-- The blank is to be returned. -/
def replyReturns (r : PrinterReply) (n : Byte) (kind : CommandKind) (x : InPathEntry) : Bool :=
  decide (commandAge n x.command = commandAge n r.outcomeOf ∧ r.outcome = .notFed ∨
    0 < commandAge n x.command ∧ commandAge n x.command < commandAge n r.outcomeOf ∨
    commandAge n x.command = 0 ∧ kind = .print ∧ r.acceptance = .refused)

/-- All three together. -/
def replyVerdict (r : PrinterReply) (n : Byte) (kind : CommandKind) (x : InPathEntry) : Bool × Bool × Bool :=
  (replyLoses r n x, replyTells r n x, replyReturns r n kind x)

theorem settle_verdicts (path : List InPathEntry) (n : Byte) (kind : CommandKind) (r : PrinterReply) :
    settle path n kind r = ⟨path.filter (replyLoses r n), path.find? (replyTells r n), path.filter (replyReturns r n kind)⟩ := by
  unfold settle
  simp only [Settlement.mk.injEq]
  refine ⟨rfl, ?_, List.filter_congr fun x _ => ?_⟩
  · split
    next handed =>
      refine List.find?_congr fun x _ => ?_
      unfold replyTells
      rw [decide_eq_true_eq] at handed
      simp [handed]
    next kept =>
      rw [decide_eq_true_eq] at kept
      exact (List.find?_eq_none.mpr fun x _ told => kept (of_decide_eq_true told).2).symm
  · unfold replyReturns
    rw [Bool.eq_iff_iff]
    simp only [Bool.or_eq_true, Bool.and_eq_true, decide_eq_true_eq, Bool.not_eq_true', decide_eq_false_iff_not, not_not]
    tauto

section
variable {r : PrinterReply} {n : Byte} {kind : CommandKind} {x : InPathEntry}

theorem verdict_lost (lost : commandAge n r.outcomeOf < commandAge n x.command) : replyVerdict r n kind x = (true, false, false) := by
  unfold replyVerdict replyLoses replyTells replyReturns
  simp only [Prod.mk.injEq, decide_eq_true_eq, decide_eq_false_iff_not]
  refine ⟨lost, fun told => ?_, fun back => ?_⟩ <;> omega

theorem verdict_back (older : 0 < commandAge n r.outcomeOf)
    (back : commandAge n x.command = commandAge n r.outcomeOf ∧ r.outcome = .notFed ∨
      0 < commandAge n x.command ∧ commandAge n x.command < commandAge n r.outcomeOf ∨
      commandAge n x.command = 0 ∧ kind = .print ∧ r.acceptance = .refused) : replyVerdict r n kind x = (false, false, true) := by
  unfold replyVerdict replyLoses replyTells replyReturns
  simp only [Prod.mk.injEq, decide_eq_true_eq, decide_eq_false_iff_not]
  refine ⟨by omega, fun told => ?_, back⟩
  rcases back with ⟨-, notFed⟩ | ⟨-, younger⟩ | ⟨zero, -⟩
  · exact told.2 notFed
  · omega
  · omega

theorem verdict_told (older : 0 < commandAge n r.outcomeOf) (command : x.command = r.outcomeOf) (handed : r.outcome ≠ .notFed) :
    replyVerdict r n kind x = (false, true, false) := by
  unfold replyVerdict replyLoses replyTells replyReturns
  rw [command]
  simp only [Prod.mk.injEq, decide_eq_true_eq, decide_eq_false_iff_not]
  refine ⟨lt_irrefl _, ⟨trivial, handed⟩, ?_⟩
  rintro (⟨-, notFed⟩ | ⟨-, younger⟩ | ⟨zero, -⟩)
  · exact handed notFed
  · omega
  · omega

theorem verdict_stays (older : 0 < commandAge n r.outcomeOf) (zero : commandAge n x.command = 0)
    (kept : ¬ (kind = .print ∧ r.acceptance = .refused)) : replyVerdict r n kind x = (false, false, false) := by
  unfold replyVerdict replyLoses replyTells replyReturns
  simp only [Prod.mk.injEq, decide_eq_false_iff_not]
  refine ⟨by omega, by omega, ?_⟩
  rintro (⟨same, -⟩ | ⟨positive, -⟩ | ⟨-, refused⟩)
  · omega
  · omega
  · exact kept refused

theorem filter_one {α : Type} (f : α → Bool) (x : α) : [x].filter f = if f x then [x] else [] := by
  rw [List.filter_cons, List.filter_nil]

theorem filter_two {α : Type} (f : α → Bool) (x y : α) : [x, y].filter f = (if f x then [x] else []) ++ (if f y then [y] else []) := by
  rw [← filter_one f x, ← filter_one f y, ← List.filter_append]
  rfl

theorem find?_one {α : Type} (f : α → Bool) (x : α) : [x].find? f = if f x then some x else none := by
  rw [List.find?_cons, List.find?_nil]
  cases f x <;> rfl

theorem find?_two {α : Type} (f : α → Bool) (x y : α) : [x, y].find? f = if f x then some x else if f y then some y else none := by
  rw [List.find?_cons, find?_one]
  cases f x <;> rfl

/-- The settlement of one blank. -/
theorem settle_one {l t b : Bool} (h : replyVerdict r n kind x = (l, t, b)) : settle [x] n kind r =
    ⟨if l then [x] else [], if t then some x else none, if b then [x] else []⟩ := by
  unfold replyVerdict at h
  simp only [Prod.mk.injEq] at h
  obtain ⟨rfl, rfl, rfl⟩ := h
  rw [settle_verdicts, filter_one, filter_one, find?_one]

/-- The settlement of two blanks, from what it is of each. -/
theorem settle_two {y : InPathEntry} {l t b l' t' b' : Bool} (h : replyVerdict r n kind x = (l, t, b)) (k : replyVerdict r n kind y = (l', t', b')) :
    settle [x, y] n kind r = ⟨(if l then [x] else []) ++ (if l' then [y] else []),
      if t then some x else if t' then some y else none, (if b then [x] else []) ++ (if b' then [y] else [])⟩ := by
  unfold replyVerdict at h k
  simp only [Prod.mk.injEq] at h k
  obtain ⟨rfl, rfl, rfl⟩ := h
  obtain ⟨rfl, rfl, rfl⟩ := k
  rw [settle_verdicts, filter_two, filter_two, find?_two]

end

/-! ### What the port logs for a spoil -/

/-- A transient entry for a blank, as a reply leaves it (R100). -/
def State.shows (t : State) (p : Fin 6) (number : Nat) (e : InPathEntry) (c : FaultCode) (missing : Option Nat) : Prop :=
  ∃ f ∈ t.ret.faults, f.number = number ∧ f.printer = p ∧ f.cls = .transient ∧ f.first.code = c ∧ f.cleared = true ∧
    f.cause = some .transient ∧ f.tag = some e.tag ∧ f.serial = some e.serial ∧ f.pack = some e.pack ∧
    f.position = some e.position ∧ f.missingRun = missing

/-- A printer FAULTED by an entry opened for a blank, with nothing in path (R93). -/
def State.stoppedBy (t : State) (p : Fin 6) (e : InPathEntry) (c : FaultCode) : Prop :=
  (t.printer p).state = .faulted ∧ t.path p = [] ∧ ∃ f ∈ t.ret.faults, (t.printer p).openFault = some f.number ∧ f.printer = p ∧
    f.cls = .standing ∧ f.first.code = c ∧ f.first.met = false ∧ f.cleared = false ∧ f.tag = some e.tag ∧ f.serial = some e.serial ∧
    f.pack = some e.pack ∧ f.position = some e.position

section
variable {s u t w : State} {p : Fin 6} {n : Byte} {kind : CommandKind} {r : PrinterReply} {strict : Bool} {e : InPathEntry} {c : FaultCode}

theorem Ending.stopped (h : Ending p n r strict ((u.recorded p n r).concluded p kind r) u t) (stays : c.stays) (other : kind ≠ .clear)
    (room : u.roomy p) (stands : u.Stands p (w.openedEntry p c (some e.occasion))) (path : u.path p = []) :
    t.stoppedBy p e c ∧ (t.printer p).spoilCount = (u.printer p).spoilCount := by
  obtain ⟨holds, named, state, same, spoil⟩ := h.stands stays other room stands.holds stands.named stands.state
  obtain ⟨f, inside, number, facts⟩ := holds.opened
  exact ⟨⟨state, same.trans path, f, inside, by rw [named, number]; rfl, facts⟩, spoil⟩

theorem Ending.shown {m : Option Nat} (h : Ending p n r strict ((u.recorded p n r).concluded p kind r) u t) (stays : c.stays)
    (other : kind ≠ .clear) (room : u.roomy p) (holds : u.Holds { w.transientEntry p c e.occasion with missingRun := m }) :
    t.shows p w.freshFaultNumber e c m := (h.holds stays other room holds).transient

theorem length_raise (few : s.ret.faults.length < 64) (p : Fin 6) (c : FaultCode) (o : Option Occasion) :
    (s.raise p c o).ret.faults.length ≤ s.ret.faults.length + 1 := by
  cases free : (s.printer p).openFault with
  | none =>
    have length := congrArg List.length (raise_none_faults c o free)
    rw [List.length_map, List.length_map, faults_logEntry few, List.length_append, List.length_singleton] at length
    exact length.le
  | some m =>
    have length : (s.raise p c o).ret.faults.length = s.ret.faults.length := by
      unfold State.raise
      rw [free]
      simp only
      split <;> exact List.length_map _
    omega

/-- A feed or stripe fault and one more spoil in a row (R33, R100, R101). -/
theorem transientSpoil_spec (few : s.ret.faults.length ≤ 60) (p : Fin 6) (c : FaultCode) (e : InPathEntry) :
    ((s.logTransient p c e.occasion).countConsecutive p e).roomy p ∧
      ((s.logTransient p c e.occasion).countConsecutive p e).Holds (s.transientEntry p c e.occasion) ∧
      ((s.printer p).openFault = none → (s.printer p).spoilCount = 2 → ∃ v : State,
        ((s.logTransient p c e.occasion).countConsecutive p e).Stands p (v.openedEntry p .repeatedSpoil (some e.occasion)) ∧
        (((s.logTransient p c e.occasion).countConsecutive p e).printer p).spoilCount = 3) := by
  obtain ⟨holds, length, named, spoil⟩ := logTransient_spec (s := s) (p := p) (by omega) c e.occasion
  generalize s.logTransient p c e.occasion = a at holds length named spoil
  have room : a.roomy p := roomy_of_few (by omega) p
  refine ⟨countConsecutive_room a p e (by omega), ((countConsecutive_upholds a p _ e).held room holds).2, fun free second => ?_⟩
  obtain ⟨v, stands, -, third⟩ := countConsecutive_third e (named.trans free) (spoil.trans second) room
  exact ⟨v, stands, third⟩

/-- A jam or a cutter fault and one more spoil in a row (R33, R93, R101). -/
theorem standingSpoil_spec (few : s.ret.faults.length ≤ 60) (p : Fin 6) (c : FaultCode) (other : c ≠ .linkLost) (e : InPathEntry) :
    ((s.raise p c (some e.occasion)).countConsecutive p e).roomy p ∧
      ((s.raise p c (some e.occasion)).printer p).openFault.getD 0 = (s.printer p).openFault.getD s.freshFaultNumber ∧
      ((s.printer p).openFault = none →
        ((s.raise p c (some e.occasion)).countConsecutive p e).Stands p (s.openedEntry p c (some e.occasion))) := by
  have length := length_raise (by omega) p c (some e.occasion) (s := s)
  refine ⟨countConsecutive_room _ p e (by omega), by rw [raise_named]; rfl, fun free => ?_⟩
  obtain ⟨stands, room⟩ := raise_stands c other (some e.occasion) free (roomy_of_few (by omega) p)
  exact (countConsecutive_upholds _ p _ e).stands room stands

/-- What the port logs and opens for a spoil, and the number of the fault (R33). -/
theorem raiseOutcome_spoiled (few : s.ret.faults.length ≤ 60) (p : Fin 6) (cause : SpoilCause) (e : InPathEntry) :
    (s.raiseOutcome p (.spoiled cause) e).1.roomy p ∧
      (s.raiseOutcome p (.spoiled cause) e).2 = (if cause = .misfeed ∨ cause = .stripe then s.freshFaultNumber
        else (s.printer p).openFault.getD s.freshFaultNumber) ∧
      (cause = .misfeed → (s.raiseOutcome p (.spoiled cause) e).1.Holds (s.transientEntry p .misfeed e.occasion)) ∧
      (cause = .stripe → (s.raiseOutcome p (.spoiled cause) e).1.Holds (s.transientEntry p .stripe e.occasion)) ∧
      ((s.printer p).openFault = none →
        (cause = .jam → (s.raiseOutcome p (.spoiled cause) e).1.Stands p (s.openedEntry p .jam (some e.occasion))) ∧
        (cause = .cutter → (s.raiseOutcome p (.spoiled cause) e).1.Stands p (s.openedEntry p .cutter (some e.occasion))) ∧
        (cause = .misfeed ∨ cause = .stripe → (s.printer p).spoilCount = 2 → ∃ v : State,
          (s.raiseOutcome p (.spoiled cause) e).1.Stands p (v.openedEntry p .repeatedSpoil (some e.occasion)) ∧
          ((s.raiseOutcome p (.spoiled cause) e).1.printer p).spoilCount = 3)) := by
  cases cause with
  | misfeed =>
    obtain ⟨room, holds, third⟩ := transientSpoil_spec few p .misfeed e
    exact ⟨room, rfl, fun _ => holds, nofun, fun free => ⟨nofun, nofun, fun _ => third free⟩⟩
  | stripe =>
    obtain ⟨room, holds, third⟩ := transientSpoil_spec few p .stripe e
    exact ⟨room, rfl, nofun, fun _ => holds, fun free => ⟨nofun, nofun, fun _ => third free⟩⟩
  | jam =>
    obtain ⟨room, number, stands⟩ := standingSpoil_spec few p .jam (by decide) e
    exact ⟨room, number, nofun, nofun, fun free => ⟨fun _ => stands free, nofun, by rintro (h | h) <;> cases h⟩⟩
  | cutter =>
    obtain ⟨room, number, stands⟩ := standingSpoil_spec few p .cutter (by decide) e
    exact ⟨room, number, nofun, nofun, fun free => ⟨nofun, fun _ => stands free, by rintro (h | h) <;> cases h⟩⟩

end

end Sys2Proof.Machine
end

