-- ==== Sys2Proof/Proofs/OneBlank.lean ====
section
/-! O56: what becomes of one blank in path. -/

namespace Sys2Proof.Machine

/-- A blank in path alone, its pack and its job found, its copy in path. -/
structure State.Alone (s : State) (p : Fin 6) (e : InPathEntry) (x : Pack) (j : Job) : Prop where
  path : s.path p = [e]
  pack : s.pack? e.pack = some x
  job : s.job? e.tag = some j
  copy : j.copyStates[e.copy - 1]? = some .inPath

/-- What is framed and said of a blank made DOUBTFUL (R15, R32, R93). -/
def State.doubtedAlone (s : State) (p : Fin 6) (e : InPathEntry) (x : Pack) (j : Job) (t : State) : Prop :=
  t.ret.doubtful = s.ret.doubtful ++ [doubtfulFrom p e] ∧ t.path p = [] ∧
    (t.pack? e.pack).map (·.exceptions) = some (x.exceptions ++ [doubtRun e (s.printer p).openFault]) ∧
    (∃ k, t.job? e.tag = some k ∧ k.copyStates = j.copyStates.set (e.copy - 1) .doubtful) ∧ s.talliesKept t ∧
    (t.printer p).openFault.isSome = true ∧ ((s.printer p).openFault = none → t.stoppedBy p e .doubt) ∧ s.framed p [] t

section
variable {s : State} {p : Fin 6} {r : PrinterReply} {n ref : Byte} {kind : CommandKind} {e : InPathEntry} {x : Pack} {j : Job}
  (h : s.Replying p r n ref kind) (alone : s.Alone p e x j)

theorem State.Alone.freed (alone : s.Alone p e x j) : (s.freed p).Alone p e x j := ⟨alone.path, alone.pack, alone.job, alone.copy⟩

theorem State.Alone.anyInPath (alone : s.Alone p e x j) : j.anyInPath = true := by
  unfold Job.anyInPath
  rw [List.contains_iff_mem]
  exact List.mem_of_getElem? alone.copy

/-- The port's raises leave the blank alone in path, and its job as it was. -/
theorem State.Alone.beside {a : State} (alone : s.Alone p e x j) (b : Beside p true s a) : a.Alone p e x j := by
  obtain ⟨j', found, kept⟩ := b.jobs e.tag j alone.job
  have same := kept.inPath rfl alone.anyInPath
  subst same
  refine ⟨(b.path p).trans alone.path, ?_, found, alone.copy⟩
  have pack := alone.pack
  unfold State.pack? at pack ⊢
  rw [show a.ret.packs = s.ret.packs from b.parts .packs (by decide)]
  exact pack

theorem path_dropped (alone : s.Alone p e x j) : withoutBlank e.pack e.serial (s.path p) = [] := by
  rw [alone.path]
  exact withoutBlank_cons nofun

theorem fromEntry_one : fromEntry [e] e = [e] := by simp [fromEntry]

/-- The copy a report sets, where nothing is dispatched after it. -/
theorem Ending.copies {strict : Bool} {v u t : State} (ending : Ending p n r strict v u t) (left : u.path p = []) {k k' : Job}
    {tag : Nat} (was : u.job? tag = some k) (now : t.job? tag = some k') (empty : t.path p = []) : k'.copyStates = k.copyStates := by
  rcases ending.path with ⟨-, -, jobs, -⟩ | ⟨f, more, -⟩
  · obtain ⟨k'', found, kept⟩ := jobs tag k was
    rw [now, Option.some.injEq] at found
    rw [found]
    exact kept.copies
  · rw [more, left] at empty
    cases empty

include h alone

/-! ### DOUBTFUL (R15) -/

theorem alone_doubted (settled : s.settledBy p n kind r = ((s.freed p).makeDoubtful p e).raiseDoubtSince p s.ret.doubtful.length) :
    ∃ t, exec (.printerReply p r) s = .next t ∧ s.doubtedAlone p e x j t := by
  have freed := beside_freed s p true
  have full := freed.full h.full
  have moves := moves_makeDoubtful full p e
  have doubtful : ((s.freed p).makeDoubtful p e).ret.doubtful = s.ret.doubtful ++ [doubtfulFrom p e] :=
    congrArg Stock.doubtful (stock_makeDoubtful (s.freed p) p e)
  have path := path_makeDoubtful_same (s := s.freed p) p e
  rw [path_dropped alone.freed] at path
  have named : (((s.freed p).makeDoubtful p e).printer p).openFault = (s.printer p).openFault := by
    rw [moves.openFault, freed_printer]
  obtain ⟨t, ran, listed, gone, packs, jobs, quietly, framed, open', stands⟩ := h.doubted settled (freed.grows.trans moves.settles.grows)
    doubtful moves.faults named
  rw [path] at gone framed
  obtain ⟨k, found, kept, -⟩ := (reports_makeDoubtful full p e).job j alone.job
  obtain ⟨k', found', kept'⟩ := jobs e.tag k found
  refine ⟨t, ran, listed.trans doubtful, gone, ?_, ⟨k', found', kept'.copies.trans kept.copies⟩,
    (freed.untallied.kept.trans moves.untallied.kept).trans quietly, open', fun free => ⟨(stands free).1, gone, (stands free).2⟩, framed⟩
  have exceptions := exceptions_makeDoubtful (s.freed p) p e e.pack
  have one : [e].filter (fun f => decide (f.pack = e.pack)) = [e] := List.filter_cons_of_pos (decide_eq_true rfl)
  rw [show (s.freed p).pack? e.pack = some x from alone.pack, one, freed_printer] at exceptions
  unfold State.pack? at exceptions ⊢
  rw [packs]
  exact exceptions

theorem alone_lost (lost : commandAge n r.outcomeOf < commandAge n e.command) :
    ∃ t, exec (.printerReply p r) s = .next t ∧ s.doubtedAlone p e x j t := by
  refine alone_doubted h alone ?_
  unfold State.settledBy
  rw [alone.path, settle_one (verdict_lost lost)]
  rfl

/-! ### Returned (R8, R34) -/

theorem alone_back (back : commandAge n e.command = commandAge n r.outcomeOf ∧ r.outcome = .notFed ∨
    0 < commandAge n e.command ∧ commandAge n e.command < commandAge n r.outcomeOf ∨
    commandAge n e.command = 0 ∧ kind = .print ∧ r.acceptance = .refused) :
    (x.lastTaken = some e.serial →
      ∃ t k, exec (.printerReply p r) s = .next t ∧ s.framed p [] t ∧ t.ret.doubtful = s.ret.doubtful ∧ s.talliesKept t ∧
        (t.pack? e.pack).map (·.exceptions) = some x.exceptions ∧ t.job? e.tag = some k ∧
        (t.path p = [] → t.pack? e.pack = some { x with remaining := x.remaining + 1, next := some e.serial } ∧
          k.copyStates = j.copyStates.set (e.copy - 1) .undispatched) ∧
        (r.acceptance = .refused → t.path p = [])) ∧
    (x.lastTaken ≠ some e.serial → ∃ t, exec (.printerReply p r) s = .next t ∧ s.doubtedAlone p e x j t) := by
  have settled : s.settledBy p n kind r = ((s.freed p).returnBlank p e).raiseDoubtSince p s.ret.doubtful.length := by
    unfold State.settledBy
    rw [alone.path, settle_one (verdict_back h.older back)]
    rfl
  have freed := beside_freed s p true
  have full := freed.full h.full
  have here : e ∈ (s.freed p).path p := by rw [alone.freed.path]; exact List.mem_singleton_self e
  refine ⟨fun last => ?_, fun last => ?_⟩
  · have moves := moves_returnBlank full p e
    obtain ⟨path, doubtful, put, exceptions, reports⟩ := returnBlank_spec full here alone.freed.pack last
    have doubtful : ((s.freed p).returnBlank p e).ret.doubtful = s.ret.doubtful := doubtful
    rw [path_dropped alone.freed] at path
    rw [raiseDoubtSince_none p (congrArg List.length doubtful)] at settled
    generalize (s.freed p).returnBlank p e = u at *
    have grows := freed.grows.trans moves.settles.grows
    obtain ⟨t, ran, ending⟩ := h.run false settled grows nofun
    obtain ⟨k, found, kept, -⟩ := reports.job j alone.job
    obtain ⟨k', found', -⟩ := ending.jobs e.tag k found
    have quietly : s.talliesKept t := (freed.untallied.kept.trans moves.untallied.kept).trans
      (untallied_of_keeps ending.parts (by decide) (by decide) (by decide)).kept
    refine ⟨t, k', ran, grows.framed path ending, (show t.ret.doubtful = u.ret.doubtful from ending.parts .doubtful (by decide)).trans
      doubtful, quietly, ?_, found', fun empty => ⟨?_, (ending.copies path found found' empty).trans kept.copies⟩, fun refused => ?_⟩
    · rw [ending.exceptions, put]
      rfl
    · rcases ending.path with ⟨-, packs, -⟩ | ⟨f, more, -⟩
      · unfold State.pack? at put ⊢
        rw [packs]
        exact put
      · rw [more, path] at empty
        cases empty
    · rcases ending.path with ⟨same, -⟩ | ⟨f, -, -, -, taken, -⟩
      · exact same.trans path
      · rw [refused] at taken
        cases taken
  · rw [returnBlank_doubts here alone.freed.pack last, alone.freed.path, fromEntry_one] at settled
    exact alone_doubted h alone settled

/-! ### Still in path (R38) -/

theorem alone_stays (command : e.command = n) (kept : ¬ (kind = .print ∧ r.acceptance = .refused)) :
    ∃ t k, exec (.printerReply p r) s = .next t ∧ s.positionsKeptButTallies t ∧ s.talliesKept t ∧
      othersKept s.ret.inPath t.ret.inPath p ∧
      (t.path p = [e] ∨ ∃ f, t.path p = [e, f] ∧ f.command = (s.printer p).nextCommand) ∧
      (t.pack? e.pack).map (·.exceptions) = some x.exceptions ∧ t.job? e.tag = some k ∧
      k.copyStates[e.copy - 1]? = some .inPath ∧ k.serials = j.serials ∧ (t.path p = [e] → k = j ∧ t.ret.packs = s.ret.packs) ∧
      ((s.printer p).openFault = none → r.condition = .ready → 1 ≤ r.temperature → r.temperature ≤ 1022 →
        (t.printer p).openFault = none ∧ (t.printer p).counters = (s.printer p).counters ∧
          (t.printer p).spoilCount = (s.printer p).spoilCount ∧ t.ret.faults = s.ret.faults) ∧
      s.keepsBut t [.stockTypes, .packs, .inPath, .faults, .nextFault, .printers, .pool] := by
  have zero : commandAge n e.command = 0 := by rw [command, commandAge_self]
  have settled : s.settledBy p n kind r = s.freed p := by
    unfold State.settledBy
    rw [alone.path, settle_one (verdict_stays h.older zero kept)]
    exact raiseDoubtSince_none p rfl
  have freed := beside_freed s p true
  have alone' := alone.freed
  obtain ⟨t, ran, ending⟩ := h.run true settled freed.grows fun _ => by rw [alone'.path]; exact List.cons_ne_nil _ _
  obtain ⟨positions, paths, left, parts⟩ := freed.grows.framed alone'.path ending
  obtain ⟨k, found, onward⟩ := ending.jobs e.tag j alone'.job
  have inPath : k.copyStates[e.copy - 1]? = some .inPath := onward.copies _ _ alone.copy (by decide)
  refine ⟨t, k, ran, positions, freed.untallied.kept.trans (untallied_of_keeps ending.parts (by decide) (by decide) (by decide)).kept,
    paths, left, ?_, found, inPath, onward.serials, fun only => ?_, fun free ready low high => ?_, ?_⟩
  · rw [ending.exceptions, alone'.pack]
    rfl
  · rcases ending.path with ⟨-, packs, jobs, -⟩ | ⟨f, more, -⟩
    · obtain ⟨k', found', same⟩ := jobs e.tag j alone'.job
      rw [found, Option.some.injEq] at found'
      exact ⟨found'.trans (same.inPath rfl alone.anyInPath), packs⟩
    · rw [more, alone'.path] at only
      cases only
  · have recorded : ((s.freed p).recorded p n r).printer p =
        { (s.freed p).printer p with
          reference := some n
          sentSince := 0
          lastAcceptance := some r.acceptance
          senseA := some r.senseA
          senseB := if ((s.freed p).printer p).bins < 2 then ((s.freed p).printer p).senseB else some r.senseB
          timeoutCount := 0
          lastCondition := some r.condition } := State.modPrinter_same _ p _
    obtain ⟨closed, counters, spoil, log⟩ := concluded_clean (s := (s.freed p).recorded p n r) (p := p) (kind := kind) (r := r)
      ((beside_modPrinter (s.freed p) p true _ rfl).full (freed.full h.full)) h.not_clear (by rw [recorded, freed_printer]; exact free)
      ready low high (by
        show (s.freed p).path p ≠ []
        rw [alone'.path]
        exact List.cons_ne_nil _ _)
    have lasting := ending.chosen.lasting
    unfold Printer.lasting at lasting
    simp only [Prod.mk.injEq] at lasting
    obtain ⟨-, -, -, -, spoil', opened', counters'⟩ := lasting
    rw [recorded, freed_printer] at counters spoil
    exact ⟨opened'.trans closed, counters'.trans counters, spoil'.trans spoil,
      (show t.ret.faults = _ from ending.chosen.parts .faults (by decide)).trans log⟩
  · exact (freed.parts.mono (by decide)).trans (ending.parts.mono (by decide))

/-! ### SPOILED (R12, R33, R62) -/

theorem alone_spoiled (cause : SpoilCause) (command : e.command = r.outcomeOf) (outcome : r.outcome = .spoiled cause) :
    ∃ t k, exec (.printerReply p r) s = .next t ∧ s.framed p [] t ∧ t.ret.doubtful = s.ret.doubtful ∧
      (t.pack? e.pack).map (·.exceptions) = some (x.addRun {
        first := e.serial
        run := 1
        disposition := .spoiled
        position := some e.position
        fault := some (if cause = .misfeed ∨ cause = .stripe then s.freshFaultNumber
          else (s.printer p).openFault.getD s.freshFaultNumber) }).exceptions ∧
      s.spoilsOrDiscards t e x.stockType ∧
      t.job? e.tag = some k ∧ k.blanksSpoiled = j.blanksSpoiled + 1 ∧ k.spoilCount = min 3 (j.spoilCount + 1) ∧
      k.serials = j.serials ∧ (t.path p = [] → k.copyStates = j.copyStates.set (e.copy - 1) .undispatched) ∧
      (j.state ≠ .ended → j.stop = none → 2 ≤ j.spoilCount → .inPath ∉ j.copyStates.set (e.copy - 1) .undispatched →
        k.state = .ended ∧ k.outcome = some .incomplete ∧ k.reason = some .spoilLimit) ∧
      (cause = .misfeed → t.shows p s.freshFaultNumber e .misfeed none) ∧
      (cause = .stripe → t.shows p s.freshFaultNumber e .stripe none) ∧
      ((s.printer p).openFault = none →
        (cause = .jam → t.stoppedBy p e .jam) ∧ (cause = .cutter → t.stoppedBy p e .cutter) ∧
        ((cause = .misfeed ∨ cause = .stripe) → (s.printer p).spoilCount = 2 →
          (t.printer p).spoilCount = 3 ∧ t.stoppedBy p e .repeatedSpoil)) := by
  have freed := beside_freed s p true
  have full := freed.full h.full
  have raised := freed.trans (beside_raiseOutcome (p := p) (strict := true) full (.spoiled cause) e)
  obtain ⟨room, number, misfed, striped, stands⟩ := raiseOutcome_spoiled (s := s.freed p) h.room p cause e
  have settled : s.settledBy p n kind r = (((s.freed p).raiseOutcome p (.spoiled cause) e).1.spoilBlank p e
      ((s.freed p).raiseOutcome p (.spoiled cause) e).2).raiseDoubtSince p s.ret.doubtful.length := by
    unfold State.settledBy
    rw [alone.path, settle_one (verdict_told h.older command (by rw [outcome]; nofun)), outcome]
    rfl
  rw [freed_printer] at number stands
  rw [number] at settled
  generalize ((s.freed p).raiseOutcome p (.spoiled cause) e).1 = a at *
  have alone' := alone.beside raised
  have exceptions := exceptions_spoilBlank alone'.pack p (if cause = .misfeed ∨ cause = .stripe then (s.freed p).freshFaultNumber
    else (s.printer p).openFault.getD (s.freed p).freshFaultNumber)
  obtain ⟨settles, spoils, path, doubtful, reports⟩ := spoilBlank_spec (raised.full h.full) (p := p) alone'.pack
    (if cause = .misfeed ∨ cause = .stripe then (s.freed p).freshFaultNumber
    else (s.printer p).openFault.getD (s.freed p).freshFaultNumber)
  rw [path_dropped alone'] at path
  generalize a.spoilBlank p e _ = u at *
  have listed : u.ret.doubtful = s.ret.doubtful := doubtful.trans (raised.parts .doubtful (by decide))
  rw [raiseDoubtSince_none p (congrArg List.length listed)] at settled
  have grows := raised.grows.trans settles.grows
  obtain ⟨t, ran, ending⟩ := h.run false settled grows nofun
  have quietly : u.talliesKept t := (untallied_of_keeps ending.parts (by decide) (by decide) (by decide)).kept
  obtain ⟨k, found, kept, ends⟩ := reports.job j alone'.job
  obtain ⟨k', found', onward⟩ := ending.jobs e.tag k found
  have held : ∀ g, a.Holds g → u.roomy p ∧ u.Holds g := fun g => (settles.upholds g).held room
  have shown : ∀ c : FaultCode, c.stays → a.Holds ((s.freed p).transientEntry p c e.occasion) → t.shows p s.freshFaultNumber e c none :=
    fun c stays holds => ending.shown stays h.not_clear (held _ holds).1 (held _ holds).2
  have stopped : ∀ (c : FaultCode) (w : State), c.stays → a.Stands p (w.openedEntry p c (some e.occasion)) →
      t.stoppedBy p e c ∧ (t.printer p).spoilCount = (u.printer p).spoilCount := fun c w stays stands =>
    ending.stopped stays h.not_clear (held _ stands.holds).1 ((settles.upholds _).stands room stands) path
  refine ⟨t, k', ran, grows.framed path ending, (show t.ret.doubtful = u.ret.doubtful from ending.parts .doubtful (by decide)).trans
    listed, (ending.exceptions e.pack).trans exceptions, spoils.carry raised.untallied quietly, found', onward.blanks.trans kept.blanks,
    (onward.spoils.trans kept.spoils).trans (saturating_eq_min 3 _), onward.serials.trans kept.serials, fun empty =>
      (ending.copies path found found' empty).trans kept.copies, fun running going second none => ?_, fun same => ?_, fun same => ?_,
    fun free => ⟨fun same => ?_, fun same => ?_, fun same second => ?_⟩⟩
  · have stop : (Job.spoiled e.copy j).stop = some .spoilLimit := if_pos ⟨going, second⟩
    have must : (Job.spoiled e.copy j).mustEnd = true := by
      unfold Job.mustEnd
      rw [Bool.and_eq_true, Bool.and_eq_true, decide_eq_true_eq, stop]
      refine ⟨⟨running, ?_⟩, rfl⟩
      unfold Job.anyInPath
      rw [Bool.not_eq_true', ← Bool.not_eq_true, List.contains_iff_mem]
      exact none
    have verdict : (Job.spoiled e.copy j).verdict = (.incomplete, some .spoilLimit) := by
      unfold Job.verdict
      rw [stop]
      rfl
    obtain ⟨ended, incomplete, reason⟩ := ends alone.anyInPath must
    obtain ⟨ended', incomplete', reason'⟩ := onward.ended ended
    rw [verdict] at incomplete reason
    exact ⟨ended', incomplete'.trans incomplete, reason'.trans reason⟩
  · exact shown .misfeed (by unfold FaultCode.stays; decide) (misfed same)
  · exact shown .stripe (by unfold FaultCode.stays; decide) (striped same)
  · exact (stopped .jam _ (by unfold FaultCode.stays; decide) ((stands free).1 same)).1
  · exact (stopped .cutter _ (by unfold FaultCode.stays; decide) ((stands free).2.1 same)).1
  · obtain ⟨w, standing, third⟩ := (stands free).2.2 same second
    obtain ⟨stops, spoil⟩ := stopped .repeatedSpoil w (by unfold FaultCode.stays; decide) standing
    refine ⟨spoil.trans ?_, stops⟩
    rw [settles.steady.printer]
    exact third

end

end Sys2Proof.Machine
end

