-- ==== Sys2Proof/Proofs/BinEmpty.lean ====
section
/-! O56: a bin found empty (R14, R100). -/

namespace Sys2Proof.Machine

/-- The blanks of a pack that all stand in one path stand in no other. -/
theorem inPathOf_only {s : State} {p : Fin 6} {id : Nat} (all : s.inPathOf id = (s.path p).countP fun e => decide (e.pack = id)) :
    ∀ q, q ≠ p → ∀ b ∈ s.path q, b.pack ≠ id := by
  intro q apart b inside same
  obtain ⟨l, m, split⟩ := List.append_of_mem (mem_allPrinters p)
  have total : s.inPathOf id = (l.map fun p => (s.path p).countP fun e => decide (e.pack = id)).sum +
      (((s.path p).countP fun e => decide (e.pack = id)) + (m.map fun p => (s.path p).countP fun e => decide (e.pack = id)).sum) := by
    unfold State.inPathOf
    rw [split, List.map_append, List.sum_append, List.map_cons, List.sum_cons]
  have some : 0 < (s.path q).countP fun e => decide (e.pack = id) := List.countP_pos_iff.mpr ⟨b, inside, decide_eq_true same⟩
  have elsewhere : q ∈ l ∨ q ∈ m := by
    have here := mem_allPrinters q
    rw [split, List.mem_append, List.mem_cons] at here
    rcases here with inside | rfl | inside
    · exact .inl inside
    · exact absurd rfl apart
    · exact .inr inside
  have among : ∀ ps : List (Fin 6), q ∈ ps → 0 < (ps.map fun p => (s.path p).countP fun e => decide (e.pack = id)).sum := fun ps inside =>
    lt_of_lt_of_le some (List.single_le_sum (fun _ _ => Nat.zero_le _) _ (List.mem_map.mpr ⟨q, inside, rfl⟩))
  rcases elsewhere with inside | inside
  · have := among l inside
    omega
  · have := among m inside
    omega

theorem inPathOf_emptied {s t : State} {p : Fin 6} {id : Nat} (all : s.inPathOf id = (s.path p).countP fun e => decide (e.pack = id))
    (others : othersKept s.ret.inPath t.ret.inPath p) (empty : t.path p = []) : t.inPathOf id = 0 := by
  refine (Stock.inPathOf_eq_zero (x := t.stock)).mpr fun q b inside => ?_
  by_cases here : q = p
  · subst here
    have inside : b ∈ t.path q := inside
    rw [empty] at inside
    cases inside
  · have same : t.stock.inPath[q] = s.path q := others q here
    rw [same] at inside
    exact inPathOf_only all q here b inside

theorem Pack.exceptions_addRun_putBack (x : Pack) (serial : Nat) (e : ExceptionEntry) :
    ((x.putBack serial).addRun e).exceptions = (x.addRun e).exceptions := by
  have same : (x.putBack serial).merges e = x.merges e := rfl
  unfold Pack.addRun
  rw [same]
  split <;> rfl

/-- The rest of a pack moved into a MISSING run once its blanks are back, and the transient entry told its length (R14, R100). -/
def State.runDry (s : State) (id fault : Nat) : State :=
  (s.modFault fault fun y => { y with missingRun := (s.pack? id).map (·.remaining) }).runOut id .missing (some fault)

theorem binEmptied_eq (s : State) (p : Fin 6) (e : InPathEntry) (fault : Nat) :
    s.binEmptied p e fault = (s.returnAll p (fromEntry (s.path p) e)).runDry e.pack fault := rfl

section
variable {s : State} (full : s.queueFull) {p : Fin 6} {id : Nat} {x : Pack} (found : s.pack? id = some x) (idle : s.inPathOf id = 0)
  (left : x.remaining ≠ 0)
include full

theorem runDry_grows (p : Fin 6) (id fault : Nat) : Grows p s (s.runDry id fault) ∧ Untallied s (s.runDry id fault) ∧
    (s.runDry id fault).path p = s.path p ∧ (s.runDry id fault).ret.doubtful = s.ret.doubtful ∧ (s.runDry id fault).pool = s.pool := by
  have noted : Beside p true s (s.modFault fault fun y => { y with missingRun := (s.pack? id).map (·.remaining) }) :=
    (aftermath_modFault s p true fault _).toBeside
  have keeps := State.runOut_full (noted.full full) id .missing (some fault)
  have moves := moves_runOut (noted.full full) p id .missing (some fault)
  unfold State.runDry
  refine ⟨noted.grows.trans moves.settles.grows, noted.untallied.trans moves.untallied, ?_, ?_, ?_⟩
  · exact congrArg (fun y : Vector (List InPathEntry) 6 => y[p]) (keeps .inPath (by decide))
  · exact keeps .doubtful (by decide)
  · exact keeps .pool (by decide)

/-- A transient entry held learns the length of the run. -/
theorem runDry_holds {g : FaultEntry} (room : s.roomy p) (holds : s.Holds g) :
    (s.runDry id g.number).roomy p ∧ (s.runDry id g.number).Holds { g with missingRun := (s.pack? id).map (·.remaining) } := by
  have noted : (s.modFault g.number fun y => { y with missingRun := (s.pack? id).map (·.remaining) }).Holds
      { g with missingRun := (s.pack? id).map (·.remaining) } :=
    holds_modFault (g := g) g.number _ (fun _ => rfl) rfl (fun e tracks => by
      rw [if_pos (congrArg FaultEntry.number tracks.same :)]
      exact ⟨by rw [tracks.same], tracks.code, tracks.unmet, tracks.unconfirmed⟩) holds
  have room' : (s.modFault g.number fun y => { y with missingRun := (s.pack? id).map (·.remaining) }).roomy p := by
    unfold State.roomy at room ⊢
    rw [show (s.modFault g.number fun y => { y with missingRun := (s.pack? id).map (·.remaining) }).ret.faults.length =
      s.ret.faults.length from List.length_map _]
    exact room
  have full' : (s.modFault g.number fun y => { y with missingRun := (s.pack? id).map (·.remaining) }).queueFull := full
  unfold State.runDry
  exact ((moves_runOut full' p id .missing (some g.number)).settles.upholds _).held room' noted

omit full
include found idle left

theorem runDry_pack (fault : Nat) : (s.runDry id fault).pack? id = some { x with
    remaining := 0
    next := none
    condition := .exhausted
    location := .store
    exceptions := (x.addRun {
      first := x.next.getD 0
      run := x.remaining
      disposition := .missing
      position := none
      fault := some fault }).exceptions } := by
  have pack := pack?_runOut (s := s.modFault fault fun y => { y with missingRun := (s.pack? id).map (·.remaining) }) found idle .missing
    (some fault)
  have run : x.restRun .missing (some fault) = some {
      first := x.next.getD 0
      run := x.remaining
      disposition := .missing
      position := none
      fault := some fault } := if_neg left
  rw [run, Pack.ranOut_eq, Option.elim_some] at pack
  exact pack

omit left in
theorem runDry_spent (fault : Nat) : ∀ k ∈ (s.runDry id fault).ret.packs, k.id = id → k.condition ≠ .usable := fun k inside same => by
  have spent := under_runOut (s := s.modFault fault fun y => { y with missingRun := (s.pack? id).map (·.remaining) }) found idle .missing
    (some fault) k (List.mem_filter.mpr ⟨inside, decide_eq_true same⟩)
  rw [spent]
  decide

end

/-! ### One blank -/

section
variable {s : State} {p : Fin 6} {r : PrinterReply} {n ref : Byte} {kind : CommandKind} {e : InPathEntry} {x : Pack} {j : Job}

theorem alone_binEmpty (h : s.Replying p r n ref kind) (alone : s.Alone p e x j) (command : e.command = r.outcomeOf)
    (outcome : r.outcome = .binEmpty) (last : x.lastTaken = some e.serial) (only : s.inPathOf e.pack = 1) :
    ∃ t k, exec (.printerReply p r) s = .next t ∧ s.framed p [] t ∧ t.ret.doubtful = s.ret.doubtful ∧ s.talliesKept t ∧
      t.shows p s.freshFaultNumber e .binEmpty (some (x.remaining + 1)) ∧
      t.pack? e.pack = some { x with
        remaining := 0
        next := none
        condition := .exhausted
        location := .store
        exceptions := (x.addRun {
          first := e.serial
          run := x.remaining + 1
          disposition := .missing
          position := none
          fault := some s.freshFaultNumber }).exceptions } ∧
      t.job? e.tag = some k ∧ (t.path p = [] → k.copyStates = j.copyStates.set (e.copy - 1) .undispatched) := by
  have freed := beside_freed s p true
  have full := freed.full h.full
  have raised := freed.trans (aftermath_logTransient (p := p) (strict := true) full .binEmpty e.occasion).toBeside
  obtain ⟨holds, length, -, -⟩ := logTransient_spec (s := s.freed p) (p := p) (by have := h.room; show s.ret.faults.length < 64; omega)
    .binEmpty e.occasion
  have settled : s.settledBy p n kind r =
      (((s.freed p).logTransient p .binEmpty e.occasion).binEmptied p e s.freshFaultNumber).raiseDoubtSince p s.ret.doubtful.length := by
    unfold State.settledBy
    rw [alone.path, settle_one (verdict_told h.older command (by rw [outcome]; decide)), outcome]
    rfl
  rw [binEmptied_eq] at settled
  generalize (s.freed p).logTransient p .binEmpty e.occasion = a at *
  have room : a.roomy p := roomy_of_few (by have := h.room; have : (s.freed p).ret.faults.length = s.ret.faults.length := rfl; omega) p
  have alone' := alone.beside raised
  have here : e ∈ a.path p := by rw [alone'.path]; exact List.mem_singleton_self e
  have back : a.returnAll p (fromEntry (a.path p) e) = a.returnBlank p e := by rw [alone'.path, fromEntry_one]; rfl
  have moves := moves_returnBlank (raised.full h.full) p e
  obtain ⟨path, doubtful, put, -, reports⟩ := returnBlank_spec (raised.full h.full) here alone'.pack last
  rw [path_dropped alone'] at path
  rw [back] at settled
  generalize a.returnBlank p e = b at *
  obtain ⟨room', holds'⟩ := (moves.settles.upholds _).held room holds
  have full' := moves.full (raised.full h.full)
  have all : a.inPathOf e.pack = (a.path p).countP fun f => decide (f.pack = e.pack) := by
    have same : a.inPathOf e.pack = s.inPathOf e.pack := by
      unfold State.inPathOf
      exact congrArg List.sum (List.map_congr_left fun q _ => by rw [raised.path q])
    rw [same, only, alone'.path]
    simp
  have idle := inPathOf_emptied all moves.paths path
  obtain ⟨grows, untallied, path', doubtful', pool⟩ := runDry_grows full' p e.pack s.freshFaultNumber
  obtain ⟨room'', holds''⟩ := runDry_holds full' (id := e.pack) room' holds'
  have pack := runDry_pack put idle (Nat.succ_ne_zero _) s.freshFaultNumber
  rw [Pack.exceptions_addRun_putBack] at pack
  have spent := runDry_spent put idle s.freshFaultNumber
  rw [put] at holds''
  change (b.runDry e.pack s.freshFaultNumber).roomy p at room''
  change (b.runDry e.pack s.freshFaultNumber).Holds _ at holds''
  generalize b.runDry e.pack s.freshFaultNumber = u at *
  have listed : u.ret.doubtful = s.ret.doubtful := (doubtful'.trans doubtful).trans (raised.parts .doubtful (by decide))
  rw [raiseDoubtSince_none p (congrArg List.length listed)] at settled
  have whole := (raised.grows.trans moves.settles.grows).trans grows
  obtain ⟨t, ran, ending⟩ := h.run false settled whole nofun
  have left := path'.trans path
  obtain ⟨k, found, kept, -⟩ := reports.job j alone'.job
  have found : u.job? e.tag = some k := by
    unfold State.job? at found ⊢
    rw [pool]
    exact found
  obtain ⟨k', found', -⟩ := ending.jobs e.tag k found
  refine ⟨t, k', ran, whole.framed left ending, (show t.ret.doubtful = u.ret.doubtful from ending.parts .doubtful (by decide)).trans
    listed, ((raised.untallied.kept.trans moves.untallied.kept).trans untallied.kept).trans
      (untallied_of_keeps ending.parts (by decide) (by decide) (by decide)).kept, ?_, (ending.spent e.pack spent).trans pack, found',
    fun empty => (ending.copies left found found' empty).trans kept.copies⟩
  exact ending.shown (by unfold FaultCode.stays; decide) h.not_clear room'' holds''

end

end Sys2Proof.Machine
end

