-- ==== Sys2Proof/Proofs/TwoBlanks.lean ====
section
/-! O56: what becomes of two blanks in path. -/

namespace Sys2Proof.Machine

/-- Two blanks in path, their packs found, their copies in path. -/
structure State.Pair (s : State) (p : Fin 6) (a b : InPathEntry) (x y : Pack) : Prop where
  path : s.path p = [a, b]
  apart : ¬ (a.pack = b.pack ∧ a.serial = b.serial)
  older : s.pack? a.pack = some x
  newer : s.pack? b.pack = some y
  first : s.copyAt a = some .inPath
  second : s.copyAt b = some .inPath
  copies : a.tag = b.tag → a.copy - 1 ≠ b.copy - 1

/-- A blank returned, from the pack it left (R8). -/
def State.gotBack (t : State) (e : InPathEntry) (k : Pack) : Prop :=
  (t.pack? e.pack).map (fun z => (z.remaining, z.next)) = some (k.remaining + 1, some e.serial) ∧ t.copyAt e = some .undispatched

/-- Blanks made DOUBTFUL, the first of them `a`, and those left in path (R15, R32, R93). -/
def State.doubtedOf (s : State) (p : Fin 6) (a : InPathEntry) (es rest : List InPathEntry) (t : State) : Prop :=
  t.ret.doubtful = s.ret.doubtful ++ es.map (doubtfulFrom p) ∧ t.path p = rest ∧ s.framed p rest t ∧
    (∀ e ∈ es, t.copyAt e = some .doubtful ∧ (t.pack? e.pack).map (·.exceptions) = (s.pack? e.pack).map fun k =>
      k.exceptions ++ (es.filter fun f => decide (f.pack = e.pack)).map (doubtRun · (s.printer p).openFault)) ∧
    (t.printer p).openFault.isSome = true ∧
    ((s.printer p).openFault = none → (t.printer p).state = .faulted ∧ ∃ f ∈ t.ret.faults, (t.printer p).openFault = some f.number ∧
      f.printer = p ∧ f.cls = .standing ∧ f.first.code = .doubt ∧ f.cleared = false ∧ f.tag = some a.tag ∧
      f.serial = some a.serial ∧ f.pack = some a.pack ∧ f.position = some a.position)

section
variable {s : State} {p : Fin 6} {r : PrinterReply} {n ref : Byte} {kind : CommandKind} {a b : InPathEntry} {x y : Pack}

theorem pack?_of_packs {s t : State} (same : t.ret.packs = s.ret.packs) (id : Nat) : t.pack? id = s.pack? id := by
  unfold State.pack?
  rw [same]

theorem State.Pair.beside {u : State} (pair : s.Pair p a b x y) (k : Beside p true s u) : u.Pair p a b x y where
  path := (k.path p).trans pair.path
  apart := pair.apart
  older := (pack?_of_packs (k.parts .packs (by decide)) _).trans pair.older
  newer := (pack?_of_packs (k.parts .packs (by decide)) _).trans pair.newer
  first := k.jobs.copyAt pair.first
  second := k.jobs.copyAt pair.second
  copies := pair.copies

theorem State.Pair.freed (pair : s.Pair p a b x y) : (s.freed p).Pair p a b x y := pair.beside (beside_freed s p true)

theorem State.Pair.without_older (pair : s.Pair p a b x y) : withoutBlank a.pack a.serial (s.path p) = [b] := by
  rw [pair.path]
  exact withoutBlank_cons fun z inside => by
    rw [List.mem_singleton.mp inside]
    exact fun same => pair.apart ⟨same.1.symm, same.2.symm⟩

theorem State.Pair.without_newer (pair : s.Pair p a b x y) : withoutBlank b.pack b.serial (s.path p) = [a] := by
  have kept : withoutBlank b.pack b.serial [a, b] = a :: withoutBlank b.pack b.serial [b] :=
    List.filter_cons_of_pos (decide_eq_true pair.apart)
  rw [pair.path, kept]
  exact congrArg (a :: ·) (withoutBlank_cons nofun)

theorem State.Pair.fromOlder (pair : s.Pair p a b x y) (same : a.pack = b.pack) : fromEntry (s.path p) a = [a, b] := by
  rw [pair.path]
  simp [fromEntry, same]

/-- The copies after a report of the older blank's. -/
theorem State.Pair.report_older {t : State} {f : Job → Job} {c : CopyState} (pair : s.Pair p a b x y) (reports : Reports a.tag f s t)
    (sets : ∀ j, (f j).copyStates = j.copyStates.set (a.copy - 1) c) : t.copyAt a = some c ∧ t.copyAt b = some .inPath :=
  ⟨reports.copyAt pair.first sets, reports.copyAt_other pair.second sets pair.copies⟩

theorem takes_some {s t : State} {id : Nat} {k : Pack} (same : (t.pack? id).map Pack.takes = (s.pack? id).map Pack.takes)
    (found : s.pack? id = some k) : ∃ k', t.pack? id = some k' ∧ k'.remaining = k.remaining ∧ k'.lastTaken = k.lastTaken ∧
      k'.stockType = k.stockType := by
  rw [found, Option.map_some, Option.map_eq_some_iff] at same
  obtain ⟨k', found', takes⟩ := same
  unfold Pack.takes at takes
  simp only [Prod.mk.injEq] at takes
  exact ⟨k', found', takes.1, takes.2.2.1, takes.2.2.2⟩

/-- A port that has been refused dispatches nothing (R38). -/
theorem Ending.refused {strict : Bool} {v u t : State} (ending : Ending p n r strict v u t) (refused : r.acceptance = .refused) :
    t.path p = u.path p ∧ t.ret.packs = u.ret.packs ∧ u.jobsKept strict t := by
  rcases ending.path with ⟨path, packs, jobs, -⟩ | ⟨f, -, -, -, taken, -⟩
  · exact ⟨path, packs, jobs⟩
  · rw [refused] at taken
    cases taken

/-- The copy a report set undispatched, where nothing is dispatched after it. -/
theorem Ending.copyAt {strict : Bool} {v u t : State} (ending : Ending p n r strict v u t) {e : InPathEntry} {c : CopyState}
    (here : u.copyAt e = some c) (still : t.path p = u.path p) : t.copyAt e = some c := by
  rcases ending.path with ⟨-, -, jobs, -⟩ | ⟨f, more, -⟩
  · exact jobs.copyAt here
  · rw [more] at still
    exact absurd still.symm (by simp)

theorem Ending.quietly {strict : Bool} {v u t : State} (ending : Ending p n r strict v u t) : u.talliesKept t :=
  (untallied_of_keeps ending.parts (by decide) (by decide) (by decide)).kept

theorem Ending.doubtful {strict : Bool} {v u t : State} (ending : Ending p n r strict v u t) : t.ret.doubtful = u.ret.doubtful :=
  ending.parts .doubtful (by decide)

/-! ### The newer blank returned after the older is settled (R34) -/

/-- The newer blank is back in its pack. -/
theorem newer_back {w : State} (full : w.queueFull) (path : w.path p = [b]) (second : w.copyAt b = some .inPath)
    (pack : ∃ k, w.pack? b.pack = some k ∧ k.remaining = y.remaining ∧ k.lastTaken = y.lastTaken ∧ k.stockType = y.stockType)
    (last : y.lastTaken = some b.serial) (copies : a.tag = b.tag → a.copy - 1 ≠ b.copy - 1) :
    Moves p w (w.returnBlank p b) ∧ (w.returnBlank p b).path p = [] ∧ (w.returnBlank p b).ret.doubtful = w.ret.doubtful ∧
      w.sameExceptions (w.returnBlank p b) ∧ (w.returnBlank p b).gotBack b y ∧
      ∀ c, w.copyAt a = some c → (w.returnBlank p b).copyAt a = some c := by
  obtain ⟨k, found, remaining, latest, -⟩ := pack
  obtain ⟨left, doubtful, put, exceptions, reports⟩ := returnBlank_spec full (e := b) (by rw [path]; exact List.mem_singleton_self b) found
    (latest.trans last)
  refine ⟨moves_returnBlank full p b, ?_, doubtful, exceptions, ⟨?_, reports.copyAt second fun _ => rfl⟩, fun c here =>
    reports.copyAt_other here (fun _ => rfl) fun same => (copies same.symm).symm⟩
  · rw [left, path]
    exact withoutBlank_cons nofun
  · rw [put, ← remaining]
    rfl

end

section
variable {s : State} {p : Fin 6} {r : PrinterReply} {n ref : Byte} {kind : CommandKind} {a b : InPathEntry} {x y : Pack}
  (h : s.Replying p r n ref kind) (pair : s.Pair p a b x y)
include h pair

/-! ### SPOILED or DONE, the older (R11, R12) -/

/-- The older blank spoiled: the raises, and the blank. -/
theorem pair_spoiled (cause : SpoilCause) : ∃ u fault, Grows p s u ∧
    ((s.freed p).raiseOutcome p (.spoiled cause) a).1.spoilBlank p a ((s.freed p).raiseOutcome p (.spoiled cause) a).2 = u ∧
    u.path p = [b] ∧ u.ret.doubtful = s.ret.doubtful ∧ u.copyAt a = some .undispatched ∧ u.copyAt b = some .inPath ∧
    s.spoilsOrDiscards u a x.stockType ∧ (u.pack? b.pack).map Pack.takes = (s.pack? b.pack).map Pack.takes ∧
    fault = (if cause = .misfeed ∨ cause = .stripe then s.freshFaultNumber else (s.printer p).openFault.getD s.freshFaultNumber) ∧
    (u.pack? a.pack).map (·.exceptions) = some (x.addRun {
      first := a.serial
      run := 1
      disposition := .spoiled
      position := some a.position
      fault := some fault }).exceptions := by
  have freed := beside_freed s p true
  have full := freed.full h.full
  have raised := freed.trans (beside_raiseOutcome (p := p) (strict := true) full (.spoiled cause) a)
  obtain ⟨-, number, -⟩ := raiseOutcome_spoiled (s := s.freed p) h.room p cause a
  rw [freed_printer] at number
  generalize ((s.freed p).raiseOutcome p (.spoiled cause) a).2 = fault at *
  generalize ((s.freed p).raiseOutcome p (.spoiled cause) a).1 = w at *
  have pair' := pair.beside raised
  obtain ⟨settles, spoils, path, doubtful, reports⟩ := spoilBlank_spec (raised.full h.full) (p := p) pair'.older fault
  obtain ⟨first, second⟩ := pair'.report_older reports fun _ => rfl
  refine ⟨_, fault, raised.grows.trans settles.grows, rfl, path.trans pair'.without_older,
    doubtful.trans (raised.parts .doubtful (by decide)), first, second, spoils.carry raised.untallied fun _ => ⟨rfl, rfl⟩, ?_, number,
    exceptions_spoilBlank pair'.older p fault⟩
  rw [takes_spoilBlank, pack?_of_packs (raised.parts .packs (by decide))]

theorem pair_older_spoiled (cause : SpoilCause) (command : a.command = r.outcomeOf) (outcome : r.outcome = .spoiled cause)
    (zero : commandAge n b.command = 0) (kept : ¬ (kind = .print ∧ r.acceptance = .refused)) :
    ∃ t, exec (.printerReply p r) s = .next t ∧ s.framed p [b] t ∧ t.ret.doubtful = s.ret.doubtful ∧ t.copyAt b = some .inPath ∧
      (t.path p = [b] → t.copyAt a = some .undispatched) ∧ s.spoilsOrDiscards t a x.stockType ∧
      (t.pack? a.pack).map (·.exceptions) = some (x.addRun {
        first := a.serial
        run := 1
        disposition := .spoiled
        position := some a.position
        fault := some (if cause = .misfeed ∨ cause = .stripe then s.freshFaultNumber
          else (s.printer p).openFault.getD s.freshFaultNumber) }).exceptions := by
  obtain ⟨u, fault, grows, same, path, doubtful, first, second, spoils, -, rfl, exceptions⟩ := pair_spoiled h pair cause
  have settled : s.settledBy p n kind r = (((s.freed p).raiseOutcome p (.spoiled cause) a).1.spoilBlank p a
      ((s.freed p).raiseOutcome p (.spoiled cause) a).2).raiseDoubtSince p s.ret.doubtful.length := by
    unfold State.settledBy
    rw [pair.path, settle_two (verdict_told h.older command (by rw [outcome]; nofun)) (verdict_stays h.older zero kept), outcome]
    rfl
  rw [same, raiseDoubtSince_none p (congrArg List.length doubtful)] at settled
  obtain ⟨t, ran, ending⟩ := h.run false settled grows nofun
  exact ⟨t, ran, grows.framed path ending, ending.doubtful.trans doubtful, ending.jobs.copyAt second (by decide),
    fun still => ending.copyAt first (still.trans path.symm), spoils.carry (.refl s) ending.quietly,
    (ending.exceptions a.pack).trans exceptions⟩

/-- The newer blank, of a refused PRINT, is returned once the older is settled. -/
theorem pair_refused {u : State} {c : CopyState} (grows : Grows p s u) (path : u.path p = [b])
    (doubtful : u.ret.doubtful = s.ret.doubtful) (first : u.copyAt a = some c) (second : u.copyAt b = some .inPath)
    (takes : (u.pack? b.pack).map Pack.takes = (s.pack? b.pack).map Pack.takes) (last : y.lastTaken = some b.serial)
    (refused : r.acceptance = .refused)
    (settled : s.settledBy p n kind r = (u.returnBlank p b).raiseDoubtSince p s.ret.doubtful.length) :
    ∃ t, exec (.printerReply p r) s = .next t ∧ s.framed p [] t ∧ t.path p = [] ∧ t.ret.doubtful = s.ret.doubtful ∧
      t.copyAt a = some c ∧ u.talliesKept t ∧ t.gotBack b y := by
  obtain ⟨moves, left, listed, -, ⟨put, returned⟩, others⟩ := newer_back (y := y) (a := a) (grows.full h.full) path second
    (takes_some takes pair.newer) last pair.copies
  have listed := listed.trans doubtful
  have first := others c first
  generalize u.returnBlank p b = v at *
  rw [raiseDoubtSince_none p (congrArg List.length listed)] at settled
  have whole := grows.trans moves.settles.grows
  obtain ⟨t, ran, ending⟩ := h.run false settled whole nofun
  obtain ⟨still, packs, jobs⟩ := ending.refused refused
  exact ⟨t, ran, whole.framed left ending, still.trans left, ending.doubtful.trans listed, jobs.copyAt first,
    moves.untallied.kept.trans ending.quietly, by rw [pack?_of_packs packs]; exact put, jobs.copyAt returned⟩

theorem pair_older_told (command : a.command = r.outcomeOf) (zero : commandAge n b.command = 0)
    (refused : kind = .print ∧ r.acceptance = .refused) (last : y.lastTaken = some b.serial) :
    (r.outcome = .done → ∃ t, exec (.printerReply p r) s = .next t ∧ s.framed p [] t ∧ t.path p = [] ∧
      t.ret.doubtful = s.ret.doubtful ∧ t.copyAt a = some .issued ∧ s.creditsOrDiscards t a x.stockType ∧ t.gotBack b y) ∧
    (∀ cause, r.outcome = .spoiled cause → ∃ t, exec (.printerReply p r) s = .next t ∧ s.framed p [] t ∧ t.path p = [] ∧
      t.ret.doubtful = s.ret.doubtful ∧ t.copyAt a = some .undispatched ∧ s.spoilsOrDiscards t a x.stockType ∧ t.gotBack b y) := by
  have verdict := verdict_back (x := b) h.older (.inr (.inr ⟨zero, refused⟩))
  refine ⟨fun outcome => ?_, fun cause outcome => ?_⟩
  · have settled : s.settledBy p n kind r = ((((s.freed p).modPrinter p fun x => { x with spoilCount := 0 }).issueBlank p a).returnBlank
        p b).raiseDoubtSince p s.ret.doubtful.length := by
      unfold State.settledBy
      rw [pair.path, settle_two (verdict_told h.older command (by rw [outcome]; decide)) verdict, outcome]
      rfl
    have raised : Beside p true s ((s.freed p).modPrinter p fun x => { x with spoilCount := 0 }) :=
      (beside_freed s p true).trans (beside_modPrinter _ p true _ rfl)
    generalize ((s.freed p).modPrinter p fun x => { x with spoilCount := 0 }) = w at *
    have pair' := pair.beside raised
    obtain ⟨settles, credits, path, doubtful, reports⟩ := issueBlank_spec (raised.full h.full) (p := p) pair'.older
    obtain ⟨first, second⟩ := pair'.report_older reports fun _ => rfl
    have takes : ((w.issueBlank p a).pack? b.pack).map Pack.takes = (s.pack? b.pack).map Pack.takes := by
      rw [takes_issueBlank, pack?_of_packs (raised.parts .packs (by decide))]
    obtain ⟨t, ran, framed, left, listed, issued, quietly, returned⟩ := pair_refused h pair (raised.grows.trans settles.grows)
      (path.trans pair'.without_older) (doubtful.trans (raised.parts .doubtful (by decide))) first second takes last refused.2 settled
    exact ⟨t, ran, framed, left, listed, issued, credits.carry raised.untallied quietly, returned⟩
  · have settled : s.settledBy p n kind r = ((((s.freed p).raiseOutcome p (.spoiled cause) a).1.spoilBlank p a
        ((s.freed p).raiseOutcome p (.spoiled cause) a).2).returnBlank p b).raiseDoubtSince p s.ret.doubtful.length := by
      unfold State.settledBy
      rw [pair.path, settle_two (verdict_told h.older command (by rw [outcome]; nofun)) verdict, outcome]
      rfl
    obtain ⟨u, -, grows, same, path, doubtful, first, second, spoils, takes, -⟩ := pair_spoiled h pair cause
    rw [same] at settled
    obtain ⟨t, ran, framed, left, listed, undispatched, quietly, returned⟩ :=
      pair_refused h pair grows path doubtful first second takes last refused.2 settled
    exact ⟨t, ran, framed, left, listed, undispatched, spoils.carry (.refl s) quietly, returned⟩

end

end Sys2Proof.Machine
end

