-- ==== Sys2Proof/Proofs/OutcomesSettled.lean ====
section
/-! O56: two blanks returned, found missing or made DOUBTFUL, and the statement. -/

namespace Sys2Proof.Machine

section
variable {s : State} {p : Fin 6} {r : PrinterReply} {n ref : Byte} {kind : CommandKind} {a b : InPathEntry} {x y : Pack}

theorem withoutBlank_alone (e : InPathEntry) : withoutBlank e.pack e.serial [e] = [] := withoutBlank_cons nofun

/-- A settlement without an outcome told. -/
theorem applySettlement_untold (s : State) (p : Fin 6) (o : PrintOutcome) (lost back : List InPathEntry) :
    s.applySettlement p o ⟨lost, none, back⟩ =
      ((lost.foldl (fun s e => s.makeDoubtful p e) s).returnAll p back).raiseDoubtSince p s.ret.doubtful.length := rfl

/-- A settlement with one. -/
theorem applySettlement_told (s : State) (p : Fin 6) (o : PrintOutcome) (lost back : List InPathEntry) (e : InPathEntry) :
    s.applySettlement p o ⟨lost, some e, back⟩ =
      (((lost.foldl (fun s e => s.makeDoubtful p e) (s.raiseOutcome p o e).1).applyOutcome p o (s.raiseOutcome p o e).2 e).returnAll p
        back).raiseDoubtSince p s.ret.doubtful.length := rfl

theorem returnAll_nil (s : State) (p : Fin 6) : s.returnAll p [] = s := rfl

theorem returnAll_one (s : State) (p : Fin 6) (e : InPathEntry) : s.returnAll p [e] = s.returnBlank p e := rfl

/-! ### Both returned (R8, R14) -/

/-- Two blanks of one pack returned, newest first. -/
theorem State.Pair.both_back {w : State} (pair : w.Pair p a b x y) (full : w.queueFull) (same : a.pack = b.pack)
    (newest : x.lastTaken = some b.serial) (next : (x.putBack b.serial).lastTaken = some a.serial) :
    Moves p w (w.returnAll p [a, b]) ∧ (w.returnAll p [a, b]).path p = [] ∧ (w.returnAll p [a, b]).ret.doubtful = w.ret.doubtful ∧
      (w.returnAll p [a, b]).pack? a.pack = some ((x.putBack b.serial).putBack a.serial) ∧
      w.sameExceptions (w.returnAll p [a, b]) ∧ (w.returnAll p [a, b]).copyAt a = some .undispatched ∧
      (w.returnAll p [a, b]).copyAt b = some .undispatched := by
  have pack : w.pack? b.pack = some x := same ▸ pair.older
  have inside : a ∈ w.path p ∧ b ∈ w.path p := by
    rw [pair.path]
    exact ⟨List.mem_cons_self, List.mem_cons_of_mem _ (List.mem_singleton_self b)⟩
  have moves := moves_returnBlank full p b
  obtain ⟨path, doubtful, put, exceptions, reports⟩ := returnBlank_spec full inside.2 pack newest
  rw [pair.without_newer] at path
  have first : (w.returnBlank p b).copyAt a = some .inPath :=
    reports.copyAt_other pair.first (fun _ => rfl) fun tags => (pair.copies tags.symm).symm
  have second : (w.returnBlank p b).copyAt b = some .undispatched := reports.copyAt pair.second fun _ => rfl
  have whole : w.returnAll p [a, b] = (w.returnBlank p b).returnBlank p a := rfl
  rw [whole]
  generalize w.returnBlank p b = v at *
  have moves' := moves_returnBlank (moves.full full) p a
  obtain ⟨path', doubtful', put', exceptions', reports'⟩ := returnBlank_spec (moves.full full) (e := a)
    (by rw [path]; exact List.mem_singleton_self a) (by rw [same]; exact put) next
  rw [path, withoutBlank_alone] at path'
  exact ⟨moves.trans moves', path', doubtful'.trans doubtful, put', exceptions.trans exceptions', reports'.copyAt first fun _ => rfl,
    reports'.copyAt_other second (fun _ => rfl) pair.copies⟩

variable (h : s.Replying p r n ref kind) (pair : s.Pair p a b x y)
include h pair

theorem pair_back
    (older : commandAge n a.command = commandAge n r.outcomeOf ∧ r.outcome = .notFed ∨
      0 < commandAge n a.command ∧ commandAge n a.command < commandAge n r.outcomeOf ∨
      commandAge n a.command = 0 ∧ kind = .print ∧ r.acceptance = .refused)
    (newer : commandAge n b.command = commandAge n r.outcomeOf ∧ r.outcome = .notFed ∨
      0 < commandAge n b.command ∧ commandAge n b.command < commandAge n r.outcomeOf ∨
      commandAge n b.command = 0 ∧ kind = .print ∧ r.acceptance = .refused)
    (same : a.pack = b.pack) (newest : x.lastTaken = some b.serial) (next : (x.putBack b.serial).lastTaken = some a.serial) :
    ∃ t, exec (.printerReply p r) s = .next t ∧ s.framed p [] t ∧ t.ret.doubtful = s.ret.doubtful ∧ s.talliesKept t ∧
      (t.pack? a.pack).map (·.exceptions) = some x.exceptions ∧
      (t.path p = [] → t.pack? a.pack = some { x with remaining := x.remaining + 2, next := some a.serial } ∧
        t.copyAt a = some .undispatched ∧ t.copyAt b = some .undispatched) := by
  have settled : s.settledBy p n kind r = ((s.freed p).returnAll p [a, b]).raiseDoubtSince p s.ret.doubtful.length := by
    unfold State.settledBy
    rw [pair.path, settle_two (verdict_back h.older older) (verdict_back h.older newer)]
    rfl
  have freed := beside_freed s p true
  obtain ⟨moves, path, doubtful, put, exceptions, first, second⟩ := pair.freed.both_back (freed.full h.full) same newest next
  have doubtful : ((s.freed p).returnAll p [a, b]).ret.doubtful = s.ret.doubtful := doubtful
  rw [raiseDoubtSince_none p (congrArg List.length doubtful)] at settled
  generalize (s.freed p).returnAll p [a, b] = u at *
  have grows := freed.grows.trans moves.settles.grows
  obtain ⟨t, ran, ending⟩ := h.run false settled grows nofun
  refine ⟨t, ran, grows.framed path ending, ending.doubtful.trans doubtful,
    (freed.untallied.kept.trans moves.untallied.kept).trans ending.quietly, ?_, fun empty => ⟨?_, ending.copyAt first (empty.trans path.symm),
      ending.copyAt second (empty.trans path.symm)⟩⟩
  · rw [ending.exceptions, put]
    rfl
  · rcases ending.path with ⟨-, packs, -⟩ | ⟨f, more, -⟩
    · rw [pack?_of_packs packs]
      exact put
    · rw [more, path] at empty
      cases empty

theorem pair_binEmpty (command : a.command = r.outcomeOf) (outcome : r.outcome = .binEmpty)
    (kept : ¬ commandAge n r.outcomeOf < commandAge n b.command) (same : a.pack = b.pack) (newest : x.lastTaken = some b.serial)
    (next : (x.putBack b.serial).lastTaken = some a.serial) (both : s.inPathOf a.pack = 2) :
    ∃ t, exec (.printerReply p r) s = .next t ∧ s.framed p [] t ∧ t.ret.doubtful = s.ret.doubtful ∧ s.talliesKept t ∧
      t.shows p s.freshFaultNumber a .binEmpty (some (x.remaining + 2)) ∧
      t.pack? a.pack = some { x with
        remaining := 0
        next := none
        condition := .exhausted
        location := .store
        exceptions := (x.addRun {
          first := a.serial
          run := x.remaining + 2
          disposition := .missing
          position := none
          fault := some s.freshFaultNumber }).exceptions } ∧
      (t.path p = [] → t.copyAt a = some .undispatched ∧ t.copyAt b = some .undispatched) := by
  have freed := beside_freed s p true
  have full := freed.full h.full
  have raised := freed.trans (aftermath_logTransient (p := p) (strict := true) full .binEmpty a.occasion).toBeside
  obtain ⟨holds, length, -, -⟩ := logTransient_spec (s := s.freed p) (p := p) (by have := h.room; show s.ret.faults.length < 64; omega)
    .binEmpty a.occasion
  have verdict : replyVerdict r n kind b = (false, replyTells r n b, replyReturns r n kind b) := by
    unfold replyVerdict replyLoses
    rw [decide_eq_false kept]
  have settled : s.settledBy p n kind r =
      ((((s.freed p).logTransient p .binEmpty a.occasion).binEmptied p a s.freshFaultNumber).returnAll p
        (if replyReturns r n kind b then [b] else [])).raiseDoubtSince p s.ret.doubtful.length := by
    unfold State.settledBy
    rw [pair.path, settle_two (verdict_told h.older command (by rw [outcome]; decide)) verdict, outcome]
    rfl
  rw [binEmptied_eq] at settled
  generalize (s.freed p).logTransient p .binEmpty a.occasion = w at *
  have room : w.roomy p := roomy_of_few (by have := h.room; have : (s.freed p).ret.faults.length = s.ret.faults.length := rfl; omega) p
  have pair' := pair.beside raised
  obtain ⟨moves, path, doubtful, put, -, first, second⟩ := pair'.both_back (raised.full h.full) same newest next
  rw [pair'.fromOlder same] at settled
  generalize w.returnAll p [a, b] = v at *
  obtain ⟨room', holds'⟩ := (moves.settles.upholds _).held room holds
  have full' := moves.full (raised.full h.full)
  have all : w.inPathOf a.pack = (w.path p).countP fun f => decide (f.pack = a.pack) := by
    have counted : w.inPathOf a.pack = s.inPathOf a.pack := by
      unfold State.inPathOf
      exact congrArg List.sum (List.map_congr_left fun q _ => by rw [raised.path q])
    rw [counted, both, pair'.path]
    simp [same]
  have idle := inPathOf_emptied all moves.paths path
  obtain ⟨grows, untallied, path', doubtful', pool⟩ := runDry_grows full' p a.pack s.freshFaultNumber
  obtain ⟨room'', holds''⟩ := runDry_holds full' (id := a.pack) room' holds'
  have pack := runDry_pack put idle (Nat.succ_ne_zero _) s.freshFaultNumber
  rw [Pack.exceptions_addRun_putBack, Pack.exceptions_addRun_putBack] at pack
  have spent := runDry_spent put idle s.freshFaultNumber
  rw [put] at holds''
  change (v.runDry a.pack s.freshFaultNumber).roomy p at room''
  change (v.runDry a.pack s.freshFaultNumber).Holds _ at holds''
  have jobs : v.jobsKept true (v.runDry a.pack s.freshFaultNumber) := jobsKept_of_pool pool
  generalize v.runDry a.pack s.freshFaultNumber = u at *
  have left := path'.trans path
  have gone : u.returnAll p (if replyReturns r n kind b then [b] else []) = u := by
    split
    · exact returnBlank_gone (by rw [left]; nofun)
    · rfl
  have listed : u.ret.doubtful = s.ret.doubtful := (doubtful'.trans doubtful).trans (raised.parts .doubtful (by decide))
  rw [gone, raiseDoubtSince_none p (congrArg List.length listed)] at settled
  have whole := (raised.grows.trans moves.settles.grows).trans grows
  obtain ⟨t, ran, ending⟩ := h.run false settled whole nofun
  exact ⟨t, ran, whole.framed left ending, ending.doubtful.trans listed,
    ((raised.untallied.kept.trans moves.untallied.kept).trans untallied.kept).trans ending.quietly,
    ending.shown (by unfold FaultCode.stays; decide) h.not_clear room'' holds'', (ending.spent a.pack spent).trans pack,
    fun empty => ⟨ending.copyAt (jobs.copyAt first) (empty.trans left.symm), ending.copyAt (jobs.copyAt second) (empty.trans left.symm)⟩⟩

/-! ### DOUBTFUL (R15, R32) -/

omit pair in
/-- The end of a settlement that made `es` DOUBTFUL. -/
theorem doubtedOf_of {w : State} {es rest : List InPathEntry} (settled : s.settledBy p n kind r =
      w.raiseDoubtSince p s.ret.doubtful.length) (grows : Grows p s w)
    (doubtful : w.ret.doubtful = s.ret.doubtful ++ (a :: es).map (doubtfulFrom p)) (log : w.ret.faults = s.ret.faults)
    (named : (w.printer p).openFault = (s.printer p).openFault) (path : w.path p = rest)
    (copies : ∀ e ∈ a :: es, w.copyAt e = some .doubtful)
    (exceptions : ∀ e ∈ a :: es, (w.pack? e.pack).map (·.exceptions) = (s.pack? e.pack).map fun k =>
      k.exceptions ++ ((a :: es).filter fun f => decide (f.pack = e.pack)).map (doubtRun · (s.printer p).openFault)) :
    ∃ t, exec (.printerReply p r) s = .next t ∧ s.doubtedOf p a (a :: es) rest t ∧ w.talliesKept t ∧ t.ret.packs = w.ret.packs ∧
      w.jobsKept false t := by
  obtain ⟨t, ran, listed, gone, packs, jobs, quietly, framed, named', stands⟩ := h.doubted settled grows doubtful log named
  rw [path] at gone framed
  refine ⟨t, ran, ⟨listed.trans doubtful, gone, framed, fun e inside => ⟨jobs.copyAt (copies e inside), ?_⟩, named', fun free => ?_⟩,
    quietly, packs, jobs⟩
  · rw [pack?_of_packs packs]
    exact exceptions e inside
  · obtain ⟨state, f, inside, number, here, cls, code, -, cleared, facts⟩ := stands free
    exact ⟨state, f, inside, number, here, cls, code, cleared, facts⟩

/-- Both blanks made DOUBTFUL. -/
theorem pair_doubted (settled : s.settledBy p n kind r =
      (((s.freed p).makeDoubtful p a).makeDoubtful p b).raiseDoubtSince p s.ret.doubtful.length) :
    ∃ t, exec (.printerReply p r) s = .next t ∧ s.doubtedOf p a [a, b] [] t ∧ s.talliesKept t := by
  have freed := beside_freed s p true
  have full := freed.full h.full
  have moves := moves_makeDoubtful full p a
  have path := path_makeDoubtful_same (s := s.freed p) p a
  rw [pair.freed.without_older] at path
  obtain ⟨first, second⟩ := pair.freed.report_older (reports_makeDoubtful full p a) fun _ => rfl
  have doubtful := doubtful_makeDoubtful_foldl [a, b] (s.freed p) p
  have exceptions := exceptions_makeDoubtful_foldl (p := p) [a, b] full
  simp only [List.foldl_cons, List.foldl_nil] at doubtful exceptions
  generalize (s.freed p).makeDoubtful p a = v at *
  have moves' := moves_makeDoubtful (moves.full full) p b
  have reports := reports_makeDoubtful (moves.full full) p b
  have path' := path_makeDoubtful_same (s := v) p b
  rw [path, withoutBlank_alone] at path'
  generalize v.makeDoubtful p b = w at *
  have whole := moves.trans moves'
  rw [freed_printer] at exceptions
  obtain ⟨t, ran, doubted, quietly, -, -⟩ := doubtedOf_of h settled (freed.grows.trans whole.settles.grows) doubtful whole.faults
    (by rw [whole.openFault, freed_printer]) path' (fun e inside => by
      rcases List.mem_cons.mp inside with rfl | inside
      · exact reports.copyAt_other first (fun _ => rfl) fun tags => (pair.copies tags.symm).symm
      · rw [List.mem_singleton.mp inside]
        exact reports.copyAt second fun _ => rfl) fun e _ => exceptions e.pack
  exact ⟨t, ran, doubted, (freed.untallied.kept.trans whole.untallied.kept).trans quietly⟩

theorem pair_lost (older : commandAge n r.outcomeOf < commandAge n a.command) (newer : commandAge n r.outcomeOf < commandAge n b.command) :
    ∃ t, exec (.printerReply p r) s = .next t ∧ s.doubtedOf p a [a, b] [] t ∧ s.talliesKept t := by
  refine pair_doubted h pair ?_
  have split : settle (s.path p) n kind r = ⟨[a, b], none, []⟩ := by
    rw [pair.path, settle_two (verdict_lost older) (verdict_lost newer)]
    rfl
  unfold State.settledBy
  rw [split, applySettlement_untold, returnAll_nil, List.foldl_cons, List.foldl_cons, List.foldl_nil]
  rfl

theorem pair_caught
    (older : commandAge n a.command = commandAge n r.outcomeOf ∧ r.outcome = .notFed ∨
      0 < commandAge n a.command ∧ commandAge n a.command < commandAge n r.outcomeOf ∨
      commandAge n a.command = 0 ∧ kind = .print ∧ r.acceptance = .refused)
    (zero : commandAge n b.command = 0) (kept : ¬ (kind = .print ∧ r.acceptance = .refused)) (same : a.pack = b.pack)
    (last : x.lastTaken ≠ some a.serial) :
    ∃ t, exec (.printerReply p r) s = .next t ∧ s.doubtedOf p a [a, b] [] t ∧ s.talliesKept t := by
  have inside : a ∈ (s.freed p).path p := by
    rw [pair.freed.path]
    exact List.mem_cons_self
  have both := returnBlank_doubts inside pair.freed.older last
  rw [pair.freed.fromOlder same, List.foldl_cons, List.foldl_cons, List.foldl_nil] at both
  refine pair_doubted h pair ?_
  have split : settle (s.path p) n kind r = ⟨[], none, [a]⟩ := by
    rw [pair.path, settle_two (verdict_back h.older older) (verdict_stays h.older zero kept)]
    rfl
  have run : s.settledBy p n kind r = ((s.freed p).returnBlank p a).raiseDoubtSince p s.ret.doubtful.length := by
    unfold State.settledBy
    rw [split, applySettlement_untold, returnAll_one, List.foldl_nil]
    rfl
  rw [run, both]

/-- The older blank made DOUBTFUL, and what then is of the newer. -/
theorem pair_older_doubted : Moves p (s.freed p) ((s.freed p).makeDoubtful p a) ∧ ((s.freed p).makeDoubtful p a).path p = [b] ∧
    ((s.freed p).makeDoubtful p a).ret.doubtful = s.ret.doubtful ++ [doubtfulFrom p a] ∧
    ((s.freed p).makeDoubtful p a).copyAt a = some .doubtful ∧ ((s.freed p).makeDoubtful p a).copyAt b = some .inPath ∧
    (∃ k, ((s.freed p).makeDoubtful p a).pack? b.pack = some k ∧ k.remaining = y.remaining ∧ k.lastTaken = y.lastTaken ∧
      k.stockType = y.stockType) ∧
    ∀ id, (((s.freed p).makeDoubtful p a).pack? id).map (·.exceptions) = (s.pack? id).map fun k =>
      k.exceptions ++ ([a].filter fun f => decide (f.pack = id)).map (doubtRun · (s.printer p).openFault) := by
  have full := (beside_freed s p true).full h.full
  obtain ⟨first, second⟩ := pair.freed.report_older (reports_makeDoubtful full p a) fun _ => rfl
  have exceptions := exceptions_makeDoubtful (s.freed p) p a
  rw [freed_printer] at exceptions
  exact ⟨moves_makeDoubtful full p a, (path_makeDoubtful_same (s := s.freed p) p a).trans pair.freed.without_older,
    congrArg Stock.doubtful (stock_makeDoubtful (s.freed p) p a), first, second,
    takes_some (takes_makeDoubtful (s.freed p) p a b.pack) pair.freed.newer, exceptions⟩

theorem pair_lost_stays (older : commandAge n r.outcomeOf < commandAge n a.command) (zero : commandAge n b.command = 0)
    (kept : ¬ (kind = .print ∧ r.acceptance = .refused)) :
    ∃ t, exec (.printerReply p r) s = .next t ∧ s.doubtedOf p a [a] [b] t ∧ s.talliesKept t ∧ t.copyAt b = some .inPath := by
  have settled : s.settledBy p n kind r = ((s.freed p).makeDoubtful p a).raiseDoubtSince p s.ret.doubtful.length := by
    have split : settle (s.path p) n kind r = ⟨[a], none, []⟩ := by
      rw [pair.path, settle_two (verdict_lost older) (verdict_stays h.older zero kept)]
      rfl
    unfold State.settledBy
    rw [split, applySettlement_untold, returnAll_nil, List.foldl_cons, List.foldl_nil]
    rfl
  have freed := beside_freed s p true
  obtain ⟨moves, path, doubtful, first, second, -, exceptions⟩ := pair_older_doubted h pair
  generalize (s.freed p).makeDoubtful p a = w at *
  obtain ⟨t, ran, doubted, quietly, -, jobs⟩ := doubtedOf_of (es := []) h settled (freed.grows.trans moves.settles.grows) doubtful moves.faults
    (by rw [moves.openFault, freed_printer]) path (fun e inside => by rw [List.mem_singleton.mp inside]; exact first)
    fun e _ => exceptions e.pack
  exact ⟨t, ran, doubted, (freed.untallied.kept.trans moves.untallied.kept).trans quietly, jobs.copyAt second⟩

theorem pair_lost_back (older : commandAge n r.outcomeOf < commandAge n a.command)
    (newer : commandAge n b.command = commandAge n r.outcomeOf ∧ r.outcome = .notFed ∨
      0 < commandAge n b.command ∧ commandAge n b.command < commandAge n r.outcomeOf ∨
      commandAge n b.command = 0 ∧ kind = .print ∧ r.acceptance = .refused) (last : y.lastTaken = some b.serial) :
    ∃ t, exec (.printerReply p r) s = .next t ∧ s.doubtedOf p a [a] [] t ∧ s.talliesKept t ∧ t.gotBack b y := by
  have settled : s.settledBy p n kind r =
      (((s.freed p).makeDoubtful p a).returnBlank p b).raiseDoubtSince p s.ret.doubtful.length := by
    have split : settle (s.path p) n kind r = ⟨[a], none, [b]⟩ := by
      rw [pair.path, settle_two (verdict_lost older) (verdict_back h.older newer)]
      rfl
    unfold State.settledBy
    rw [split, applySettlement_untold, returnAll_one, List.foldl_cons, List.foldl_nil]
    rfl
  have freed := beside_freed s p true
  obtain ⟨moves, path, doubtful, first, second, pack, exceptions⟩ := pair_older_doubted h pair
  generalize (s.freed p).makeDoubtful p a = v at *
  obtain ⟨moves', left, listed, still, ⟨put, returned⟩, others⟩ := newer_back (a := a) (moves.full (freed.full h.full)) path second pack
    last pair.copies
  have first := others _ first
  generalize v.returnBlank p b = w at *
  have whole := moves.trans moves'
  obtain ⟨t, ran, doubted, quietly, packs, jobs⟩ := doubtedOf_of (es := []) h settled (freed.grows.trans whole.settles.grows)
    (listed.trans doubtful) whole.faults (by rw [whole.openFault, freed_printer]) left
    (fun e inside => by rw [List.mem_singleton.mp inside]; exact first) fun e _ => (still e.pack).trans (exceptions e.pack)
  exact ⟨t, ran, doubted, (freed.untallied.kept.trans whole.untallied.kept).trans quietly,
    by rw [pack?_of_packs packs]; exact put, jobs.copyAt returned⟩

theorem pair_lost_done (older : commandAge n r.outcomeOf < commandAge n a.command) (command : b.command = r.outcomeOf)
    (outcome : r.outcome = .done) :
    ∃ t, exec (.printerReply p r) s = .next t ∧ s.doubtedOf p a [a] [] t ∧ t.copyAt b = some .issued ∧
      s.creditsOrDiscards t b y.stockType := by
  have settled : s.settledBy p n kind r = ((((s.freed p).modPrinter p fun x => { x with spoilCount := 0 }).makeDoubtful p a).issueBlank
      p b).raiseDoubtSince p s.ret.doubtful.length := by
    have split : settle (s.path p) n kind r = ⟨[a], some b, []⟩ := by
      rw [pair.path, settle_two (verdict_lost older) (verdict_told h.older command (by rw [outcome]; decide))]
      rfl
    unfold State.settledBy
    rw [split, outcome, applySettlement_told, returnAll_nil, List.foldl_cons, List.foldl_nil]
    rfl
  have raised : Beside p true s ((s.freed p).modPrinter p fun x => { x with spoilCount := 0 }) :=
    (beside_freed s p true).trans (beside_modPrinter _ p true _ rfl)
  have named : (((s.freed p).modPrinter p fun x => { x with spoilCount := 0 }).printer p).openFault = (s.printer p).openFault := by
    rw [State.modPrinter_same, freed_printer]
  have log : ((s.freed p).modPrinter p fun x => { x with spoilCount := 0 }).ret.faults = s.ret.faults := rfl
  generalize ((s.freed p).modPrinter p fun x => { x with spoilCount := 0 }) = u at *
  have pair' := pair.beside raised
  have full := raised.full h.full
  have moves := moves_makeDoubtful full p a
  have path := (path_makeDoubtful_same (s := u) p a).trans pair'.without_older
  have doubtful : (u.makeDoubtful p a).ret.doubtful = s.ret.doubtful ++ [doubtfulFrom p a] := by
    rw [← show u.ret.doubtful = s.ret.doubtful from raised.parts .doubtful (by decide)]
    exact congrArg Stock.doubtful (stock_makeDoubtful u p a)
  obtain ⟨first, second⟩ := pair'.report_older (reports_makeDoubtful full p a) fun _ => rfl
  obtain ⟨k, found, -, -, type⟩ := takes_some (takes_makeDoubtful u p a b.pack) pair'.newer
  have exceptions := exceptions_makeDoubtful u p a
  rw [named] at exceptions
  generalize u.makeDoubtful p a = v at *
  obtain ⟨settles, credits, path', doubtful', reports⟩ := issueBlank_spec (moves.full full) (p := p) found
  have still := exceptions_issueBlank v p b
  rw [path, withoutBlank_alone] at path'
  rw [type] at credits
  generalize v.issueBlank p b = w at *
  have faults : w.ret.faults = s.ret.faults := ((settles.parts .faults (by decide) : w.ret.faults = _).trans moves.faults).trans log
  obtain ⟨t, ran, doubted, quietly, -, jobs⟩ := doubtedOf_of (es := []) h settled ((raised.grows.trans moves.settles.grows).trans settles.grows)
    (doubtful'.trans doubtful) faults (by rw [settles.steady.printer]; exact moves.openFault.trans named) path'
    (fun e inside => by
      rw [List.mem_singleton.mp inside]
      exact reports.copyAt_other first (fun _ => rfl) fun tags => (pair.copies tags.symm).symm)
    fun e _ => (still e.pack).trans ((exceptions e.pack).trans (by
      rw [pack?_of_packs (show u.ret.packs = s.ret.packs from raised.parts .packs (by decide))]))
  exact ⟨t, ran, doubted, jobs.copyAt (reports.copyAt second fun _ => rfl), credits.carry (raised.untallied.trans moves.untallied) quietly⟩

end

end Sys2Proof.Machine
end

