-- ==== Sys2Proof/Proofs/OutcomesAssembled.lean ====
section
/-! O56: the statement, clause by clause. -/

open Sys2Proof Sys2Proof.Machine

/-- Settles O56: one blank by what the reply says of it, then two, each by what it says of both. -/
theorem outcomesSettleTheBlankInPath : Obligations.OutcomesSettleTheBlankInPath := by
  refine ⟨?one, ?two⟩
  case one =>
    intro s p r n ref kind e x j full quiet room waits kinds answers reference window path pack job copy fresh opened copies exceptions
      run transient standing framed doubted
    have h : s.Replying p r n ref kind := ⟨full, quiet, room, waits, kinds, answers, reference, window⟩
    have alone : s.Alone p e x j := ⟨path, pack, job, copy⟩
    refine ⟨fun cause command outcome => alone_spoiled h alone cause command outcome,
      fun command outcome last only => alone_binEmpty h alone command outcome last only, fun back => alone_back h alone ?_,
      fun lost => alone_lost h alone lost, fun command kept => alone_stays h alone command kept⟩
    rcases back with ⟨command, notFed⟩ | ⟨command, refused⟩ | ⟨other, younger⟩
    · exact .inl ⟨by rw [command], notFed⟩
    · exact .inr (.inr ⟨commandAge_eq_zero.mpr command, refused⟩)
    · exact .inr (.inl ⟨Nat.pos_of_ne_zero fun zero => other (commandAge_eq_zero.mp zero), younger⟩)
  case two =>
    intro s p r n ref kind a b x y i j full quiet room waits kinds answers reference window path apart older newer jobA jobB copyA copyB
      distinct fresh opened run age reported refused lost back stays inOnePack copy framed returned doubted
    have h : s.Replying p r n ref kind := ⟨full, quiet, room, waits, kinds, answers, reference, window⟩
    have pair : s.Pair p a b x y := ⟨path, apart, older, newer, State.copyAt_iff.mpr ⟨i, jobA, copyA⟩, State.copyAt_iff.mpr ⟨j, jobB, copyB⟩,
      distinct⟩
    have told : ∀ t e k, t.gotBack e k → returned t e k := fun t e k got => ⟨got.1, State.copyAt_iff.mp got.2⟩
    have made : ∀ t es rest, s.doubtedOf p a es rest t → doubted t es rest := fun t es rest got => by
      obtain ⟨listed, left, frame, each, named, stands⟩ := got
      exact ⟨listed, left, frame, fun e inside => ⟨State.copyAt_iff.mp (each e inside).1, (each e inside).2⟩, named, stands⟩
    refine ⟨fun cause command outcome stay => ?_, fun command zero refuse last => ⟨fun outcome => ?_, fun cause outcome => ?_⟩,
      fun first second one => ?_, fun command outcome kept one both => ?_, fun first stay same last => ?_, fun first second => ?_,
      fun first stay => ?_, fun first second last => ?_, fun first command outcome => ?_⟩
    · obtain ⟨t, ran, frame, listed, second, first, spoils, list⟩ := pair_older_spoiled h pair cause command outcome stay.1 stay.2
      exact ⟨t, ran, frame, listed, State.copyAt_iff.mp second, fun still => State.copyAt_iff.mp (first still), spoils, list⟩
    · obtain ⟨t, ran, frame, left, listed, first, credits, got⟩ := (pair_older_told h pair command zero refuse last).1 outcome
      exact ⟨t, ran, frame, left, listed, State.copyAt_iff.mp first, credits, told t b y got⟩
    · obtain ⟨t, ran, frame, left, listed, first, spoils, got⟩ := (pair_older_told h pair command zero refuse last).2 cause outcome
      exact ⟨t, ran, frame, left, listed, State.copyAt_iff.mp first, spoils, told t b y got⟩
    · obtain ⟨t, ran, frame, listed, tallies, list, still⟩ := pair_back h pair first second one.1 one.2.1 one.2.2
      exact ⟨t, ran, frame, listed, tallies, list, fun empty =>
        ⟨(still empty).1, State.copyAt_iff.mp (still empty).2.1, State.copyAt_iff.mp (still empty).2.2⟩⟩
    · obtain ⟨t, ran, frame, listed, tallies, ⟨f, inside, number, -, cls, code, -, -, -, serial, -, -, missing⟩, pack, still⟩ :=
        pair_binEmpty h pair command outcome kept one.1 one.2.1 one.2.2 both
      exact ⟨t, ran, frame, listed, tallies, ⟨f, inside, number, cls, code, serial, missing⟩, pack, fun empty =>
        ⟨State.copyAt_iff.mp (still empty).1, State.copyAt_iff.mp (still empty).2⟩⟩
    · obtain ⟨t, ran, doubt, tallies⟩ := pair_caught h pair first stay.1 stay.2 same last
      exact ⟨t, ran, made t _ _ doubt, tallies⟩
    · obtain ⟨t, ran, doubt, tallies⟩ := pair_lost h pair first second
      exact ⟨t, ran, made t _ _ doubt, tallies⟩
    · obtain ⟨t, ran, doubt, tallies, second⟩ := pair_lost_stays h pair first stay.1 stay.2
      exact ⟨t, ran, made t _ _ doubt, tallies, State.copyAt_iff.mp second⟩
    · obtain ⟨t, ran, doubt, tallies, got⟩ := pair_lost_back h pair first second last
      exact ⟨t, ran, made t _ _ doubt, tallies, told t b y got⟩
    · obtain ⟨t, ran, doubt, issued, credits⟩ := pair_lost_done h pair first command outcome
      exact ⟨t, ran, made t _ _ doubt, State.copyAt_iff.mp issued, credits⟩
end
